-- ==== Sys2Proof/Word.lean ====
section
/-!
DEFINITION. The widths the spec gives its data: bytes, 32-bit register words, and the encodings of binary64 values
(spec/20_memory.md R81, spec/10_state.md R31). Addresses and sizes are unbounded naturals (spec/00_scope.md R9).
-/

namespace Sys2Proof

/-- A byte of LMEM, `u8` (R81). -/
abbrev Byte := BitVec 8

/-- A 32-bit register of the CSR window, and the command word (R31, R120). -/
abbrev Word := BitVec 32

/-- The 64-bit encoding of a binary64 value, `f64` (R12, R81). -/
abbrev F64 := BitVec 64

/-- `ceil8(x)`, the number of 8-sample blocks that cover `x` samples (R9). -/
def ceil8 (x : Nat) : Nat := (x + 7) / 8

end Sys2Proof
end

