-- ==== Sys2Proof/Syntax.lean ====
section
/-!
DEFINITION. The fourteen commands of the opcode map (spec/30_encoding.md R121). A command carries no operand fields:
every operand comes from a register of the CSR window (R123).
-/

namespace Sys2Proof

/-- One constructor per row of spec/opcode_table.json. -/
inductive Instr where
  /-- `NOP`, spec/45_control.md R350. -/
  | nop
  /-- `CSC_FWD`, spec/40_color.md R151. -/
  | cscFwd
  /-- `CSC_INV`, spec/40_color.md R152. -/
  | cscInv
  /-- `AQ`, spec/41_adaptive_quantizer.md R180. -/
  | aq
  /-- `FDCT`, spec/42_dct.md R236. -/
  | fdct
  /-- `IDCT`, spec/42_dct.md R237. -/
  | idct
  /-- `QUANT`, spec/43_block_codec.md R262. -/
  | quant
  /-- `DEQUANT`, spec/43_block_codec.md R264. -/
  | dequant
  /-- `BLK_EXTRACT`, spec/43_block_codec.md R266. -/
  | blkExtract
  /-- `BLK_INSERT`, spec/43_block_codec.md R268. -/
  | blkInsert
  /-- `ENCODE`, spec/43_block_codec.md R280. -/
  | encode
  /-- `PD_INIT`, spec/44_progressive_decoder.md R300. -/
  | pdInit
  /-- `PD_STEP`, spec/44_progressive_decoder.md R310. -/
  | pdStep
  /-- `PD_RESET`, spec/44_progressive_decoder.md R321. -/
  | pdReset
  deriving DecidableEq, Repr

end Sys2Proof
end

