-- ==== Sys2Proof/WellFormed.lean ====
section
/-!
DEFINITION. Which terms are well formed. A command has no operand fields (spec/30_encoding.md R123), so every
`Instr` is; a 32-bit command word is when its reserved field is zero and its opcode is in the map (R121, R122).
-/

namespace Sys2Proof

/-- Every command is well formed: there is no field an encoding could not hold (R123). -/
def Instr.WellFormed (_ : Instr) : Bool := true

/-- The opcode values of the map of R121. -/
def assignedOpcodes : List Nat :=
  [0x00, 0x01, 0x02, 0x08, 0x10, 0x11, 0x12, 0x13, 0x14, 0x15, 0x16, 0x20, 0x21, 0x22]

/-- `word[31:8]` is zero (R120). -/
def reservedClear (w : Word) : Bool := w.toNat / 256 == 0

/-- `word[7:0]` is in the map (R121). -/
def opcodeAssigned (w : Word) : Bool := assignedOpcodes.contains (w.toNat % 256)

/-- A legal command word, the opposite of R122's illegal one. -/
def legalWord (w : Word) : Bool := reservedClear w && opcodeAssigned w

end Sys2Proof
end

