-- ==== Sys2Proof/Decode.lean ====
section
/-!
DEFINITION. The decoder of the 32-bit command word and its encoder (spec/30_encoding.md R120 to R122).
-/

namespace Sys2Proof

/-- Why a command word is illegal (R122). Performing either completes with `E_BADOP`. -/
inductive DecodeError where
  /-- `word[31:8]` is not zero. -/
  | reservedNonzero
  /-- `word[7:0]` is not in the opcode map. -/
  | unassignedOpcode
  deriving DecidableEq, Repr

/-- `OPC`, bits 7:0 (R120). -/
def opcField (w : Word) : BitVec 8 := w.extractLsb' 0 8

/-- `RSV`, bits 31:8 (R120). -/
def rsvField (w : Word) : BitVec 24 := w.extractLsb' 8 24

/-- The opcode map of R121, read from the opcode. -/
def decodeOpcode (opc : BitVec 8) : Except DecodeError Instr :=
  match opc.toNat with
  | 0x00 => .ok .nop
  | 0x01 => .ok .cscFwd
  | 0x02 => .ok .cscInv
  | 0x08 => .ok .aq
  | 0x10 => .ok .fdct
  | 0x11 => .ok .idct
  | 0x12 => .ok .quant
  | 0x13 => .ok .dequant
  | 0x14 => .ok .blkExtract
  | 0x15 => .ok .blkInsert
  | 0x16 => .ok .encode
  | 0x20 => .ok .pdInit
  | 0x21 => .ok .pdStep
  | 0x22 => .ok .pdReset
  | _ => .error .unassignedOpcode

/-- A word selects a command exactly when its reserved field is zero and its opcode is in the map (R121, R122). -/
def decode (w : Word) : Except DecodeError Instr :=
  if rsvField w = 0 then decodeOpcode (opcField w) else .error .reservedNonzero

/-- The opcode of each command, the map of R121 read from the mnemonic. -/
def opcodeOf : Instr → BitVec 8
  | .nop => 0x00
  | .cscFwd => 0x01
  | .cscInv => 0x02
  | .aq => 0x08
  | .fdct => 0x10
  | .idct => 0x11
  | .quant => 0x12
  | .dequant => 0x13
  | .blkExtract => 0x14
  | .blkInsert => 0x15
  | .encode => 0x16
  | .pdInit => 0x20
  | .pdStep => 0x21
  | .pdReset => 0x22

/-- The command word of a command: `OPC` in bits 7:0, zero above (R120). -/
def encode (i : Instr) : Word := (0 : BitVec 24) ++ opcodeOf i

/-- The command word whose low `nbits` bits are those of `w` and whose other bits are zero. -/
def tableWord (nbits w : Nat) : Word := BitVec.ofNat 32 (w % 2 ^ nbits)

/-- The instruction the decoder reads from a row of spec/opcode_table.json whose bits are `w`, bit 0 the least
significant; the one format is one 32-bit word (R120). -/
def decodeTableWord (nbits w : Nat) : Option Instr :=
  if nbits ≤ 32 then (decode (tableWord nbits w)).toOption else none

end Sys2Proof
end

