-- ==== Sys2Proof/Config.lean ====
section
/-!
DEFINITION. What an implementation fixes, and the free values. The size of LMEM, the one open parameter of the spec
(spec/00_scope.md R6), is a field of the state that no step changes (`State.lmemExp`), so that a claim about every
state is a claim about every size.
-/

namespace Sys2Proof

/-- The value of the `ID` register (spec/10_state.md R32). -/
def Config.idWord : Word := 0x05760001

/--
A FREE VALUE: the byte that draw number `draw` gives LMEM address `addr`. Nothing constrains it, so a claim holds for
every choice. It stands for an LMEM byte at power-on and for a byte that an abandoned command left indeterminate
(spec/70_reset_and_hazards.md R401, R402; spec/93_implementation_defined.md I5, I6). DESIGN CHOICE, safe: log entry 1.
-/
opaque Config.freeByte (draw addr : Nat) : Byte

end Sys2Proof
end

