-- ==== Sys2Proof/Machine/State.lean ====
section
/-!
DEFINITION. The state of the block, and what stands around it: spec/10_state.md R30 to R57, spec/20_memory.md R80,
reset values of spec/70_reset_and_hazards.md R400.
-/

namespace Sys2Proof.Machine

/-- The decoder's delivery modes (spec/44_progressive_decoder.md R302). -/
inductive Mode where
  /-- `BASELINE`, mode number 0. -/
  | baseline
  /-- `SPECTRAL_SELECTION`, mode number 1. -/
  | spectral
  /-- `SUCCESSIVE_BIT`, mode number 2. -/
  | successive
  deriving DecidableEq, Repr

/-- The error codes of spec/60_exceptions.md R360, 1 to 13 in the spec's order. -/
inductive ErrCode where
  /-- 1, the command word is illegal. -/
  | badOp
  /-- 2, `AQ` with `BITS` outside 1..8. -/
  | bits
  /-- 3, a quantization level over 15. -/
  | qLevel
  /-- 4, `PD_INIT` with the reserved mode 3. -/
  | mode
  /-- 5, `AQ` with no samples. -/
  | count
  /-- 6, a zero stride, or a stride that would misalign binary64 samples. -/
  | stride
  /-- 7, a block outside the image's grid. -/
  | block
  /-- 8, a decoder command with no decoder context. -/
  | noInit
  /-- 9, a region base not aligned to its element. -/
  | align
  /-- 10, a region that extends past `LMEM_BYTES`. -/
  | range
  /-- 11, decoder output over a latched coefficient set. -/
  | overlap
  /-- 12, a binary64 input or intermediate that is an infinity or a NaN. -/
  | nonFinite
  /-- 13, a quantized value outside 16 bits. -/
  | coefRange
  deriving DecidableEq, Repr

/-- The read-write registers of the CSR window that hold a command's operands (R36 to R44). Bits the spec reserves
have no storage here, so they read 0 whatever was written (R50, R51). -/
structure OperandRegs where
  /-- `SRC`, R36. -/
  src : Word
  /-- `DST`, R36. -/
  dst : Word
  /-- `AUX`, R36. -/
  aux : Word
  /-- `COEF0`, R37. -/
  coef0 : Word
  /-- `COEF1`, R37. -/
  coef1 : Word
  /-- `COEF2`, R37. -/
  coef2 : Word
  /-- `DIM`: W in bits 15:0, H in bits 31:16, R38. -/
  dim : Word
  /-- `BLK`: BX in bits 15:0, BY in bits 31:16, R39. -/
  blk : Word
  /-- `QLEVEL`, R40. -/
  qlevel : Word
  /-- `COUNT`, R41. -/
  count : Word
  /-- `STRIDE`: SS in bits 15:0, DS in bits 31:16, R42. -/
  stride : Word
  /-- `AQCFG.BITS`, R43. -/
  aqBits : BitVec 4
  /-- `AQCFG.MAXITER`, R43. -/
  aqMaxIter : BitVec 8
  /-- `AQCFG.FMT`: false is binary64, true is unsigned byte, R43. -/
  aqFmt : Bool
  /-- `PDCFG.MODE`, R44. -/
  pdcfgMode : BitVec 2
  deriving DecidableEq, Repr

/-- The stored fields of `STATUS` (R34). `PDV` is `PdContext.valid` (R53), and reserved bits have no storage. -/
structure Status where
  /-- `BUSY`, bit 0. -/
  busy : Bool
  /-- `DONE`, bit 1. -/
  done : Bool
  /-- `ERR`, bit 2, sticky. -/
  err : Bool
  /-- `MORE`, bit 3. -/
  more : Bool
  /-- `OVR`, bit 5, sticky. -/
  ovr : Bool
  /-- `ERRCODE`, bits 15:8. -/
  errCode : BitVec 8
  deriving DecidableEq, Repr

/-- The decoder context of R53. `blocksX` and `blocksY` are derived, not stored; `PDV` and the decoder registers are views
of it (DEDUCED, safe: log entry 15). -/
structure PdContext where
  /-- `pd.valid`, visible as `STATUS.PDV`. -/
  valid : Bool
  /-- `pd.mode`, visible in `PD_STATE`. -/
  mode : Mode
  /-- `pd.step` (currentStep), visible in `PD_STEPNO`. -/
  step : Word
  /-- `pd.total` (totalSteps), visible in `PD_TOTAL`. -/
  total : Word
  /-- `pd.W`, hidden. -/
  w : BitVec 16
  /-- `pd.H`, hidden. -/
  h : BitVec 16
  /-- `pd.N`, hidden. -/
  n : BitVec 4
  /-- `pd.coef[0]`, hidden. -/
  coef0 : Word
  /-- `pd.coef[1]`, hidden. -/
  coef1 : Word
  /-- `pd.coef[2]`, hidden. -/
  coef2 : Word
  deriving DecidableEq, Repr

/-- One event of the single total order of spec/20_memory.md R93: a step of the block agent, or an interaction of the
host (spec/70_reset_and_hazards.md R424). `width` is a CSR access's size in bytes. -/
inductive Event where
  /-- The block agent's turn: it performs the command in flight, if there is one (spec/45_control.md R352). -/
  | perform
  /-- A host read of the CSR window. -/
  | csrRead (offset width : Nat)
  /-- A host write of the CSR window. -/
  | csrWrite (offset width : Nat) (value : Word)
  /-- A host read of `len` bytes of LMEM. -/
  | lmemRead (addr len : Nat)
  /-- A host write of bytes to LMEM. -/
  | lmemWrite (addr : Nat) (bytes : List Byte)
  /-- The reset input, with power held (R400 to R402). -/
  | reset
  /-- Power removed and applied again: a power-on reset (spec/60_exceptions.md R374). -/
  | powerCycle
  deriving DecidableEq, Repr

/-- What the block gives back to a host read (R424). -/
inductive Reply where
  /-- The value of a CSR read. -/
  | csr (value : Word)
  /-- The bytes of an LMEM read. -/
  | lmem (bytes : List Byte)
  deriving DecidableEq, Repr

/-- The block never stops: every error of a command is a completion, a next state (spec/60_exceptions.md R364). No
meaning and no step raises a fault, so the type has no constructor. -/
inductive Fault where
  deriving DecidableEq, Repr

/-- Why there is no step. Only the host's own accesses are refused, where the spec says a model has no step. -/
inductive Refusal where
  /-- An instruction with no meaning yet, by its mnemonic. Raised by no arm of `exec` now; it would be safe. -/
  | notModelled (mnemonic : String)
  /-- A CSR access that is not 32 bits at a word-aligned offset of the 256-byte window: "It is refused: a model has no
  step for it" (spec/10_state.md R52). Raised by the host port; safe. -/
  | csrAccess
  /-- A host LMEM access at an address at or above `LMEM_BYTES`: "outside this spec's contract and is refused
  (no step)" (spec/20_memory.md R84). Raised by the host port; safe. -/
  | lmemAccess
  deriving DecidableEq, Repr

open Host (Cell)

/-- The whole state (R30), the build parameter, and what the model keeps beside it. -/
structure State where
  /-- `CTRL.IRQEN`, R33. -/
  irqEn : Bool
  /-- `STATUS`, R34. -/
  status : Status
  /-- The operand registers, R36 to R44. -/
  opr : OperandRegs
  /-- `AQ_ITERS`, R45. -/
  aqIters : Word
  /-- `AQ_NCTR`, R46. -/
  aqNctr : Word
  /-- The pending command word, meaningful only while `BUSY`, R54. -/
  pending : Word
  /-- The decoder context, R53. -/
  pd : PdContext
  /-- LMEM: the bytes that have been written, by strictly rising address (R80). -/
  lmem : List Cell
  /-- `LMEM_BYTES` is 2^(16 + lmemExp): the build parameter of R6. No step changes it. -/
  lmemExp : Fin 17
  /-- MODEL: which draw of the free value an LMEM byte that nothing has written holds (R401). -/
  lmemDraw : Nat
  /-- MODEL: the next draw not used yet. -/
  nextDraw : Nat
  /-- MODEL: the events still to come, in their total order (R93). -/
  agenda : List Event
  /-- MODEL: what the block has given back to the host's reads, oldest first (R424). -/
  replies : List Reply
  deriving DecidableEq, Repr

/-- The operand registers after reset: 0, but `MAXITER` 30 (R400). -/
def OperandRegs.reset : OperandRegs :=
  { src := 0, dst := 0, aux := 0, coef0 := 0, coef1 := 0, coef2 := 0, dim := 0, blk := 0, qlevel := 0, count := 0
    stride := 0, aqBits := 0, aqMaxIter := 30, aqFmt := false, pdcfgMode := 0 }

/-- `STATUS` after reset: 0 (R400). -/
def Status.reset : Status :=
  { busy := false, done := false, err := false, more := false, ovr := false, errCode := 0 }

/-- The decoder context after reset: invalid, every other field 0 (R53, R400). -/
def PdContext.reset : PdContext :=
  { valid := false, mode := .baseline, step := 0, total := 0, w := 0, h := 0, n := 0, coef0 := 0, coef1 := 0, coef2 := 0 }

/-- The block right after power-on (R400, R401). The spec gives every value but four: `pending` (log entry 3),
`lmemExp` (log entry 2), the draws (log entry 1) and the empty agenda and replies (log entry 5), each a DESIGN CHOICE;
`pending` is marked unsafe, the others safe. -/
def State.reset : State :=
  { irqEn := false, status := .reset, opr := .reset, aqIters := 0, aqNctr := 0, pending := 0, pd := .reset, lmem := []
    lmemExp := 0, lmemDraw := 0, nextDraw := 1, agenda := [], replies := [] }

end Sys2Proof.Machine
end

