-- ==== Sys2Proof/Machine/Binary64.lean ====
section
/-!
DEFINITION. Binary64 arithmetic on encodings (spec/00_scope.md R12 to R17). A finite value is a significand times a
power of two; every operation works on the exact integers and rounds once, to nearest with ties to even.

A finite encoding stands for ± sig · 2^(pow − 1074), with `sig` below 2^53 and `pow` between 0 and 2045.
-/

namespace Sys2Proof.Machine

/-- The sign bit, bit 63. -/
def fSign (x : F64) : Bool := Nat.ble 0x8000000000000000 x.toNat

/-- The biased exponent, bits 62:52. -/
def fExp (x : F64) : Nat := (x.toNat >>> 52) % 2048

/-- The fraction, bits 51:0. -/
def fFrac (x : F64) : Nat := x.toNat % 0x10000000000000

/-- Neither an infinity nor a NaN. -/
def fFinite (x : F64) : Bool := fExp x != 2047

/-- An infinity of either sign. -/
def fIsInf (x : F64) : Bool := fExp x == 2047 && fFrac x == 0

/-- A NaN. -/
def fIsNaN (x : F64) : Bool := fExp x == 2047 && fFrac x != 0

/-- The significand of a finite value: the fraction, with the hidden bit unless the value is subnormal. -/
def fSig (x : F64) : Nat :=
  match fExp x with
  | 0 => fFrac x
  | _ + 1 => 0x10000000000000 + fFrac x

/-- The power of two a finite value's significand is scaled by, counted from 2^−1074. -/
def fPow (x : F64) : Nat := fExp x - 1

/-- An encoding from its sign and its low 63 bits. -/
def fPack (neg : Bool) (mag : Nat) : F64 :=
  BitVec.ofNat 64 (if neg then 0x8000000000000000 + mag else mag)

/-- The low 63 bits of an infinity, above those of every finite value. -/
def infMag : Nat := 0x7FF0000000000000

/-- The one NaN an operation answers with. It never leaves a command (R14). DESIGN CHOICE, safe: log entry 8. -/
def fNaN : F64 := 0x7FF8000000000000

/-- The index of the highest set bit, found by halving the width still to search. -/
def topBitFrom : List Nat → Nat → Nat
  | [], n => Nat.log2 n
  | k :: ks, n =>
    match n >>> k with
    | 0 => topBitFrom ks n
    | m + 1 => k + topBitFrom ks (m + 1)

/-- The index of the highest set bit of `n`, 0 for 0: `Nat.log2 n`, in few steps below 2^4096. -/
def topBit (n : Nat) : Nat := topBitFrom [2048, 1024, 512, 256, 128, 64, 32, 16, 8, 4, 2, 1] n

/-- The integer nearest to `num / den`, a tie to the even one. -/
def nearestEven (num den : Nat) : Nat :=
  match num % den with
  | 0 => num / den
  | r + 1 =>
    if den < 2 * (r + 1) || (2 * (r + 1) == den && num / den % 2 == 1) then num / den + 1 else num / den

/-- `num / den · 2^k` rounded to the nearest integer multiple of `2^j`, as that multiple. -/
def nearestMultiple (num den k j : Nat) : Nat :=
  if k ≤ j then nearestEven num (den <<< (j - k)) else nearestEven (num <<< (k - j)) den

/--
The low 63 bits of the binary64 value nearest to `num / den · 2^(k − 4096)`, ties to even, overflow to infinity
(R12). `num` is 0 or at least `den`. The unit in the last place is 2^(e − 1074), `e` being 0 for subnormal results
and the smallest normal ones; a significand that rounds up to 2^53 carries into the exponent field by itself.
-/
def roundMag (num den k : Nat) : Nat :=
  match num / den with
  | 0 => 0
  | q + 1 =>
    match topBit (q + 1) + k - 3074 with
    | 0 => nearestMultiple num den k 3022
    | e + 1 => Nat.min (((e + 1) <<< 52) + nearestMultiple num den k (e + 3023)) infMag

/-- A finite value as an integer multiple of 2^(e − 1074), for `e` at most its own power. -/
def fScaled (x : F64) (e : Nat) : Int :=
  if fSign x then -Int.ofNat (fSig x <<< (fPow x - e)) else Int.ofNat (fSig x <<< (fPow x - e))

/-- The binary64 value nearest to an exact sum in units of 2^(e − 1074); an exact zero takes the sign `zeroNeg`. -/
def roundSum (zeroNeg : Bool) (e : Nat) : Int → F64
  | .ofNat 0 => fPack zeroNeg 0
  | .ofNat (n + 1) => fPack false (roundMag (n + 1) 1 (e + 3022))
  | .negSucc n => fPack true (roundMag (n + 1) 1 (e + 3022))

/-- The sum of two finite values. An exact zero is +0, but −0 where both operands are −0. -/
def addFinite (x y : F64) : F64 :=
  match Nat.min (fPow x) (fPow y) with
  | 0 => roundSum (fSign x && fSign y) 0 (fScaled x 0 + fScaled y 0)
  | e + 1 => roundSum (fSign x && fSign y) (e + 1) (fScaled x (e + 1) + fScaled y (e + 1))

/-- `a ⊕ b` (R12). -/
def fAdd (x y : F64) : F64 :=
  if fFinite x && fFinite y then addFinite x y
  else if fIsNaN x || fIsNaN y || (fIsInf x && fIsInf y && fSign x != fSign y) then fNaN
  else if fIsInf x then x else y

/-- `fneg(a)` (R12). -/
def fNeg (x : F64) : F64 := x ^^^ 0x8000000000000000

/-- `fabs(a)` (R12). -/
def fAbs (x : F64) : F64 := x &&& 0x7FFFFFFFFFFFFFFF

/-- `a ⊖ b` (R12): the exact difference is the exact sum with the negated operand. -/
def fSub (x y : F64) : F64 := fAdd x (fNeg y)

/-- `a ⊗ b` (R12). -/
def fMul (x y : F64) : F64 :=
  if fFinite x && fFinite y then
    fPack (fSign x != fSign y) (roundMag (fSig x * fSig y) 1 (fPow x + fPow y + 1948))
  else if fIsNaN x || fIsNaN y || fSig x == 0 || fSig y == 0 then fNaN
  else fPack (fSign x != fSign y) infMag

/-- `a ⊘ b` (R12). A nonzero value over zero is an infinity, zero over zero a NaN. -/
def fDiv (x y : F64) : F64 :=
  if fIsNaN x || fIsNaN y || (fIsInf x && fIsInf y) then fNaN
  else if fIsInf x then fPack (fSign x != fSign y) infMag
  else if fIsInf y then fPack (fSign x != fSign y) 0
  else if fSig y = 0 then
    if fSig x = 0 then fNaN else fPack (fSign x != fSign y) infMag
  else fPack (fSign x != fSign y) (roundMag (fSig x <<< 128) (fSig y) (fPow x + 3968 - fPow y))

/-- The place of a value among the others: sign and magnitude bits order as the values do, and both zeros sit at 0. -/
def fOrder (x : F64) : Int :=
  if fSign x then -Int.ofNat (x.toNat % 0x8000000000000000) else Int.ofNat x.toNat

/-- `a < b`, the IEEE comparison: −0 and +0 are equal, a NaN compares false (R12). -/
def fLt (x y : F64) : Bool := !fIsNaN x && !fIsNaN y && decide (fOrder x < fOrder y)

/-- `a ≤ b` (R12). -/
def fLe (x y : F64) : Bool := !fIsNaN x && !fIsNaN y && decide (fOrder x ≤ fOrder y)

/-- `a == b` (R12). -/
def fEq (x y : F64) : Bool := !fIsNaN x && !fIsNaN y && fOrder x == fOrder y

/-- A natural number as a binary64 value; exact below 2^53 (R12). -/
def fOfNat (n : Nat) : F64 := fPack false (roundMag n 1 4096)

/-- An integer as a binary64 value; exact below 2^53 in magnitude (R12). -/
def fOfInt : Int → F64
  | .ofNat n => fOfNat n
  | .negSucc n => fPack true (roundMag (n + 1) 1 4096)

/-- The binary64 value nearest to the decimal `num / den` (R13); `den` is below 2^128. -/
def fLit (num den : Nat) : F64 := fPack false (roundMag (num <<< 128) den 3968)

/-- `chk(v)`: a finite value, or `E_NONFINITE` (R14). -/
def chk (x : F64) : Except ErrCode F64 := if fFinite x then .ok x else .error .nonFinite

/-- `⊕` with the check R14 makes on every computed value. -/
def cAdd (x y : F64) : Except ErrCode F64 := chk (fAdd x y)

/-- `⊖`, checked (R14). -/
def cSub (x y : F64) : Except ErrCode F64 := chk (fSub x y)

/-- `⊗`, checked (R14). -/
def cMul (x y : F64) : Except ErrCode F64 := chk (fMul x y)

/-- `⊘`, checked (R14). -/
def cDiv (x y : F64) : Except ErrCode F64 := chk (fDiv x y)

/-- The magnitude of a finite value's integer part. -/
def truncMag (x : F64) : Nat :=
  if 1074 ≤ fPow x then fSig x <<< (fPow x - 1074) else fSig x >>> (1074 - fPow x)

/-- `trunc(x)`, toward zero, for a finite value (R15). -/
def fTrunc (x : F64) : Int := if fSign x then -Int.ofNat (truncMag x) else Int.ofNat (truncMag x)

/-- A finite value is an integer. -/
def fIsInt (x : F64) : Bool :=
  decide (1074 ≤ fPow x) || (fSig x >>> (1074 - fPow x)) <<< (1074 - fPow x) == fSig x

/-- `floor(x)`, the greatest integer at most x, for a finite value (R15). -/
def fFloor (x : F64) : Int := if fSign x && !fIsInt x then fTrunc x - 1 else fTrunc x

/-- `clamp(x, lo, hi)` (R15). −0 stays −0, since it is not below 0. -/
def fClamp (x lo hi : F64) : F64 := if fLt x lo then lo else if fLt hi x then hi else x

/-- The magnitude of a finite value over 2^n, plus one half, rounded down: half away from zero on the exact quotient. -/
def halfAwayMag (x : F64) (n : Nat) : Nat :=
  if 1074 + n ≤ fPow x then fSig x <<< (fPow x - (1074 + n))
  else (2 * fSig x + 1 <<< (1074 + n - fPow x)) >>> (1074 + n - fPow x + 1)

/-- `roundHalfAway(x / 2^n)` on the exact real quotient, for a finite value (R16). -/
def roundHalfAway (x : F64) (n : Nat) : Int :=
  if fSign x then -Int.ofNat (halfAwayMag x n) else Int.ofNat (halfAwayMag x n)

/-- `toByte(x)`: clamp to [0, 255], add 0.5 with one rounding, truncate (R17). -/
def toByte (x : F64) : Byte := BitVec.ofInt 8 (fTrunc (fAdd (fClamp x 0 (fOfNat 255)) (fLit 1 2)))

end Sys2Proof.Machine
end

