-- ==== Sys2Proof/Machine/Flags.lean ====
section
/-!
DEFINITION. Every computation on the flags of `STATUS` and on `IRQ`: spec/10_state.md R34, R35, R55, R56,
spec/45_control.md R352, spec/60_exceptions.md R360, R364, R365.
-/

namespace Sys2Proof.Machine

/-- The number an error code has in `STATUS.ERRCODE` (R360). -/
def errorNumber : ErrCode → Nat
  | .badOp => 1
  | .bits => 2
  | .qLevel => 3
  | .mode => 4
  | .count => 5
  | .stride => 6
  | .block => 7
  | .noInit => 8
  | .align => 9
  | .range => 10
  | .overlap => 11
  | .nonFinite => 12
  | .coefRange => 13

/-- `ERRCODE` of an error, as the 8-bit field holds it (R34, R360). -/
def errorCode (e : ErrCode) : BitVec 8 := BitVec.ofNat 8 (errorNumber e)

/-- A flag as the number its bit contributes at bit 0. -/
def bit (b : Bool) : Nat := if b then 1 else 0

/-- What an accepted `CMD` write does to the flags: `BUSY` set, `DONE` cleared (R35). -/
def Status.accept (f : Status) : Status := { f with busy := true, done := false }

/-- What a write ignored because `BUSY` = 1 does to the flags: `OVR` set (R35, R51). -/
def Status.overrun (f : Status) : Status := { f with ovr := true }

/-- The completion fields after success: `ERRCODE` 0, `ERR` as it was (R352, R364). -/
def Status.completeOk (f : Status) : Status := { f with busy := false, done := true, errCode := 0 }

/-- The completion fields after an error: its code, `ERR` set (R352, R364). -/
def Status.completeError (f : Status) (e : ErrCode) : Status :=
  { f with busy := false, done := true, err := true, errCode := errorCode e }

/-- A write of `v` to `STATUS` clears each W1C field whose written bit is 1: `DONE`, `ERR`, `OVR`. It changes nothing
else (R34). -/
def Status.writeOneToClear (f : Status) (v : Word) : Status :=
  { f with done := f.done && !v.getLsbD 1, err := f.err && !v.getLsbD 2, ovr := f.ovr && !v.getLsbD 5 }

/-- The value of a read of `STATUS` (R34). Bits 7:6 and 31:16 read 0, and `PDV` is the decoder context's `valid`. -/
def statusWord (s : State) : Word :=
  BitVec.ofNat 32 (bit s.status.busy + 2 * bit s.status.done + 4 * bit s.status.err + 8 * bit s.status.more
    + 16 * bit s.pd.valid + 32 * bit s.status.ovr + 256 * s.status.errCode.toNat)

/-- The `IRQ` output, a function of `DONE` and `IRQEN` alone (R56). -/
def irq (s : State) : Bool := s.status.done && s.irqEn

end Sys2Proof.Machine
end

