-- ==== Sys2Proof/Machine/Ops.lean ====
section
/-!
DEFINITION. The named operations over LMEM and the registers: reading and writing bytes and elements
(spec/00_scope.md R10, spec/20_memory.md R81, R83), a command's staged effects and their commit (spec/45_control.md
R354), and how a command ends: success, or the error entry of spec/60_exceptions.md R364.
-/

namespace Sys2Proof.Machine

open Host (Cell Outcome)

/-! ### LMEM as a list of cells -/

/-- The byte a list of cells holds at an address, if it lists one. -/
def lookup : List Cell → Nat → Option Byte
  | [], _ => none
  | c :: m, a => if c.1 = a then some c.2 else lookup m a

/-- Consecutive bytes from an address up, as cells. -/
def cellsAt : Nat → List Byte → List Cell
  | _, [] => []
  | a, b :: bs => (a, b) :: cellsAt (a + 1) bs

/-- The cells after a run of bytes is written at `a`: what lay below, the run, what lay above. -/
def writeRun (m : List Cell) (a : Nat) (bs : List Byte) : List Cell :=
  m.filter (fun c => Nat.blt c.1 a) ++ (cellsAt a bs ++ m.filter (fun c => Nat.ble (a + bs.length) c.1))

/-- Addresses rise strictly from `lo` on. -/
def risingFrom : Nat → List Cell → Bool
  | _, [] => true
  | lo, c :: m => decide (lo ≤ c.1) && risingFrom (c.1 + 1) m

/-- The canonical form of LMEM: strictly rising addresses. An unlisted byte has no value of its own in the list (reading
it gives the free value), so no entry can equal what an unlisted address lists. -/
def Memory.wf (m : List Cell) : Bool := risingFrom 0 m

/-! ### Reading LMEM -/

/-- `LMEM_BYTES` (R6). -/
def State.lmemBytes (s : State) : Nat := 2 ^ (16 + s.lmemExp.val)

/-- What an LMEM byte that nothing has written reads as: the free value of the current draw (R401). -/
def State.unwrittenByte (s : State) (a : Nat) : Byte := Config.freeByte s.lmemDraw a

/-- The byte at an address. -/
def State.ldByte (s : State) (a : Nat) : Byte := (lookup s.lmem a).getD (s.unwrittenByte a)

/-- The cells of the addresses `a .. a + n − 1`. -/
def window (m : List Cell) (a n : Nat) : List Cell := m.filter fun c => Nat.ble a c.1 && Nat.blt c.1 (a + n)

/-- Consecutive bytes from `a` up, read along a list of cells: a cell that stands first serves its own address, and every
other address is looked up. -/
def readAlong (free : Nat → Byte) (w : List Cell) (a : Nat) : Nat → List Byte
  | 0 => []
  | n + 1 =>
    match w with
    | [] => free a :: readAlong free [] (a + 1) n
    | c :: w' =>
      if c.1 = a then c.2 :: readAlong free w' (a + 1) n
      else (lookup (c :: w') a).getD (free a) :: readAlong free (c :: w') (a + 1) n

/-- The bytes at `a .. a + n − 1`. -/
def State.ldBytes (s : State) (a n : Nat) : List Byte := readAlong s.unwrittenByte (window s.lmem a n) a n

/-- The number whose bytes these are, the first least significant (R83). -/
def leNat : List Byte → Nat
  | [] => 0
  | b :: bs => b.toNat + 256 * leNat bs

/-- `MemRead(a, n)`: n bytes as one number, the byte at the lowest address least significant (R83). -/
def State.memRead (s : State) (a n : Nat) : Nat := leNat (s.ldBytes a n)

/-- `ld_u8(a)` (R10). -/
def State.ldU8 (s : State) (a : Nat) : Nat := (s.ldByte a).toNat

/-- `ld_i16(a)`, sign extended (R10). -/
def State.ldI16 (s : State) (a : Nat) : Int := (BitVec.ofNat 16 (s.memRead a 2)).toInt

/-- `ld_f64(a)` (R10). -/
def State.ldF64 (s : State) (a : Nat) : F64 := BitVec.ofNat 64 (s.memRead a 8)

/-! ### Staged writes -/

/-- One staged LMEM write: a run of bytes from an address up. -/
structure Store where
  /-- The lowest address written. -/
  addr : Nat
  /-- The bytes, lowest address first. -/
  bytes : List Byte
  deriving DecidableEq, Repr

/-- The low `8n` bits of a number as n bytes, least significant first (R83). -/
def leBytes : Nat → Nat → List Byte
  | 0, _ => []
  | n + 1, v => BitVec.ofNat 8 v :: leBytes n (v / 256)

/-- The bytes of an `i16`: the 16-bit two's complement pattern (R81). -/
def i16Bytes (q : Int) : List Byte := leBytes 2 (BitVec.ofInt 16 q).toNat

/-- The bytes of an `f64`: the 64-bit encoding (R81). -/
def f64Bytes (x : F64) : List Byte := leBytes 8 x.toNat

/-- `st_u8(a, b)` (R10). -/
def stU8 (a : Nat) (b : Byte) : Store := ⟨a, [b]⟩

/-- `st_f64(a, x)` (R10). -/
def stF64 (a : Nat) (x : F64) : Store := ⟨a, f64Bytes x⟩

/-- Consecutive elements from `a` up, as one run of bytes: a block, or a pixel (R82). -/
def stArray {α : Type} (enc : α → List Byte) (a : Nat) (xs : List α) : Store := ⟨a, (xs.map enc).flatten⟩

/-- One store for each element, `stride` bytes apart from `a` up, in element order. -/
def storeEach {α : Type} (st : Nat → α → Store) (a stride : Nat) : List α → List Store
  | [] => []
  | x :: xs => st a x :: storeEach st (a + stride) stride xs

/-- Staged writes put into LMEM in order, so that the last write to a byte wins (R354). -/
def applyStores (m : List Cell) : List Store → List Cell
  | [] => m
  | w :: ws => applyStores (writeRun m w.addr w.bytes) ws

/-- A byte is one of those a list of staged writes writes. -/
def storesTo (ws : List Store) (a : Nat) : Bool :=
  ws.any fun w => decide (w.addr ≤ a) && decide (a < w.addr + w.bytes.length)

/-! ### A command's staged effects, commit and completion -/

/-- Everything a command can stage besides the completion fields (R354). -/
structure Staged where
  /-- LMEM writes, in pseudocode order. -/
  writes : List Store
  /-- `AQ_ITERS` and `AQ_NCTR`, if the command updates them. -/
  aq : Option (Word × Word)
  /-- The decoder context and `MORE`, if the command updates them. -/
  pd : Option (PdContext × Bool)
  deriving DecidableEq, Repr

/-- The staged effects of a command that only writes LMEM. -/
def Staged.ofWrites (ws : List Store) : Staged := { writes := ws, aq := none, pd := none }

/-- What a command comes to before its completion: its staged effects, or the error it raised (R352). -/
abbrev Result := Except ErrCode Staged

/-- LMEM after its cells are replaced. -/
def State.setLmem (s : State) (m : List Cell) : State := { s with lmem := m }

/-- The two report registers of `AQ` (R196). -/
def State.setAqReport (s : State) (iters nctr : Word) : State := { s with aqIters := iters, aqNctr := nctr }

/-- The decoder context and `MORE` (R301, R311, R321). -/
def State.setDecoder (s : State) (pd : PdContext) (more : Bool) : State :=
  { s with pd := pd, status := { s.status with more := more } }

/-- Every staged effect at once (R354). -/
def commit (s : State) (st : Staged) : State :=
  let s1 := s.setLmem (applyStores s.lmem st.writes)
  let s2 := match st.aq with
    | some r => s1.setAqReport r.1 r.2
    | none => s1
  match st.pd with
  | some p => s2.setDecoder p.1 p.2
  | none => s2

/-- A successful completion (R352): the completion fields only. -/
def State.completeOk (s : State) : State := { s with status := s.status.completeOk }

/-- THE ERROR ENTRY, the block's one exception (R364): `ERRCODE`, `ERR`, `BUSY` and `DONE` change and nothing else. No
state is saved, no mode changes, and control stays with the host. -/
def State.failWith (s : State) (e : ErrCode) : State := { s with status := s.status.completeError e }

/-- What the host does in place of a return from the error entry (R366): it clears the flags it writes a 1 to. -/
def State.writeStatus (s : State) (v : Word) : State := { s with status := s.status.writeOneToClear v }

/-- The end of every command (R352): commit and succeed, or commit nothing and report the error. -/
def finish (s : State) : Result → State
  | .ok st => (commit s st).completeOk
  | .error e => s.failWith e

/-- An accepted `CMD` write (R35): the word is pending and the block is busy. -/
def State.acceptCommand (s : State) (w : Word) : State := { s with pending := w, status := s.status.accept }

/-- The events still to come, replaced (R93). -/
def State.setAgenda (s : State) (ag : List Event) : State := { s with agenda := ag }

/-! ### Checks and passes over lists -/

/-- One check of a command: raise the error if the condition holds (R11, R353). -/
def failIf (bad : Bool) (e : ErrCode) : Except ErrCode Unit := if bad then .error e else .ok ()

/-- A computation that can raise, on each element in order; the first error ends it. -/
def mapE {α β : Type} (f : α → Except ErrCode β) : List α → Except ErrCode (List β)
  | [] => .ok []
  | a :: as => do
    let b ← f a
    let bs ← mapE f as
    return b :: bs

/-- A running value carried through the elements in order; the first error ends it. -/
def foldE {α σ : Type} (f : σ → α → Except ErrCode σ) : σ → List α → Except ErrCode σ
  | s, [] => .ok s
  | s, a :: as => do
    let s' ← f s a
    foldE f s' as

end Sys2Proof.Machine
end

