-- ==== Sys2Proof/Machine/Operands.lean ====
section
/-!
DEFINITION. The operand fields of the CSR window (spec/30_encoding.md R124) and the region table with its alignment and
range checks (spec/20_memory.md R85 to R87). Addresses and sizes are unbounded naturals.
-/

namespace Sys2Proof.Machine

/-- `SRC`, a byte address. -/
def State.src (s : State) : Nat := s.opr.src.toNat

/-- `DST`, a byte address. -/
def State.dst (s : State) : Nat := s.opr.dst.toNat

/-- `AUX`, a byte address. -/
def State.aux (s : State) : Nat := s.opr.aux.toNat

/-- `COEFc`, the base of the coefficient set of channel c (0 R, 1 G, 2 B). -/
def State.coefBase (s : State) : Nat → Nat
  | 0 => s.opr.coef0.toNat
  | 1 => s.opr.coef1.toNat
  | _ => s.opr.coef2.toNat

/-- W = `DIM[15:0]`. -/
def State.imgW (s : State) : Nat := s.opr.dim.toNat % 65536

/-- H = `DIM[31:16]`. -/
def State.imgH (s : State) : Nat := s.opr.dim.toNat / 65536

/-- BX = `BLK[15:0]`. -/
def State.blkX (s : State) : Nat := s.opr.blk.toNat % 65536

/-- BY = `BLK[31:16]`. -/
def State.blkY (s : State) : Nat := s.opr.blk.toNat / 65536

/-- N = `QLEVEL[31:0]`. -/
def State.level (s : State) : Nat := s.opr.qlevel.toNat

/-- n = `COUNT[31:0]`. -/
def State.elements (s : State) : Nat := s.opr.count.toNat

/-- SS = `STRIDE[15:0]`. -/
def State.srcStride (s : State) : Nat := s.opr.stride.toNat % 65536

/-- DS = `STRIDE[31:16]`. -/
def State.dstStride (s : State) : Nat := s.opr.stride.toNat / 65536

/-- `AQCFG.BITS`. -/
def State.depth (s : State) : Nat := s.opr.aqBits.toNat

/-- L = 2^BITS. -/
def State.levels (s : State) : Nat := 2 ^ s.depth

/-- The base of the coefficient set of channel c that the decoder context latched. -/
def PdContext.coefBase (p : PdContext) : Nat → Nat
  | 0 => p.coef0.toNat
  | 1 => p.coef1.toNat
  | _ => p.coef2.toNat

/-- `pd.blocksX`. -/
def PdContext.blocksX (p : PdContext) : Nat := ceil8 p.w.toNat

/-- nb, the number of blocks of the decoder's image. -/
def PdContext.blocks (p : PdContext) : Nat := ceil8 p.w.toNat * ceil8 p.h.toNat

/-- 3·pd.W·pd.H, the size of the decoder's output. -/
def PdContext.outputSize (p : PdContext) : Nat := 3 * (p.w.toNat * p.h.toNat)

/-- The sequence is exhausted: pd.step = pd.total (R310, R318). -/
def PdContext.exhausted (p : PdContext) : Bool := p.step == p.total

/-- A region of LMEM a command reads or writes (R87). -/
structure Region where
  /-- Its lowest address. -/
  base : Nat
  /-- What its base must be a multiple of. -/
  align : Nat
  /-- Its size in bytes. -/
  size : Nat
  deriving DecidableEq, Repr

/-- The base is a multiple of the alignment (R85). -/
def Region.aligned (r : Region) : Bool := r.base % r.align == 0

/-- s = 0, or a + s ≤ `LMEM_BYTES` with no wrap (R86). -/
def Region.inRange (r : Region) (bytes : Nat) : Bool := r.size == 0 || decide (r.base + r.size ≤ bytes)

/-- A byte of the region. -/
def Region.contains (r : Region) (a : Nat) : Bool := decide (r.base ≤ a) && decide (a < r.base + r.size)

/-- The two regions intersect: a < b + t and b < a + s (R310). -/
def Region.meets (r q : Region) : Bool := decide (r.base < q.base + q.size) && decide (q.base < r.base + r.size)

/-- The size of n elements of e bytes, `stride` bytes apart: (n − 1)·stride + e if n > 0, else 0 (R87). -/
def stridedSize (n stride e : Nat) : Nat := if n = 0 then 0 else (n - 1) * stride + e

/-- e: the size of an `AQ` sample, 8 for binary64 and 1 for bytes (R87). -/
def State.sampleSize (s : State) : Nat := if s.opr.aqFmt then 1 else 8

/-- The size of one coefficient set of the image in `DIM`: 128·bX·bY. -/
def State.coefSetSize (s : State) : Nat := 128 * (ceil8 s.imgW * ceil8 s.imgH)

/-- The three coefficient sets named by `COEF0..2`, for the image in `DIM`. -/
def State.coefRegions (s : State) : List Region :=
  [⟨s.coefBase 0, 2, s.coefSetSize⟩, ⟨s.coefBase 1, 2, s.coefSetSize⟩, ⟨s.coefBase 2, 2, s.coefSetSize⟩]

/-- The three coefficient sets the decoder context latched. -/
def PdContext.coefRegions (p : PdContext) : List Region :=
  [⟨p.coefBase 0, 2, 128 * p.blocks⟩, ⟨p.coefBase 1, 2, 128 * p.blocks⟩, ⟨p.coefBase 2, 2, 128 * p.blocks⟩]

/-- The region table of R87, the regions a command reads (and the sets `PD_INIT` latches). -/
def inputRegions (i : Instr) (s : State) : List Region :=
  match i with
  | .nop => []
  | .cscFwd => [⟨s.src, 1, 3 * s.elements⟩]
  | .cscInv => [⟨s.src, 8, 24 * s.elements⟩]
  | .aq => [⟨s.src, s.sampleSize, stridedSize s.elements s.srcStride s.sampleSize⟩]
  | .fdct => [⟨s.src, 8, 512⟩]
  | .idct => [⟨s.src, 8, 512⟩]
  | .quant => [⟨s.src, 8, 512⟩]
  | .dequant => [⟨s.src, 2, 128⟩]
  | .blkExtract => [⟨s.src, 1, stridedSize (s.imgW * s.imgH) s.srcStride 1⟩]
  | .blkInsert => [⟨s.src, 8, 512⟩]
  | .encode => [⟨s.src, 1, 3 * (s.imgW * s.imgH)⟩]
  | .pdInit => s.coefRegions
  | .pdStep => if s.pd.exhausted then [] else s.pd.coefRegions
  | .pdReset => []

/-- The region table of R87, the regions a command writes. -/
def outputRegions (i : Instr) (s : State) : List Region :=
  match i with
  | .nop => []
  | .cscFwd => [⟨s.dst, 8, 24 * s.elements⟩]
  | .cscInv => [⟨s.dst, 1, 3 * s.elements⟩]
  | .aq =>
    ⟨s.dst, s.sampleSize, stridedSize s.elements s.dstStride s.sampleSize⟩ ::
      if 1 ≤ s.depth ∧ s.depth ≤ 7 then [⟨s.aux, 8, 8 * s.levels⟩] else []
  | .fdct => [⟨s.dst, 8, 512⟩]
  | .idct => [⟨s.dst, 8, 512⟩]
  | .quant => [⟨s.dst, 2, 128⟩]
  | .dequant => [⟨s.dst, 8, 512⟩]
  | .blkExtract => [⟨s.dst, 8, 512⟩]
  | .blkInsert => [⟨s.dst, 1, stridedSize (s.imgW * s.imgH) s.dstStride 1⟩]
  | .encode => s.coefRegions
  | .pdInit => []
  | .pdStep => if s.pd.exhausted then [] else [⟨s.dst, 1, s.pd.outputSize⟩]
  | .pdReset => []

/-- Every region of a command. -/
def regionsOf (i : Instr) (s : State) : List Region := inputRegions i s ++ outputRegions i s

/-- Every region's base is aligned, a region of zero elements' too (R85). -/
def allAligned (i : Instr) (s : State) : Bool := (regionsOf i s).all Region.aligned

/-- Every region is in range (R86). -/
def allInRange (i : Instr) (s : State) : Bool := (regionsOf i s).all fun r => r.inRange s.lmemBytes

/-- The two memory checks of R87, `E_ALIGN` before `E_RANGE` (R363). -/
def regionChecks (i : Instr) (s : State) : Except ErrCode Unit := do
  failIf (!allAligned i s) .align
  failIf (!allInRange i s) .range

end Sys2Proof.Machine
end

