-- ==== Sys2Proof/Machine/Dct.lean ====
section
/-!
DEFINITION. The 8×8 DCT: the basis ROM, the one arithmetic primitive, the two separable transforms, and the commands
`FDCT` and `IDCT` (spec/42_dct.md R230 to R237). A block is 64 values, element (i, j) at index 8i + j (R230).
-/

namespace Sys2Proof.Machine

open Host (Outcome)

/-- The basis ROM, row k column n at index 8k + n (R231). -/
def basisRom : List F64 :=
  [0x3FD6A09E667F3BCD, 0x3FD6A09E667F3BCD, 0x3FD6A09E667F3BCD, 0x3FD6A09E667F3BCD,
   0x3FD6A09E667F3BCD, 0x3FD6A09E667F3BCD, 0x3FD6A09E667F3BCD, 0x3FD6A09E667F3BCD] ++
  [0x3FDF6297CFF75CB0, 0x3FDA9B66290EA1A3, 0x3FD1C73B39AE68C8, 0x3FB8F8B83C69A60B,
   0xBFB8F8B83C69A60B, 0xBFD1C73B39AE68C8, 0xBFDA9B66290EA1A3, 0xBFDF6297CFF75CB0] ++
  [0x3FDD906BCF328D46, 0x3FC87DE2A6AEA963, 0xBFC87DE2A6AEA963, 0xBFDD906BCF328D46,
   0xBFDD906BCF328D46, 0xBFC87DE2A6AEA963, 0x3FC87DE2A6AEA963, 0x3FDD906BCF328D46] ++
  [0x3FDA9B66290EA1A3, 0xBFB8F8B83C69A60B, 0xBFDF6297CFF75CB0, 0xBFD1C73B39AE68C8,
   0x3FD1C73B39AE68C8, 0x3FDF6297CFF75CB0, 0x3FB8F8B83C69A60B, 0xBFDA9B66290EA1A3] ++
  [0x3FD6A09E667F3BCD, 0xBFD6A09E667F3BCD, 0xBFD6A09E667F3BCD, 0x3FD6A09E667F3BCD,
   0x3FD6A09E667F3BCD, 0xBFD6A09E667F3BCD, 0xBFD6A09E667F3BCD, 0x3FD6A09E667F3BCD] ++
  [0x3FD1C73B39AE68C8, 0xBFDF6297CFF75CB0, 0x3FB8F8B83C69A60B, 0x3FDA9B66290EA1A3,
   0xBFDA9B66290EA1A3, 0xBFB8F8B83C69A60B, 0x3FDF6297CFF75CB0, 0xBFD1C73B39AE68C8] ++
  [0x3FC87DE2A6AEA963, 0xBFDD906BCF328D46, 0x3FDD906BCF328D46, 0xBFC87DE2A6AEA963,
   0xBFC87DE2A6AEA963, 0x3FDD906BCF328D46, 0xBFDD906BCF328D46, 0x3FC87DE2A6AEA963] ++
  [0x3FB8F8B83C69A60B, 0xBFD1C73B39AE68C8, 0x3FDA9B66290EA1A3, 0xBFDF6297CFF75CB0,
   0x3FDF6297CFF75CB0, 0xBFDA9B66290EA1A3, 0x3FD1C73B39AE68C8, 0xBFB8F8B83C69A60B]

/-- Element (i, j) of an 8×8 array held as 64 values (R230). -/
def elem (b : List F64) (i j : Nat) : F64 := b.getD (8 * i + j) 0

/-- Row i of an 8×8 array. -/
def rowOf (b : List F64) (i : Nat) : List F64 := (List.range 8).map fun j => elem b i j

/-- Column j of an 8×8 array. -/
def colOf (b : List F64) (j : Nat) : List F64 := (List.range 8).map fun i => elem b i j

/-- One product and one partial sum, each rounded and checked (R232). -/
def dotStep (sum : F64) (p : F64 × F64) : Except ErrCode F64 := do
  cAdd sum (← cMul p.1 p.2)

/-- `dot8(c, x)`: the products in index order, summed from +0.0 (R232). -/
def dot8 (c x : List F64) : Except ErrCode F64 := foldE dotStep 0 (c.zip x)

/-- `fdct`: each row along j, then each column along i (R233). -/
def fdct (b : List F64) : Except ErrCode (List F64) := do
  let r ← mapE (fun k => dot8 (rowOf basisRom (k % 8)) (rowOf b (k / 8))) (List.range 64)
  mapE (fun k => dot8 (rowOf basisRom (k / 8)) (colOf r (k % 8))) (List.range 64)

/-- `idct`: each coefficient row along v, then each column along u (R234). -/
def idct (f : List F64) : Except ErrCode (List F64) := do
  let q ← mapE (fun k => dot8 (colOf basisRom (k % 8)) (rowOf f (k / 8))) (List.range 64)
  mapE (fun k => dot8 (colOf basisRom (k / 8)) (colOf q (k % 8))) (List.range 64)

/-- The 64 binary64 values of a block in LMEM, each checked (R236). -/
def loadBlock (s : State) (base : Nat) : Except ErrCode (List F64) :=
  mapE (fun k => chk (s.ldF64 (base + 8 * k))) (List.range 64)

/-- The 64 binary64 values of a block, stored from `base` up (R236). -/
def storeBlock (base : Nat) (b : List F64) : List Store := [stArray f64Bytes base b]

/-- `FDCT` up to its completion (R236). -/
def runFdct (s : State) : Result := do
  regionChecks .fdct s
  let b ← loadBlock s s.src
  let d ← fdct b
  return .ofWrites (storeBlock s.dst d)

/-- `IDCT` up to its completion (R237). -/
def runIdct (s : State) : Result := do
  regionChecks .idct s
  let f ← loadBlock s s.src
  let b ← idct f
  return .ofWrites (storeBlock s.dst b)

/-- `FDCT`: forward DCT of one block (R236). -/
def execFdct (s : State) : Outcome State Fault Refusal := .next (finish s (runFdct s))

/-- `IDCT`: inverse DCT of one block (R237). -/
def execIdct (s : State) : Outcome State Fault Refusal := .next (finish s (runIdct s))

end Sys2Proof.Machine
end

