-- ==== Sys2Proof/Machine/BlockCodec.lean ====
section
/-!
DEFINITION. The block coefficient quantizer, block extraction and insertion, and the image encoder
(spec/43_block_codec.md R260 to R283).
-/

namespace Sys2Proof.Machine

open Host (Outcome)

/-- `quantize(d, N)`: half away from zero on the exact quotient; outside 16 bits it is an error (R261). -/
def quantize (n : Nat) (d : F64) : Except ErrCode Int :=
  if roundHalfAway d n < -32768 ∨ 32767 < roundHalfAway d n then .error .coefRange
  else .ok (roundHalfAway d n)

/-- `dequantize(c, N)` = c·2^N, exact (R263), so it needs no finiteness test (DEDUCED, safe: log entry 12). -/
def dequantize (n : Nat) (c : Int) : F64 := fOfInt (c * Int.ofNat (1 <<< n))

/-- The 64 coefficients of an `i16` block in LMEM (R264). -/
def loadCoefs (s : State) (base : Nat) : List Int := (List.range 64).map fun k => s.ldI16 (base + 2 * k)

/-- The 64 coefficients of a block, stored from `base` up (R262). -/
def storeCoefs (base : Nat) (q : List Int) : List Store := [stArray i16Bytes base q]

/-- `QUANT` up to its completion (R262). All 64 inputs are checked before any is quantized, so a non-finite input is
reported before an out-of-range coefficient (R353). -/
def runQuant (s : State) : Result := do
  failIf (decide (15 < s.level)) .qLevel
  regionChecks .quant s
  let d ← loadBlock s s.src
  let q ← mapE (quantize s.level) d
  return .ofWrites (storeCoefs s.dst q)

/-- `DEQUANT` up to its completion (R264). -/
def runDequant (s : State) : Result := do
  failIf (decide (15 < s.level)) .qLevel
  regionChecks .dequant s
  return .ofWrites (storeBlock s.dst ((loadCoefs s s.src).map (dequantize s.level)))

/-- Sample k of the block at (col, row): level-shifted inside the image, +0.0 outside it (R265). Block row i is image row
8·row + i, block column j image column 8·col + j. -/
def extractElem (sample : Nat → Nat → Nat) (w h col row k : Nat) : F64 :=
  if 8 * col + k % 8 < w ∧ 8 * row + k / 8 < h then
    fOfInt (Int.ofNat (sample (8 * col + k % 8) (8 * row + k / 8)) - 128)
  else 0

/-- `extract` of the rule: one level-shifted block of a plane (R265). -/
def extractBlock (sample : Nat → Nat → Nat) (w h col row : Nat) : List F64 :=
  (List.range 64).map (extractElem sample w h col row)

/-- Element k of a block put back into a plane: 128 added with one rounding, clamped and rounded to a byte; nothing
outside the image (R267). `addr` gives the address of a pixel's byte. -/
def insertElem (addr : Nat → Nat → Nat) (w h col row : Nat) (f : List F64) (k : Nat) : Except ErrCode (List Store) :=
  if 8 * col + k % 8 < w ∧ 8 * row + k / 8 < h then do
    let v ← cAdd (f.getD k 0) (fOfNat 128)
    return [stU8 (addr (8 * col + k % 8) (8 * row + k / 8)) (toByte v)]
  else .ok []

/-- `insert` of the rule: one block of real samples written back into a plane (R267). -/
def insertBlock (addr : Nat → Nat → Nat) (w h col row : Nat) (f : List F64) : Except ErrCode (List Store) := do
  let ws ← mapE (insertElem addr w h col row f) (List.range 64)
  return ws.flatten

/-- The address of the byte of pixel (x, y) in a plane of width w with pixel stride p (spec/20_memory.md R82). -/
def planeAddr (base p w x y : Nat) : Nat := base + p * (y * w + x)

/-- (BX, BY) is outside the grid of the image in `DIM` (R39). -/
def blockOutside (s : State) : Bool := decide (ceil8 s.imgW ≤ s.blkX) || decide (ceil8 s.imgH ≤ s.blkY)

/-- `BLK_EXTRACT` up to its completion (R266). -/
def runBlkExtract (s : State) : Result := do
  failIf (s.srcStride == 0) .stride
  failIf (blockOutside s) .block
  regionChecks .blkExtract s
  return .ofWrites (storeBlock s.dst
    (extractBlock (fun x y => s.ldU8 (planeAddr s.src s.srcStride s.imgW x y)) s.imgW s.imgH s.blkX s.blkY))

/-- `BLK_INSERT` up to its completion (R268). -/
def runBlkInsert (s : State) : Result := do
  failIf (s.dstStride == 0) .stride
  failIf (blockOutside s) .block
  regionChecks .blkInsert s
  let f ← loadBlock s s.src
  let ws ← insertBlock (planeAddr s.dst s.dstStride s.imgW) s.imgW s.imgH s.blkX s.blkY f
  return .ofWrites ws

/-- Block b of channel c of the PixelBuffer at `SRC`: extracted, transformed and quantized (R280). -/
def encodeBlock (s : State) (c b : Nat) : Except ErrCode (List Int) := do
  let d ← fdct (extractBlock (fun x y => s.ldU8 (planeAddr s.src 3 s.imgW x y + c)) s.imgW s.imgH
    (b % ceil8 s.imgW) (b / ceil8 s.imgW))
  mapE (quantize s.level) d

/-- The coefficient set of channel c, block after block (R280, R283). -/
def encodeChannel (s : State) (c : Nat) : Except ErrCode (List Store) := do
  let blocks ← mapE (encodeBlock s c) (List.range (ceil8 s.imgW * ceil8 s.imgH))
  return storeEach (stArray i16Bytes) (s.coefBase c) 128 blocks

/-- `ENCODE` up to its completion (R280): channel R, then G, then B. -/
def runEncode (s : State) : Result := do
  failIf (decide (15 < s.level)) .qLevel
  regionChecks .encode s
  let ws ← mapE (encodeChannel s) [0, 1, 2]
  return .ofWrites ws.flatten

/-- `QUANT`: quantize one block of 64 real coefficients (R262). -/
def execQuant (s : State) : Outcome State Fault Refusal := .next (finish s (runQuant s))

/-- `DEQUANT`: dequantize one block of 64 integer coefficients (R264). -/
def execDequant (s : State) : Outcome State Fault Refusal := .next (finish s (runDequant s))

/-- `BLK_EXTRACT`: extract one block from a plane (R266). -/
def execBlkExtract (s : State) : Outcome State Fault Refusal := .next (finish s (runBlkExtract s))

/-- `BLK_INSERT`: insert one block into a plane (R268). -/
def execBlkInsert (s : State) : Outcome State Fault Refusal := .next (finish s (runBlkInsert s))

/-- `ENCODE`: encode a whole RGB image into three coefficient sets (R280). -/
def execEncode (s : State) : Outcome State Fault Refusal := .next (finish s (runEncode s))

end Sys2Proof.Machine
end

