-- ==== Sys2Proof/Machine/ProgressiveDecoder.lean ====
section
/-!
DEFINITION. The progressive coefficient decoder: `PD_INIT`, `PD_STEP`, `PD_RESET`
(spec/44_progressive_decoder.md R300 to R321).
-/

namespace Sys2Proof.Machine

open Host (Outcome)

/-- The mode `PDCFG.MODE` selects; 3 is reserved (spec/10_state.md R44, R302). -/
def modeOfBits (b : BitVec 2) : Option Mode :=
  match b.toNat with
  | 0 => some .baseline
  | 1 => some .spectral
  | 2 => some .successive
  | _ => none

/-- The number of a mode, as `PD_STATE` shows it (spec/10_state.md R47). -/
def modeNumber : Mode → Nat
  | .baseline => 0
  | .spectral => 1
  | .successive => 2

/-- `totalSteps(mode, W, H)` (R302). -/
def totalSteps (m : Mode) (w h : Nat) : Nat :=
  match m with
  | .baseline => ceil8 w * ceil8 h
  | .spectral => 64
  | .successive => 16

/-- Further steps remain: the value of `MORE` (R301, R311, R321). -/
def PdContext.stepsRemain (p : PdContext) : Bool := decide (p.step.toNat < p.total.toNat)

/-- The context a successful `PD_INIT` constructs (R301). -/
def initialContext (s : State) (m : Mode) : PdContext :=
  { valid := true, mode := m, step := 0, total := BitVec.ofNat 32 (totalSteps m s.imgW s.imgH)
    w := BitVec.ofNat 16 s.imgW, h := BitVec.ofNat 16 s.imgH, n := BitVec.ofNat 4 s.level
    coef0 := s.opr.coef0, coef1 := s.opr.coef1, coef2 := s.opr.coef2 }

/-- `PD_INIT` up to its completion (R300, R301). The reserved mode is `E_MODE`, after `E_QLEVEL` and before the memory
checks. It reads and writes no LMEM. -/
def runPdInit (s : State) : Result := do
  failIf (decide (15 < s.level)) .qLevel
  match modeOfBits s.opr.pdcfgMode with
  | none => .error .mode
  | some m => do
    regionChecks .pdInit s
    return { writes := [], aq := none, pd := some (initialContext s m, (initialContext s m).stepsRemain) }

/-- `bitmask(c, k)`: the k + 1 most significant magnitude bits of c, from its own highest set bit, and its sign (R312). -/
def bitmask (c : Int) (k : Nat) : Int :=
  if c = 0 then 0
  else if c < 0 then -Int.ofNat (maskMag c.natAbs) else Int.ofNat (maskMag c.natAbs)
where
  /-- (m div 2^low)·2^low, low = max(0, h − k). -/
  maskMag (m : Nat) : Nat := (m >>> (topBit m - k)) <<< (topBit m - k)

/-- What step k of a mode keeps of the coefficient at index idx (R313 to R316). -/
def keepCoef (m : Mode) (k idx : Nat) (c : Int) : Int :=
  match m with
  | .baseline => c
  | .spectral => if idx ≤ k then c else 0
  | .successive => bitmask c k

/-- The coefficients of a block, each replaced by what the mode keeps of it, from index idx on. -/
def keepFrom (m : Mode) (k : Nat) : Nat → List Int → List Int
  | _, [] => []
  | idx, c :: cs => keepCoef m k idx c :: keepFrom m k (idx + 1) cs

/-- Channel c of block b, decoded into the output PixelBuffer: dequantize with the latched N, inverse transform, insert
(R316). The coefficients are read from LMEM at this step. -/
def renderChannel (s : State) (b c : Nat) : Except ErrCode (List Store) := do
  let q := keepFrom s.pd.mode s.pd.step.toNat 0 (loadCoefs s (s.pd.coefBase c + 128 * b))
  let f ← idct (q.map (dequantize s.pd.n.toNat))
  insertBlock (fun x y => planeAddr s.dst 3 s.pd.w.toNat x y + c) s.pd.w.toNat s.pd.h.toNat
    (b % s.pd.blocksX) (b / s.pd.blocksX) f

/-- `renderBlock(b, keep)`: all three channels of block b (R316). -/
def renderBlock (s : State) (b : Nat) : Except ErrCode (List Store) := do
  let ws ← mapE (renderChannel s b) [0, 1, 2]
  return ws.flatten

/-- The blocks a step renders: block k alone in BASELINE, every block in the other modes (R313 to R315). -/
def blocksRendered (p : PdContext) : List Nat :=
  match p.mode with
  | .baseline => [p.step.toNat]
  | .spectral => List.range p.blocks
  | .successive => List.range p.blocks

/-- The zeroing of the whole output region at a step that starts at step 0 (R317). -/
def zeroOutput (s : State) : List Store :=
  if s.pd.step = 0 then [⟨s.dst, List.replicate s.pd.outputSize 0⟩] else []

/-- The output region meets a latched coefficient set (R310). -/
def outputOverlaps (s : State) : Bool :=
  decide (0 < s.pd.outputSize) && decide (0 < s.pd.blocks)
    && s.pd.coefRegions.any fun r => Region.meets ⟨s.dst, 1, s.pd.outputSize⟩ r

/-- The context after one step (R311). -/
def PdContext.advance (p : PdContext) : PdContext := { p with step := p.step + 1 }

/-- `PD_STEP` up to its completion: the checks of R310, exhaustion (R318), or one step (R311). A context no run reaches
follows the same text (DEDUCED, safe: log entry 13). -/
def runPdStep (s : State) : Result := do
  failIf (!s.pd.valid) .noInit
  if s.pd.exhausted then return { writes := [], aq := none, pd := some (s.pd, false) }
  else do
    failIf (!Region.inRange ⟨s.dst, 1, s.pd.outputSize⟩ s.lmemBytes) .range
    failIf (outputOverlaps s) .overlap
    let ws ← mapE (renderBlock s) (blocksRendered s.pd)
    return { writes := zeroOutput s ++ ws.flatten, aq := none
             pd := some (s.pd.advance, s.pd.advance.stepsRemain) }

/-- `PD_RESET` up to its completion (R321). -/
def runPdReset (s : State) : Result := do
  failIf (!s.pd.valid) .noInit
  return { writes := [], aq := none, pd := some ({ s.pd with step := 0 }, decide (0 < s.pd.total.toNat)) }

/-- `PD_INIT`: construct the decoder context (R300). -/
def execPdInit (s : State) : Outcome State Fault Refusal := .next (finish s (runPdInit s))

/-- `PD_STEP`: one decoder step (R310, R311). -/
def execPdStep (s : State) : Outcome State Fault Refusal := .next (finish s (runPdStep s))

/-- `PD_RESET`: rewind the decoder (R321). -/
def execPdReset (s : State) : Outcome State Fault Refusal := .next (finish s (runPdReset s))

end Sys2Proof.Machine
end

