-- ==== Sys2Proof/Machine/HostPort.lean ====
section
/-!
DEFINITION. The host's side of the block: CSR reads and writes (spec/10_state.md R31 to R52), host LMEM accesses
(spec/20_memory.md R84, R98), and the reset input (spec/70_reset_and_hazards.md R400 to R402).
-/

namespace Sys2Proof.Machine

open Host (Cell Outcome)

/-! ### CSR reads -/

/-- The value of a read of `AQCFG` (R43). -/
def aqcfgWord (o : OperandRegs) : Word :=
  BitVec.ofNat 32 (o.aqBits.toNat + 256 * o.aqMaxIter.toNat + 65536 * bit o.aqFmt)

/-- A decoder register reads 0 while `PDV` = 0 (R47 to R49). -/
def whileValid (p : PdContext) (v : Word) : Word := if p.valid then v else 0

/-- The register at a word-aligned offset, as a host read gives it (R31). `CMD` and the reserved offsets read 0. -/
def csrValue (s : State) (offset : Nat) : Word :=
  match offset with
  | 0x00 => Config.idWord
  | 0x04 => BitVec.ofNat 32 (bit s.irqEn)
  | 0x08 => statusWord s
  | 0x10 => s.opr.src
  | 0x14 => s.opr.dst
  | 0x18 => s.opr.aux
  | 0x1C => s.opr.coef0
  | 0x20 => s.opr.coef1
  | 0x24 => s.opr.coef2
  | 0x28 => s.opr.dim
  | 0x2C => s.opr.blk
  | 0x30 => s.opr.qlevel
  | 0x34 => s.opr.count
  | 0x38 => s.opr.stride
  | 0x3C => aqcfgWord s.opr
  | 0x40 => BitVec.ofNat 32 s.opr.pdcfgMode.toNat
  | 0x44 => s.aqIters
  | 0x48 => s.aqNctr
  | 0x4C => whileValid s.pd (BitVec.ofNat 32 (modeNumber s.pd.mode))
  | 0x50 => whileValid s.pd s.pd.step
  | 0x54 => whileValid s.pd s.pd.total
  | _ => 0

/-! ### CSR writes -/

/-- The operand registers after an idle block's write to one of them; none for an offset that names no operand register.
Reserved bits of the written value are dropped (R36 to R44, R51). -/
def writeOperand (o : OperandRegs) (offset : Nat) (v : Word) : Option OperandRegs :=
  match offset with
  | 0x10 => some { o with src := v }
  | 0x14 => some { o with dst := v }
  | 0x18 => some { o with aux := v }
  | 0x1C => some { o with coef0 := v }
  | 0x20 => some { o with coef1 := v }
  | 0x24 => some { o with coef2 := v }
  | 0x28 => some { o with dim := v }
  | 0x2C => some { o with blk := v }
  | 0x30 => some { o with qlevel := v }
  | 0x34 => some { o with count := v }
  | 0x38 => some { o with stride := v }
  | 0x3C => some { o with aqBits := v.extractLsb' 0 4, aqMaxIter := v.extractLsb' 8 8, aqFmt := v.getLsbD 16 }
  | 0x40 => some { o with pdcfgMode := v.extractLsb' 0 2 }
  | _ => none

/-- A write ignored because the block is busy sets `OVR` (R35, R51). -/
def State.overrun (s : State) : State := { s with status := s.status.overrun }

/-- A write to `CMD` (R35). -/
def writeCmd (s : State) (w : Word) : State := if s.status.busy then s.overrun else s.acceptCommand w

/-- A write to `CTRL` keeps bit 0 alone, busy or not (R33). -/
def writeCtrl (s : State) (v : Word) : State := { s with irqEn := v.getLsbD 0 }

/-- A host write to the register at a word-aligned offset (R51). Read-only registers and reserved offsets ignore it. -/
def csrWrite (s : State) (offset : Nat) (v : Word) : State :=
  match offset with
  | 0x04 => writeCtrl s v
  | 0x08 => s.writeStatus v
  | 0x0C => writeCmd s v
  | _ =>
    match writeOperand s.opr offset v with
    | none => s
    | some o => if s.status.busy then s.overrun else { s with opr := o }

/-! ### The contract of a host access -/

/-- A CSR access is 32 bits wide at a word-aligned offset of the 256-byte window (R31, R52). An offset outside the window:
DESIGN CHOICE, safe: log entry 6. -/
def csrAccessOk (offset width : Nat) : Bool := width == 4 && offset % 4 == 0 && decide (offset < 256)

/-- A host LMEM access stays below `LMEM_BYTES` (R84). One of no bytes: DESIGN CHOICE, safe: log entry 6. -/
def lmemAccessOk (s : State) (addr len : Nat) : Bool := len == 0 || decide (addr + len ≤ s.lmemBytes)

/-- What the block gives back, appended to the replies so far (R424). -/
def State.reply (s : State) (r : Reply) : State := { s with replies := s.replies ++ [r] }

/-! ### Reset -/

/-- The bytes of a region that lie in LMEM become indeterminate: each takes its own free value of a draw (R402). -/
def blurRegion (bytes draw : Nat) (m : List Cell) (r : Region) : List Cell :=
  writeRun m r.base ((List.range (Nat.min r.size (bytes - r.base))).map fun k => Config.freeByte draw (r.base + k))

/-- The output regions of the command in flight, whatever its checks would say; an illegal word names none (R402). DESIGN
CHOICE, safe: log entry 4. -/
def abandonedRegions (s : State) : List Region :=
  match decode s.pending with
  | .ok i => outputRegions i s
  | .error _ => []

/-- LMEM over a reset with power held: kept, but the output regions of an abandoned command become indeterminate. -/
def lmemOverReset (s : State) : List Cell :=
  if s.status.busy then (abandonedRegions s).foldl (blurRegion s.lmemBytes s.nextDraw) s.lmem else s.lmem

/-- The reset input with power held (R400 to R402): every register at its reset value, a command in flight abandoned. The
build parameter, the host's own events and what it has read stand as they were (DESIGN CHOICE, safe: log entry 16). -/
def warmReset (s : State) : State :=
  { State.reset with
    lmem := lmemOverReset s, lmemExp := s.lmemExp, lmemDraw := s.lmemDraw
    nextDraw := if s.status.busy then s.nextDraw + 1 else s.nextDraw
    agenda := s.agenda, replies := s.replies }

/-- A power-on reset: as a reset, and every LMEM byte indeterminate afresh (R401, spec/60_exceptions.md R374). -/
def powerOnReset (s : State) : State :=
  { State.reset with
    lmemExp := s.lmemExp, lmemDraw := s.nextDraw, nextDraw := s.nextDraw + 1, agenda := s.agenda, replies := s.replies }

/-! ### Host events -/

/-- A host LMEM access, which is held while the block is busy (R98). -/
def Event.heldWhileBusy : Event → Bool
  | .lmemRead _ _ => true
  | .lmemWrite _ _ => true
  | .perform => false
  | .csrRead _ _ => false
  | .csrWrite _ _ _ => false
  | .reset => false
  | .powerCycle => false

/-- One host event, at a moment it is not held (R424). The block's own turn is not a host event and changes nothing here. -/
def hostEvent (e : Event) (s : State) : Outcome State Fault Refusal :=
  match e with
  | .perform => .next s
  | .csrRead offset width =>
    if csrAccessOk offset width then .next (s.reply (.csr (csrValue s offset))) else .refused .csrAccess
  | .csrWrite offset width v =>
    if csrAccessOk offset width then .next (csrWrite s offset v) else .refused .csrAccess
  | .lmemRead addr len =>
    if lmemAccessOk s addr len then .next (s.reply (.lmem (s.ldBytes addr len))) else .refused .lmemAccess
  | .lmemWrite addr bytes =>
    if lmemAccessOk s addr bytes.length then .next (s.setLmem (writeRun s.lmem addr bytes)) else .refused .lmemAccess
  | .reset => .next (warmReset s)
  | .powerCycle => .next (powerOnReset s)

end Sys2Proof.Machine
end

