-- ==== Sys2Proof/Machine/AdaptiveQuantizer.lean ====
section
/-!
DEFINITION. The adaptive scalar quantizer, `AQ` (spec/41_adaptive_quantizer.md R180 to R196), step by step in the
rules' order: input, passthrough, degenerate range, histogram, seeding, refinement, output.
-/

namespace Sys2Proof.Machine

open Host (Outcome)

/-- `k + 0.5` for an integer k, exact (R186, R187, R188). -/
def halfPast (k : Nat) : F64 := fLit (2 * k + 1) 2

/-- The checks of R181, lowest code first; the memory checks are those of the region table. -/
def aqChecks (s : State) : Except ErrCode Unit := do
  failIf (s.depth == 0 || decide (8 < s.depth)) .bits
  failIf (s.elements == 0) .count
  failIf (s.srcStride == 0 || s.dstStride == 0
    || (!s.opr.aqFmt && (s.srcStride % 8 != 0 || s.dstStride % 8 != 0))) .stride
  regionChecks .aq s

/-- Sample m of the input as a binary64 value (R182). -/
def aqSample (s : State) (m : Nat) : Except ErrCode F64 :=
  if s.opr.aqFmt then .ok (fOfNat (s.ldU8 (s.src + m * s.srcStride)))
  else chk (s.ldF64 (s.src + m * s.srcStride))

/-- The least sample, the first of equal ones (R184). -/
def aqMin : F64 → List F64 → F64
  | mn, [] => mn
  | mn, x :: xs => aqMin (if fLt x mn then x else mn) xs

/-- The greatest sample, the first of equal ones (R184). -/
def aqMax : F64 → List F64 → F64
  | mx, [] => mx
  | mx, x :: xs => aqMax (if fLt mx x then x else mx) xs

/-- The histogram bin of a sample (R185). -/
def aqBin (mn w x : F64) : Except ErrCode Nat := do
  let t ← cDiv (← cSub x mn) w
  return Nat.min (fFloor t).toNat 255

/-- The counts with the one at index b raised by one (R185). -/
def bump : List Nat → Nat → List Nat
  | [], _ => []
  | c :: cs, 0 => (c + 1) :: cs
  | c :: cs, b + 1 => c :: bump cs b

/-- The 256-bin histogram of bin numbers (R185). -/
def histogram (bins : List Nat) : List Nat := bins.foldl bump (List.replicate 256 0)

/-- The midpoint of bin b (R186). -/
def binMidpoint (mn w : F64) (b : Nat) : Except ErrCode F64 := do
  cAdd mn (← cMul (halfPast b) w)

/-- Seed centers: the bins in order, each with its count and midpoint; at most one center a bin (R187). -/
def seedCenters (levels : Nat) (per : F64) : Nat → Nat → List (Nat × F64) → Except ErrCode (List F64)
  | _, _, [] => .ok []
  | k, cum, bin :: bins =>
    if k < levels then do
      let target ← cMul (halfPast k) per
      if fLe target (fOfNat (cum + bin.1)) then do
        let cs ← seedCenters levels per (k + 1) (cum + bin.1) bins
        return bin.2 :: cs
      else seedCenters levels per k (cum + bin.1) bins
    else .ok []

/-- The evenly spaced value at index j across the range (R188). -/
def fallbackCenter (mn stepL : F64) (j : Nat) : Except ErrCode F64 := do
  cAdd mn (← cMul (halfPast j) stepL)

/-- The seed centers, then the fallback values at the indices left unassigned (R187, R188). -/
def initialCenters (levels n : Nat) (mn range : F64) (bins : List (Nat × F64)) : Except ErrCode (List F64) := do
  let per ← cDiv (fOfNat n) (fOfNat levels)
  let seeds ← seedCenters levels per 0 0 bins
  let stepL ← cDiv range (fOfNat levels)
  let rest ← mapE (fallbackCenter mn stepL) ((List.range levels).drop seeds.length)
  return seeds ++ rest

/-- The index of the nearest center: `best` at distance `bd` so far, the first strictly smaller distance wins (R190). -/
def nearestFrom (mid : F64) (best : Nat) (bd : F64) : Nat → List F64 → Except ErrCode Nat
  | _, [] => .ok best
  | j, c :: cs => do
    let d ← cSub mid c
    if fLt (fAbs d) bd then nearestFrom mid j (fAbs d) (j + 1) cs else nearestFrom mid best bd (j + 1) cs

/-- The nearest center to a bin midpoint, ties to the lower index (R190). -/
def nearestCenter (cs : List F64) (mid : F64) : Except ErrCode Nat :=
  match cs with
  | [] => .ok 0
  | c :: rest => do
    let d ← cSub mid c
    nearestFrom mid 0 (fAbs d) 1 rest

/-- A population-weighted sum and its count, for each center. -/
abbrev Tally := List (F64 × Nat)

/-- A bin's population added to the tally of the center at an index (R190). -/
def addToTally (count : Nat) (mid : F64) : Tally → Nat → Except ErrCode Tally
  | [], _ => .ok []
  | t :: ts, 0 => do
    let sum ← cAdd t.1 (← cMul (fOfNat count) mid)
    return (sum, t.2 + count) :: ts
  | t :: ts, b + 1 => do
    let ts' ← addToTally count mid ts b
    return t :: ts'

/-- One bin of the assignment; an empty bin takes no part (R190). -/
def assignBin (cs : List F64) (tally : Tally) (bin : Nat × F64) : Except ErrCode Tally :=
  if bin.1 = 0 then .ok tally
  else do
    let best ← nearestCenter cs bin.2
    addToTally bin.1 bin.2 tally best

/-- The new value of one center, and how far it moved (R191). -/
def updateCenter (p : F64 × (F64 × Nat)) : Except ErrCode (F64 × F64) := do
  let new ← if p.2.2 = 0 then .ok p.1 else cDiv p.2.1 (fOfNat p.2.2)
  let d ← cSub new p.1
  return (new, fAbs d)

/-- One pass: assignment and update; the new centers in index order, and the largest movement (R190, R191). -/
def refinePass (bins : List (Nat × F64)) (cs : List F64) : Except ErrCode (List F64 × F64) := do
  let tally ← foldE (assignBin cs) (cs.map fun _ => ((0 : F64), 0)) bins
  let upd ← mapE updateCenter (cs.zip tally)
  return (upd.map Prod.fst, aqMax 0 (upd.map Prod.snd))

/-- A value put after every element that is not greater (R192). -/
def insertAscending (x : F64) : List F64 → List F64
  | [] => [x]
  | y :: ys => if fLt x y then x :: y :: ys else y :: insertAscending x ys

/-- Stable ascending sort by the IEEE comparison (R192). -/
def sortAscending (xs : List F64) : List F64 := xs.foldl (fun acc x => insertAscending x acc) []

/-- The refinement loop with at most `fuel` passes left, `iters` done: the centers and the passes performed (R189). -/
def refine (bins : List (Nat × F64)) : Nat → List F64 → Nat → Except ErrCode (List F64 × Nat)
  | 0, cs, iters => .ok (cs, iters)
  | fuel + 1, cs, iters => do
    let p ← refinePass bins cs
    if fLe p.2 (fLit 1 4) then return (sortAscending p.1, iters + 1)
    else refine bins fuel (sortAscending p.1) (iters + 1)

/-- The upper boundaries: the midpoints between consecutive centers (R194). -/
def boundaries : List F64 → Except ErrCode (List F64)
  | a :: b :: cs => do
    let bnd ← cDiv (← cAdd a b) (fOfNat 2)
    let rest ← boundaries (b :: cs)
    return bnd :: rest
  | _ => .ok []

/-- The first center whose upper boundary the sample does not exceed; the last has none (R194). -/
def assignSample : List F64 → List F64 → F64 → F64
  | c :: cs, b :: bs, x => if fLe x b then c else assignSample cs bs x
  | c :: _, [], _ => c
  | [], _, _ => 0

/-- The outcome of the quantizer on a sample array: the centers, ascending, the passes, and the outputs. -/
structure AqOutcome where
  /-- The centers written to `AUX`. -/
  centers : List F64
  /-- The refinement passes performed. -/
  iters : Nat
  /-- The output samples. -/
  out : List F64
  deriving DecidableEq, Repr

/-- R185 to R194 on samples that are not all equal. -/
def aqGeneral (levels maxIter : Nat) (mn mx : F64) (xs : List F64) : Except ErrCode AqOutcome := do
  let range ← cSub mx mn
  let w ← cDiv range (fOfNat 256)
  let nums ← mapE (aqBin mn w) xs
  let mids ← mapE (binMidpoint mn w) (List.range 256)
  let bins := (histogram nums).zip mids
  let seeds ← initialCenters levels xs.length mn range bins
  let r ← refine bins maxIter seeds 0
  let cs := sortAscending r.1
  let bnd ← boundaries cs
  return ⟨cs, r.2, xs.map (assignSample cs bnd)⟩

/-- The quantizer for 1 ≤ BITS ≤ 7: a constant input collapses to its value (R184), any other goes through R185 to
R194. There is at least one sample. -/
def aqQuantize (levels maxIter : Nat) : List F64 → Except ErrCode AqOutcome
  | [] => .ok ⟨[], 0, []⟩
  | x :: xs =>
    let mn := aqMin x xs
    let mx := aqMax x xs
    if fEq mn mx then .ok ⟨List.replicate levels mn, 0, List.replicate (xs.length + 1) mn⟩
    else aqGeneral levels maxIter mn mx (x :: xs)

/-- The output samples in the format `FMT` selects (R195). -/
def aqStoreSamples (s : State) (out : List F64) : List Store :=
  if s.opr.aqFmt then storeEach stU8 s.dst s.dstStride (out.map toByte)
  else storeEach stF64 s.dst s.dstStride out

/-- The passthrough at BITS = 8: bytes as bytes, binary64 values bit for bit, no center (R183). -/
def aqPassthrough (s : State) (xs : List F64) : Staged :=
  { writes :=
      if s.opr.aqFmt then
        storeEach stU8 s.dst s.dstStride
          ((List.range s.elements).map fun m => s.ldByte (s.src + m * s.srcStride))
      else storeEach stF64 s.dst s.dstStride xs
    aq := some (0, 0)
    pd := none }

/-- `AQ` up to its completion: R181 to R196. -/
def runAq (s : State) : Result := do
  aqChecks s
  let xs ← mapE (aqSample s) (List.range s.elements)
  if s.depth = 8 then return aqPassthrough s xs
  else do
    let r ← aqQuantize s.levels s.opr.aqMaxIter.toNat xs
    return { writes := aqStoreSamples s r.out ++ storeEach stF64 s.aux 8 r.centers
             aq := some (BitVec.ofNat 32 r.iters, BitVec.ofNat 32 s.levels)
             pd := none }

/-- `AQ`: adaptive scalar quantization (R180). -/
def execAq (s : State) : Outcome State Fault Refusal := .next (finish s (runAq s))

end Sys2Proof.Machine
end

