-- ==== Sys2Proof/Machine/Color.lean ====
section
/-!
DEFINITION. The colour-space converter: `CSC_FWD` and `CSC_INV` (spec/40_color.md R150 to R152). The literals are the
spec's, as printed.
-/

namespace Sys2Proof.Machine

open Host (Outcome)

/-- One pixel of `CSC_FWD`, each formula in the order the rule's parentheses give (R151). -/
def yuvOfRgb (r g b : F64) : Except ErrCode (List F64) := do
  let y ← cAdd (← cAdd (← cMul (fLit 299 1000) r) (← cMul (fLit 587 1000) g)) (← cMul (fLit 114 1000) b)
  let u ← cAdd (← cSub (← cMul (fNeg (fLit 147 1000)) r) (← cMul (fLit 289 1000) g)) (← cMul (fLit 436 1000) b)
  let v ← cSub (← cSub (← cMul (fLit 615 1000) r) (← cMul (fLit 515 1000) g)) (← cMul (fLit 100 1000) b)
  return [y, u, v]

/-- One pixel of `CSC_INV` before clamping (R152). -/
def rgbOfYuv (y u v : F64) : Except ErrCode (List F64) := do
  let r ← cAdd y (← cMul (fLit 11398 10000) v)
  let g ← cSub (← cSub y (← cMul (fLit 3946 10000) u)) (← cMul (fLit 5806 10000) v)
  let b ← cAdd y (← cMul (fLit 20321 10000) u)
  return [r, g, b]

/-- Pixel p of `CSC_FWD`: three bytes in, three binary64 values out (R151). -/
def cscFwdPixel (s : State) (p : Nat) : Except ErrCode Store := do
  let yuv ← yuvOfRgb (fOfNat (s.ldU8 (s.src + 3 * p))) (fOfNat (s.ldU8 (s.src + 3 * p + 1)))
    (fOfNat (s.ldU8 (s.src + 3 * p + 2)))
  return stArray f64Bytes (s.dst + 24 * p) yuv

/-- Pixel p of `CSC_INV`: three binary64 values in, three clamped and rounded bytes out (R152). -/
def cscInvPixel (s : State) (p : Nat) : Except ErrCode Store := do
  let y ← chk (s.ldF64 (s.src + 24 * p))
  let u ← chk (s.ldF64 (s.src + 24 * p + 8))
  let v ← chk (s.ldF64 (s.src + 24 * p + 16))
  let rgb ← rgbOfYuv y u v
  return ⟨s.dst + 3 * p, rgb.map toByte⟩

/-- `CSC_FWD` up to its completion (R151). -/
def runCscFwd (s : State) : Result := do
  regionChecks .cscFwd s
  let ws ← mapE (cscFwdPixel s) (List.range s.elements)
  return .ofWrites ws

/-- `CSC_INV` up to its completion (R152). -/
def runCscInv (s : State) : Result := do
  regionChecks .cscInv s
  let ws ← mapE (cscInvPixel s) (List.range s.elements)
  return .ofWrites ws

/-- `CSC_FWD`: RGB to YUV (R151). -/
def execCscFwd (s : State) : Outcome State Fault Refusal := .next (finish s (runCscFwd s))

/-- `CSC_INV`: YUV to RGB (R152). -/
def execCscInv (s : State) : Outcome State Fault Refusal := .next (finish s (runCscInv s))

end Sys2Proof.Machine
end

