-- ==== Sys2Proof/Machine/Control.lean ====
section
/-!
DEFINITION. The command of no unit, `NOP` (spec/45_control.md R350), and what performing an illegal word does
(spec/30_encoding.md R122).
-/

namespace Sys2Proof.Machine

open Host (Outcome)

/-- `NOP` stages nothing (R350). -/
def runNop (_ : State) : Result := .ok (.ofWrites [])

/-- `NOP` (R350). -/
def execNop (s : State) : Outcome State Fault Refusal := .next (finish s (runNop s))

/-- An illegal word completes with `E_BADOP`; nothing is read or written except `STATUS` (R122). -/
def performIllegal (s : State) : Outcome State Fault Refusal := .next (finish s (.error .badOp))

end Sys2Proof.Machine
end

