-- ==== Sys2Proof/Machine/Dispatch.lean ====
section
/-!
DEFINITION. The meaning of every command (spec/30_encoding.md R121): performing it, from the state in which it is in
flight to the state after its completion (spec/45_control.md R352).
-/

namespace Sys2Proof.Machine

def exec (i : Instr) (s : State) : Host.Outcome State Fault Refusal :=
  match i with
  | .nop => Sys2Proof.Machine.execNop s
  | .cscFwd => Sys2Proof.Machine.execCscFwd s
  | .cscInv => Sys2Proof.Machine.execCscInv s
  | .aq => Sys2Proof.Machine.execAq s
  | .fdct => Sys2Proof.Machine.execFdct s
  | .idct => Sys2Proof.Machine.execIdct s
  | .quant => Sys2Proof.Machine.execQuant s
  | .dequant => Sys2Proof.Machine.execDequant s
  | .blkExtract => Sys2Proof.Machine.execBlkExtract s
  | .blkInsert => Sys2Proof.Machine.execBlkInsert s
  | .encode => Sys2Proof.Machine.execEncode s
  | .pdInit => Sys2Proof.Machine.execPdInit s
  | .pdStep => Sys2Proof.Machine.execPdStep s
  | .pdReset => Sys2Proof.Machine.execPdReset s

end Sys2Proof.Machine
end

