-- ==== Sys2Proof/Machine/Perform.lean ====
section
/-!
DEFINITION. The block agent's one step (spec/45_control.md R352): decode the pending word and perform it.
-/

namespace Sys2Proof.Machine

open Host (Outcome)

/-- The perform step, for a block with a command in flight: an illegal word completes with `E_BADOP`, a legal one is
performed (R352, R353). -/
def perform (s : State) : Outcome State Fault Refusal :=
  match decode s.pending with
  | .ok i => exec i s
  | .error _ => performIllegal s

end Sys2Proof.Machine
end

