-- ==== Sys2Proof/Machine/Step.lean ====
section
/-!
DEFINITION. One step of the machine: the next event of the total order (spec/20_memory.md R93). A host LMEM access that
comes up while the block is busy is held, and the block performs its command instead (R98); with no event left, a
command in flight is still performed (spec/70_reset_and_hazards.md R422), and an idle block stays as it is
(spec/60_exceptions.md R374).
-/

namespace Sys2Proof.Machine

open Host (Outcome)

/-- The block's turn: perform the command in flight, or nothing if there is none (spec/45_control.md R351). -/
def blockTurn (s : State) : Outcome State Fault Refusal := if s.status.busy then perform s else .next s

/-- One step. A held LMEM access is held before its range is tested: DESIGN CHOICE, safe: log entry 14. -/
def step (s : State) : Outcome State Fault Refusal :=
  match s.agenda with
  | [] => blockTurn s
  | .perform :: rest => blockTurn (s.setAgenda rest)
  | e :: rest =>
    if s.status.busy && e.heldWhileBusy then perform s else hostEvent e (s.setAgenda rest)

/-- The state in which the command word of a row of the opcode table has just been accepted and the block's turn comes
next: the word is pending, `BUSY` is set, `DONE` is clear (spec/10_state.md R35). How a command comes to run: DESIGN CHOICE,
safe: log entry 10. -/
def State.withFetchWord (s : State) (nbits w : Nat) : State :=
  (s.acceptCommand (tableWord nbits w)).setAgenda (.perform :: s.agenda)

end Sys2Proof.Machine
end

