-- ==== Sys2Proof/Safety.lean ====
section
/-!
DEFINITION. The terms claims are stated in: what a completion leaves, what a command keeps, the exact value of a binary64
encoding, the checks of each command as the spec lists them, the data a command computes on, and the invariants of the
machine. None of it is used by the machine itself.
-/

namespace Sys2Proof.Machine

/-! ### Completions -/

/-- The state after a successful completion that stages nothing (spec/45_control.md R352). -/
def succeeded (s : State) : State := { s with status := { s.status with busy := false, done := true, errCode := 0 } }

/-- The state after an unsuccessful completion with a code (spec/45_control.md R352, spec/60_exceptions.md R364). -/
def failed (code : Nat) (s : State) : State :=
  { s with status := { s.status with busy := false, done := true, err := true, errCode := BitVec.ofNat 8 code } }

/-- `t` is `s` after a successful completion that changes nothing else but LMEM. -/
def OnlyLmem (s t : State) : Prop := t = { succeeded s with lmem := t.lmem }

/-! ### What is kept -/

/-- Every byte of LMEM reads as before. -/
def LmemKept (s t : State) : Prop := ∀ a, t.ldByte a = s.ldByte a

/-- Every byte of LMEM outside some regions reads as before. -/
def LmemKeptOutside (rs : List Region) (s t : State) : Prop :=
  ∀ a, (∀ r ∈ rs, a < r.base ∨ r.base + r.size ≤ a) → t.ldByte a = s.ldByte a

/-- Everything that no command may change: the operand registers, `IRQEN`, `OVR`, the pending word, the build parameter,
and what the model keeps of the host and of the free values. -/
def CommandKept (s t : State) : Prop :=
  t.opr = s.opr ∧ t.irqEn = s.irqEn ∧ t.status.ovr = s.status.ovr ∧ t.pending = s.pending ∧ t.lmemExp = s.lmemExp ∧
    t.lmemDraw = s.lmemDraw ∧ t.nextDraw = s.nextDraw ∧ t.agenda = s.agenda ∧ t.replies = s.replies

/-- The report registers of `AQ` are as before. -/
def AqReportKept (s t : State) : Prop := t.aqIters = s.aqIters ∧ t.aqNctr = s.aqNctr

/-- The decoder context and `MORE` are as before (`PDV` is in the context). -/
def DecoderKept (s t : State) : Prop := t.pd = s.pd ∧ t.status.more = s.status.more

/-- Everything of the state but LMEM is as before. -/
def AllButLmemKept (s t : State) : Prop := t = { s with lmem := t.lmem }

/-- `t` is `s` after a completion: the block was busy and is not, and `DONE` is set (spec/45_control.md R352). -/
def CompletedIn (s t : State) : Prop := s.status.busy = true ∧ t.status.busy = false ∧ t.status.done = true

/-- The next event is a reset, with power held or not (spec/70_reset_and_hazards.md R400, spec/60_exceptions.md R374). -/
def ResetNext (s : State) : Prop := ∃ e rest, s.agenda = e :: rest ∧ e ∈ [Event.reset, .powerCycle]

/-! ### The checks of each command -/

/-- Three coefficient sets, each aligned to 2 and of one size. -/
def threeSets (c0 c1 c2 : Word) (size : Nat) : List Region := [⟨c0.toNat, 2, size⟩, ⟨c1.toNat, 2, size⟩, ⟨c2.toNat, 2, size⟩]

/-- The rows of the region table (spec/20_memory.md R87) a command reads, or latches: base, alignment and size, written out
on the registers. A second reading of the table, beside the machine's `inputRegions`. -/
def tableInputs (i : Instr) (s : State) : List Region :=
  let src := s.opr.src.toNat
  let n := s.opr.count.toNat
  let w := s.opr.dim.toNat % 65536
  let h := s.opr.dim.toNat / 65536
  let ss := s.opr.stride.toNat % 65536
  let e := if s.opr.aqFmt then 1 else 8
  match i with
  | .nop => []
  | .cscFwd => [⟨src, 1, 3 * n⟩]
  | .cscInv => [⟨src, 8, 24 * n⟩]
  | .aq => [⟨src, e, if 0 < n then (n - 1) * ss + e else 0⟩]
  | .fdct => [⟨src, 8, 512⟩]
  | .idct => [⟨src, 8, 512⟩]
  | .quant => [⟨src, 8, 512⟩]
  | .dequant => [⟨src, 2, 128⟩]
  | .blkExtract => [⟨src, 1, if 0 < w * h then (w * h - 1) * ss + 1 else 0⟩]
  | .blkInsert => [⟨src, 8, 512⟩]
  | .encode => [⟨src, 1, 3 * (w * h)⟩]
  | .pdInit => threeSets s.opr.coef0 s.opr.coef1 s.opr.coef2 (128 * ((w + 7) / 8 * ((h + 7) / 8)))
  | .pdStep =>
    if s.pd.step = s.pd.total then []
    else threeSets s.pd.coef0 s.pd.coef1 s.pd.coef2 (128 * ((s.pd.w.toNat + 7) / 8 * ((s.pd.h.toNat + 7) / 8)))
  | .pdReset => []

/-- The rows of the region table (spec/20_memory.md R87) a command writes, written out on the registers. A second reading
of the table, beside the machine's `outputRegions`. -/
def tableOutputs (i : Instr) (s : State) : List Region :=
  let dst := s.opr.dst.toNat
  let n := s.opr.count.toNat
  let w := s.opr.dim.toNat % 65536
  let h := s.opr.dim.toNat / 65536
  let ds := s.opr.stride.toNat / 65536
  let bits := s.opr.aqBits.toNat
  let e := if s.opr.aqFmt then 1 else 8
  match i with
  | .nop => []
  | .cscFwd => [⟨dst, 8, 24 * n⟩]
  | .cscInv => [⟨dst, 1, 3 * n⟩]
  | .aq =>
    if 1 ≤ bits ∧ bits ≤ 7 then
      [⟨dst, e, if 0 < n then (n - 1) * ds + e else 0⟩, ⟨s.opr.aux.toNat, 8, 8 * 2 ^ bits⟩]
    else [⟨dst, e, if 0 < n then (n - 1) * ds + e else 0⟩]
  | .fdct => [⟨dst, 8, 512⟩]
  | .idct => [⟨dst, 8, 512⟩]
  | .quant => [⟨dst, 2, 128⟩]
  | .dequant => [⟨dst, 8, 512⟩]
  | .blkExtract => [⟨dst, 8, 512⟩]
  | .blkInsert => [⟨dst, 1, if 0 < w * h then (w * h - 1) * ds + 1 else 0⟩]
  | .encode => threeSets s.opr.coef0 s.opr.coef1 s.opr.coef2 (128 * ((w + 7) / 8 * ((h + 7) / 8)))
  | .pdInit => []
  | .pdStep => if s.pd.step = s.pd.total then [] else [⟨dst, 1, 3 * (s.pd.w.toNat * s.pd.h.toNat)⟩]
  | .pdReset => []

/-- `E_ALIGN` and `E_RANGE`, on the regions of the table: a base that is no multiple of its alignment, whatever the size;
a region of at least one byte that extends past `LMEM_BYTES`, with no wrap (spec/20_memory.md R85 to R87). -/
def memoryChecks (i : Instr) (s : State) : List (Nat × Bool) :=
  [(9, (tableInputs i s ++ tableOutputs i s).any fun r => r.base % r.align != 0),
    (10, (tableInputs i s ++ tableOutputs i s).any fun r => r.size != 0 && decide (2 ^ (16 + s.lmemExp.val) < r.base + r.size))]

/-- The checks of each command with the code each raises, as its rule lists them (spec/60_exceptions.md R360, R362). -/
def commandChecks (i : Instr) (s : State) : List (Nat × Bool) :=
  match i with
  | .nop => []
  | .cscFwd => memoryChecks .cscFwd s
  | .cscInv => memoryChecks .cscInv s
  | .aq =>
    [(2, !(decide (1 ≤ s.depth) && decide (s.depth ≤ 8))), (5, s.elements == 0),
      (6, s.srcStride == 0 || s.dstStride == 0),
      (6, !s.opr.aqFmt && (s.srcStride % 8 != 0 || s.dstStride % 8 != 0))] ++ memoryChecks .aq s
  | .fdct => memoryChecks .fdct s
  | .idct => memoryChecks .idct s
  | .quant => (3, decide (15 < s.level)) :: memoryChecks .quant s
  | .dequant => (3, decide (15 < s.level)) :: memoryChecks .dequant s
  | .blkExtract =>
    [(6, s.srcStride == 0), (7, decide (ceil8 s.imgW ≤ s.blkX) || decide (ceil8 s.imgH ≤ s.blkY))] ++
      memoryChecks .blkExtract s
  | .blkInsert =>
    [(6, s.dstStride == 0), (7, decide (ceil8 s.imgW ≤ s.blkX) || decide (ceil8 s.imgH ≤ s.blkY))] ++
      memoryChecks .blkInsert s
  | .encode => (3, decide (15 < s.level)) :: memoryChecks .encode s
  | .pdInit => [(3, decide (15 < s.level)), (4, s.opr.pdcfgMode == 3)] ++ memoryChecks .pdInit s
  | .pdStep =>
    if s.pd.valid && s.pd.step == s.pd.total then []
    else if s.pd.valid then
      [(10, (tableOutputs .pdStep s).any fun r => r.size != 0 && decide (2 ^ (16 + s.lmemExp.val) < r.base + r.size)),
        (11, (tableOutputs .pdStep s).any fun r => (tableInputs .pdStep s).any fun q =>
          r.size != 0 && q.size != 0 && decide (r.base < q.base + q.size) && decide (q.base < r.base + r.size))]
    else [(8, true)]
  | .pdReset => [(8, !s.pd.valid)]

/-- Every check of the command passes: no condition of its list holds (spec/45_control.md R353). -/
def checksPass (i : Instr) (s : State) : Bool := (commandChecks i s).all fun c => !c.2

/-! ### The data a command computes on -/

/-- The 64 binary64 encodings of a block in LMEM, element (i, j) at index 8i + j (spec/20_memory.md R82). -/
def blockAt (s : State) (base : Nat) : List F64 := (List.range 64).map fun k => s.ldF64 (base + 8 * k)

/-- R of pixel p of `CSC_INV` before clamping (spec/40_color.md R152). -/
def invRed (s : State) (p : Nat) : F64 :=
  fAdd (s.ldF64 (s.src + 24 * p)) (fMul (fLit 11398 10000) (s.ldF64 (s.src + 24 * p + 16)))

/-- G of pixel p of `CSC_INV` before clamping (spec/40_color.md R152). -/
def invGreen (s : State) (p : Nat) : F64 :=
  fSub (fSub (s.ldF64 (s.src + 24 * p)) (fMul (fLit 3946 10000) (s.ldF64 (s.src + 24 * p + 8))))
    (fMul (fLit 5806 10000) (s.ldF64 (s.src + 24 * p + 16)))

/-- B of pixel p of `CSC_INV` before clamping (spec/40_color.md R152). -/
def invBlue (s : State) (p : Nat) : F64 :=
  fAdd (s.ldF64 (s.src + 24 * p)) (fMul (fLit 20321 10000) (s.ldF64 (s.src + 24 * p + 8)))

/-- The values of pixel p that `CSC_INV` checks: its inputs and its results before clamping (spec/40_color.md R152). -/
def invValues (s : State) (p : Nat) : List F64 :=
  [s.ldF64 (s.src + 24 * p), s.ldF64 (s.src + 24 * p + 8), s.ldF64 (s.src + 24 * p + 16), invRed s p, invGreen s p,
    invBlue s p]

/-- Sample m of `AQ` as a binary64 value (spec/41_adaptive_quantizer.md R182). -/
def aqInput (s : State) (m : Nat) : F64 :=
  if s.opr.aqFmt then fOfNat (s.ldU8 (s.src + m * s.srcStride)) else s.ldF64 (s.src + m * s.srcStride)

/-- Sample m of `AQ`'s output in LMEM holds a value, in the format `FMT` selects (spec/41_adaptive_quantizer.md R195). -/
def AqOutputIs (s t : State) (m : Nat) (x : F64) : Prop :=
  if s.opr.aqFmt then t.ldByte (s.dst + m * s.dstStride) = toByte x else t.ldF64 (s.dst + m * s.dstStride) = x

/-- Every byte that is no byte of an output sample, and no byte of a center where centers are written, reads as before
(spec/41_adaptive_quantizer.md R183, R195). -/
def AqBytesKept (s t : State) : Prop :=
  ∀ a, (∀ m < s.elements, a < s.dst + m * s.dstStride ∨ s.dst + m * s.dstStride + s.sampleSize ≤ a) →
    (s.depth ≤ 7 → a < s.aux ∨ s.aux + 8 * 2 ^ s.depth ≤ a) → t.ldByte a = s.ldByte a

/-- No byte of sample m of `AQ`'s output lies in the centers' region, which is written after it. -/
def AqOutputClear (s : State) (m : Nat) : Prop :=
  ∀ k < s.sampleSize, Region.contains ⟨s.aux, 8, 8 * s.levels⟩ (s.dst + m * s.dstStride + k) = false

/-! ### Exact values -/

/-- The exact value of a finite encoding, in units of 2^−1074 (spec/00_scope.md R12). -/
def fValue (x : F64) : Int := if fSign x then -Int.ofNat (fSig x <<< fPow x) else Int.ofNat (fSig x <<< fPow x)

/-- Ordered by the IEEE `≤`, neighbour by neighbour. -/
def ascending : List F64 → Bool
  | a :: b :: cs => fLe a b && ascending (b :: cs)
  | _ => true

/-! ### Invariants -/

/-- LMEM in canonical form, every listed address below `LMEM_BYTES` (spec/20_memory.md R80). -/
def State.LmemInv (s : State) : Prop := Memory.wf s.lmem = true ∧ ∀ c ∈ s.lmem, c.1 < s.lmemBytes

/-- The decoder context of a machine that has run: all zero while invalid, its total the one of its mode and image, its
step no further than the total, its coefficient sets aligned and in range, and `MORE` exactly when a step remains
(spec/10_state.md R53, spec/44_progressive_decoder.md R302, R310, R323). -/
def State.DecoderInv (s : State) : Prop :=
  (s.pd.valid = false → s.pd = PdContext.reset) ∧
  (s.pd.valid = true → s.pd.total.toNat = totalSteps s.pd.mode s.pd.w.toNat s.pd.h.toNat) ∧
  s.pd.step.toNat ≤ s.pd.total.toNat ∧
  (∀ r ∈ s.pd.coefRegions, r.aligned = true ∧ r.inRange s.lmemBytes = true) ∧
  (s.status.more = true ↔ s.pd.valid = true ∧ s.pd.step.toNat < s.pd.total.toNat)

/-- The completion fields of a machine that has run: never busy and done at once, and an error code of the table
(spec/10_state.md R34, R35, spec/60_exceptions.md R360). -/
def State.StatusInv (s : State) : Prop :=
  ¬(s.status.busy = true ∧ s.status.done = true) ∧ s.status.errCode.toNat ≤ 13

/-- Every block of a machine that has run: the three invariants together. -/
def State.Inv (s : State) : Prop := s.LmemInv ∧ s.DecoderInv ∧ s.StatusInv

end Sys2Proof.Machine
end

