-- ==== Sys2Proof/Certificates/Slice0/Obligations.lean ====
section
/-!
DEFINITION. The statements about the machine, for the provers. Each docstring names the rule of spec/ it formalises.
Command statements are about `exec`, which the block's turn runs (`StepPerformsThePendingCommand`).
-/

open Sys2Proof Sys2Proof.Machine
open Host (Outcome)

/-! ### Encoding -/

/-- Words written out from the opcode map (spec/30_encoding.md R121). -/
def Obligations.SpecWordsDecode : Prop :=
  decode 0x00000000 = .ok .nop ∧ decode 0x00000001 = .ok .cscFwd ∧ decode 0x00000002 = .ok .cscInv ∧
  decode 0x00000008 = .ok .aq ∧ decode 0x00000010 = .ok .fdct ∧ decode 0x00000011 = .ok .idct ∧
  decode 0x00000012 = .ok .quant ∧ decode 0x00000013 = .ok .dequant ∧ decode 0x00000014 = .ok .blkExtract ∧
  decode 0x00000015 = .ok .blkInsert ∧ decode 0x00000016 = .ok .encode ∧ decode 0x00000020 = .ok .pdInit ∧
  decode 0x00000021 = .ok .pdStep ∧ decode 0x00000022 = .ok .pdReset

/-- spec/30_encoding.md R121: a word selects a command exactly when its bits 31:8 are 0 and its bits 7:0 are that command's
value in the map. -/
def Obligations.WordSelectsCommandExactly : Prop :=
  ∀ (w : Word) (i : Instr), decode w = .ok i ↔
    w.toNat / 256 = 0 ∧
      (w.toNat % 256, i) ∈ ([(0x00, .nop), (0x01, .cscFwd), (0x02, .cscInv), (0x08, .aq), (0x10, .fdct), (0x11, .idct),
        (0x12, .quant), (0x13, .dequant), (0x14, .blkExtract), (0x15, .blkInsert), (0x16, .encode), (0x20, .pdInit),
        (0x21, .pdStep), (0x22, .pdReset)] : List (Nat × Instr))

/-- Decoding and encoding agree in both directions: the encoder's word of every command decodes to it, and it is the only
word that does (spec/30_encoding.md section 1). -/
def Obligations.DecodeEncodeRoundTrip : Prop :=
  ∀ i : Instr, i.WellFormed = true → decode (encode i) = .ok i ∧ ∀ w : Word, decode w = .ok i → w = encode i

/-- spec/30_encoding.md R122: performing an illegal word completes with `E_BADOP` (1) and changes nothing but `STATUS`'s
completion fields; 242 of the 256 opcode values are illegal; no word is a synonym of another. -/
def Obligations.IllegalWordCompletesWithBadOp : Prop :=
  (∀ s : State,
    s.pending.toNat / 256 ≠ 0 ∨ s.pending.toNat % 256 ∉
      [0x00, 0x01, 0x02, 0x08, 0x10, 0x11, 0x12, 0x13, 0x14, 0x15, 0x16, 0x20, 0x21, 0x22] →
    perform s = .next (failed 1 s)) ∧
  ((List.range 256).filter fun opc => (decode (BitVec.ofNat 32 opc)).toOption.isNone).length = 242 ∧
  ∀ (w w' : Word) (i : Instr), decode w = .ok i → decode w' = .ok i → w = w'

/-! ### The step -/

/-- A step runs the decoded command: while a command is in flight, a step in which the block's turn comes, or in which no
event is left, or in which a held LMEM access waits, is `exec` of the command the pending word decodes to, and the `E_BADOP`
completion if the word is illegal. An idle block's turn changes nothing (spec/45_control.md R352, spec/30_encoding.md R122,
spec/20_memory.md R98, spec/60_exceptions.md R374). That an access past `LMEM_BYTES` is held too, before its range is tested,
is the model's choice (log entry 14), and so is the list of events (log entry 5). -/
def Obligations.StepPerformsThePendingCommand : Prop :=
  (∀ (s : State) (i : Instr), s.status.busy = true → decode s.pending = .ok i →
    (s.agenda = [] → step s = exec i s) ∧
    (∀ rest, s.agenda = .perform :: rest → step s = exec i (s.setAgenda rest)) ∧
    (∀ e rest, s.agenda = e :: rest → e.heldWhileBusy = true → step s = exec i s)) ∧
  (∀ s : State, s.status.busy = true → (∀ i, decode s.pending ≠ .ok i) →
    (s.agenda = [] → step s = .next (failed 1 s)) ∧
    (∀ rest, s.agenda = .perform :: rest → step s = .next (failed 1 (s.setAgenda rest))) ∧
    (∀ e rest, s.agenda = e :: rest → e.heldWhileBusy = true → step s = .next (failed 1 s))) ∧
  ∀ s : State, s.status.busy = false →
    (s.agenda = [] → step s = .next s) ∧ (∀ rest, s.agenda = .perform :: rest → step s = .next (s.setAgenda rest))

/-- A `CMD` write to an idle block is accepted, and the next turn of the block performs it (spec/45_control.md R351,
spec/10_state.md R35). -/
def Obligations.AcceptThenPerform : Prop :=
  ∀ (s : State) (w : Word) (i : Instr) (rest : List Event), s.status.busy = false → decode w = .ok i →
    s.agenda = .csrWrite 0x0C 4 w :: .perform :: rest →
    ∃ t, step s = .next t ∧
      t = { s with pending := w, status := { s.status with busy := true, done := false }, agenda := .perform :: rest } ∧
      step t = exec i (t.setAgenda rest)

/-! ### Completion and errors -/

/-- Every command, in every state, ends in one completion: `BUSY` 0, `DONE` 1, a code of at most 13, `ERR` set by an error
and left by a success; and no command changes an operand register, `IRQEN`, `OVR` or anything of the host's side
(spec/45_control.md R352, spec/60_exceptions.md R360, R364). -/
def Obligations.EveryCommandCompletes : Prop :=
  ∀ (i : Instr) (s : State), ∃ t, exec i s = .next t ∧ CommandKept s t ∧
    t.status.busy = false ∧ t.status.done = true ∧ t.status.errCode.toNat ≤ 13 ∧
    (t.status.errCode = 0 → t.status.err = s.status.err) ∧ (t.status.errCode ≠ 0 → t.status.err = true)

/-- spec/60_exceptions.md R364: a command that fails changes the completion fields and nothing else. -/
def Obligations.FailureChangesOnlyCompletionFields : Prop :=
  ∀ (i : Instr) (s t : State), exec i s = .next t →
    (t.status.errCode ≠ 0 → t = failed t.status.errCode.toNat s) ∧
    (t.status.errCode = 0 → t.status.busy = false ∧ t.status.done = true ∧ t.status.err = s.status.err)

/-- A command one of whose checks fails ends with the failed check's code, the lowest if several fail, whatever LMEM holds
(spec/45_control.md R353, spec/60_exceptions.md R363). The list of checks is `commandChecks`, whose alignment and range
conditions are written out on the region table (spec/20_memory.md R85 to R87). -/
def Obligations.LowestFailedCheckIsReported : Prop :=
  ∀ (i : Instr) (s : State) (c : Nat), (c, true) ∈ commandChecks i s →
    ∃ k, exec i s = .next (failed k s) ∧ (k, true) ∈ commandChecks i s ∧
      ∀ c', (c', true) ∈ commandChecks i s → k ≤ c'

/-- After its checks pass, each command raises only the data errors the spec's table gives it: none for `NOP`, `CSC_FWD`,
`DEQUANT`, `BLK_EXTRACT`, `ENCODE` and the decoder commands, `E_NONFINITE` for `CSC_INV`, `AQ`, `FDCT`, `IDCT`, `BLK_INSERT`,
and `E_NONFINITE` or `E_COEFRANGE` for `QUANT`; `AQ` on bytes raises none (spec/60_exceptions.md R361, R362). -/
def Obligations.DataErrorsOfEachCommand : Prop :=
  ∀ (i : Instr) (s t : State), checksPass i s = true → exec i s = .next t →
    (i ∈ [Instr.nop, .cscFwd, .dequant, .blkExtract, .encode, .pdInit, .pdStep, .pdReset] → t.status.errCode = 0) ∧
    (i ∈ [Instr.cscInv, .aq, .fdct, .idct, .blkInsert] → t.status.errCode = 0 ∨ t.status.errCode = 12) ∧
    (i = .quant → t.status.errCode = 0 ∨ t.status.errCode = 12 ∨ t.status.errCode = 13) ∧
    (i = .aq → s.opr.aqFmt = true → t.status.errCode = 0)

/-- A non-finite binary64 input ends the command that reads it with `E_NONFINITE`, and so does a computation that meets a
non-finite value; nothing else changes (spec/00_scope.md R14, spec/60_exceptions.md R361). -/
def Obligations.NonFiniteInputIsReported : Prop :=
  (∀ (i : Instr) (s : State) (k : Nat), i ∈ [Instr.fdct, .idct, .quant, .blkInsert] → checksPass i s = true → k < 64 →
    fFinite (s.ldF64 (s.src + 8 * k)) = false → exec i s = .next (failed 12 s)) ∧
  (∀ (s : State) (p : Nat) (v : F64), checksPass .cscInv s = true → p < s.elements → v ∈ invValues s p →
    fFinite v = false → exec .cscInv s = .next (failed 12 s)) ∧
  (∀ (s : State) (m : Nat), checksPass .aq s = true → s.opr.aqFmt = false → m < s.elements →
    fFinite (s.ldF64 (s.src + m * s.srcStride)) = false → exec .aq s = .next (failed 12 s)) ∧
  (∀ (s : State) (e : ErrCode), (∀ k < 64, fFinite (s.ldF64 (s.src + 8 * k)) = true) →
    (checksPass .fdct s = true → fdct (blockAt s s.src) = .error e → exec .fdct s = .next (failed 12 s)) ∧
    (checksPass .idct s = true → idct (blockAt s s.src) = .error e → exec .idct s = .next (failed 12 s))) ∧
  ∀ (s : State) (e : ErrCode), checksPass .aq s = true → s.depth ≤ 7 → (∀ m < s.elements, fFinite (aqInput s m) = true) →
    aqQuantize (2 ^ s.depth) s.opr.aqMaxIter.toNat ((List.range s.elements).map (aqInput s)) = .error e →
    exec .aq s = .next (failed 12 s)

/-! ### Frames -/

/-- Only a successful `AQ` writes `AQ_ITERS` and `AQ_NCTR`, only a successful decoder command the decoder context and `MORE`, and
only `PD_INIT` anything of the context but its step (spec/10_state.md R45, R46, R53, R55). -/
def Obligations.ReportAndContextHaveTheirWriters : Prop :=
  ∀ (i : Instr) (s t : State), exec i s = .next t →
    ((i ≠ .aq ∨ t.status.errCode ≠ 0) → AqReportKept s t) ∧
    ((i ∉ [Instr.pdInit, .pdStep, .pdReset] ∨ t.status.errCode ≠ 0) → DecoderKept s t) ∧
    (i ≠ .pdInit → t.pd = { s.pd with step := t.pd.step })

/-- A command writes only inside the output regions the region table gives it (spec/20_memory.md R87), as `tableOutputs`
writes them out on the registers: every byte of LMEM outside them reads as before. A command with no output region changes no
byte. -/
def Obligations.CommandWritesOnlyItsOutputRegions : Prop :=
  ∀ (i : Instr) (s t : State), exec i s = .next t → LmemKeptOutside (tableOutputs i s) s t

/-- A command depends only on its operands, the decoder context and the bytes of its input regions: two states that agree on
them end with the same code, context and report, and every byte ends equal in both or unwritten in both
(spec/45_control.md R355, spec/20_memory.md R87). The premise on the decoder context is the invariant
`EveryStepKeepsTheInvariants` keeps. -/
def Obligations.CommandReadsOnlyItsInputRegions : Prop :=
  ∀ (i : Instr) (s u t v : State), s.opr = u.opr → s.pd = u.pd → s.lmemExp = u.lmemExp → s.DecoderInv →
    (∀ r ∈ tableInputs i s, ∀ a, r.base ≤ a → a < r.base + r.size → s.ldByte a = u.ldByte a) →
    exec i s = .next t → exec i u = .next v →
    t.status.errCode = v.status.errCode ∧ t.pd = v.pd ∧
    (t.status.errCode = 0 → i = .aq → t.aqIters = v.aqIters ∧ t.aqNctr = v.aqNctr) ∧
    (t.status.errCode = 0 → i ∈ [Instr.pdInit, .pdStep, .pdReset] → t.status.more = v.status.more) ∧
    ∀ a, t.ldByte a = v.ldByte a ∨ (t.ldByte a = s.ldByte a ∧ v.ldByte a = u.ldByte a)

/-- No decoder command changes a byte of the latched coefficient sets (spec/20_memory.md R88, R99). -/
def Obligations.DecoderNeverWritesItsCoefficients : Prop :=
  ∀ (i : Instr) (s t : State), i ∈ [Instr.pdInit, .pdStep, .pdReset] → exec i s = .next t →
    ∀ c ∈ [s.pd.coef0, s.pd.coef1, s.pd.coef2], ∀ a, c.toNat ≤ a →
      a < c.toNat + 128 * ((s.pd.w.toNat + 7) / 8 * ((s.pd.h.toNat + 7) / 8)) → t.ldByte a = s.ldByte a

/-! ### Results of the commands -/

/-- spec/45_control.md R350: `NOP` completes successfully and changes nothing else. -/
def Obligations.NopOnlyCompletes : Prop := ∀ s : State, exec .nop s = .next (succeeded s)

/-- `CSC_FWD` completes whenever its checks pass, and writes Y, U and V of every pixel by the spec's formulas, one rounding an
operation (spec/40_color.md R151). -/
def Obligations.CscFwdConvertsEveryPixel : Prop :=
  ∀ s : State, checksPass .cscFwd s = true →
    ∃ t, exec .cscFwd s = .next t ∧ OnlyLmem s t ∧ LmemKeptOutside (tableOutputs .cscFwd s) s t ∧
      ∀ p < s.elements, ∀ r g b : F64, r = fOfNat (s.ldU8 (s.src + 3 * p)) → g = fOfNat (s.ldU8 (s.src + 3 * p + 1)) →
        b = fOfNat (s.ldU8 (s.src + 3 * p + 2)) →
        t.ldF64 (s.dst + 24 * p) =
          fAdd (fAdd (fMul (fLit 299 1000) r) (fMul (fLit 587 1000) g)) (fMul (fLit 114 1000) b) ∧
        t.ldF64 (s.dst + 24 * p + 8) =
          fAdd (fSub (fMul (fNeg (fLit 147 1000)) r) (fMul (fLit 289 1000) g)) (fMul (fLit 436 1000) b) ∧
        t.ldF64 (s.dst + 24 * p + 16) =
          fSub (fSub (fMul (fLit 615 1000) r) (fMul (fLit 515 1000) g)) (fMul (fLit 100 1000) b)

/-- `CSC_INV` completes whenever its checks pass and every input and every unclamped result is finite, and writes the three
bytes of every pixel (spec/40_color.md R152). -/
def Obligations.CscInvConvertsEveryPixel : Prop :=
  ∀ s : State, checksPass .cscInv s = true → (∀ p < s.elements, ∀ v ∈ invValues s p, fFinite v = true) →
    ∃ t, exec .cscInv s = .next t ∧ OnlyLmem s t ∧ LmemKeptOutside (tableOutputs .cscInv s) s t ∧
      ∀ p < s.elements, t.ldByte (s.dst + 3 * p) = toByte (invRed s p) ∧
        t.ldByte (s.dst + 3 * p + 1) = toByte (invGreen s p) ∧ t.ldByte (s.dst + 3 * p + 2) = toByte (invBlue s p)

/-- `AQ` at `BITS` = 8 copies its samples unchanged, writes no center, no byte between two samples, and reports 0 and 0
(spec/41_adaptive_quantizer.md R183). -/
def Obligations.AqPassesThroughAtEightBits : Prop :=
  ∀ s : State, checksPass .aq s = true → s.depth = 8 → (∀ m < s.elements, fFinite (aqInput s m) = true) →
    ∃ t, exec .aq s = .next t ∧ t = { succeeded s with lmem := t.lmem, aqIters := 0, aqNctr := 0 } ∧
      AqBytesKept s t ∧
      ∀ m < s.elements,
        (s.opr.aqFmt = true → t.ldByte (s.dst + m * s.dstStride) = s.ldByte (s.src + m * s.srcStride)) ∧
        (s.opr.aqFmt = false → t.ldF64 (s.dst + m * s.dstStride) = s.ldF64 (s.src + m * s.srcStride))

/-- `AQ` on samples that are all equal collapses: every output and every center is the first sample, with 0 passes, and no
other byte is written (spec/41_adaptive_quantizer.md R184). -/
def Obligations.AqCollapsesConstantInput : Prop :=
  ∀ s : State, checksPass .aq s = true → s.depth ≤ 7 → (∀ m < s.elements, fFinite (aqInput s m) = true) →
    (∀ m < s.elements, fEq (aqInput s m) (aqInput s 0) = true) →
    ∃ t, exec .aq s = .next t ∧
      t = { succeeded s with lmem := t.lmem, aqIters := 0, aqNctr := BitVec.ofNat 32 (2 ^ s.depth) } ∧
      AqBytesKept s t ∧
      (∀ j < 2 ^ s.depth, t.ldF64 (s.aux + 8 * j) = aqInput s 0) ∧
      ∀ m < s.elements, AqOutputClear s m → AqOutputIs s t m (aqInput s 0)

/-- `AQ` below 8 bits completes whenever its checks pass, its samples are finite and the quantizer's computation meets no
non-finite value; it writes the quantizer's outputs and centers, no byte between two samples, and reports its passes and 2^BITS
(spec/41_adaptive_quantizer.md R195, R196). The computation on samples that are not all equal is the rules' steps in their
order: least and greatest sample, bin width, bins, midpoints, initial centers, refinement, a last sort, boundaries, output
(R184 to R194); what each step gives is stated by `SeedsFollowTheCumulativeTargets`, `NearestCenterIsTheFirstNearest`,
`CenterSortIsStableAscending` and `SampleGoesToFirstCenterNotExceeded`. It gives a result exactly when each of those steps gives one
and the range and the bin width are finite, and otherwise raises `E_NONFINITE` (spec/00_scope.md R14). -/
def Obligations.AqWritesTheQuantizersResult : Prop :=
  (∀ (s : State) (r : AqOutcome), checksPass .aq s = true → s.depth ≤ 7 →
    (∀ m < s.elements, fFinite (aqInput s m) = true) →
    aqQuantize (2 ^ s.depth) s.opr.aqMaxIter.toNat ((List.range s.elements).map (aqInput s)) = .ok r →
    ∃ t, exec .aq s = .next t ∧
      t = { succeeded s with
              lmem := t.lmem, aqIters := BitVec.ofNat 32 r.iters, aqNctr := BitVec.ofNat 32 (2 ^ s.depth) } ∧
      AqBytesKept s t ∧
      (∀ j < 2 ^ s.depth, r.centers[j]? = some (t.ldF64 (s.aux + 8 * j))) ∧
      ∀ m < s.elements, AqOutputClear s m → ∃ x, r.out[m]? = some x ∧ AqOutputIs s t m x) ∧
  (∀ (levels maxIter : Nat) (xs : List F64) (e : ErrCode), aqQuantize levels maxIter xs = .error e → e = .nonFinite) ∧
  ∀ (levels maxIter : Nat) (xs : List F64) (mn mx : F64) (r : AqOutcome), (∀ x ∈ xs, fFinite x = true) →
    xs.find? (fEq mn) = some mn → xs.find? (fEq mx) = some mx → (∀ x ∈ xs, fLe mn x = true ∧ fLe x mx = true) →
    fLt mn mx = true →
    (aqQuantize levels maxIter xs = .ok r ↔
    ∃ (w : F64) (nums : List Nat) (mids seeds cs bnd : List F64),
      fFinite (fSub mx mn) = true ∧ fFinite w = true ∧ w = fDiv (fSub mx mn) (fOfNat 256) ∧
      nums.length = xs.length ∧ (∀ m < xs.length, aqBin mn w (xs.getD m 0) = .ok (nums.getD m 0)) ∧
      mids.length = 256 ∧ (∀ b < 256, binMidpoint mn w b = .ok (mids.getD b 0)) ∧
      initialCenters levels xs.length mn (fSub mx mn) ((histogram nums).zip mids) = .ok seeds ∧
      refine ((histogram nums).zip mids) maxIter seeds 0 = .ok (cs, r.iters) ∧
      r.centers = sortAscending cs ∧ boundaries r.centers = .ok bnd ∧ r.out = xs.map (assignSample r.centers bnd))

/-- After every successful `AQ` below 8 bits: `AQ_NCTR` is 2^BITS, `AQ_ITERS` is at most `MAXITER`, the centers in LMEM are
finite and ascending, and every output sample is one of them (spec/41_adaptive_quantizer.md R197). -/
def Obligations.AqOutputsAreAscendingCenters : Prop :=
  ∀ s t : State, exec .aq s = .next t → t.status.errCode = 0 → s.depth ≤ 7 →
    t.aqNctr = BitVec.ofNat 32 (2 ^ s.depth) ∧ t.aqIters.toNat ≤ s.opr.aqMaxIter.toNat ∧
    ascending ((List.range (2 ^ s.depth)).map fun j => t.ldF64 (s.aux + 8 * j)) = true ∧
    (∀ j < 2 ^ s.depth, fFinite (t.ldF64 (s.aux + 8 * j)) = true) ∧
    ∀ m < s.elements, AqOutputClear s m → ∃ j < 2 ^ s.depth, AqOutputIs s t m (t.ldF64 (s.aux + 8 * j))

/-- `FDCT` and `IDCT` complete whenever their checks pass, their 64 inputs are finite and no product or partial sum overflows,
and write the transform of the block, in place too (spec/42_dct.md R236, R237). -/
def Obligations.DctCommandsWriteTheTransform : Prop :=
  ∀ (s : State) (d : List F64), (∀ k < 64, fFinite (s.ldF64 (s.src + 8 * k)) = true) →
    (checksPass .fdct s = true → fdct (blockAt s s.src) = .ok d →
      ∃ t, exec .fdct s = .next t ∧ OnlyLmem s t ∧ LmemKeptOutside (tableOutputs .fdct s) s t ∧
        ∀ k < 64, d[k]? = some (t.ldF64 (s.dst + 8 * k))) ∧
    (checksPass .idct s = true → idct (blockAt s s.src) = .ok d →
      ∃ t, exec .idct s = .next t ∧ OnlyLmem s t ∧ LmemKeptOutside (tableOutputs .idct s) s t ∧
        ∀ k < 64, d[k]? = some (t.ldF64 (s.dst + 8 * k)))

/-- `QUANT` on a finite block: every coefficient is its input over 2^N rounded half away from zero; if one lies outside 16
bits, nothing is written and the code is `E_COEFRANGE` (spec/43_block_codec.md R262). -/
def Obligations.QuantWritesRoundedQuotients : Prop :=
  ∀ s : State, checksPass .quant s = true → (∀ k < 64, fFinite (s.ldF64 (s.src + 8 * k)) = true) →
    ((∀ k < 64, -32768 ≤ roundHalfAway (s.ldF64 (s.src + 8 * k)) s.level ∧
        roundHalfAway (s.ldF64 (s.src + 8 * k)) s.level ≤ 32767) →
      ∃ t, exec .quant s = .next t ∧ OnlyLmem s t ∧ LmemKeptOutside (tableOutputs .quant s) s t ∧
        ∀ k < 64, t.ldI16 (s.dst + 2 * k) = roundHalfAway (s.ldF64 (s.src + 8 * k)) s.level) ∧
    (∀ k < 64, (roundHalfAway (s.ldF64 (s.src + 8 * k)) s.level < -32768 ∨
        32767 < roundHalfAway (s.ldF64 (s.src + 8 * k)) s.level) →
      exec .quant s = .next (failed 13 s))

/-- `DEQUANT` completes whenever its checks pass and writes c·2^N of every coefficient (spec/43_block_codec.md R264). -/
def Obligations.DequantWritesScaledCoefficients : Prop :=
  ∀ s : State, checksPass .dequant s = true →
    ∃ t, exec .dequant s = .next t ∧ OnlyLmem s t ∧ LmemKeptOutside (tableOutputs .dequant s) s t ∧
      ∀ k < 64, t.ldF64 (s.dst + 8 * k) = dequantize s.level (s.ldI16 (s.src + 2 * k))

/-- `BLK_EXTRACT` completes whenever its checks pass and writes the level-shifted block, +0.0 outside the image
(spec/43_block_codec.md R265, R266). -/
def Obligations.BlkExtractWritesShiftedBlock : Prop :=
  ∀ s : State, checksPass .blkExtract s = true →
    ∃ t, exec .blkExtract s = .next t ∧ OnlyLmem s t ∧ LmemKeptOutside (tableOutputs .blkExtract s) s t ∧
      ∀ i < 8, ∀ j < 8, ∀ x y, x = 8 * s.blkX + j → y = 8 * s.blkY + i →
        t.ldF64 (s.dst + 8 * (8 * i + j)) =
          if x < s.imgW ∧ y < s.imgH then
            fOfInt ((s.ldU8 (s.src + s.srcStride * (y * s.imgW + x)) : Int) - 128)
          else 0

/-- `BLK_INSERT` completes whenever its checks pass and its 64 inputs are finite; it writes the block's in-image positions and
no other byte, not even one between two pixels of the plane (spec/43_block_codec.md R267, R268). -/
def Obligations.BlkInsertWritesOnlyImagePositions : Prop :=
  ∀ s : State, checksPass .blkInsert s = true → (∀ k < 64, fFinite (s.ldF64 (s.src + 8 * k)) = true) →
    ∃ t, exec .blkInsert s = .next t ∧ OnlyLmem s t ∧
      (∀ i < 8, ∀ j < 8, 8 * s.blkX + j < s.imgW → 8 * s.blkY + i < s.imgH →
        t.ldByte (s.dst + s.dstStride * ((8 * s.blkY + i) * s.imgW + (8 * s.blkX + j))) =
          toByte (fAdd (s.ldF64 (s.src + 8 * (8 * i + j))) (fOfNat 128))) ∧
      ∀ a, (∀ i < 8, ∀ j < 8, 8 * s.blkX + j < s.imgW → 8 * s.blkY + i < s.imgH →
          a ≠ s.dst + s.dstStride * ((8 * s.blkY + i) * s.imgW + (8 * s.blkX + j))) →
        t.ldByte a = s.ldByte a

/-- `ENCODE` completes whenever its checks pass: every coefficient of every block of each channel's set is the quantized
forward transform of the extracted block. Where a later set overlaps a set, the later one wins, so the clause is about sets
that no later set meets (spec/43_block_codec.md R280, R282). -/
def Obligations.EncodeWritesEveryCoefficient : Prop :=
  ∀ s : State, checksPass .encode s = true →
    ∃ t, exec .encode s = .next t ∧ OnlyLmem s t ∧ LmemKeptOutside (tableOutputs .encode s) s t ∧
      ∀ c < 3, (∀ c', c < c' → c' < 3 → Region.meets ⟨s.coefBase c, 2, s.coefSetSize⟩ ⟨s.coefBase c', 2, s.coefSetSize⟩ = false) →
        ∀ b < ceil8 s.imgW * ceil8 s.imgH,
          ∃ d, fdct (extractBlock (fun x y => s.ldU8 (s.src + 3 * (y * s.imgW + x) + c)) s.imgW s.imgH
              (b % ceil8 s.imgW) (b / ceil8 s.imgW)) = .ok d ∧
            ∀ k < 64, ∃ x, d[k]? = some x ∧ t.ldI16 (s.coefBase c + 128 * b + 2 * k) = roundHalfAway x s.level

/-- `PD_INIT` completes whenever its checks pass and constructs the whole context from the operand registers, its total being
nb = ceil8(W)·ceil8(H), 64 or 16 by the mode; no LMEM byte changes (spec/44_progressive_decoder.md R300 to R302). -/
def Obligations.PdInitLatchesTheContext : Prop :=
  ∀ (s : State) (m : Mode) (total : Nat), checksPass .pdInit s = true →
    (m, s.opr.pdcfgMode) ∈ ([(.baseline, 0), (.spectral, 1), (.successive, 2)] : List (Mode × BitVec 2)) →
    total = (match m with
      | .baseline => (s.imgW + 7) / 8 * ((s.imgH + 7) / 8)
      | .spectral => 64
      | .successive => 16) →
    exec .pdInit s = .next { succeeded s with
      pd := { valid := true, mode := m, step := 0, total := BitVec.ofNat 32 total
              w := BitVec.ofNat 16 s.imgW, h := BitVec.ofNat 16 s.imgH, n := BitVec.ofNat 4 s.level
              coef0 := s.opr.coef0, coef1 := s.opr.coef1, coef2 := s.opr.coef2 }
      status := { (succeeded s).status with more := decide (0 < total) } }

/-- spec/44_progressive_decoder.md R318: an exhausted `PD_STEP` writes no LMEM, leaves the step, sets `MORE` to 0 and succeeds,
whatever `DST` is. -/
def Obligations.ExhaustedPdStepIsANoOp : Prop :=
  ∀ s : State, s.pd.valid = true → s.pd.step = s.pd.total →
    exec .pdStep s = .next { succeeded s with status := { (succeeded s).status with more := false } }

/-- `PD_STEP` with a step left completes whenever its checks pass: it advances the step, sets `MORE` if steps remain, and every
byte of the output image is the decode of its block with the coefficients the mode keeps, if the step renders that block, and
else zero at step 0 and unchanged later (spec/44_progressive_decoder.md R311, R313 to R317). A step is left while it is not the
total: with the step below the total this is R311, and a context with its step above the total, which no run reaches, follows
the same text by log entry 13 (DEDUCED). -/
def Obligations.PdStepRendersTheFrame : Prop :=
  ∀ s : State, checksPass .pdStep s = true → s.pd.valid = true → s.pd.step ≠ s.pd.total →
    ∃ t, exec .pdStep s = .next t ∧
      t = { succeeded s with
              lmem := t.lmem, pd := { s.pd with step := s.pd.step + 1 }
              status := { (succeeded s).status with more := decide ((s.pd.step + 1).toNat < s.pd.total.toNat) } } ∧
      LmemKeptOutside (tableOutputs .pdStep s) s t ∧
      ∀ c < 3, ∀ x < s.pd.w.toNat, ∀ y < s.pd.h.toNat, ∀ b a, b = y / 8 * ceil8 s.pd.w.toNat + x / 8 →
        a = s.dst + 3 * (y * s.pd.w.toNat + x) + c →
        if s.pd.mode ≠ .baseline ∨ b = s.pd.step.toNat then
          ∃ f v, idct ((List.range 64).map fun idx => dequantize s.pd.n.toNat
              (keepCoef s.pd.mode s.pd.step.toNat idx (s.ldI16 (s.pd.coefBase c + 128 * b + 2 * idx)))) = .ok f ∧
            f[8 * (y % 8) + x % 8]? = some v ∧ t.ldByte a = toByte (fAdd v (fOfNat 128))
        else t.ldByte a = if s.pd.step = 0 then 0 else s.ldByte a

/-- spec/44_progressive_decoder.md R321: `PD_RESET` with a context sets the step to 0 and `MORE` to "the total is not 0", and
keeps everything else; without one it is `E_NOINIT` (8). -/
def Obligations.PdResetRewinds : Prop :=
  ∀ s : State,
    (s.pd.valid = true → exec .pdReset s = .next { succeeded s with
      pd := { s.pd with step := 0 }
      status := { (succeeded s).status with more := decide (0 < s.pd.total.toNat) } }) ∧
    (s.pd.valid = false → exec .pdReset s = .next (failed 8 s))

/-! ### The functions the commands compute -/

/-- spec/42_dct.md R232: `dot8` is the sum of the eight products in index order from +0.0, each operation rounded once, and
raises exactly when that is not finite; it never gives −0.0. -/
def Obligations.Dot8SumsInOrder : Prop :=
  ∀ (c0 c1 c2 c3 c4 c5 c6 c7 x0 x1 x2 x3 x4 x5 x6 x7 r : F64),
    (dot8 [c0, c1, c2, c3, c4, c5, c6, c7] [x0, x1, x2, x3, x4, x5, x6, x7] = .ok r ↔
      fFinite r = true ∧
        r = fAdd (fAdd (fAdd (fAdd (fAdd (fAdd (fAdd (fAdd 0 (fMul c0 x0)) (fMul c1 x1)) (fMul c2 x2)) (fMul c3 x3))
          (fMul c4 x4)) (fMul c5 x5)) (fMul c6 x6)) (fMul c7 x7)) ∧
    (dot8 [c0, c1, c2, c3, c4, c5, c6, c7] [x0, x1, x2, x3, x4, x5, x6, x7] = .ok r → r ≠ 0x8000000000000000)

/-- The two transforms are two passes of `dot8`, rows first: `fdct` along j with the rows of the basis and then along i,
`idct` along v with its columns and then along u (spec/42_dct.md R233, R234). The basis entry of row k and column n is half the
cosine of (2n + 1)·k·π/16, half of 1/√2 in row 0 (R231): `angle` is (2n + 1)·k mod 32, the entry's sign is negative from 9 to
23, and its magnitude is the rule's table at the angle folded into 1 to 7. A transform gives a result exactly when its 128 `dot8` do,
and then it is theirs; otherwise it raises `E_NONFINITE` (spec/00_scope.md R14). -/
def Obligations.TransformsAreTwoPasses : Prop :=
  (∀ k < 8, ∀ n < 8, ∀ angle fold : Nat, ∀ mag : F64, angle = (if k = 0 then 4 else (2 * n + 1) * k % 32) →
    fold = (if angle ≤ 8 then angle else if angle ≤ 16 then 16 - angle else if angle ≤ 24 then angle - 16 else 32 - angle) →
    (fold, mag) ∈ ([(1, 0x3FDF6297CFF75CB0), (2, 0x3FDD906BCF328D46), (3, 0x3FDA9B66290EA1A3), (4, 0x3FD6A09E667F3BCD),
      (5, 0x3FD1C73B39AE68C8), (6, 0x3FC87DE2A6AEA963), (7, 0x3FB8F8B83C69A60B)] : List (Nat × F64)) →
    elem basisRom k n = if 8 < angle ∧ angle < 24 then fNeg mag else mag) ∧
  ∀ b d : List F64,
    (fdct b = .ok d ↔ ∃ r : List F64, r.length = 64 ∧ d.length = 64 ∧
      ∀ i < 8, ∀ j < 8,
        dot8 ((List.range 8).map fun n => elem basisRom j n) ((List.range 8).map fun n => elem b i n) = .ok (elem r i j) ∧
        dot8 ((List.range 8).map fun n => elem basisRom i n) ((List.range 8).map fun n => elem r n j) = .ok (elem d i j)) ∧
    (idct b = .ok d ↔ ∃ q : List F64, q.length = 64 ∧ d.length = 64 ∧
      ∀ i < 8, ∀ j < 8,
        dot8 ((List.range 8).map fun n => elem basisRom n j) ((List.range 8).map fun n => elem b i n) = .ok (elem q i j) ∧
        dot8 ((List.range 8).map fun n => elem basisRom n i) ((List.range 8).map fun n => elem q n j) = .ok (elem d i j)) ∧
    ∀ e : ErrCode, fdct b = .error e ∨ idct b = .error e → e = .nonFinite

/-- spec/00_scope.md R16, spec/43_block_codec.md R261: `roundHalfAway` of a finite value over 2^N is the integer nearest to the
exact quotient, a tie away from zero; `quantize` is that integer, or `E_COEFRANGE` outside 16 bits. -/
def Obligations.QuantizeRoundsHalfAway : Prop :=
  ∀ (d : F64) (n : Nat) (q : Int), fFinite d = true →
    q = (fValue d).sign * ((2 * |fValue d| + 2 ^ (1074 + n)) / (2 * 2 ^ (1074 + n))) →
    roundHalfAway d n = q ∧ quantize n d = if q < -32768 ∨ 32767 < q then .error .coefRange else .ok q

/-- spec/43_block_codec.md R263: `dequantize(c, N)` is exactly c·2^N, and +0.0 for c = 0. -/
def Obligations.DequantizeIsExact : Prop :=
  ∀ (c : Int) (n : Nat), -32768 ≤ c → c ≤ 32767 → n ≤ 15 →
    fFinite (dequantize n c) = true ∧ fValue (dequantize n c) = c * 2 ^ n * 2 ^ 1074 ∧ dequantize n 0 = 0

/-- spec/44_progressive_decoder.md R312: `bitmask(c, k)` keeps the k + 1 most significant magnitude bits and the sign, and
`bitmask(c, 15)` = c; so the last step of each mode keeps every coefficient of a block (R323). What step k of a mode keeps of the
coefficient c at index idx: c in BASELINE; c up to index k, else 0, in SPECTRAL_SELECTION; `bitmask(c, k)` in SUCCESSIVE_BIT (R313 to
R315). -/
def Obligations.BitmaskKeepsTopBits : Prop :=
  (∀ (c : Int) (k : Nat), -32768 ≤ c → c ≤ 32767 → k ≤ 15 →
    bitmask c k = c.sign * (c.natAbs / 2 ^ (Nat.log2 c.natAbs - k) * 2 ^ (Nat.log2 c.natAbs - k) : Nat) ∧
    bitmask c 15 = c) ∧
  (∀ (k idx : Nat) (c : Int), keepCoef .baseline k idx c = c ∧ keepCoef .spectral k idx c = (if idx ≤ k then c else 0) ∧
    keepCoef .successive k idx c = bitmask c k) ∧
  ∀ (q : List Int) (k : Nat), q.length = 64 → (∀ c ∈ q, -32768 ≤ c ∧ c ≤ 32767) →
    keepFrom .spectral 63 0 q = q ∧ keepFrom .successive 15 0 q = q ∧ keepFrom .baseline k 0 q = q

/-- From samples to initial centers (spec/41_adaptive_quantizer.md R185 to R188). A sample's bin is floor((x ⊖ mn) ⊘ w) clamped
to 0..255, and the histogram counts the samples of each of 256 bins. A bin's midpoint is mn ⊕ ((b + 0.5) ⊗ w). Seeding gives at
most L centers, each the midpoint of the first bin, past the bin of the center before, at which the running count reaches its
target; after the last one no target left is reached. The initial centers are the seeds for per = n ⊘ L, and mn ⊕ ((j + 0.5) ⊗
(range ⊘ L)) at the indices left. Each step gives its result whenever the values it computes are finite, and raises `E_NONFINITE`
only where one is not (spec/00_scope.md R14). -/
def Obligations.SeedsFollowTheCumulativeTargets : Prop :=
  (∀ (mn w x : F64) (b : Nat), aqBin mn w x = .ok b ↔
    fFinite (fSub x mn) = true ∧ fFinite (fDiv (fSub x mn) w) = true ∧
      (b : Int) = max 0 (min 255 (fFloor (fDiv (fSub x mn) w)))) ∧
  (∀ nums : List Nat, (∀ b ∈ nums, b < 256) →
    (histogram nums).length = 256 ∧ ∀ b < 256, (histogram nums)[b]? = some (nums.count b)) ∧
  (∀ k < 256, fFinite (halfPast k) = true ∧ fValue (halfPast k) = (2 * k + 1) * 2 ^ 1073) ∧
  (∀ (mn w v : F64) (b : Nat), binMidpoint mn w b = .ok v ↔
    fFinite (fMul (halfPast b) w) = true ∧ fFinite v = true ∧ v = fAdd mn (fMul (halfPast b) w)) ∧
  (∀ (levels n : Nat) (mn range : F64) (bins : List (Nat × F64)) (cs : List F64),
    initialCenters levels n mn range bins = .ok cs ↔
    fFinite (fDiv (fOfNat n) (fOfNat levels)) = true ∧ fFinite (fDiv range (fOfNat levels)) = true ∧
    ∃ seeds : List F64, seedCenters levels (fDiv (fOfNat n) (fOfNat levels)) 0 0 bins = .ok seeds ∧ cs.length = levels ∧
      (∀ j < seeds.length, cs[j]? = seeds[j]?) ∧
      ∀ j, seeds.length ≤ j → j < levels → ∃ v, fFinite (fMul (halfPast j) (fDiv range (fOfNat levels))) = true ∧
        fFinite v = true ∧ v = fAdd mn (fMul (halfPast j) (fDiv range (fOfNat levels))) ∧ cs[j]? = some v) ∧
  (∀ (levels : Nat) (per : F64) (bins : List (Nat × F64)) (e : ErrCode), seedCenters levels per 0 0 bins = .error e →
    e = .nonFinite ∧ ∃ k < levels, fFinite (fMul (halfPast k) per) = false) ∧
  (∀ (mn w x range : F64) (b levels n : Nat) (bins : List (Nat × F64)) (e : ErrCode),
    aqBin mn w x = .error e ∨ binMidpoint mn w b = .error e ∨ initialCenters levels n mn range bins = .error e →
    e = .nonFinite) ∧
  ∀ (levels : Nat) (per : F64) (bins : List (Nat × F64)) (cs : List F64),
    seedCenters levels per 0 0 bins = .ok cs →
    ∃ idx : List Nat, idx.length = cs.length ∧ cs.length ≤ levels ∧
      (∀ k < cs.length, ∀ lo, lo = (if k = 0 then 0 else idx.getD (k - 1) 0 + 1) →
        fFinite (fMul (halfPast k) per) = true ∧ lo ≤ idx.getD k 0 ∧ idx.getD k 0 < bins.length ∧ (bins[idx.getD k 0]?).map Prod.snd = cs[k]? ∧
        fLe (fMul (halfPast k) per) (fOfNat ((bins.take (idx.getD k 0 + 1)).map Prod.fst).sum) = true ∧
        ∀ b, lo ≤ b → b < idx.getD k 0 →
          fLe (fMul (halfPast k) per) (fOfNat ((bins.take (b + 1)).map Prod.fst).sum) = false) ∧
      (cs.length < levels → ∀ b, (if cs.length = 0 then 0 else idx.getD (cs.length - 1) 0 + 1) ≤ b → b < bins.length →
        fFinite (fMul (halfPast cs.length) per) = true ∧ fLe (fMul (halfPast cs.length) per) (fOfNat ((bins.take (b + 1)).map Prod.fst).sum) = false)

/-- One refinement pass (spec/41_adaptive_quantizer.md R190, R191). A bin goes to the nearest center, the first of several
equally near. The new value of a center is the sum of count ⊗ midpoint over its non-empty bins, from +0.0 in bin order, over
their count, or the old value if it has none. The movement is the greatest distance between a center's new and old value, index
by index. Both answer exactly when every value they compute is finite, and otherwise raise `E_NONFINITE` (spec/00_scope.md R14): a
sum is finite only if its products and partial sums are. -/
def Obligations.NearestCenterIsTheFirstNearest : Prop :=
  (∀ (cs : List F64) (mid : F64) (j : Nat), cs ≠ [] → (nearestCenter cs mid = .ok j ↔
    (∀ k < cs.length, fFinite (fSub mid (cs.getD k 0)) = true) ∧ j < cs.length ∧
    (∀ k < cs.length, fLe (fAbs (fSub mid (cs.getD j 0))) (fAbs (fSub mid (cs.getD k 0))) = true) ∧
    ∀ k < j, fLt (fAbs (fSub mid (cs.getD j 0))) (fAbs (fSub mid (cs.getD k 0))) = true)) ∧
  (∀ (bins : List (Nat × F64)) (cs : List F64), (∃ new moved, refinePass bins cs = .ok (new, moved)) ↔
    (∀ b ∈ bins, b.1 ≠ 0 → ∃ j, nearestCenter cs b.2 = .ok j) ∧
    ∀ j < cs.length, ∀ (mine : List (Nat × F64)) (count : Nat) (sum v : F64),
      mine = bins.filter (fun b => b.1 ≠ 0 ∧ nearestCenter cs b.2 = .ok j) → count = (mine.map Prod.fst).sum →
      sum = mine.foldl (fun acc b => fAdd acc (fMul (fOfNat b.1) b.2)) 0 →
      v = (if count = 0 then cs.getD j 0 else fDiv sum (fOfNat count)) →
      fFinite sum = true ∧ fFinite v = true ∧ fFinite (fSub v (cs.getD j 0)) = true) ∧
  (∀ (bins : List (Nat × F64)) (cs : List F64) (mid : F64) (e : ErrCode),
    nearestCenter cs mid = .error e ∨ refinePass bins cs = .error e → e = .nonFinite) ∧
  ∀ (bins : List (Nat × F64)) (cs new : List F64) (moved : F64), refinePass bins cs = .ok (new, moved) →
    new.length = cs.length ∧
    (∀ j < cs.length, ∀ (mine : List (Nat × F64)) (count : Nat) (sum : F64),
      mine = bins.filter (fun b => b.1 ≠ 0 ∧ nearestCenter cs b.2 = .ok j) → count = (mine.map Prod.fst).sum →
      sum = mine.foldl (fun acc b => fAdd acc (fMul (fOfNat b.1) b.2)) 0 →
      new[j]? = some (if count = 0 then cs.getD j 0 else fDiv sum (fOfNat count))) ∧
    (∀ j < cs.length, fLe (fAbs (fSub (new.getD j 0) (cs.getD j 0))) moved = true) ∧
    (moved = 0 ∨ ∃ j < cs.length, moved = fAbs (fSub (new.getD j 0) (cs.getD j 0)))

/-- The centers are sorted ascending, none lost, equal values in their old order (spec/41_adaptive_quantizer.md R192). The
refinement loop sorts so after every pass, starts from the centers as they are, runs at most MAXITER passes, and ends before
that exactly at the first pass whose movement is at most 0.25 (R189, R192): `c p` is the centers before pass p. It raises an error
only where one of its passes does. -/
def Obligations.CenterSortIsStableAscending : Prop :=
  (∀ xs : List F64, (∀ x ∈ xs, fFinite x = true) →
    ascending (sortAscending xs) = true ∧ (sortAscending xs).Perm xs ∧
    ∀ v : F64, fFinite v = true → (sortAscending xs).filter (fEq v) = xs.filter (fEq v)) ∧
  (∀ (bins : List (Nat × F64)) (maxIter : Nat) (cs : List F64) (e : ErrCode), refine bins maxIter cs 0 = .error e →
    ∃ (c : Nat → List F64) (moved : Nat → F64) (p : Nat), c 0 = cs ∧ p < maxIter ∧
      (∀ q < p, ∃ new, refinePass bins (c q) = .ok (new, moved q) ∧ c (q + 1) = sortAscending new ∧
        fLe (moved q) 0x3FD0000000000000 = false) ∧
      refinePass bins (c p) = .error e) ∧
  ∀ (bins : List (Nat × F64)) (maxIter : Nat) (cs r : List F64) (iters : Nat),
    refine bins maxIter cs 0 = .ok (r, iters) →
    ∃ (c : Nat → List F64) (moved : Nat → F64), c 0 = cs ∧ c iters = r ∧ iters ≤ maxIter ∧
      (∀ p < iters, ∃ new, refinePass bins (c p) = .ok (new, moved p) ∧ c (p + 1) = sortAscending new) ∧
      (∀ p, p + 1 < iters → fLe (moved p) 0x3FD0000000000000 = false) ∧
      (iters < maxIter → 0 < iters ∧ fLe (moved (iters - 1)) 0x3FD0000000000000 = true)

/-- spec/41_adaptive_quantizer.md R194: the boundaries are the midpoints of neighbouring centers, and a sample goes to the first
center whose upper boundary it does not exceed, or to the last. The boundaries are given exactly when they and the sums they halve are
finite, and otherwise `E_NONFINITE` is raised (spec/00_scope.md R14). -/
def Obligations.SampleGoesToFirstCenterNotExceeded : Prop :=
  ∀ (cs bnd : List F64) (x : F64), cs ≠ [] →
    (boundaries cs = .ok bnd ↔ bnd.length + 1 = cs.length ∧
      ∀ j < bnd.length, fFinite (fAdd (cs.getD j 0) (cs.getD (j + 1) 0)) = true ∧ fFinite (bnd.getD j 0) = true ∧
        bnd.getD j 0 = fDiv (fAdd (cs.getD j 0) (cs.getD (j + 1) 0)) (fOfNat 2)) ∧
    (∀ e : ErrCode, boundaries cs = .error e → e = .nonFinite) ∧
    (boundaries cs = .ok bnd → ∃ j < cs.length, assignSample cs bnd x = cs.getD j 0 ∧ (∀ t < j, fLe x (bnd.getD t 0) = false) ∧
      (j < bnd.length → fLe x (bnd.getD j 0) = true))

/-! ### Numerics -/

/-- The operations that round nothing, and the literals (spec/00_scope.md R12, R13). Comparisons are the exact numeric ones, so
−0 = +0. `fabs` clears the sign bit and `fneg` flips it. An integer below 2^53 in magnitude stands for itself, +0 for 0. A decimal
literal is the binary64 value nearest to it, ties to even; the thirteen of spec/40_color.md R151 and R152 are written out. -/
def Obligations.ComparisonsAreExact : Prop :=
  (∀ x y : F64, fFinite x = true → fFinite y = true →
    (fLt x y = true ↔ fValue x < fValue y) ∧ (fLe x y = true ↔ fValue x ≤ fValue y) ∧
    (fEq x y = true ↔ fValue x = fValue y)) ∧
  (∀ (x : F64) (i : Nat), (fAbs x).getLsbD i = (x.getLsbD i && decide (i ≠ 63)) ∧
    (fNeg x).getLsbD i = (x.getLsbD i ^^ decide (i = 63))) ∧
  (∀ n : Nat, n < 2 ^ 53 → fFinite (fOfNat n) = true ∧ fValue (fOfNat n) = n * 2 ^ 1074 ∧ fSign (fOfNat n) = false) ∧
  (∀ z : Int, |z| < 2 ^ 53 → fFinite (fOfInt z) = true ∧ fValue (fOfInt z) = z * 2 ^ 1074 ∧
    (fSign (fOfInt z) = true ↔ z < 0)) ∧
  (∀ num den : Nat, num < 2 ^ 53 → 0 < den → den < 2 ^ 53 →
    fFinite (fLit num den) = true ∧ fSign (fLit num den) = false ∧
    ∀ z : F64, fFinite z = true →
      |fValue (fLit num den) * den - num * 2 ^ 1074| ≤ |fValue z * den - num * 2 ^ 1074| ∧
      (|fValue (fLit num den) * den - num * 2 ^ 1074| = |fValue z * den - num * 2 ^ 1074| →
        fValue z ≠ fValue (fLit num den) → fFrac (fLit num den) % 2 = 0)) ∧
  fLit 299 1000 = 0x3FD322D0E5604189 ∧ fLit 587 1000 = 0x3FE2C8B439581062 ∧ fLit 114 1000 = 0x3FBD2F1A9FBE76C9 ∧
  fLit 147 1000 = 0x3FC2D0E560418937 ∧ fLit 289 1000 = 0x3FD27EF9DB22D0E5 ∧ fLit 436 1000 = 0x3FDBE76C8B439581 ∧
  fLit 615 1000 = 0x3FE3AE147AE147AE ∧ fLit 515 1000 = 0x3FE07AE147AE147B ∧ fLit 100 1000 = 0x3FB999999999999A ∧
  fLit 11398 10000 = 0x3FF23C9EECBFB15B ∧ fLit 3946 10000 = 0x3FD941205BC01A37 ∧
  fLit 5806 10000 = 0x3FE294467381D7DC ∧ fLit 20321 10000 = 0x400041BDA5119CE0

/-- The sum of finite values is the exact sum rounded to nearest, ties to even (spec/00_scope.md R12). It is finite exactly when
the exact sum lies below the point halfway from the greatest finite value to 2^1024, else the infinity of the sum's sign. A
finite result has no finite value nearer, and if another is as near, the result's last bit is 0. An exact zero is +0, but −0
where both operands are −0; every other result has the exact sum's sign. The same for a difference. -/
def Obligations.AdditionIsCorrectlyRounded : Prop :=
  (∀ x y : F64, fFinite x = true → fFinite y = true →
    (fFinite (fAdd x y) = true ↔ |fValue x + fValue y| < 2 ^ 2098 - 2 ^ 2044) ∧
    (fFinite (fSub x y) = true ↔ |fValue x - fValue y| < 2 ^ 2098 - 2 ^ 2044) ∧
    (fFinite (fAdd x y) = false → fAdd x y = if fValue x + fValue y < 0 then 0xFFF0000000000000 else 0x7FF0000000000000) ∧
    (fFinite (fSub x y) = false → fSub x y = if fValue x - fValue y < 0 then 0xFFF0000000000000 else 0x7FF0000000000000) ∧
    (fValue x + fValue y = 0 →
      fAdd x y = if x = 0x8000000000000000 ∧ y = 0x8000000000000000 then 0x8000000000000000 else 0) ∧
    (fValue x - fValue y = 0 → fSub x y = if x = 0x8000000000000000 ∧ y = 0 then 0x8000000000000000 else 0) ∧
    (fValue x + fValue y ≠ 0 → (fSign (fAdd x y) = true ↔ fValue x + fValue y < 0)) ∧
    (fValue x - fValue y ≠ 0 → (fSign (fSub x y) = true ↔ fValue x - fValue y < 0))) ∧
  ∀ x y z : F64, fFinite x = true → fFinite y = true → fFinite z = true →
    (fFinite (fAdd x y) = true →
      |fValue (fAdd x y) - (fValue x + fValue y)| ≤ |fValue z - (fValue x + fValue y)| ∧
      (|fValue (fAdd x y) - (fValue x + fValue y)| = |fValue z - (fValue x + fValue y)| →
        fValue z ≠ fValue (fAdd x y) → fFrac (fAdd x y) % 2 = 0)) ∧
    (fFinite (fSub x y) = true →
      |fValue (fSub x y) - (fValue x - fValue y)| ≤ |fValue z - (fValue x - fValue y)| ∧
      (|fValue (fSub x y) - (fValue x - fValue y)| = |fValue z - (fValue x - fValue y)| →
        fValue z ≠ fValue (fSub x y) → fFrac (fSub x y) % 2 = 0))

/-- The product of finite values is the exact product rounded to nearest, ties to even (spec/00_scope.md R12). It is finite
exactly when the exact product lies below the point halfway from the greatest finite value to 2^1024, else an infinity. Its sign
is negative exactly when one operand's is, of a zero or an infinity too. -/
def Obligations.MultiplicationIsCorrectlyRounded : Prop :=
  (∀ x y : F64, fFinite x = true → fFinite y = true →
    (fFinite (fMul x y) = true ↔ |fValue x * fValue y| < (2 ^ 2098 - 2 ^ 2044) * 2 ^ 1074) ∧
    (fFinite (fMul x y) = false → fIsInf (fMul x y) = true) ∧
    (fSign (fMul x y) = true ↔ fSign x ≠ fSign y) ∧
    (fValue x * fValue y = 0 → fMul x y = if fSign x = fSign y then 0 else 0x8000000000000000)) ∧
  ∀ x y z : F64, fFinite x = true → fFinite y = true → fFinite z = true → fFinite (fMul x y) = true →
    |fValue (fMul x y) * 2 ^ 1074 - fValue x * fValue y| ≤ |fValue z * 2 ^ 1074 - fValue x * fValue y| ∧
    (|fValue (fMul x y) * 2 ^ 1074 - fValue x * fValue y| = |fValue z * 2 ^ 1074 - fValue x * fValue y| →
      fValue z ≠ fValue (fMul x y) → fFrac (fMul x y) % 2 = 0)

/-- The quotient of finite values is the exact quotient rounded to nearest, ties to even (spec/00_scope.md R12). For a nonzero
divisor it is finite exactly when the exact quotient lies below the point halfway from the greatest finite value to 2^1024, else
an infinity; its sign is negative exactly when one operand's is, of a zero or an infinity too. A division by a zero gives no
finite value: an infinity of that sign for a nonzero dividend, a NaN for a zero one. -/
def Obligations.DivisionIsCorrectlyRounded : Prop :=
  (∀ x y : F64, fFinite x = true → fFinite y = true →
    (fValue y ≠ 0 →
      (fFinite (fDiv x y) = true ↔ |fValue x| * 2 ^ 1074 < (2 ^ 2098 - 2 ^ 2044) * |fValue y|) ∧
      (fFinite (fDiv x y) = false → fIsInf (fDiv x y) = true) ∧
      (fSign (fDiv x y) = true ↔ fSign x ≠ fSign y) ∧
      (fValue x = 0 → fDiv x y = if fSign x = fSign y then 0 else 0x8000000000000000)) ∧
    (fValue y = 0 → fValue x ≠ 0 → fIsInf (fDiv x y) = true ∧ (fSign (fDiv x y) = true ↔ fSign x ≠ fSign y)) ∧
    (fValue y = 0 → fValue x = 0 → fIsNaN (fDiv x y) = true)) ∧
  ∀ x y z : F64, fFinite x = true → fFinite y = true → fValue y ≠ 0 → fFinite z = true → fFinite (fDiv x y) = true →
    |fValue (fDiv x y) * fValue y - fValue x * 2 ^ 1074| ≤ |fValue z * fValue y - fValue x * 2 ^ 1074| ∧
    (|fValue (fDiv x y) * fValue y - fValue x * 2 ^ 1074| = |fValue z * fValue y - fValue x * 2 ^ 1074| →
      fValue z ≠ fValue (fDiv x y) → fFrac (fDiv x y) % 2 = 0)

/-- spec/00_scope.md R15: `trunc`, `floor` and `clamp`. -/
def Obligations.TruncFloorClamp : Prop :=
  ∀ x lo hi : F64, fFinite x = true →
    fTrunc x = (fValue x).tdiv (2 ^ 1074) ∧ fFloor x = fValue x / 2 ^ 1074 ∧
    (fLt x lo = true → fClamp x lo hi = lo) ∧ (fLt x lo = false → fLt hi x = true → fClamp x lo hi = hi) ∧
    (fLt x lo = false → fLt hi x = false → fClamp x lo hi = x)

/-- spec/00_scope.md R17: `toByte` is `trunc(clamp(x, 0.0, 255.0) ⊕ 0.5)`, always in 0..255. The clauses on the values the rule
names are the rule's own: 0.49999999999999994, 254.5, −3.0, 300.0, 127.49. -/
def Obligations.ToByteClampsAndRounds : Prop :=
  (∀ x : F64, fFinite x = true →
    0 ≤ fTrunc (fAdd (fClamp x 0 (fOfNat 255)) (fLit 1 2)) ∧ fTrunc (fAdd (fClamp x 0 (fOfNat 255)) (fLit 1 2)) ≤ 255 ∧
    ((toByte x).toNat : Int) = fTrunc (fAdd (fClamp x 0 (fOfNat 255)) (fLit 1 2))) ∧
  toByte 0x3FDFFFFFFFFFFFFF = 1 ∧ toByte (fLit 509 2) = 255 ∧ toByte (fNeg (fOfNat 3)) = 0 ∧
  toByte (fOfNat 300) = 255 ∧ toByte (fLit 12749 100) = 127

/-! ### The host's side -/

/-- A CSR access of 32 bits at an aligned offset of the window happens at once, busy or not: a read gives the register and
changes nothing, a write does what its register's rule says; any other width or a misaligned offset has no step
(spec/10_state.md R52). -/
def Obligations.CsrAccessSteps : Prop :=
  ∀ (s : State) (o w : Nat) (v : Word) (rest : List Event),
    (s.agenda = .csrRead o w :: rest → w = 4 → o % 4 = 0 → o < 256 →
      step s = .next { s with agenda := rest, replies := s.replies ++ [.csr (csrValue s o)] }) ∧
    (s.agenda = .csrWrite o w v :: rest → w = 4 → o % 4 = 0 → o < 256 →
      step s = .next (csrWrite (s.setAgenda rest) o v)) ∧
    (s.agenda = .csrRead o w :: rest ∨ s.agenda = .csrWrite o w v :: rest → w ≠ 4 ∨ o % 4 ≠ 0 →
      step s = .refused .csrAccess)

/-- The register each offset reads, the CSR map (spec/10_state.md R31 to R33, R35 to R50): the fields of `AQCFG` and `PDCFG` in
their bits, `CMD` and the reserved offsets 0, the decoder registers 0 while `PDV` = 0. The bits of `STATUS` are `StatusBits`'s.
And the operands of the commands are the fields of those registers that spec/30_encoding.md R124 names. -/
def Obligations.CsrMapReads : Prop :=
  ∀ s : State,
    csrValue s 0x00 = 0x05760001 ∧ csrValue s 0x04 = (if s.irqEn then 1 else 0) ∧ csrValue s 0x0C = 0 ∧
    csrValue s 0x10 = s.opr.src ∧ csrValue s 0x14 = s.opr.dst ∧ csrValue s 0x18 = s.opr.aux ∧
    csrValue s 0x1C = s.opr.coef0 ∧ csrValue s 0x20 = s.opr.coef1 ∧ csrValue s 0x24 = s.opr.coef2 ∧
    csrValue s 0x28 = s.opr.dim ∧ csrValue s 0x2C = s.opr.blk ∧ csrValue s 0x30 = s.opr.qlevel ∧
    csrValue s 0x34 = s.opr.count ∧ csrValue s 0x38 = s.opr.stride ∧ csrValue s 0x44 = s.aqIters ∧
    csrValue s 0x48 = s.aqNctr ∧
    (∀ v, v = csrValue s 0x3C → v.extractLsb' 0 4 = s.opr.aqBits ∧ v.extractLsb' 4 4 = 0 ∧
      v.extractLsb' 8 8 = s.opr.aqMaxIter ∧ v.getLsbD 16 = s.opr.aqFmt ∧ v.extractLsb' 17 15 = 0) ∧
    (∀ v, v = csrValue s 0x40 → v.extractLsb' 0 2 = s.opr.pdcfgMode ∧ v.extractLsb' 2 30 = 0) ∧
    (s.pd.valid = true →
      (s.pd.mode, csrValue s 0x4C) ∈ ([(.baseline, 0), (.spectral, 1), (.successive, 2)] : List (Mode × Word)) ∧
      csrValue s 0x50 = s.pd.step ∧ csrValue s 0x54 = s.pd.total) ∧
    (s.pd.valid = false → csrValue s 0x4C = 0 ∧ csrValue s 0x50 = 0 ∧ csrValue s 0x54 = 0) ∧
    (∀ o, 0x58 ≤ o → csrValue s o = 0) ∧
    s.src = (csrValue s 0x10).toNat ∧ s.dst = (csrValue s 0x14).toNat ∧ s.aux = (csrValue s 0x18).toNat ∧
    s.coefBase 0 = (csrValue s 0x1C).toNat ∧ s.coefBase 1 = (csrValue s 0x20).toNat ∧
    s.coefBase 2 = (csrValue s 0x24).toNat ∧
    s.imgW = ((csrValue s 0x28).extractLsb' 0 16).toNat ∧ s.imgH = ((csrValue s 0x28).extractLsb' 16 16).toNat ∧
    s.blkX = ((csrValue s 0x2C).extractLsb' 0 16).toNat ∧ s.blkY = ((csrValue s 0x2C).extractLsb' 16 16).toNat ∧
    s.level = (csrValue s 0x30).toNat ∧ s.elements = (csrValue s 0x34).toNat ∧
    s.srcStride = ((csrValue s 0x38).extractLsb' 0 16).toNat ∧
    s.dstStride = ((csrValue s 0x38).extractLsb' 16 16).toNat ∧
    s.depth = ((csrValue s 0x3C).extractLsb' 0 4).toNat ∧ s.levels = 2 ^ s.depth ∧
    s.sampleSize = if (csrValue s 0x3C).getLsbD 16 then 1 else 8

/-- The bits of a read of `STATUS` (spec/10_state.md R34). -/
def Obligations.StatusBits : Prop :=
  ∀ s : State, ∀ v : Word, v = csrValue s 0x08 →
    v.getLsbD 0 = s.status.busy ∧ v.getLsbD 1 = s.status.done ∧ v.getLsbD 2 = s.status.err ∧
    v.getLsbD 3 = s.status.more ∧ v.getLsbD 4 = s.pd.valid ∧ v.getLsbD 5 = s.status.ovr ∧
    v.extractLsb' 6 2 = 0 ∧ v.extractLsb' 8 8 = s.status.errCode ∧ v.extractLsb' 16 16 = 0

/-- spec/10_state.md R33, R35: writes to `CTRL` and `CMD`; and a write to `STATUS` (R34) clears each of `DONE`, `ERR`, `OVR`
whose written bit is 1 and changes nothing else. -/
def Obligations.ControlRegisterWrites : Prop :=
  ∀ (s : State) (v : Word),
    csrWrite s 0x04 v = { s with irqEn := v.getLsbD 0 } ∧
    csrWrite s 0x08 v = { s with status := { s.status with
      done := s.status.done && !v.getLsbD 1, err := s.status.err && !v.getLsbD 2, ovr := s.status.ovr && !v.getLsbD 5 } } ∧
    (s.status.busy = true → csrWrite s 0x0C v = { s with status := { s.status with ovr := true } }) ∧
    (s.status.busy = false →
      csrWrite s 0x0C v = { s with pending := v, status := { s.status with busy := true, done := false } })

/-- A write to an operand register: idle, the register then reads the written value with its reserved bits 0, and no other
offset reads otherwise; busy, it is ignored and sets `OVR`. A write to a read-only register or a reserved offset changes nothing
(spec/10_state.md R50, R51). -/
def Obligations.OperandWritesReadBack : Prop :=
  ∀ (s : State) (o : Nat) (v : Word),
    (o ∈ [0x10, 0x14, 0x18, 0x1C, 0x20, 0x24, 0x28, 0x2C, 0x30, 0x34, 0x38, 0x3C, 0x40] →
      (s.status.busy = false →
        csrValue (csrWrite s o v) o = v &&& (if o = 0x3C then 0x0001FF0F else if o = 0x40 then 0x3 else 0xFFFFFFFF) ∧
        (∀ o', o' ≠ o → csrValue (csrWrite s o v) o' = csrValue s o') ∧
        csrWrite s o v = { s with opr := (csrWrite s o v).opr }) ∧
      (s.status.busy = true → csrWrite s o v = { s with status := { s.status with ovr := true } })) ∧
    (o ∈ [0x00, 0x44, 0x48, 0x4C, 0x50, 0x54] ∨ 0x58 ≤ o → csrWrite s o v = s)

/-- A host LMEM access while the block is idle: a read gives the bytes, a write changes exactly its bytes; one that reaches an
address at or past `LMEM_BYTES` has no step (spec/20_memory.md R84). That an access of no bytes at `LMEM_BYTES` itself is
accepted is the model's choice (log entry 6), and so are the lists of events and replies (log entry 5). And what a command's loads
make of those bytes: LMEM is little-endian, `i16` elements are two's complement (R81, R83). -/
def Obligations.HostLmemAccessSteps : Prop :=
  (∀ (s : State) (a : Nat), s.ldU8 a = (s.ldByte a).toNat ∧
    (s.ldF64 a).toNat = ((List.range 8).map fun m => (s.ldByte (a + m)).toNat * 2 ^ (8 * m)).sum ∧
    s.ldI16 a = ((s.ldByte a).toNat + 256 * (s.ldByte (a + 1)).toNat : Int) -
      (if 128 ≤ (s.ldByte (a + 1)).toNat then 65536 else 0)) ∧
  ∀ (s : State) (a : Nat) (rest : List Event), s.status.busy = false →
    (∀ n, s.agenda = .lmemRead a n :: rest → a + n ≤ s.lmemBytes →
      step s = .next { s with
        agenda := rest, replies := s.replies ++ [.lmem ((List.range n).map fun k => s.ldByte (a + k))] }) ∧
    (∀ bs, s.agenda = .lmemWrite a bs :: rest → a + bs.length ≤ s.lmemBytes →
      ∃ t, step s = .next t ∧ t = { s with agenda := rest, lmem := t.lmem } ∧
        (∀ k, k < bs.length → bs[k]? = some (t.ldByte (a + k))) ∧
        ∀ x, x < a ∨ a + bs.length ≤ x → t.ldByte x = s.ldByte x) ∧
    (∀ n, s.agenda = .lmemRead a n :: rest → 0 < n → s.lmemBytes < a + n → step s = .refused .lmemAccess) ∧
    (∀ bs, s.agenda = .lmemWrite a bs :: rest → bs ≠ [] → s.lmemBytes < a + bs.length → step s = .refused .lmemAccess)

/-- spec/20_memory.md R98: a host LMEM access that comes up while the block is busy does not happen; the command completes,
the access is still the next event, and it is held no longer. That this is so of an access past `LMEM_BYTES` too, before its
range is tested, is the model's choice (log entry 14), and so is the list of events (log entry 5). -/
def Obligations.LmemAccessIsHeldWhileBusy : Prop :=
  ∀ (s : State) (e : Event) (rest : List Event), s.status.busy = true → s.agenda = e :: rest → e.heldWhileBusy = true →
    ∃ t, step s = .next t ∧ t.agenda = e :: rest ∧ t.replies = s.replies ∧ t.status.busy = false ∧
      t.status.done = true ∧ step t = hostEvent e (t.setAgenda rest)

/-- spec/10_state.md R56: `IRQ` is `STATUS.DONE` and `CTRL.IRQEN`, as a host reads them. -/
def Obligations.IrqIsDoneAndEnabled : Prop :=
  ∀ s : State, irq s = ((csrValue s 0x08).getLsbD 1 && (csrValue s 0x04).getLsbD 0)

/-- What the reset leaves in every register, as a host reads it (spec/70_reset_and_hazards.md R400); and no decoder context, no
command in flight, no interrupt. -/
def Obligations.ResetValues : Prop :=
  csrValue State.reset 0x00 = 0x05760001 ∧ csrValue State.reset 0x3C = 0x00001E00 ∧
  (∀ o, o ≠ 0x00 → o ≠ 0x3C → csrValue State.reset o = 0) ∧
  State.reset.status.busy = false ∧ State.reset.pd.valid = false ∧ irq State.reset = false

/-- A reset with power held, at any time: every register is at its reset value; an idle block's LMEM is unchanged; of a busy
block, every byte outside the output regions of the abandoned command keeps its value (spec/70_reset_and_hazards.md R400 to
R402). A power-on reset leaves every register at its reset value too (R400, R401, spec/60_exceptions.md R374). Neither changes
`LMEM_BYTES`. Which free value an indeterminate byte takes is the model's own (log entries 1 and 4) and is not claimed; that
removing power is an event, and that the host's lists outlive both, is the model's choice (log entry 16). -/
def Obligations.WarmResetKeepsLmem : Prop :=
  (∀ (s : State) (rest : List Event), s.agenda = .powerCycle :: rest →
    ∃ t, step s = .next t ∧ (∀ o, csrValue t o = csrValue State.reset o) ∧ t.status = Status.reset ∧
      t.pd = PdContext.reset ∧ irq t = false ∧ t.lmemExp = s.lmemExp ∧ t.agenda = rest ∧ t.replies = s.replies) ∧
  ∀ (s : State) (rest : List Event), s.agenda = .reset :: rest →
    ∃ t, step s = .next t ∧ (∀ o, csrValue t o = csrValue State.reset o) ∧ t.status = Status.reset ∧
      t.pd = PdContext.reset ∧ irq t = false ∧ t.lmemExp = s.lmemExp ∧ t.agenda = rest ∧ t.replies = s.replies ∧
      (s.status.busy = false → LmemKept s t) ∧
      (∀ i, s.status.busy = true → decode s.pending = .ok i → LmemKeptOutside (tableOutputs i s) s t) ∧
      (s.status.busy = true → (∀ i, decode s.pending ≠ .ok i) → LmemKept s t)

/-! ### Invariants and whole-machine rules -/

/-- The invariants hold right after reset. -/
def Obligations.InvariantsHoldAtReset : Prop := State.reset.Inv

/-- Every step keeps the invariants, and the build parameter: LMEM stays canonical and below `LMEM_BYTES`
(spec/20_memory.md R80), the decoder's step stays at most its total and `MORE` says whether a step remains (spec/10_state.md
R53, spec/44_progressive_decoder.md R323), the block is never busy and done at once, and the error code is one of the table
(spec/60_exceptions.md R360). -/
def Obligations.EveryStepKeepsTheInvariants : Prop :=
  ∀ s t : State, s.Inv → step s = .next t → t.Inv ∧ t.lmemExp = s.lmemExp

/-- What sets and clears each flag, over every step (spec/10_state.md R55). `BUSY` rises at an accepted `CMD` write and falls at
a completion or a reset. `DONE` and `ERR` rise at a completion, `ERR` at one with an error; `PDV` at a successful `PD_INIT`;
`OVR` at a write to `CMD` or an operand register ignored while busy. `MORE` changes at a successful decoder command or a reset, `ERRCODE` at a completion or a reset. `ERR`,
`OVR`, `DONE` fall only by a host's write or a reset (`DONE` by an accepted `CMD` write too), `PDV` only by a reset. -/
def Obligations.FlagsChangeOnlyForTheirCause : Prop :=
  ∀ s t : State, step s = .next t →
    (s.status.busy = false → t.status.busy = true → ∃ w rest, s.agenda = .csrWrite 0x0C 4 w :: rest ∧ t.pending = w) ∧
    (s.status.busy = true → t.status.busy = false → CompletedIn s t ∨ ResetNext s) ∧
    (s.status.errCode ≠ t.status.errCode → CompletedIn s t ∨ ResetNext s) ∧
    (s.status.done = false → t.status.done = true → CompletedIn s t) ∧
    (s.status.err = false → t.status.err = true → CompletedIn s t ∧ t.status.errCode ≠ 0) ∧
    (s.status.ovr = false → t.status.ovr = true →
      s.status.busy = true ∧ ∃ o v rest, s.agenda = .csrWrite o 4 v :: rest ∧
        o ∈ [0x0C, 0x10, 0x14, 0x18, 0x1C, 0x20, 0x24, 0x28, 0x2C, 0x30, 0x34, 0x38, 0x3C, 0x40]) ∧
    (s.pd.valid = false → t.pd.valid = true →
      CompletedIn s t ∧ t.status.errCode = 0 ∧ decode s.pending = .ok .pdInit) ∧
    (s.status.more ≠ t.status.more →
      (CompletedIn s t ∧ t.status.errCode = 0 ∧ ∃ i ∈ [Instr.pdInit, .pdStep, .pdReset], decode s.pending = .ok i) ∨
        ResetNext s) ∧
    (s.status.err = true → t.status.err = false →
      ∃ e rest, s.agenda = e :: rest ∧ (e ∈ [Event.reset, .powerCycle] ∨ ∃ v, e = .csrWrite 0x08 4 v ∧ v.getLsbD 2 = true)) ∧
    (s.status.ovr = true → t.status.ovr = false →
      ∃ e rest, s.agenda = e :: rest ∧ (e ∈ [Event.reset, .powerCycle] ∨ ∃ v, e = .csrWrite 0x08 4 v ∧ v.getLsbD 5 = true)) ∧
    (s.status.done = true → t.status.done = false →
      ∃ e rest, s.agenda = e :: rest ∧ (e ∈ [Event.reset, .powerCycle] ∨ (∃ v, e = .csrWrite 0x08 4 v ∧ v.getLsbD 1 = true) ∨
        ∃ w, e = .csrWrite 0x0C 4 w ∧ t.status.busy = true)) ∧
    (s.pd.valid = true → t.pd.valid = false → ResetNext s)
end

