-- ==== Sys2Proof/Laws/State.lean ====
section
/-!
SUPPORT. One lemma for each field under each named update of the state, and for the flags under each update of
`STATUS`, so that no proof unfolds a record update.
-/

namespace Sys2Proof.Machine

variable (s : State)

/-! ### `setLmem` -/

@[simp] theorem State.setLmem_irqEn (m : List Host.Cell) : (s.setLmem m).irqEn = s.irqEn := rfl
@[simp] theorem State.setLmem_status (m : List Host.Cell) : (s.setLmem m).status = s.status := rfl
@[simp] theorem State.setLmem_opr (m : List Host.Cell) : (s.setLmem m).opr = s.opr := rfl
@[simp] theorem State.setLmem_aqIters (m : List Host.Cell) : (s.setLmem m).aqIters = s.aqIters := rfl
@[simp] theorem State.setLmem_aqNctr (m : List Host.Cell) : (s.setLmem m).aqNctr = s.aqNctr := rfl
@[simp] theorem State.setLmem_pending (m : List Host.Cell) : (s.setLmem m).pending = s.pending := rfl
@[simp] theorem State.setLmem_pd (m : List Host.Cell) : (s.setLmem m).pd = s.pd := rfl
@[simp] theorem State.setLmem_lmem (m : List Host.Cell) : (s.setLmem m).lmem = m := rfl
@[simp] theorem State.setLmem_lmemExp (m : List Host.Cell) : (s.setLmem m).lmemExp = s.lmemExp := rfl
@[simp] theorem State.setLmem_lmemDraw (m : List Host.Cell) : (s.setLmem m).lmemDraw = s.lmemDraw := rfl
@[simp] theorem State.setLmem_nextDraw (m : List Host.Cell) : (s.setLmem m).nextDraw = s.nextDraw := rfl
@[simp] theorem State.setLmem_agenda (m : List Host.Cell) : (s.setLmem m).agenda = s.agenda := rfl
@[simp] theorem State.setLmem_replies (m : List Host.Cell) : (s.setLmem m).replies = s.replies := rfl
@[simp] theorem State.setLmem_lmemBytes (m : List Host.Cell) : (s.setLmem m).lmemBytes = s.lmemBytes := rfl

/-! ### `setAqReport` -/

@[simp] theorem State.setAqReport_irqEn (i n : Word) : (s.setAqReport i n).irqEn = s.irqEn := rfl
@[simp] theorem State.setAqReport_status (i n : Word) : (s.setAqReport i n).status = s.status := rfl
@[simp] theorem State.setAqReport_opr (i n : Word) : (s.setAqReport i n).opr = s.opr := rfl
@[simp] theorem State.setAqReport_aqIters (i n : Word) : (s.setAqReport i n).aqIters = i := rfl
@[simp] theorem State.setAqReport_aqNctr (i n : Word) : (s.setAqReport i n).aqNctr = n := rfl
@[simp] theorem State.setAqReport_pending (i n : Word) : (s.setAqReport i n).pending = s.pending := rfl
@[simp] theorem State.setAqReport_pd (i n : Word) : (s.setAqReport i n).pd = s.pd := rfl
@[simp] theorem State.setAqReport_lmem (i n : Word) : (s.setAqReport i n).lmem = s.lmem := rfl
@[simp] theorem State.setAqReport_lmemExp (i n : Word) : (s.setAqReport i n).lmemExp = s.lmemExp := rfl
@[simp] theorem State.setAqReport_lmemDraw (i n : Word) : (s.setAqReport i n).lmemDraw = s.lmemDraw := rfl
@[simp] theorem State.setAqReport_nextDraw (i n : Word) : (s.setAqReport i n).nextDraw = s.nextDraw := rfl
@[simp] theorem State.setAqReport_agenda (i n : Word) : (s.setAqReport i n).agenda = s.agenda := rfl
@[simp] theorem State.setAqReport_replies (i n : Word) : (s.setAqReport i n).replies = s.replies := rfl
@[simp] theorem State.setAqReport_ldByte (i n : Word) (a : Nat) : (s.setAqReport i n).ldByte a = s.ldByte a := rfl
@[simp] theorem State.setAqReport_lmemBytes (i n : Word) : (s.setAqReport i n).lmemBytes = s.lmemBytes := rfl

/-! ### `setDecoder` -/

@[simp] theorem State.setDecoder_irqEn (p : PdContext) (b : Bool) : (s.setDecoder p b).irqEn = s.irqEn := rfl
@[simp] theorem State.setDecoder_status (p : PdContext) (b : Bool) : (s.setDecoder p b).status = { s.status with more := b } := rfl
@[simp] theorem State.setDecoder_opr (p : PdContext) (b : Bool) : (s.setDecoder p b).opr = s.opr := rfl
@[simp] theorem State.setDecoder_aqIters (p : PdContext) (b : Bool) : (s.setDecoder p b).aqIters = s.aqIters := rfl
@[simp] theorem State.setDecoder_aqNctr (p : PdContext) (b : Bool) : (s.setDecoder p b).aqNctr = s.aqNctr := rfl
@[simp] theorem State.setDecoder_pending (p : PdContext) (b : Bool) : (s.setDecoder p b).pending = s.pending := rfl
@[simp] theorem State.setDecoder_pd (p : PdContext) (b : Bool) : (s.setDecoder p b).pd = p := rfl
@[simp] theorem State.setDecoder_lmem (p : PdContext) (b : Bool) : (s.setDecoder p b).lmem = s.lmem := rfl
@[simp] theorem State.setDecoder_lmemExp (p : PdContext) (b : Bool) : (s.setDecoder p b).lmemExp = s.lmemExp := rfl
@[simp] theorem State.setDecoder_lmemDraw (p : PdContext) (b : Bool) : (s.setDecoder p b).lmemDraw = s.lmemDraw := rfl
@[simp] theorem State.setDecoder_nextDraw (p : PdContext) (b : Bool) : (s.setDecoder p b).nextDraw = s.nextDraw := rfl
@[simp] theorem State.setDecoder_agenda (p : PdContext) (b : Bool) : (s.setDecoder p b).agenda = s.agenda := rfl
@[simp] theorem State.setDecoder_replies (p : PdContext) (b : Bool) : (s.setDecoder p b).replies = s.replies := rfl
@[simp] theorem State.setDecoder_ldByte (p : PdContext) (b : Bool) (a : Nat) : (s.setDecoder p b).ldByte a = s.ldByte a := rfl
@[simp] theorem State.setDecoder_lmemBytes (p : PdContext) (b : Bool) : (s.setDecoder p b).lmemBytes = s.lmemBytes := rfl

/-! ### `completeOk` -/

@[simp] theorem State.completeOk_irqEn : s.completeOk.irqEn = s.irqEn := rfl
@[simp] theorem State.completeOk_status : s.completeOk.status = s.status.completeOk := rfl
@[simp] theorem State.completeOk_opr : s.completeOk.opr = s.opr := rfl
@[simp] theorem State.completeOk_aqIters : s.completeOk.aqIters = s.aqIters := rfl
@[simp] theorem State.completeOk_aqNctr : s.completeOk.aqNctr = s.aqNctr := rfl
@[simp] theorem State.completeOk_pending : s.completeOk.pending = s.pending := rfl
@[simp] theorem State.completeOk_pd : s.completeOk.pd = s.pd := rfl
@[simp] theorem State.completeOk_lmem : s.completeOk.lmem = s.lmem := rfl
@[simp] theorem State.completeOk_lmemExp : s.completeOk.lmemExp = s.lmemExp := rfl
@[simp] theorem State.completeOk_lmemDraw : s.completeOk.lmemDraw = s.lmemDraw := rfl
@[simp] theorem State.completeOk_nextDraw : s.completeOk.nextDraw = s.nextDraw := rfl
@[simp] theorem State.completeOk_agenda : s.completeOk.agenda = s.agenda := rfl
@[simp] theorem State.completeOk_replies : s.completeOk.replies = s.replies := rfl
@[simp] theorem State.completeOk_ldByte (a : Nat) : s.completeOk.ldByte a = s.ldByte a := rfl
@[simp] theorem State.completeOk_lmemBytes : s.completeOk.lmemBytes = s.lmemBytes := rfl

/-! ### `failWith` -/

@[simp] theorem State.failWith_irqEn (e : ErrCode) : (s.failWith e).irqEn = s.irqEn := rfl
@[simp] theorem State.failWith_status (e : ErrCode) : (s.failWith e).status = s.status.completeError e := rfl
@[simp] theorem State.failWith_opr (e : ErrCode) : (s.failWith e).opr = s.opr := rfl
@[simp] theorem State.failWith_aqIters (e : ErrCode) : (s.failWith e).aqIters = s.aqIters := rfl
@[simp] theorem State.failWith_aqNctr (e : ErrCode) : (s.failWith e).aqNctr = s.aqNctr := rfl
@[simp] theorem State.failWith_pending (e : ErrCode) : (s.failWith e).pending = s.pending := rfl
@[simp] theorem State.failWith_pd (e : ErrCode) : (s.failWith e).pd = s.pd := rfl
@[simp] theorem State.failWith_lmem (e : ErrCode) : (s.failWith e).lmem = s.lmem := rfl
@[simp] theorem State.failWith_lmemExp (e : ErrCode) : (s.failWith e).lmemExp = s.lmemExp := rfl
@[simp] theorem State.failWith_lmemDraw (e : ErrCode) : (s.failWith e).lmemDraw = s.lmemDraw := rfl
@[simp] theorem State.failWith_nextDraw (e : ErrCode) : (s.failWith e).nextDraw = s.nextDraw := rfl
@[simp] theorem State.failWith_agenda (e : ErrCode) : (s.failWith e).agenda = s.agenda := rfl
@[simp] theorem State.failWith_replies (e : ErrCode) : (s.failWith e).replies = s.replies := rfl
@[simp] theorem State.failWith_ldByte (e : ErrCode) (a : Nat) : (s.failWith e).ldByte a = s.ldByte a := rfl
@[simp] theorem State.failWith_lmemBytes (e : ErrCode) : (s.failWith e).lmemBytes = s.lmemBytes := rfl

/-! ### `writeStatus` -/

@[simp] theorem State.writeStatus_irqEn (v : Word) : (s.writeStatus v).irqEn = s.irqEn := rfl
@[simp] theorem State.writeStatus_status (v : Word) : (s.writeStatus v).status = s.status.writeOneToClear v := rfl
@[simp] theorem State.writeStatus_opr (v : Word) : (s.writeStatus v).opr = s.opr := rfl
@[simp] theorem State.writeStatus_aqIters (v : Word) : (s.writeStatus v).aqIters = s.aqIters := rfl
@[simp] theorem State.writeStatus_aqNctr (v : Word) : (s.writeStatus v).aqNctr = s.aqNctr := rfl
@[simp] theorem State.writeStatus_pending (v : Word) : (s.writeStatus v).pending = s.pending := rfl
@[simp] theorem State.writeStatus_pd (v : Word) : (s.writeStatus v).pd = s.pd := rfl
@[simp] theorem State.writeStatus_lmem (v : Word) : (s.writeStatus v).lmem = s.lmem := rfl
@[simp] theorem State.writeStatus_lmemExp (v : Word) : (s.writeStatus v).lmemExp = s.lmemExp := rfl
@[simp] theorem State.writeStatus_lmemDraw (v : Word) : (s.writeStatus v).lmemDraw = s.lmemDraw := rfl
@[simp] theorem State.writeStatus_nextDraw (v : Word) : (s.writeStatus v).nextDraw = s.nextDraw := rfl
@[simp] theorem State.writeStatus_agenda (v : Word) : (s.writeStatus v).agenda = s.agenda := rfl
@[simp] theorem State.writeStatus_replies (v : Word) : (s.writeStatus v).replies = s.replies := rfl
@[simp] theorem State.writeStatus_ldByte (v : Word) (a : Nat) : (s.writeStatus v).ldByte a = s.ldByte a := rfl
@[simp] theorem State.writeStatus_lmemBytes (v : Word) : (s.writeStatus v).lmemBytes = s.lmemBytes := rfl

/-! ### `acceptCommand` -/

@[simp] theorem State.acceptCommand_irqEn (w : Word) : (s.acceptCommand w).irqEn = s.irqEn := rfl
@[simp] theorem State.acceptCommand_status (w : Word) : (s.acceptCommand w).status = s.status.accept := rfl
@[simp] theorem State.acceptCommand_opr (w : Word) : (s.acceptCommand w).opr = s.opr := rfl
@[simp] theorem State.acceptCommand_aqIters (w : Word) : (s.acceptCommand w).aqIters = s.aqIters := rfl
@[simp] theorem State.acceptCommand_aqNctr (w : Word) : (s.acceptCommand w).aqNctr = s.aqNctr := rfl
@[simp] theorem State.acceptCommand_pending (w : Word) : (s.acceptCommand w).pending = w := rfl
@[simp] theorem State.acceptCommand_pd (w : Word) : (s.acceptCommand w).pd = s.pd := rfl
@[simp] theorem State.acceptCommand_lmem (w : Word) : (s.acceptCommand w).lmem = s.lmem := rfl
@[simp] theorem State.acceptCommand_lmemExp (w : Word) : (s.acceptCommand w).lmemExp = s.lmemExp := rfl
@[simp] theorem State.acceptCommand_lmemDraw (w : Word) : (s.acceptCommand w).lmemDraw = s.lmemDraw := rfl
@[simp] theorem State.acceptCommand_nextDraw (w : Word) : (s.acceptCommand w).nextDraw = s.nextDraw := rfl
@[simp] theorem State.acceptCommand_agenda (w : Word) : (s.acceptCommand w).agenda = s.agenda := rfl
@[simp] theorem State.acceptCommand_replies (w : Word) : (s.acceptCommand w).replies = s.replies := rfl
@[simp] theorem State.acceptCommand_ldByte (w : Word) (a : Nat) : (s.acceptCommand w).ldByte a = s.ldByte a := rfl
@[simp] theorem State.acceptCommand_lmemBytes (w : Word) : (s.acceptCommand w).lmemBytes = s.lmemBytes := rfl

/-! ### `overrun` -/

@[simp] theorem State.overrun_irqEn : s.overrun.irqEn = s.irqEn := rfl
@[simp] theorem State.overrun_status : s.overrun.status = s.status.overrun := rfl
@[simp] theorem State.overrun_opr : s.overrun.opr = s.opr := rfl
@[simp] theorem State.overrun_aqIters : s.overrun.aqIters = s.aqIters := rfl
@[simp] theorem State.overrun_aqNctr : s.overrun.aqNctr = s.aqNctr := rfl
@[simp] theorem State.overrun_pending : s.overrun.pending = s.pending := rfl
@[simp] theorem State.overrun_pd : s.overrun.pd = s.pd := rfl
@[simp] theorem State.overrun_lmem : s.overrun.lmem = s.lmem := rfl
@[simp] theorem State.overrun_lmemExp : s.overrun.lmemExp = s.lmemExp := rfl
@[simp] theorem State.overrun_lmemDraw : s.overrun.lmemDraw = s.lmemDraw := rfl
@[simp] theorem State.overrun_nextDraw : s.overrun.nextDraw = s.nextDraw := rfl
@[simp] theorem State.overrun_agenda : s.overrun.agenda = s.agenda := rfl
@[simp] theorem State.overrun_replies : s.overrun.replies = s.replies := rfl
@[simp] theorem State.overrun_ldByte (a : Nat) : s.overrun.ldByte a = s.ldByte a := rfl
@[simp] theorem State.overrun_lmemBytes : s.overrun.lmemBytes = s.lmemBytes := rfl

/-! ### `reply` -/

@[simp] theorem State.reply_irqEn (r : Reply) : (s.reply r).irqEn = s.irqEn := rfl
@[simp] theorem State.reply_status (r : Reply) : (s.reply r).status = s.status := rfl
@[simp] theorem State.reply_opr (r : Reply) : (s.reply r).opr = s.opr := rfl
@[simp] theorem State.reply_aqIters (r : Reply) : (s.reply r).aqIters = s.aqIters := rfl
@[simp] theorem State.reply_aqNctr (r : Reply) : (s.reply r).aqNctr = s.aqNctr := rfl
@[simp] theorem State.reply_pending (r : Reply) : (s.reply r).pending = s.pending := rfl
@[simp] theorem State.reply_pd (r : Reply) : (s.reply r).pd = s.pd := rfl
@[simp] theorem State.reply_lmem (r : Reply) : (s.reply r).lmem = s.lmem := rfl
@[simp] theorem State.reply_lmemExp (r : Reply) : (s.reply r).lmemExp = s.lmemExp := rfl
@[simp] theorem State.reply_lmemDraw (r : Reply) : (s.reply r).lmemDraw = s.lmemDraw := rfl
@[simp] theorem State.reply_nextDraw (r : Reply) : (s.reply r).nextDraw = s.nextDraw := rfl
@[simp] theorem State.reply_agenda (r : Reply) : (s.reply r).agenda = s.agenda := rfl
@[simp] theorem State.reply_replies (r : Reply) : (s.reply r).replies = s.replies ++ [r] := rfl
@[simp] theorem State.reply_ldByte (r : Reply) (a : Nat) : (s.reply r).ldByte a = s.ldByte a := rfl
@[simp] theorem State.reply_lmemBytes (r : Reply) : (s.reply r).lmemBytes = s.lmemBytes := rfl

/-! ### `writeCtrl` -/

@[simp] theorem writeCtrl_irqEn (v : Word) : (writeCtrl s v).irqEn = v.getLsbD 0 := rfl
@[simp] theorem writeCtrl_status (v : Word) : (writeCtrl s v).status = s.status := rfl
@[simp] theorem writeCtrl_opr (v : Word) : (writeCtrl s v).opr = s.opr := rfl
@[simp] theorem writeCtrl_aqIters (v : Word) : (writeCtrl s v).aqIters = s.aqIters := rfl
@[simp] theorem writeCtrl_aqNctr (v : Word) : (writeCtrl s v).aqNctr = s.aqNctr := rfl
@[simp] theorem writeCtrl_pending (v : Word) : (writeCtrl s v).pending = s.pending := rfl
@[simp] theorem writeCtrl_pd (v : Word) : (writeCtrl s v).pd = s.pd := rfl
@[simp] theorem writeCtrl_lmem (v : Word) : (writeCtrl s v).lmem = s.lmem := rfl
@[simp] theorem writeCtrl_lmemExp (v : Word) : (writeCtrl s v).lmemExp = s.lmemExp := rfl
@[simp] theorem writeCtrl_lmemDraw (v : Word) : (writeCtrl s v).lmemDraw = s.lmemDraw := rfl
@[simp] theorem writeCtrl_nextDraw (v : Word) : (writeCtrl s v).nextDraw = s.nextDraw := rfl
@[simp] theorem writeCtrl_agenda (v : Word) : (writeCtrl s v).agenda = s.agenda := rfl
@[simp] theorem writeCtrl_replies (v : Word) : (writeCtrl s v).replies = s.replies := rfl
@[simp] theorem writeCtrl_ldByte (v : Word) (a : Nat) : (writeCtrl s v).ldByte a = s.ldByte a := rfl
@[simp] theorem writeCtrl_lmemBytes (v : Word) : (writeCtrl s v).lmemBytes = s.lmemBytes := rfl

/-! ### `setAgenda` -/

@[simp] theorem State.setAgenda_irqEn (ag : List Event) : (s.setAgenda ag).irqEn = s.irqEn := rfl
@[simp] theorem State.setAgenda_status (ag : List Event) : (s.setAgenda ag).status = s.status := rfl
@[simp] theorem State.setAgenda_opr (ag : List Event) : (s.setAgenda ag).opr = s.opr := rfl
@[simp] theorem State.setAgenda_aqIters (ag : List Event) : (s.setAgenda ag).aqIters = s.aqIters := rfl
@[simp] theorem State.setAgenda_aqNctr (ag : List Event) : (s.setAgenda ag).aqNctr = s.aqNctr := rfl
@[simp] theorem State.setAgenda_pending (ag : List Event) : (s.setAgenda ag).pending = s.pending := rfl
@[simp] theorem State.setAgenda_pd (ag : List Event) : (s.setAgenda ag).pd = s.pd := rfl
@[simp] theorem State.setAgenda_lmem (ag : List Event) : (s.setAgenda ag).lmem = s.lmem := rfl
@[simp] theorem State.setAgenda_lmemExp (ag : List Event) : (s.setAgenda ag).lmemExp = s.lmemExp := rfl
@[simp] theorem State.setAgenda_lmemDraw (ag : List Event) : (s.setAgenda ag).lmemDraw = s.lmemDraw := rfl
@[simp] theorem State.setAgenda_nextDraw (ag : List Event) : (s.setAgenda ag).nextDraw = s.nextDraw := rfl
@[simp] theorem State.setAgenda_agenda (ag : List Event) : (s.setAgenda ag).agenda = ag := rfl
@[simp] theorem State.setAgenda_replies (ag : List Event) : (s.setAgenda ag).replies = s.replies := rfl
@[simp] theorem State.setAgenda_ldByte (ag : List Event) (a : Nat) : (s.setAgenda ag).ldByte a = s.ldByte a := rfl
@[simp] theorem State.setAgenda_lmemBytes (ag : List Event) : (s.setAgenda ag).lmemBytes = s.lmemBytes := rfl

/-! ### `succeeded` -/

@[simp] theorem succeeded_irqEn : (succeeded s).irqEn = s.irqEn := rfl
@[simp] theorem succeeded_status : (succeeded s).status = s.status.completeOk := rfl
@[simp] theorem succeeded_opr : (succeeded s).opr = s.opr := rfl
@[simp] theorem succeeded_aqIters : (succeeded s).aqIters = s.aqIters := rfl
@[simp] theorem succeeded_aqNctr : (succeeded s).aqNctr = s.aqNctr := rfl
@[simp] theorem succeeded_pending : (succeeded s).pending = s.pending := rfl
@[simp] theorem succeeded_pd : (succeeded s).pd = s.pd := rfl
@[simp] theorem succeeded_lmem : (succeeded s).lmem = s.lmem := rfl
@[simp] theorem succeeded_lmemExp : (succeeded s).lmemExp = s.lmemExp := rfl
@[simp] theorem succeeded_lmemDraw : (succeeded s).lmemDraw = s.lmemDraw := rfl
@[simp] theorem succeeded_nextDraw : (succeeded s).nextDraw = s.nextDraw := rfl
@[simp] theorem succeeded_agenda : (succeeded s).agenda = s.agenda := rfl
@[simp] theorem succeeded_replies : (succeeded s).replies = s.replies := rfl
@[simp] theorem succeeded_ldByte (a : Nat) : (succeeded s).ldByte a = s.ldByte a := rfl
@[simp] theorem succeeded_lmemBytes : (succeeded s).lmemBytes = s.lmemBytes := rfl

/-! ### The flags -/

variable (f : Status)

@[simp] theorem Status.accept_busy : f.accept.busy = true := rfl
@[simp] theorem Status.accept_done : f.accept.done = false := rfl
@[simp] theorem Status.accept_err : f.accept.err = f.err := rfl
@[simp] theorem Status.accept_more : f.accept.more = f.more := rfl
@[simp] theorem Status.accept_ovr : f.accept.ovr = f.ovr := rfl
@[simp] theorem Status.accept_errCode : f.accept.errCode = f.errCode := rfl

@[simp] theorem Status.overrun_busy : f.overrun.busy = f.busy := rfl
@[simp] theorem Status.overrun_done : f.overrun.done = f.done := rfl
@[simp] theorem Status.overrun_err : f.overrun.err = f.err := rfl
@[simp] theorem Status.overrun_more : f.overrun.more = f.more := rfl
@[simp] theorem Status.overrun_ovr : f.overrun.ovr = true := rfl
@[simp] theorem Status.overrun_errCode : f.overrun.errCode = f.errCode := rfl

@[simp] theorem Status.completeOk_busy : f.completeOk.busy = false := rfl
@[simp] theorem Status.completeOk_done : f.completeOk.done = true := rfl
@[simp] theorem Status.completeOk_err : f.completeOk.err = f.err := rfl
@[simp] theorem Status.completeOk_more : f.completeOk.more = f.more := rfl
@[simp] theorem Status.completeOk_ovr : f.completeOk.ovr = f.ovr := rfl
@[simp] theorem Status.completeOk_errCode : f.completeOk.errCode = 0 := rfl

@[simp] theorem Status.completeError_busy (e : ErrCode) : (f.completeError e).busy = false := rfl
@[simp] theorem Status.completeError_done (e : ErrCode) : (f.completeError e).done = true := rfl
@[simp] theorem Status.completeError_err (e : ErrCode) : (f.completeError e).err = true := rfl
@[simp] theorem Status.completeError_more (e : ErrCode) : (f.completeError e).more = f.more := rfl
@[simp] theorem Status.completeError_ovr (e : ErrCode) : (f.completeError e).ovr = f.ovr := rfl
@[simp] theorem Status.completeError_errCode (e : ErrCode) : (f.completeError e).errCode = errorCode e := rfl

@[simp] theorem Status.writeOneToClear_busy (v : Word) : (f.writeOneToClear v).busy = f.busy := rfl
@[simp] theorem Status.writeOneToClear_done (v : Word) : (f.writeOneToClear v).done = (f.done && !v.getLsbD 1) := rfl
@[simp] theorem Status.writeOneToClear_err (v : Word) : (f.writeOneToClear v).err = (f.err && !v.getLsbD 2) := rfl
@[simp] theorem Status.writeOneToClear_more (v : Word) : (f.writeOneToClear v).more = f.more := rfl
@[simp] theorem Status.writeOneToClear_ovr (v : Word) : (f.writeOneToClear v).ovr = (f.ovr && !v.getLsbD 5) := rfl
@[simp] theorem Status.writeOneToClear_errCode (v : Word) : (f.writeOneToClear v).errCode = f.errCode := rfl

end Sys2Proof.Machine
end

