-- ==== Sys2Proof/Laws/Memory.lean ====
section
/-!
SUPPORT. Laws of LMEM: what reads give after writes, little-endian elements, and the canonical form.
-/

namespace Sys2Proof.Machine

open Host (Cell)

/-! ### Looking an address up -/

theorem lookup_append (m₁ m₂ : List Cell) (a : Nat) :
    lookup (m₁ ++ m₂) a = (lookup m₁ a).or (lookup m₂ a) := by
  induction m₁ with
  | nil => rfl
  | cons c m ih => simp only [List.cons_append, lookup]; split <;> simp [ih]

theorem lookup_filter_of_true (p : Cell → Bool) (m : List Cell) (a : Nat) (h : ∀ b, p (a, b) = true) :
    lookup (m.filter p) a = lookup m a := by
  induction m with
  | nil => rfl
  | cons c m ih =>
    obtain ⟨x, b⟩ := c
    by_cases hx : x = a
    · subst hx; simp [h b, lookup]
    · simp only [List.filter_cons, lookup, hx, if_false]; split <;> simp [lookup, hx, ih]

theorem lookup_filter_of_false (p : Cell → Bool) (m : List Cell) (a : Nat) (h : ∀ b, p (a, b) = false) :
    lookup (m.filter p) a = none := by
  induction m with
  | nil => rfl
  | cons c m ih =>
    obtain ⟨x, b⟩ := c
    by_cases hx : x = a
    · subst hx; simp [h b, ih]
    · simp only [List.filter_cons]; split <;> simp [lookup, hx, ih]

theorem ble_eq_false {a b : Nat} (h : b < a) : Nat.ble a b = false :=
  Bool.eq_false_iff.2 fun hb => Nat.not_le_of_lt h (by simpa [Nat.ble_eq] using hb)

theorem blt_eq_false {a b : Nat} (h : b ≤ a) : Nat.blt a b = false :=
  Bool.eq_false_iff.2 fun hb => Nat.not_lt_of_le h (by simpa [Nat.blt_eq] using hb)

/-- A run of consecutive cells holds its bytes at its addresses and nothing else. -/
theorem lookup_cellsAt (bs : List Byte) (a x : Nat) :
    lookup (cellsAt a bs) x = if a ≤ x then bs[x - a]? else none := by
  induction bs generalizing a with
  | nil => simp [cellsAt, lookup]
  | cons b bs ih =>
    simp only [cellsAt, lookup, ih]
    by_cases h1 : a = x
    · subst h1; simp
    · by_cases h2 : a ≤ x
      · obtain ⟨k, rfl⟩ : ∃ k, x = a + 1 + k := ⟨x - a - 1, by omega⟩
        simp [h1, h2, show a + 1 + k - a = k + 1 by omega]
      · simp [h1, h2, show ¬ a + 1 ≤ x by omega]

/-- After a run of bytes is written, its addresses hold its bytes and every other address what it held. -/
theorem lookup_writeRun (m : List Cell) (a : Nat) (bs : List Byte) (x : Nat) :
    lookup (writeRun m a bs) x = if a ≤ x ∧ x < a + bs.length then bs[x - a]? else lookup m x := by
  simp only [writeRun, lookup_append, lookup_cellsAt]
  by_cases h1 : x < a
  · rw [lookup_filter_of_true _ _ _ (by intro b; simpa [Nat.blt_eq] using h1),
      lookup_filter_of_false _ _ _ (fun b => ble_eq_false (by simp only; omega))]
    simp [show ¬ a ≤ x by omega]
  · rw [lookup_filter_of_false _ _ _ (fun b => blt_eq_false (by simp only; omega))]
    by_cases h2 : x < a + bs.length
    · have : x - a < bs.length := by omega
      simp [show a ≤ x by omega, h2, List.getElem?_eq_getElem this]
    · rw [lookup_filter_of_true _ _ _ (by intro b; simp [Nat.ble_eq]; omega)]
      simp [show a ≤ x by omega, h2, List.getElem?_eq_none (show bs.length ≤ x - a by omega)]

theorem lookup_writeRun_outside (m : List Cell) (a : Nat) (bs : List Byte) (x : Nat)
    (h : x < a ∨ a + bs.length ≤ x) : lookup (writeRun m a bs) x = lookup m x := by
  rw [lookup_writeRun, if_neg (by omega)]

theorem lookup_writeRun_inside (m : List Cell) (a : Nat) (bs : List Byte) (k : Nat) (h : k < bs.length) :
    lookup (writeRun m a bs) (a + k) = some bs[k] := by
  rw [lookup_writeRun, if_pos (by omega), Nat.add_sub_cancel_left, List.getElem?_eq_getElem h]

/-! ### Reading bytes -/

@[simp] theorem setLmem_ldByte (s : State) (m : List Cell) (a : Nat) :
    (s.setLmem m).ldByte a = (lookup m a).getD (s.unwrittenByte a) := rfl

/-- A byte written by a run reads as the run's byte. -/
theorem ldByte_writeRun_inside (s : State) (a : Nat) (bs : List Byte) (k : Nat) (h : k < bs.length) :
    (s.setLmem (writeRun s.lmem a bs)).ldByte (a + k) = bs[k] := by
  simp [lookup_writeRun_inside _ _ _ _ h]

/-- A byte outside a written run reads as before. -/
theorem ldByte_writeRun_outside (s : State) (a : Nat) (bs : List Byte) (x : Nat) (h : x < a ∨ a + bs.length ≤ x) :
    (s.setLmem (writeRun s.lmem a bs)).ldByte x = s.ldByte x := by
  simp only [setLmem_ldByte, lookup_writeRun_outside _ _ _ _ h]; rfl

theorem lookup_window (m : List Cell) (a n x : Nat) (h : a ≤ x ∧ x < a + n) :
    lookup (window m a n) x = lookup m x := by
  apply lookup_filter_of_true
  intro b; simpa [Nat.ble_eq, Nat.blt_eq] using h

/-- Reading along a list of cells looks each address up. -/
theorem readAlong_eq_map (free : Nat → Byte) (w : List Cell) (a n : Nat) :
    readAlong free w a n = (List.range n).map fun k => (lookup w (a + k)).getD (free (a + k)) := by
  induction n generalizing w a with
  | zero => rfl
  | succ n ih =>
    have shift (w' : List Cell) (hw : ∀ x, a < x → lookup w' x = lookup w x) :
        readAlong free w' (a + 1) n =
          (List.range n).map fun k => (lookup w (a + (k + 1))).getD (free (a + (k + 1))) := by
      rw [ih]
      refine List.map_congr_left fun k _ => ?_
      rw [hw _ (by omega), show a + 1 + k = a + (k + 1) by omega]
    rw [List.range_succ_eq_map, List.map_cons, List.map_map]
    cases w with
    | nil => simp only [readAlong, lookup, Nat.add_zero]; rw [shift [] (fun _ _ => rfl)]; rfl
    | cons c w' =>
      simp only [readAlong]
      split
      · rename_i hc
        rw [shift w' (fun x hx => by simp [lookup, hc, Nat.ne_of_lt hx])]
        simp [lookup, hc, Function.comp_def]
      · rw [shift (c :: w') (fun _ _ => rfl)]; rfl

/-- Reading n bytes reads each of them. -/
theorem ldBytes_eq_map (s : State) (a n : Nat) : s.ldBytes a n = (List.range n).map fun k => s.ldByte (a + k) := by
  rw [State.ldBytes, readAlong_eq_map]
  refine List.map_congr_left fun k hk => ?_
  rw [lookup_window _ _ _ _ (by have := List.mem_range.1 hk; omega), State.ldByte]

/-- Reads agree where the bytes do. -/
theorem ldBytes_congr (s t : State) (a n : Nat) (h : ∀ k < n, s.ldByte (a + k) = t.ldByte (a + k)) :
    s.ldBytes a n = t.ldBytes a n := by
  rw [ldBytes_eq_map, ldBytes_eq_map]
  exact List.map_congr_left fun k hk => h k (List.mem_range.1 hk)

theorem memRead_congr (s t : State) (a n : Nat) (h : ∀ k < n, s.ldByte (a + k) = t.ldByte (a + k)) :
    s.memRead a n = t.memRead a n := congrArg leNat (ldBytes_congr s t a n h)

theorem ldF64_congr (s t : State) (a : Nat) (h : ∀ k < 8, s.ldByte (a + k) = t.ldByte (a + k)) :
    s.ldF64 a = t.ldF64 a := congrArg (BitVec.ofNat 64) (memRead_congr s t a 8 h)

theorem ldI16_congr (s t : State) (a : Nat) (h : ∀ k < 2, s.ldByte (a + k) = t.ldByte (a + k)) :
    s.ldI16 a = t.ldI16 a := by rw [State.ldI16, State.ldI16, memRead_congr s t a 2 h]

/-! ### Little-endian elements -/

theorem leNat_lt (bs : List Byte) : leNat bs < 256 ^ bs.length := by
  induction bs with
  | nil => simp [leNat]
  | cons b bs ih => have := b.isLt; simp only [leNat, List.length_cons, Nat.pow_succ]; omega

@[simp] theorem leBytes_length (n v : Nat) : (leBytes n v).length = n := by
  induction n generalizing v with
  | zero => rfl
  | succ n ih => simp [leBytes, ih]

/-- A byte put above others counts 256 to the number of those below it. -/
theorem leNat_concat (bs : List Byte) (b : Byte) : leNat (bs ++ [b]) = leNat bs + b.toNat * 2 ^ (8 * bs.length) := by
  induction bs with
  | nil => simp [leNat]
  | cons c bs ih =>
    rw [List.cons_append, leNat, ih, leNat, List.length_cons, Nat.mul_succ, Nat.pow_add]
    ring

/-- The number of n bytes is the sum of each byte times its place value (spec/20_memory.md R83). -/
theorem leNat_range (f : Nat → Byte) (n : Nat) :
    leNat ((List.range n).map f) = ((List.range n).map fun m => (f m).toNat * 2 ^ (8 * m)).sum := by
  induction n with
  | zero => rfl
  | succ n ih =>
    rw [List.range_succ, List.map_append, List.map_append, List.sum_append, List.map_singleton, List.map_singleton, leNat_concat, ih]
    simp

/-- `MemRead(a, n)` is the sum of the n bytes from a up, each times its place value (spec/20_memory.md R83). -/
theorem memRead_eq_sum (s : State) (a n : Nat) :
    s.memRead a n = ((List.range n).map fun m => (s.ldByte (a + m)).toNat * 2 ^ (8 * m)).sum := by
  rw [State.memRead, ldBytes_eq_map, leNat_range]

/-- The bytes of a number give the number back, up to the width. -/
theorem leNat_leBytes (n v : Nat) : leNat (leBytes n v) = v % 256 ^ n := by
  induction n generalizing v with
  | zero => simp [leBytes, leNat, Nat.mod_one]
  | succ n ih =>
    have h := Nat.mod_mul (x := v) (a := 256) (b := 256 ^ n)
    simp only [leBytes, leNat, ih, BitVec.toNat_ofNat, Nat.pow_succ, Nat.mul_comm (256 ^ n)]
    omega

@[simp] theorem f64Bytes_length (x : F64) : (f64Bytes x).length = 8 := leBytes_length 8 _

@[simp] theorem i16Bytes_length (q : Int) : (i16Bytes q).length = 2 := leBytes_length 2 _

theorem leNat_f64Bytes (x : F64) : BitVec.ofNat 64 (leNat (f64Bytes x)) = x := by
  apply BitVec.eq_of_toNat_eq
  have := x.isLt
  rw [f64Bytes, leNat_leBytes, BitVec.toNat_ofNat]
  omega

/-- An `i16` in range reads back as itself. -/
theorem leNat_i16Bytes (q : Int) (h : -32768 ≤ q ∧ q ≤ 32767) :
    (BitVec.ofNat 16 (leNat (i16Bytes q))).toInt = q := by
  rw [i16Bytes, leNat_leBytes]
  have : BitVec.ofNat 16 ((BitVec.ofInt 16 q).toNat % 256 ^ 2) = BitVec.ofInt 16 q := by
    apply BitVec.eq_of_toNat_eq
    have := (BitVec.ofInt 16 q).isLt
    rw [BitVec.toNat_ofNat]; omega
  rw [this, BitVec.toInt_ofInt, Int.bmod_def]
  norm_num
  split <;> omega

/-- Where the bytes at an address are those of a binary64 value, `ld_f64` gives it. -/
theorem ldF64_of_bytes (s : State) (a : Nat) (x : F64) (h : ∀ k, (hk : k < 8) → s.ldByte (a + k) = (f64Bytes x)[k]'(by rw [f64Bytes_length]; exact hk)) :
    s.ldF64 a = x := by
  have : s.ldBytes a 8 = f64Bytes x := by
    rw [ldBytes_eq_map]
    apply List.ext_getElem (by simp)
    intro k h1 h2
    simpa using h k (by simpa using h2)
  rw [State.ldF64, State.memRead, this, leNat_f64Bytes]

/-- Where the bytes at an address are those of an `i16` in range, `ld_i16` gives it. -/
theorem ldI16_of_bytes (s : State) (a : Nat) (q : Int) (hq : -32768 ≤ q ∧ q ≤ 32767)
    (h : ∀ k, (hk : k < 2) → s.ldByte (a + k) = (i16Bytes q)[k]'(by rw [i16Bytes_length]; exact hk)) : s.ldI16 a = q := by
  have : s.ldBytes a 2 = i16Bytes q := by
    rw [ldBytes_eq_map]
    apply List.ext_getElem (by simp)
    intro k h1 h2
    simpa using h k (by simpa using h2)
  rw [State.ldI16, State.memRead, this, leNat_i16Bytes q hq]

/-! ### Staged writes -/

@[simp] theorem applyStores_nil (m : List Cell) : applyStores m [] = m := rfl

theorem applyStores_append (m : List Cell) (ws vs : List Store) :
    applyStores m (ws ++ vs) = applyStores (applyStores m ws) vs := by
  induction ws generalizing m with
  | nil => rfl
  | cons w ws ih => exact ih _

@[simp] theorem storesTo_nil (a : Nat) : storesTo [] a = false := rfl

theorem storesTo_append (ws vs : List Store) (a : Nat) :
    storesTo (ws ++ vs) a = (storesTo ws a || storesTo vs a) := by simp [storesTo, List.any_append]

/-- A byte no staged write writes is as before. -/
theorem lookup_applyStores_outside (m : List Cell) (ws : List Store) (a : Nat) (h : storesTo ws a = false) :
    lookup (applyStores m ws) a = lookup m a := by
  induction ws generalizing m with
  | nil => rfl
  | cons w ws ih =>
    simp only [storesTo, List.any_cons, Bool.or_eq_false_iff, Bool.and_eq_false_iff, decide_eq_false_iff_not] at h
    rw [applyStores, ih _ h.2, lookup_writeRun_outside _ _ _ _ (by omega)]

/-- A byte some staged write writes holds what the staged writes hold on their own, whatever LMEM was before. -/
theorem lookup_applyStores_inside (m m' : List Cell) (ws : List Store) (a : Nat) (h : storesTo ws a = true) :
    lookup (applyStores m ws) a = lookup (applyStores m' ws) a := by
  induction ws generalizing m m' with
  | nil => simp at h
  | cons w ws ih =>
    by_cases hws : storesTo ws a = true
    · exact ih _ _ hws
    · have hws : storesTo ws a = false := by simpa using hws
      have hw : w.addr ≤ a ∧ a < w.addr + w.bytes.length := by
        simp only [storesTo, List.any_cons] at h hws
        simpa [hws] using h
      rw [applyStores, applyStores, lookup_applyStores_outside _ _ _ hws, lookup_applyStores_outside _ _ _ hws,
        lookup_writeRun, lookup_writeRun, if_pos hw, if_pos hw]

/-- The last write to a byte wins (spec/45_control.md R354). -/
theorem lookup_applyStores_last (m : List Cell) (ws : List Store) (w : Store) (vs : List Store) (k : Nat)
    (hk : k < w.bytes.length) (h : storesTo vs (w.addr + k) = false) :
    lookup (applyStores m (ws ++ w :: vs)) (w.addr + k) = some w.bytes[k] := by
  rw [applyStores_append, applyStores, lookup_applyStores_outside _ _ _ h, lookup_writeRun_inside _ _ _ _ hk]

theorem storeEach_eq_map {α : Type} (st : Nat → α → Store) (a d : Nat) (xs : List α) :
    storeEach st a d xs = xs.mapIdx fun j x => st (a + j * d) x := by
  induction xs generalizing a with
  | nil => rfl
  | cons x xs ih =>
    simp only [storeEach, List.mapIdx_cons, ih, Nat.zero_mul, Nat.add_zero]
    congr 1
    apply List.ext_getElem (by simp)
    intro n h1 h2
    simp only [List.getElem_mapIdx]
    rw [show a + d + n * d = a + (n + 1) * d by ring]

/-! ### The canonical form -/

theorem risingFrom_mono {lo lo' : Nat} (h : lo' ≤ lo) {m : List Cell} (hm : risingFrom lo m = true) :
    risingFrom lo' m = true := by
  cases m with
  | nil => rfl
  | cons c m =>
    simp only [risingFrom, Bool.and_eq_true, decide_eq_true_eq] at hm ⊢
    exact ⟨by omega, hm.2⟩

theorem risingFrom_filter (p : Cell → Bool) {lo : Nat} {m : List Cell} (hm : risingFrom lo m = true) :
    risingFrom lo (m.filter p) = true := by
  induction m generalizing lo with
  | nil => rfl
  | cons c m ih =>
    simp only [risingFrom, Bool.and_eq_true, decide_eq_true_eq] at hm
    rw [List.filter_cons]
    split
    · simp only [risingFrom, Bool.and_eq_true, decide_eq_true_eq]; exact ⟨hm.1, ih hm.2⟩
    · exact ih (risingFrom_mono (by omega) hm.2)

theorem risingFrom_ge {lo : Nat} {m : List Cell} (hm : risingFrom lo m = true) (c : Cell) (hc : c ∈ m) : lo ≤ c.1 := by
  induction m generalizing lo with
  | nil => simp at hc
  | cons d m ih =>
    simp only [risingFrom, Bool.and_eq_true, decide_eq_true_eq] at hm
    rcases List.mem_cons.1 hc with rfl | h
    · exact hm.1
    · have := ih hm.2 h; omega

/-- Two rising lists, the second starting past the first, rise together. -/
theorem risingFrom_append {lo mid : Nat} {m₁ m₂ : List Cell} (h₁ : risingFrom lo m₁ = true)
    (hlo : lo ≤ mid) (hm : ∀ c ∈ m₁, c.1 < mid) (h₂ : risingFrom mid m₂ = true) :
    risingFrom lo (m₁ ++ m₂) = true := by
  induction m₁ generalizing lo with
  | nil => exact risingFrom_mono hlo h₂
  | cons c m ih =>
    simp only [risingFrom, List.cons_append, Bool.and_eq_true, decide_eq_true_eq] at h₁ ⊢
    have := hm c (by simp)
    exact ⟨h₁.1, ih h₁.2 (by omega) fun d hd => hm d (by simp [hd])⟩

theorem risingFrom_of_ge {lo lo' : Nat} {m : List Cell} (h : risingFrom lo m = true) (hm : ∀ c ∈ m, lo' ≤ c.1) :
    risingFrom lo' m = true := by
  cases m with
  | nil => rfl
  | cons c m =>
    simp only [risingFrom, Bool.and_eq_true, decide_eq_true_eq] at h ⊢
    exact ⟨hm c (by simp), h.2⟩

theorem risingFrom_cellsAt (a : Nat) (bs : List Byte) : risingFrom a (cellsAt a bs) = true := by
  induction bs generalizing a with
  | nil => rfl
  | cons b bs ih => simp [cellsAt, risingFrom, ih]

theorem cellsAt_lt (a : Nat) (bs : List Byte) (c : Cell) (h : c ∈ cellsAt a bs) : a ≤ c.1 ∧ c.1 < a + bs.length := by
  induction bs generalizing a with
  | nil => simp [cellsAt] at h
  | cons b bs ih =>
    rcases List.mem_cons.1 h with rfl | h
    · simp
    · have := ih (a + 1) h; simp only [List.length_cons]; omega

/-- A write keeps the canonical form. -/
theorem writeRun_wf (m : List Cell) (a : Nat) (bs : List Byte) (h : Memory.wf m = true) :
    Memory.wf (writeRun m a bs) = true := by
  refine risingFrom_append (mid := a) (risingFrom_filter _ h) (Nat.zero_le _) ?_ ?_
  · intro c hc; simpa [Nat.blt_eq] using (List.mem_filter.1 hc).2
  · refine risingFrom_append (mid := a + bs.length) (risingFrom_cellsAt a bs) (by omega) ?_ ?_
    · intro c hc; exact (cellsAt_lt _ _ _ hc).2
    · refine risingFrom_of_ge (risingFrom_filter _ h) fun c hc => ?_
      simpa [Nat.ble_eq] using (List.mem_filter.1 hc).2

/-- A write inside a bound keeps every listed address below it. -/
theorem writeRun_lt (m : List Cell) (a n : Nat) (bs : List Byte) (hm : ∀ c ∈ m, c.1 < n)
    (hw : bs = [] ∨ a + bs.length ≤ n) : ∀ c ∈ writeRun m a bs, c.1 < n := by
  intro c hc
  simp only [writeRun, List.mem_append, List.mem_filter] at hc
  rcases hc with hc | hc | hc
  · exact hm c hc.1
  · rcases hw with rfl | hw
    · simp [cellsAt] at hc
    · have := cellsAt_lt _ _ _ hc; omega
  · exact hm c hc.1

/-- Staged writes keep the canonical form. -/
theorem applyStores_wf (m : List Cell) (ws : List Store) (h : Memory.wf m = true) :
    Memory.wf (applyStores m ws) = true := by
  induction ws generalizing m with
  | nil => exact h
  | cons w ws ih => exact ih _ (writeRun_wf m w.addr w.bytes h)

/-- Staged writes that only write below a bound keep every listed address below it. -/
theorem applyStores_lt (m : List Cell) (ws : List Store) (n : Nat) (hm : ∀ c ∈ m, c.1 < n)
    (hw : ∀ a, storesTo ws a = true → a < n) : ∀ c ∈ applyStores m ws, c.1 < n := by
  induction ws generalizing m with
  | nil => exact hm
  | cons w ws ih =>
    refine ih _ (writeRun_lt m w.addr n w.bytes hm ?_) fun a ha => hw a ?_
    · rcases Nat.eq_zero_or_pos w.bytes.length with h0 | h0
      · exact .inl (List.length_eq_zero_iff.1 h0)
      · right
        have := hw (w.addr + (w.bytes.length - 1)) (by
          simp only [storesTo, List.any_cons, Bool.or_eq_true, Bool.and_eq_true, decide_eq_true_eq]
          left; omega)
        omega
    · simp only [storesTo, List.any_cons, Bool.or_eq_true] at ha ⊢
      exact .inr ha

/-- Making a region indeterminate keeps the canonical form. -/
theorem blurRegion_wf (bytes draw : Nat) (m : List Cell) (r : Region) (h : Memory.wf m = true) :
    Memory.wf (blurRegion bytes draw m r) = true := writeRun_wf _ _ _ h

/-- Making a region indeterminate writes nothing past the bound. -/
theorem blurRegion_lt (bytes draw : Nat) (m : List Cell) (r : Region) (hm : ∀ c ∈ m, c.1 < bytes) :
    ∀ c ∈ blurRegion bytes draw m r, c.1 < bytes := by
  refine writeRun_lt m r.base bytes _ hm ?_
  by_cases h : bytes ≤ r.base
  · left; rw [Nat.sub_eq_zero_of_le h, Nat.min_eq_min, Nat.min_zero]; rfl
  · right
    rw [List.length_map, List.length_range, Nat.min_eq_min]
    omega

/-- The memory after reset is canonical. -/
theorem reset_lmem_wf : Memory.wf State.reset.lmem = true := rfl

end Sys2Proof.Machine
end

