-- ==== Sys2Proof/Laws/Ops.lean ====
section
/-!
SUPPORT. What each shared operation can do, said once: checks, passes over lists, commit and completion, and the form
every meaning has.
-/

namespace Sys2Proof.Machine

open Host (Outcome)

/-! ### Checks and passes -/

@[simp] theorem failIf_ok_iff (b : Bool) (e : ErrCode) (u : Unit) : failIf b e = .ok u ↔ b = false := by
  cases b <;> simp [failIf]

@[simp] theorem failIf_error_iff (b : Bool) (e e' : ErrCode) : failIf b e = .error e' ↔ b = true ∧ e = e' := by
  cases b <;> simp [failIf]

/-- A check either passes or raises its error. -/
theorem failIf_cases (b : Bool) (e : ErrCode) :
    (b = false ∧ failIf b e = .ok ()) ∨ (b = true ∧ failIf b e = .error e) := by
  cases b <;> simp [failIf]

/-- A chain succeeds exactly when each link does. -/
theorem bind_ok_iff {α β : Type} (x : Except ErrCode α) (f : α → Except ErrCode β) (b : β) :
    (x >>= f) = .ok b ↔ ∃ a, x = .ok a ∧ f a = .ok b := by
  cases x <;> simp [bind, Except.bind]

/-- A chain raises an error exactly when its first failing link does. -/
theorem bind_error_iff {α β : Type} (x : Except ErrCode α) (f : α → Except ErrCode β) (e : ErrCode) :
    (x >>= f) = .error e ↔ x = .error e ∨ ∃ a, x = .ok a ∧ f a = .error e := by
  cases x <;> simp [bind, Except.bind]

@[simp] theorem pure_ok_iff {α : Type} (a b : α) : (pure a : Except ErrCode α) = .ok b ↔ a = b := by
  simp [pure, Except.pure]

@[simp] theorem pure_error_iff {α : Type} (a : α) (e : ErrCode) : (pure a : Except ErrCode α) = .error e ↔ False := by
  simp [pure, Except.pure]

/-- A pass succeeds exactly when the computation does on every element, and gives the results in order. -/
theorem mapE_ok_iff {α β : Type} (f : α → Except ErrCode β) (as : List α) (bs : List β) :
    mapE f as = .ok bs ↔ List.Forall₂ (fun a b => f a = .ok b) as bs := by
  induction as generalizing bs with
  | nil => cases bs <;> simp [mapE]
  | cons a as ih =>
    cases bs with
    | nil => simp only [mapE, bind_ok_iff, pure_ok_iff]; simp
    | cons b bs =>
      simp only [mapE, bind_ok_iff, pure_ok_iff, ih, List.forall₂_cons, List.cons.injEq]
      constructor
      · rintro ⟨x, hx, xs, hxs, rfl, rfl⟩; exact ⟨hx, hxs⟩
      · rintro ⟨hx, hxs⟩; exact ⟨b, hx, bs, hxs, rfl, rfl⟩

/-- A pass that raises does so because the computation does on some element. -/
theorem mapE_error {α β : Type} (f : α → Except ErrCode β) (as : List α) (e : ErrCode) (h : mapE f as = .error e) :
    ∃ a ∈ as, f a = .error e := by
  induction as with
  | nil => simp [mapE] at h
  | cons a as ih =>
    simp only [mapE, bind_error_iff, pure_error_iff] at h
    rcases h with h | ⟨b, _, h | ⟨_, _, h⟩⟩
    · exact ⟨a, by simp, h⟩
    · obtain ⟨x, hx, hf⟩ := ih h
      exact ⟨x, by simp [hx], hf⟩
    · exact h.elim

/-- A pass succeeds where the computation does on every element. -/
theorem mapE_total {α β : Type} (f : α → Except ErrCode β) (as : List α) (h : ∀ a ∈ as, ∃ b, f a = .ok b) :
    ∃ bs, mapE f as = .ok bs := by
  cases hm : mapE f as with
  | ok bs => exact ⟨bs, rfl⟩
  | error e =>
    obtain ⟨a, ha, he⟩ := mapE_error f as e hm
    obtain ⟨b, hb⟩ := h a ha
    simp [he] at hb

theorem mapE_length {α β : Type} {f : α → Except ErrCode β} {as : List α} {bs : List β} (h : mapE f as = .ok bs) :
    bs.length = as.length := ((mapE_ok_iff f as bs).1 h).length_eq.symm

/-- The result at an index is the computation's on the element there. -/
theorem mapE_getElem {α β : Type} {f : α → Except ErrCode β} {as : List α} {bs : List β} (h : mapE f as = .ok bs)
    (k : Nat) (ha : k < as.length) (hb : k < bs.length) : f as[k] = .ok bs[k] :=
  ((mapE_ok_iff f as bs).1 h).get ha hb

/-- A list whose every element is the computation's result at its index is the pass's result. -/
theorem mapE_ok_of_getElem {α β : Type} (f : α → Except ErrCode β) (as : List α) (bs : List β) (hl : bs.length = as.length)
    (h : ∀ k (ha : k < as.length) (hb : k < bs.length), f as[k] = .ok bs[k]) : mapE f as = .ok bs := by
  rw [mapE_ok_iff, List.forall₂_iff_get]
  exact ⟨hl.symm, fun k ha hb => h k ha hb⟩

/-- A pass over the first n numbers: the result at k is the computation's on k. -/
theorem mapE_range {β : Type} {f : Nat → Except ErrCode β} {n : Nat} {bs : List β} (h : mapE f (List.range n) = .ok bs)
    (k : Nat) (hk : k < n) : ∃ hb : k < bs.length, f k = .ok bs[k] := by
  have hl : bs.length = n := by simpa using mapE_length h
  refine ⟨by omega, ?_⟩
  have := mapE_getElem h k (by simpa using hk) (by omega)
  rwa [List.getElem_range] at this

/-- A pass with a computation that never raises is a map. -/
theorem mapE_pure {α β : Type} (f : α → β) (as : List α) : mapE (fun a => .ok (f a)) as = .ok (as.map f) := by
  rw [mapE_ok_iff]
  induction as with
  | nil => exact .nil
  | cons a as ih => exact .cons rfl ih

/-- Passes agree where the computations do. -/
theorem mapE_congr {α β : Type} (f g : α → Except ErrCode β) (as : List α) (h : ∀ a ∈ as, f a = g a) :
    mapE f as = mapE g as := by
  induction as with
  | nil => rfl
  | cons a as ih => simp only [mapE]; rw [h a (by simp), ih fun x hx => h x (by simp [hx])]

/-- What a carried value keeps at every step it keeps to the end. -/
theorem foldE_invariant {α σ : Type} (f : σ → α → Except ErrCode σ) (P : σ → Prop) (as : List α) (s t : σ)
    (h : foldE f s as = .ok t) (h0 : P s) (hs : ∀ s a s', a ∈ as → P s → f s a = .ok s' → P s') : P t := by
  induction as generalizing s with
  | nil => simp only [foldE, Except.ok.injEq] at h; exact h ▸ h0
  | cons a as ih =>
    obtain ⟨s', h1, h2⟩ := (bind_ok_iff _ _ _).1 h
    exact ih s' h2 (hs s a s' (by simp) h0 h1) fun x b y hb => hs x b y (by simp [hb])

/-! ### Commit and completion -/

@[simp] theorem commit_lmem (s : State) (st : Staged) : (commit s st).lmem = applyStores s.lmem st.writes := by
  obtain ⟨ws, aq, pd⟩ := st; cases aq <;> cases pd <;> rfl

@[simp] theorem commit_aqIters (s : State) (st : Staged) :
    (commit s st).aqIters = (st.aq.map Prod.fst).getD s.aqIters := by
  obtain ⟨ws, aq, pd⟩ := st; cases aq <;> cases pd <;> rfl

@[simp] theorem commit_aqNctr (s : State) (st : Staged) :
    (commit s st).aqNctr = (st.aq.map Prod.snd).getD s.aqNctr := by
  obtain ⟨ws, aq, pd⟩ := st; cases aq <;> cases pd <;> rfl

@[simp] theorem commit_pd (s : State) (st : Staged) : (commit s st).pd = (st.pd.map Prod.fst).getD s.pd := by
  obtain ⟨ws, aq, pd⟩ := st; cases aq <;> cases pd <;> rfl

@[simp] theorem commit_status (s : State) (st : Staged) :
    (commit s st).status = { s.status with more := (st.pd.map Prod.snd).getD s.status.more } := by
  obtain ⟨ws, aq, pd⟩ := st; cases aq <;> cases pd <;> rfl

/-- Commit leaves everything that no command may change. -/
theorem commit_kept (s : State) (st : Staged) : CommandKept s (commit s st) := by
  obtain ⟨ws, aq, pd⟩ := st
  cases aq <;> cases pd <;> exact ⟨rfl, rfl, rfl, rfl, rfl, rfl, rfl, rfl, rfl⟩

@[simp] theorem commit_ofWrites (s : State) (ws : List Store) :
    commit s (.ofWrites ws) = s.setLmem (applyStores s.lmem ws) := rfl

/-- A command's end: it succeeds with its staged effects committed, or it fails with its code and nothing else. -/
theorem finish_cases (s : State) (r : Result) :
    (∃ st, r = .ok st ∧ finish s r = succeeded (commit s st)) ∨
      (∃ e, r = .error e ∧ finish s r = failed (errorNumber e) s) := by
  cases r with
  | ok st => exact .inl ⟨st, rfl, rfl⟩
  | error e => exact .inr ⟨e, rfl, rfl⟩

@[simp] theorem finish_ok (s : State) (st : Staged) : finish s (.ok st) = succeeded (commit s st) := rfl

@[simp] theorem finish_error (s : State) (e : ErrCode) : finish s (.error e) = failed (errorNumber e) s := rfl

/-- No command's end touches what no command may change. -/
theorem finish_kept (s : State) (r : Result) : CommandKept s (finish s r) := by
  cases r with
  | ok st => simpa [CommandKept] using commit_kept s st
  | error e => exact ⟨rfl, rfl, rfl, rfl, rfl, rfl, rfl, rfl, rfl⟩

theorem errorNumber_pos (e : ErrCode) : 1 ≤ errorNumber e ∧ errorNumber e ≤ 13 := by cases e <;> decide

theorem errorCode_ne_zero (e : ErrCode) : errorCode e ≠ 0 := by cases e <;> decide

theorem errorCode_injective (e e' : ErrCode) (h : errorCode e = errorCode e') : e = e' := by
  revert h; cases e <;> cases e' <;> decide

/-! ### The form of every meaning -/

/-- What each command comes to before its completion. -/
def resultOf (i : Instr) (s : State) : Result :=
  match i with
  | .nop => runNop s
  | .cscFwd => runCscFwd s
  | .cscInv => runCscInv s
  | .aq => runAq s
  | .fdct => runFdct s
  | .idct => runIdct s
  | .quant => runQuant s
  | .dequant => runDequant s
  | .blkExtract => runBlkExtract s
  | .blkInsert => runBlkInsert s
  | .encode => runEncode s
  | .pdInit => runPdInit s
  | .pdStep => runPdStep s
  | .pdReset => runPdReset s

/-- Every command ends through the one completion. -/
theorem exec_eq_finish (i : Instr) (s : State) : exec i s = .next (finish s (resultOf i s)) := by cases i <;> rfl

/-- What a command answers is its completion. -/
theorem exec_next_iff (i : Instr) (s t : State) : exec i s = .next t ↔ t = finish s (resultOf i s) := by
  rw [exec_eq_finish]
  exact ⟨fun h => (Outcome.next.inj h).symm, fun h => h ▸ rfl⟩

/-- The two memory checks pass exactly when every region is aligned and in range. -/
theorem regionChecks_ok_iff (i : Instr) (s : State) (u : Unit) :
    regionChecks i s = .ok u ↔ allAligned i s = true ∧ allInRange i s = true := by
  simp [regionChecks, bind_ok_iff]

/-- The two memory checks fail with `E_ALIGN` first. -/
theorem regionChecks_error_iff (i : Instr) (s : State) (e : ErrCode) :
    regionChecks i s = .error e ↔
      (allAligned i s = false ∧ e = .align) ∨ (allAligned i s = true ∧ allInRange i s = false ∧ e = .range) := by
  simp only [regionChecks, bind_error_iff, failIf_error_iff, failIf_ok_iff]
  cases allAligned i s <;> cases allInRange i s <;> simp [eq_comm]

/-- The block's turn never stops: a busy block performs, an idle one stays. -/
theorem perform_next (s : State) : ∃ t, perform s = .next t ∧ CommandKept s t := by
  unfold perform
  split
  · exact ⟨_, exec_eq_finish _ s, finish_kept s _⟩
  · exact ⟨_, rfl, finish_kept s _⟩

end Sys2Proof.Machine
end

