-- ==== Sys2Proof/Laws/Binary64.lean ====
section
/-!
SUPPORT. Laws of the binary64 arithmetic: the highest set bit, the exact value of an encoding, and the bound every
rounding keeps: a result is no greater than any representable value the exact result is no greater than.
-/

namespace Sys2Proof.Machine

/-! ### The highest set bit -/

theorem log2_shiftRight (n k : Nat) (h : n >>> k ≠ 0) : Nat.log2 n = k + Nat.log2 (n >>> k) := by
  have hn : n ≠ 0 := by rintro rfl; simp at h
  have hlow := Nat.log2_self_le h
  have hhigh : n >>> k < 2 ^ (Nat.log2 (n >>> k) + 1) := Nat.lt_log2_self
  rw [Nat.shiftRight_eq_div_pow] at hlow hhigh
  have h1 : 2 ^ (k + Nat.log2 (n >>> k)) ≤ n := by
    rw [Nat.pow_add, Nat.mul_comm]
    rw [Nat.shiftRight_eq_div_pow]
    exact (Nat.le_div_iff_mul_le (Nat.two_pow_pos k)).1 hlow
  have h2 : n < 2 ^ (k + Nat.log2 (n >>> k) + 1) := by
    rw [Nat.add_assoc, Nat.pow_add, Nat.mul_comm]
    rw [Nat.shiftRight_eq_div_pow]
    exact (Nat.div_lt_iff_lt_mul (Nat.two_pow_pos k)).1 hhigh
  have h3 := (Nat.le_log2 hn).2 h1
  have h4 := (Nat.log2_lt hn).2 h2
  omega

theorem topBitFrom_eq_log2 (ks : List Nat) (n : Nat) : topBitFrom ks n = Nat.log2 n := by
  induction ks generalizing n with
  | nil => rfl
  | cons k ks ih =>
    unfold topBitFrom
    split
    · exact ih n
    · rename_i m hm
      rw [ih, show m + 1 = n >>> k from hm.symm, ← log2_shiftRight n k (by omega)]

/-- The search finds the index of the highest set bit. -/
theorem topBit_eq_log2 (n : Nat) : topBit n = Nat.log2 n := topBitFrom_eq_log2 _ n

/-! ### Rounding to an integer -/

/-- Rounding to the nearest integer passes no integer that the quotient does not. -/
theorem nearestEven_le (num den b : Nat) (h : num ≤ b * den) : nearestEven num den ≤ b := by
  have hdiv : num / den ≤ b := Nat.div_le_of_le_mul (by rwa [Nat.mul_comm] at h)
  unfold nearestEven
  split
  · exact hdiv
  · rename_i r hr
    have hlt : num / den < b := by
      rcases Nat.lt_or_ge (num / den) b with hb | hb
      · exact hb
      · have : num / den = b := by omega
        have := Nat.div_add_mod num den
        rw [hr] at this
        have : den * (num / den) = b * den := by rw [‹num / den = b›, Nat.mul_comm]
        omega
    split <;> omega

/-- The same for the nearest multiple of a power of two. -/
theorem nearestMultiple_le (num den k j b : Nat) (h : num * 2 ^ k ≤ b * (den * 2 ^ j)) :
    nearestMultiple num den k j ≤ b := by
  unfold nearestMultiple
  split
  · rename_i hkj
    refine nearestEven_le _ _ _ ?_
    rw [Nat.shiftLeft_eq]
    have : 2 ^ j = 2 ^ (j - k) * 2 ^ k := by rw [← Nat.pow_add]; congr 1; omega
    rw [this] at h
    exact Nat.le_of_mul_le_mul_right (by nlinarith) (Nat.two_pow_pos k)
  · rename_i hkj
    refine nearestEven_le _ _ _ ?_
    rw [Nat.shiftLeft_eq]
    have : 2 ^ k = 2 ^ (k - j) * 2 ^ j := by rw [← Nat.pow_add]; congr 1; omega
    rw [this] at h
    exact Nat.le_of_mul_le_mul_right (by nlinarith) (Nat.two_pow_pos j)

/-! ### The magnitude of an encoding -/

/-- The exact magnitude, in units of 2^−1074, of the finite value whose low 63 bits are `m`. -/
def magValue (m : Nat) : Nat :=
  if m < 2 ^ 52 then m else (2 ^ 52 + m % 2 ^ 52) * 2 ^ (m / 2 ^ 52 - 1)

/-- A rounding is no greater than a representable magnitude that the exact quotient is no greater than. -/
theorem roundMag_le (num den k m : Nat) (hd : 0 < den) (h : num * 2 ^ k ≤ magValue m * (den * 2 ^ 3022)) :
    roundMag num den k ≤ m := by
  unfold roundMag
  split
  · exact Nat.zero_le _
  · rename_i q hq
    have hql : den * (q + 1) ≤ num := by
      have := Nat.div_mul_le_self num den; rw [hq] at this; rwa [Nat.mul_comm]
    have htop := topBit_eq_log2 (q + 1)
    have ht : 2 ^ topBit (q + 1) ≤ q + 1 := by rw [htop]; exact Nat.log2_self_le (by omega)
    have htop1 : num < den * 2 ^ (topBit (q + 1) + 1) := by
      have h1 : q + 1 < 2 ^ (topBit (q + 1) + 1) := by rw [htop]; exact Nat.lt_log2_self
      have := Nat.lt_mul_div_succ num hd
      rw [hq] at this
      exact lt_of_lt_of_le this (Nat.mul_le_mul_left _ (by omega))
    split
    · -- the unit in the last place is 2^-1074
      rename_i he
      by_cases hm : m < 2 ^ 53
      · refine nearestMultiple_le _ _ _ _ _ (le_trans h (Nat.mul_le_mul_right _ ?_))
        unfold magValue
        split
        · exact le_refl _
        · have : m / 2 ^ 52 = 1 := by omega
          rw [this]; omega
      · refine le_trans (nearestMultiple_le num den k 3022 (2 ^ 53) ?_) (by omega)
        obtain ⟨c, hc⟩ : ∃ c, c = 3022 := ⟨_, rfl⟩
        rw [← hc]
        have hk : topBit (q + 1) + 1 + k ≤ 53 + c := by omega
        calc num * 2 ^ k ≤ den * 2 ^ (topBit (q + 1) + 1) * 2 ^ k := Nat.mul_le_mul_right _ (le_of_lt htop1)
          _ = den * 2 ^ (topBit (q + 1) + 1 + k) := by rw [Nat.mul_assoc, ← Nat.pow_add]
          _ ≤ den * 2 ^ (53 + c) := Nat.mul_le_mul_left _ (Nat.pow_le_pow_right (by omega) hk)
          _ = 2 ^ 53 * (den * 2 ^ c) := by rw [Nat.pow_add]; ring
    · rename_i e he
      refine le_trans (Nat.min_le_left _ _) ?_
      rw [Nat.shiftLeft_eq]
      -- the quotient is at least 2^(53 + e) units
      have hlow : 2 ^ (53 + e) ≤ magValue m := by
        have h1 : 2 ^ (53 + e) * (den * 2 ^ 3022) ≤ num * 2 ^ k := by
          calc 2 ^ (53 + e) * (den * 2 ^ 3022) = den * 2 ^ (53 + e + 3022) := by rw [Nat.pow_add 2 (53 + e)]; ring
            _ = den * 2 ^ (topBit (q + 1) + k) := by rw [show 53 + e + 3022 = topBit (q + 1) + k by omega]
            _ = den * 2 ^ topBit (q + 1) * 2 ^ k := by rw [Nat.pow_add]; ring
            _ ≤ num * 2 ^ k := Nat.mul_le_mul_right _ (le_trans (Nat.mul_le_mul_left _ ht) hql)
        exact Nat.le_of_mul_le_mul_right (le_trans h1 h) (by positivity)
      have hup : num * 2 ^ k ≤ 2 ^ 53 * (den * 2 ^ (e + 3023)) := by
        calc num * 2 ^ k ≤ den * 2 ^ (topBit (q + 1) + 1) * 2 ^ k := Nat.mul_le_mul_right _ (le_of_lt htop1)
          _ = den * 2 ^ (topBit (q + 1) + 1 + k) := by rw [Nat.mul_assoc, ← Nat.pow_add]
          _ = den * 2 ^ (53 + (e + 3023)) := by rw [show topBit (q + 1) + 1 + k = 53 + (e + 3023) by omega]
          _ = 2 ^ 53 * (den * 2 ^ (e + 3023)) := by rw [Nat.pow_add]; ring
      have hM : ¬ m < 2 ^ 52 := by
        intro hm
        rw [magValue, if_pos hm] at hlow
        have : 2 ^ 53 ≤ 2 ^ (53 + e) := Nat.pow_le_pow_right (by omega) (by omega)
        omega
      rw [magValue, if_neg hM] at hlow h
      have hexp : e + 1 ≤ m / 2 ^ 52 - 1 := by
        by_contra hcon
        have h1 : (2 ^ 52 + m % 2 ^ 52) * 2 ^ (m / 2 ^ 52 - 1) < 2 ^ 53 * 2 ^ e := by
          refine lt_of_lt_of_le (Nat.mul_lt_mul_of_pos_right (m := 2 ^ 53) (by omega) (Nat.two_pow_pos _)) ?_
          exact Nat.mul_le_mul_left _ (Nat.pow_le_pow_right (by omega) (by omega))
        rw [Nat.pow_add] at hlow
        omega
      rcases Nat.lt_or_ge (e + 1) (m / 2 ^ 52 - 1) with hlt | hge
      · have := nearestMultiple_le num den k (e + 3023) (2 ^ 53) hup
        omega
      · have heq : m / 2 ^ 52 - 1 = e + 1 := by omega
        have : nearestMultiple num den k (e + 3023) ≤ 2 ^ 52 + m % 2 ^ 52 := by
          refine nearestMultiple_le _ _ _ _ _ (le_trans h (le_of_eq ?_))
          rw [heq, show e + 3023 = (e + 1) + 3022 by omega, Nat.pow_add 2 (e + 1)]; ring
        omega

theorem magValue_mono {m m' : Nat} (h : m ≤ m') : magValue m ≤ magValue m' := by
  unfold magValue
  by_cases h1 : m < 2 ^ 52
  · rw [if_pos h1]
    split
    · exact h
    · calc m ≤ (2 ^ 52 + m' % 2 ^ 52) * 1 := by omega
        _ ≤ _ := Nat.mul_le_mul_left _ (Nat.two_pow_pos _)
  · rw [if_neg h1, if_neg (by omega)]
    have hd : m / 2 ^ 52 ≤ m' / 2 ^ 52 := Nat.div_le_div_right h
    rcases Nat.lt_or_ge (m / 2 ^ 52) (m' / 2 ^ 52) with hlt | hge
    · calc (2 ^ 52 + m % 2 ^ 52) * 2 ^ (m / 2 ^ 52 - 1) ≤ (2 ^ 52 * 2) * 2 ^ (m / 2 ^ 52 - 1) :=
          Nat.mul_le_mul_right _ (by omega)
        _ = 2 ^ 52 * 2 ^ (m / 2 ^ 52 - 1 + 1) := by rw [Nat.pow_succ]; ring
        _ ≤ 2 ^ 52 * 2 ^ (m' / 2 ^ 52 - 1) := Nat.mul_le_mul_left _ (Nat.pow_le_pow_right (by omega) (by omega))
        _ ≤ _ := Nat.mul_le_mul_right _ (by omega)
    · have : m / 2 ^ 52 = m' / 2 ^ 52 := by omega
      rw [this]
      exact Nat.mul_le_mul_right _ (by omega)

/-- The exact magnitude of a finite value, in units of 2^−1074. -/
def fMagnitude (x : F64) : Nat := fSig x <<< fPow x

/-- The low 63 bits: all but the sign. -/
def fLow (x : F64) : Nat := x.toNat % 2 ^ 63

theorem fExp_eq (x : F64) : fExp x = fLow x / 2 ^ 52 := by
  have := x.isLt
  rw [fExp, fLow, Nat.shiftRight_eq_div_pow]; omega

theorem fFrac_eq (x : F64) : fFrac x = fLow x % 2 ^ 52 := by rw [fFrac, fLow]; omega

theorem fMagnitude_eq (x : F64) : fMagnitude x = magValue (fLow x) := by
  unfold fMagnitude fSig fPow magValue
  split
  · rename_i h
    have h0 := fExp_eq x
    rw [h] at h0
    rw [if_pos (by omega), fFrac_eq, h]
    simp only [Nat.zero_sub, Nat.shiftLeft_zero]
    omega
  · rename_i e h
    have h0 := fExp_eq x
    rw [if_neg (by omega), fFrac_eq, ← h0, Nat.shiftLeft_eq]
    rfl

theorem fFinite_iff (x : F64) : fFinite x = true ↔ fLow x < infMag := by
  have h1 := fExp_eq x
  have h2 : fLow x < 2 ^ 63 := Nat.mod_lt _ (by decide)
  simp only [fFinite, bne_iff_ne, ne_eq, infMag]
  omega

theorem fLow_fPack (neg : Bool) (m : Nat) (h : m < 2 ^ 63) : fLow (fPack neg m) = m := by
  cases neg <;> simp only [fLow, fPack, BitVec.toNat_ofNat] <;> simp <;> omega

theorem fValue_eq (x : F64) : fValue x = if fSign x then -(fMagnitude x : Int) else fMagnitude x := rfl

theorem infMag_lt : infMag < 2 ^ 63 := by decide

/-- A packed magnitude below that of infinity is finite, and its exact magnitude is that of its low bits. -/
theorem fPack_bound (neg : Bool) (r m : Nat) (h : r ≤ m) (hm : m < infMag) :
    fFinite (fPack neg r) = true ∧ fMagnitude (fPack neg r) ≤ magValue m := by
  have := infMag_lt
  have hlow := fLow_fPack neg r (by omega)
  rw [fFinite_iff, fMagnitude_eq, hlow]
  exact ⟨by omega, magValue_mono h⟩

/-! ### Bounds on sums, products and integers -/

theorem fScaled_natAbs (x : F64) (e : Nat) (h : e ≤ fPow x) : (fScaled x e).natAbs * 2 ^ e = fMagnitude x := by
  have h1 : (fScaled x e).natAbs = fSig x <<< (fPow x - e) := by
    unfold fScaled; split
    · exact Int.natAbs_neg _
    · rfl
  rw [h1, fMagnitude, Nat.shiftLeft_eq, Nat.shiftLeft_eq, Nat.mul_assoc, ← Nat.pow_add]
  congr 2; omega

theorem roundSum_bound (z : Bool) (e : Nat) (n : Int) (m : Nat) (h : n.natAbs * 2 ^ e ≤ magValue m)
    (hm : m < infMag) : fFinite (roundSum z e n) = true ∧ fMagnitude (roundSum z e n) ≤ magValue m := by
  have key (k : Nat) (hk : (k + 1) * 2 ^ e ≤ magValue m) : roundMag (k + 1) 1 (e + 3022) ≤ m := by
    refine roundMag_le _ _ _ _ Nat.one_pos ?_
    rw [Nat.pow_add, ← Nat.mul_assoc, Nat.one_mul]
    exact Nat.mul_le_mul_right _ hk
  unfold roundSum
  split
  · exact fPack_bound z 0 m (Nat.zero_le _) hm
  · exact fPack_bound _ _ m (key _ h) hm
  · exact fPack_bound _ _ m (key _ h) hm

/-- A sum is finite, and no greater than a representable bound of the exact sum of the magnitudes. -/
theorem fAdd_bound (x y : F64) (m : Nat) (hx : fFinite x = true) (hy : fFinite y = true) (hm : m < infMag)
    (h : fMagnitude x + fMagnitude y ≤ magValue m) :
    fFinite (fAdd x y) = true ∧ fMagnitude (fAdd x y) ≤ magValue m := by
  have key (e : Nat) (hex : e ≤ fPow x) (hey : e ≤ fPow y) :
      (fScaled x e + fScaled y e).natAbs * 2 ^ e ≤ magValue m := by
    refine le_trans ?_ h
    rw [← fScaled_natAbs x e hex, ← fScaled_natAbs y e hey, ← Nat.add_mul]
    exact Nat.mul_le_mul_right _ (Int.natAbs_add_le _ _)
  rw [fAdd, hx, hy, Bool.and_self, if_pos rfl, addFinite]
  split
  · exact roundSum_bound _ _ _ m (key 0 (Nat.zero_le _) (Nat.zero_le _)) hm
  · rename_i e he
    rw [Nat.min_eq_min] at he
    exact roundSum_bound _ _ _ m (key (e + 1) (by omega) (by omega)) hm

/-- Negation changes the sign alone. -/
theorem fLow_fNeg (x : F64) : fLow (fNeg x) = fLow x := by
  have h : (fNeg x).extractLsb' 0 63 = x.extractLsb' 0 63 := by
    ext i hi
    have hc : (0x8000000000000000 : F64) = BitVec.twoPow 64 63 := by decide
    simp only [fNeg, hc, BitVec.getElem_extractLsb', BitVec.getLsbD_xor, BitVec.getLsbD_twoPow]
    have : 63 ≠ i := by omega
    simp [this]
  have := congrArg BitVec.toNat h
  simpa [fLow, BitVec.extractLsb'_toNat] using this

theorem fFinite_fNeg (x : F64) : fFinite (fNeg x) = fFinite x :=
  Bool.eq_iff_iff.2 (by rw [fFinite_iff, fFinite_iff, fLow_fNeg])

theorem fMagnitude_fNeg (x : F64) : fMagnitude (fNeg x) = fMagnitude x := by
  rw [fMagnitude_eq, fMagnitude_eq, fLow_fNeg]

/-- A difference is bounded as a sum is. -/
theorem fSub_bound (x y : F64) (m : Nat) (hx : fFinite x = true) (hy : fFinite y = true) (hm : m < infMag)
    (h : fMagnitude x + fMagnitude y ≤ magValue m) :
    fFinite (fSub x y) = true ∧ fMagnitude (fSub x y) ≤ magValue m :=
  fAdd_bound x (fNeg y) m hx (by rw [fFinite_fNeg, hy]) hm (by rwa [fMagnitude_fNeg])

/-- A product is finite, and no greater than a representable bound of the exact product. -/
theorem fMul_bound (x y : F64) (m : Nat) (hx : fFinite x = true) (hy : fFinite y = true) (hm : m < infMag)
    (h : fMagnitude x * fMagnitude y ≤ magValue m * 2 ^ 1074) :
    fFinite (fMul x y) = true ∧ fMagnitude (fMul x y) ≤ magValue m := by
  rw [fMul, hx, hy, Bool.and_self, if_pos rfl]
  refine fPack_bound _ _ m (roundMag_le _ _ _ _ Nat.one_pos ?_) hm
  obtain ⟨c, d, hc, hd⟩ : ∃ c d, c = 1074 ∧ d = 1948 := ⟨_, _, rfl, rfl⟩
  rw [show (3022 : Nat) = c + d by omega, ← hd, Nat.pow_add 2 c, Nat.one_mul, ← Nat.mul_assoc, Nat.pow_add _ _ d,
    ← Nat.mul_assoc, Nat.pow_add]
  rw [← hc] at h
  refine Nat.mul_le_mul_right _ (le_trans (le_of_eq ?_) h)
  rw [fMagnitude, fMagnitude, Nat.shiftLeft_eq, Nat.shiftLeft_eq]; ring

/-- An integer's conversion is bounded as the integer is. -/
theorem fOfNat_bound (n m : Nat) (hm : m < infMag) (h : n * 2 ^ 1074 ≤ magValue m) :
    fFinite (fOfNat n) = true ∧ fMagnitude (fOfNat n) ≤ magValue m := by
  refine fPack_bound _ _ m (roundMag_le _ _ _ _ Nat.one_pos ?_) hm
  obtain ⟨c, d, hc, hd⟩ : ∃ c d, c = 1074 ∧ d = 3022 := ⟨_, _, rfl, rfl⟩
  rw [show (4096 : Nat) = c + d by omega, ← hd, Nat.pow_add 2 c, ← Nat.mul_assoc, Nat.one_mul]
  rw [← hc] at h
  exact Nat.mul_le_mul_right _ h

/-! ### The check on every value -/

@[simp] theorem chk_ok_iff (x y : F64) : chk x = .ok y ↔ fFinite x = true ∧ x = y := by
  unfold chk; cases fFinite x <;> simp

@[simp] theorem chk_error_iff (x : F64) (e : ErrCode) : chk x = .error e ↔ fFinite x = false ∧ e = .nonFinite := by
  unfold chk; cases fFinite x <;> simp [eq_comm]

/-- A non-finite operand makes a sum non-finite, so a finite sum has finite operands. -/
theorem fAdd_finite (x y : F64) (h : fFinite (fAdd x y) = true) : fFinite x = true ∧ fFinite y = true := by
  unfold fAdd at h
  split at h
  · rename_i hf; simpa using hf
  · rename_i hf
    split at h
    · exact absurd h (by decide)
    · split at h
      · rename_i hn hi
        have : fFinite x = false := by
          simp only [fIsInf, Bool.and_eq_true, beq_iff_eq] at hi
          simp [fFinite, hi.1]
        simp [this] at h
      · rename_i hn hi
        have hx : fFinite x = true := by
          by_contra hx
          simp only [fFinite, bne_iff_ne, ne_eq, not_not] at hx
          by_cases hz : fFrac x = 0
          · exact hi (by simp [fIsInf, hx, hz])
          · exact hn (by simp [fIsNaN, hx, hz])
        exact absurd (by simp [hx, h]) hf

end Sys2Proof.Machine
end

