-- ==== Sys2Proof/Laws/Dct.lean ====
section
/-!
SUPPORT. What the DCT's shared functions can do: the bound `dot8` keeps, so that neither transform raises on values of
bounded size, and the size of what the transforms give.
-/

namespace Sys2Proof.Machine

/-- The multiples 0 to 8 of a power of two are representable. -/
theorem magValue_multiple (p j : Nat) (hp : 53 ≤ p) (hp' : p ≤ 2000) (hj : j ≤ 8) :
    ∃ m, m < infMag ∧ magValue m = j * 2 ^ p := by
  obtain ⟨q, rfl⟩ : ∃ q, p = q + 52 := ⟨p - 52, by omega⟩
  have big (a f : Nat) (ha : a ≤ 3) (hf : f < 2 ^ 52) :
      (q + 1 + a) * 2 ^ 52 + f < infMag ∧ magValue ((q + 1 + a) * 2 ^ 52 + f) = (2 ^ 52 + f) * 2 ^ (q + a) := by
    refine ⟨by simp only [infMag]; omega, ?_⟩
    rw [magValue, if_neg (by omega), show ((q + 1 + a) * 2 ^ 52 + f) / 2 ^ 52 - 1 = q + a by omega,
      show ((q + 1 + a) * 2 ^ 52 + f) % 2 ^ 52 = f by omega]
  rcases Nat.eq_zero_or_pos j with rfl | hpos
  · exact ⟨0, by decide, by simp [magValue]⟩
  have wit (a f : Nat) (ha : a ≤ 3) (hf : f < 2 ^ 52) (h : (2 ^ 52 + f) * 2 ^ a = j * 2 ^ 52) :
      ∃ m, m < infMag ∧ magValue m = j * 2 ^ (q + 52) := by
    refine ⟨_, (big a f ha hf).1, (big a f ha hf).2.trans ?_⟩
    calc (2 ^ 52 + f) * 2 ^ (q + a) = (2 ^ 52 + f) * 2 ^ a * 2 ^ q := by rw [Nat.pow_add]; ring
      _ = j * 2 ^ (q + 52) := by rw [h, Nat.pow_add]; ring
  interval_cases j
  · exact wit 0 0 (by omega) (by omega) (by norm_num)
  · exact wit 1 0 (by omega) (by omega) (by norm_num)
  · exact wit 1 (2 ^ 51) (by omega) (by omega) (by norm_num)
  · exact wit 2 0 (by omega) (by omega) (by norm_num)
  · exact wit 2 (2 ^ 50) (by omega) (by omega) (by norm_num)
  · exact wit 2 (2 ^ 51) (by omega) (by omega) (by norm_num)
  · exact wit 2 (2 ^ 51 + 2 ^ 50) (by omega) (by omega) (by norm_num)
  · exact wit 3 0 (by omega) (by omega) (by norm_num)

/-- Finite, and no greater in magnitude than a bound in units of 2^−1074. -/
def Within (b : Nat) (x : F64) : Prop := fFinite x = true ∧ fMagnitude x ≤ b

/-- One product and one partial sum: on the way from j to j + 1 multiples of the bound of a product. -/
theorem dotStep_bound (p j : Nat) (sum c x : F64) (hp : 53 ≤ p) (hp' : p ≤ 2000) (hj : j < 8)
    (hs : Within (j * 2 ^ p) sum) (hc : Within (2 ^ 1073) c) (hx : Within (2 ^ (p + 1)) x) :
    ∃ r, dotStep sum (c, x) = .ok r ∧ Within ((j + 1) * 2 ^ p) r := by
  obtain ⟨m1, hm1, hv1⟩ := magValue_multiple p 1 hp hp' (by omega)
  obtain ⟨m2, hm2, hv2⟩ := magValue_multiple p (j + 1) hp hp' (by omega)
  have hmul := fMul_bound c x m1 hc.1 hx.1 hm1 (by
    obtain ⟨d, hd⟩ : ∃ d, d = 1073 := ⟨_, rfl⟩
    have h1 := hc.2
    rw [← hd] at h1
    rw [hv1, show (1074 : Nat) = d + 1 by omega]
    calc fMagnitude c * fMagnitude x ≤ 2 ^ d * 2 ^ (p + 1) := Nat.mul_le_mul h1 hx.2
      _ = 1 * 2 ^ p * 2 ^ (d + 1) := by rw [Nat.pow_succ, Nat.pow_succ]; ring)
  have hadd := fAdd_bound sum (fMul c x) m2 hs.1 hmul.1 hm2 (by
    have h1 := hs.2
    have h2 := hmul.2
    rw [hv1] at h2
    rw [hv2, Nat.add_mul]
    exact Nat.add_le_add h1 h2)
  refine ⟨fAdd sum (fMul c x), ?_, hadd.1, hv2 ▸ hadd.2⟩
  rw [dotStep, bind_ok_iff]
  exact ⟨fMul c x, (chk_ok_iff _ _).2 ⟨hmul.1, rfl⟩, (chk_ok_iff _ _).2 ⟨hadd.1, rfl⟩⟩

/-- `dot8` on at most eight values of bounded size never raises, and its result is bounded. -/
theorem dot8_bound (p : Nat) (c x : List F64) (hp : 53 ≤ p) (hp' : p ≤ 2000) (hl : (c.zip x).length ≤ 8)
    (hc : ∀ v ∈ c, Within (2 ^ 1073) v) (hx : ∀ v ∈ x, Within (2 ^ (p + 1)) v) :
    ∃ r, dot8 c x = .ok r ∧ Within (2 ^ (p + 3)) r := by
  have key (ps : List (F64 × F64)) (j : Nat) (sum : F64) (hj : j + ps.length ≤ 8) (hs : Within (j * 2 ^ p) sum)
      (hps : ∀ v ∈ ps, Within (2 ^ 1073) v.1 ∧ Within (2 ^ (p + 1)) v.2) :
      ∃ r, foldE dotStep sum ps = .ok r ∧ Within ((j + ps.length) * 2 ^ p) r := by
    induction ps generalizing j sum with
    | nil => exact ⟨sum, rfl, hs⟩
    | cons v ps ih =>
      simp only [List.length_cons] at hj
      obtain ⟨r, hr, hw⟩ := dotStep_bound p j sum v.1 v.2 hp hp' (by omega) hs (hps v (by simp)).1 (hps v (by simp)).2
      obtain ⟨t, ht, hw'⟩ := ih (j + 1) r (by omega) hw fun u hu => hps u (by simp [hu])
      refine ⟨t, (bind_ok_iff _ _ _).2 ⟨r, hr, ht⟩, ?_⟩
      rwa [List.length_cons, show j + (ps.length + 1) = j + 1 + ps.length by omega]
  obtain ⟨r, hr, hw⟩ := key (c.zip x) 0 0 (by omega) ⟨by decide, by rw [Nat.zero_mul]; decide⟩ fun v hv =>
    ⟨hc _ (List.of_mem_zip hv).1, hx _ (List.of_mem_zip hv).2⟩
  refine ⟨r, hr, hw.1, le_trans hw.2 ?_⟩
  rw [Nat.pow_add, Nat.mul_comm]
  exact Nat.mul_le_mul_left _ (by omega)

theorem basisRom_bound : ∀ v ∈ basisRom, Within (2 ^ 1073) v := by
  have h : (basisRom.all fun v => fFinite v && Nat.ble (fMagnitude v) (2 ^ 1073)) = true := by decide +kernel
  intro v hv
  have := List.all_eq_true.1 h v hv
  simp only [Bool.and_eq_true, Nat.ble_eq] at this
  exact this

/-- Every element of an array is bounded if every listed value is: an absent one is +0.0. -/
theorem elem_within (b : List F64) (n i j : Nat) (h : ∀ v ∈ b, Within n v) : Within n (elem b i j) := by
  rw [elem, List.getD_eq_getElem?_getD]
  cases hk : b[8 * i + j]? with
  | none => exact ⟨by decide, by rw [show fMagnitude (none.getD 0) = 0 by decide]; exact Nat.zero_le _⟩
  | some v => exact h v (List.mem_of_getElem? hk)

theorem rowOf_within (b : List F64) (n i : Nat) (h : ∀ v ∈ b, Within n v) : ∀ v ∈ rowOf b i, Within n v := by
  intro v hv
  obtain ⟨j, _, rfl⟩ := List.mem_map.1 hv
  exact elem_within b n i j h

theorem colOf_within (b : List F64) (n j : Nat) (h : ∀ v ∈ b, Within n v) : ∀ v ∈ colOf b j, Within n v := by
  intro v hv
  obtain ⟨i, _, rfl⟩ := List.mem_map.1 hv
  exact elem_within b n i j h

theorem zip_length_le_eight {c x : List F64} (h : c.length = 8) : (c.zip x).length ≤ 8 := by
  rw [List.length_zip]; omega

@[simp] theorem rowOf_length (b : List F64) (i : Nat) : (rowOf b i).length = 8 := by simp [rowOf]

@[simp] theorem colOf_length (b : List F64) (j : Nat) : (colOf b j).length = 8 := by simp [colOf]

/-- A pass of 64 `dot8` evaluations on bounded values never raises; its results are bounded. -/
theorem dotPass_bound (p : Nat) (c x : Nat → List F64) (hp : 53 ≤ p) (hp' : p ≤ 2000) (hl : ∀ k, (c k).length = 8)
    (hc : ∀ k, ∀ v ∈ c k, Within (2 ^ 1073) v) (hx : ∀ k, ∀ v ∈ x k, Within (2 ^ (p + 1)) v) :
    ∃ r, mapE (fun k => dot8 (c k) (x k)) (List.range 64) = .ok r ∧ r.length = 64 ∧ ∀ v ∈ r, Within (2 ^ (p + 3)) v := by
  have each (k : Nat) := dot8_bound p (c k) (x k) hp hp' (zip_length_le_eight (hl k)) (hc k) (hx k)
  obtain ⟨r, hr⟩ := mapE_total (fun k => dot8 (c k) (x k)) (List.range 64) fun k _ =>
    ⟨(each k).choose, (each k).choose_spec.1⟩
  refine ⟨r, hr, by simpa using mapE_length hr, fun v hv => ?_⟩
  obtain ⟨k, hk, rfl⟩ := List.getElem_of_mem hv
  have hlen : r.length = 64 := by simpa using mapE_length hr
  obtain ⟨_, h⟩ := mapE_range hr k (by omega)
  obtain ⟨w, hw, hwb⟩ := each k
  rw [hw] at h
  exact Except.ok.inj h ▸ hwb

/-- The forward transform of a bounded block never raises, and its 64 results are at most 16 times the bound. -/
theorem fdct_bound (p : Nat) (b : List F64) (hp : 53 ≤ p) (hp' : p ≤ 1998) (hb : ∀ v ∈ b, Within (2 ^ (p + 1)) v) :
    ∃ d, fdct b = .ok d ∧ d.length = 64 ∧ ∀ v ∈ d, Within (2 ^ (p + 5)) v := by
  obtain ⟨r, hr, _, hrb⟩ := dotPass_bound p (fun k => rowOf basisRom (k % 8)) (fun k => rowOf b (k / 8)) hp (by omega)
    (fun _ => rowOf_length _ _) (fun k => rowOf_within _ _ _ basisRom_bound) fun k => rowOf_within _ _ _ hb
  obtain ⟨d, hd, hdl, hdb⟩ := dotPass_bound (p + 2) (fun k => rowOf basisRom (k / 8)) (fun k => colOf r (k % 8))
    (by omega) (by omega) (fun _ => rowOf_length _ _) (fun k => rowOf_within _ _ _ basisRom_bound)
    fun k => colOf_within _ _ _ hrb
  exact ⟨d, (bind_ok_iff _ _ _).2 ⟨r, hr, hd⟩, hdl, hdb⟩

/-- The inverse transform of a bounded block never raises, and its 64 results are at most 16 times the bound. -/
theorem idct_bound (p : Nat) (f : List F64) (hp : 53 ≤ p) (hp' : p ≤ 1998) (hf : ∀ v ∈ f, Within (2 ^ (p + 1)) v) :
    ∃ b, idct f = .ok b ∧ b.length = 64 ∧ ∀ v ∈ b, Within (2 ^ (p + 5)) v := by
  obtain ⟨r, hr, _, hrb⟩ := dotPass_bound p (fun k => colOf basisRom (k % 8)) (fun k => rowOf f (k / 8)) hp (by omega)
    (fun _ => colOf_length _ _) (fun k => colOf_within _ _ _ basisRom_bound) fun k => rowOf_within _ _ _ hf
  obtain ⟨d, hd, hdl, hdb⟩ := dotPass_bound (p + 2) (fun k => colOf basisRom (k / 8)) (fun k => colOf r (k % 8))
    (by omega) (by omega) (fun _ => colOf_length _ _) (fun k => colOf_within _ _ _ basisRom_bound)
    fun k => colOf_within _ _ _ hrb
  exact ⟨d, (bind_ok_iff _ _ _).2 ⟨r, hr, hd⟩, hdl, hdb⟩

/-- A successful transform gives 64 values. -/
theorem fdct_length {b d : List F64} (h : fdct b = .ok d) : d.length = 64 := by
  obtain ⟨r, _, h⟩ := (bind_ok_iff _ _ _).1 h
  simpa using mapE_length h

theorem idct_length {f b : List F64} (h : idct f = .ok b) : b.length = 64 := by
  obtain ⟨r, _, h⟩ := (bind_ok_iff _ _ _).1 h
  simpa using mapE_length h

end Sys2Proof.Machine
end

