-- ==== Sys2Proof/Laws/Step.lean ====
section
/-!
SUPPORT. What a step can do, said once: the block performs, or nothing happens, or one host event happens.
-/

namespace Sys2Proof.Machine

open Host (Outcome)

/-- A block with no command in flight stays as it is on its turn. -/
theorem blockTurn_idle (s : State) (h : s.status.busy = false) : blockTurn s = .next s := by simp [blockTurn, h]

/-- A block with a command in flight performs it on its turn. -/
theorem blockTurn_busy (s : State) (h : s.status.busy = true) : blockTurn s = perform s := by simp [blockTurn, h]

/-- Every step that answers a next state is one of three: the busy block performs, with the agenda as it was or with its
turn taken off; the idle block's turn passes; or a host event happens. -/
theorem step_cases (s t : State) (h : step s = .next t) :
    (∃ ag, s.status.busy = true ∧ perform (s.setAgenda ag) = .next t) ∨
      (∃ ag, s.status.busy = false ∧ t = s.setAgenda ag) ∨
      (∃ e rest, s.agenda = e :: rest ∧ ¬(s.status.busy = true ∧ e.heldWhileBusy = true) ∧
        hostEvent e (s.setAgenda rest) = .next t) := by
  have turn (ag : List Event) (h : blockTurn (s.setAgenda ag) = .next t) :
      (∃ ag, s.status.busy = true ∧ perform (s.setAgenda ag) = .next t) ∨
        (∃ ag, s.status.busy = false ∧ t = s.setAgenda ag) := by
    cases hb : s.status.busy with
    | true => exact .inl ⟨ag, rfl, by rwa [blockTurn_busy (s.setAgenda ag) hb] at h⟩
    | false =>
      refine .inr ⟨ag, rfl, ?_⟩
      rw [blockTurn_idle (s.setAgenda ag) hb] at h
      exact (Outcome.next.inj h).symm
  unfold step at h
  split at h
  · rename_i hag
    rcases turn s.agenda h with h | h
    · exact .inl h
    · exact .inr (.inl h)
  · rename_i rest hag
    rcases turn rest h with h | h
    · exact .inl h
    · exact .inr (.inl h)
  · rename_i e rest hne hag
    split at h
    · rename_i hheld
      exact .inl ⟨s.agenda, by simp_all, h⟩
    · rename_i hheld
      exact .inr (.inr ⟨e, rest, hag, by simpa using hheld, h⟩)

/-- What a host event answers when it is not refused: it is one of seven kinds. -/
theorem hostEvent_cases (e : Event) (s t : State) (h : hostEvent e s = .next t) :
    (e = .perform ∧ t = s) ∨
      (∃ o w, e = .csrRead o w ∧ csrAccessOk o w = true ∧ t = s.reply (.csr (csrValue s o))) ∨
      (∃ o w v, e = .csrWrite o w v ∧ csrAccessOk o w = true ∧ t = csrWrite s o v) ∨
      (∃ a n, e = .lmemRead a n ∧ lmemAccessOk s a n = true ∧ t = s.reply (.lmem (s.ldBytes a n))) ∨
      (∃ a bs, e = .lmemWrite a bs ∧ lmemAccessOk s a bs.length = true ∧ t = s.setLmem (writeRun s.lmem a bs)) ∨
      (e = .reset ∧ t = warmReset s) ∨ (e = .powerCycle ∧ t = powerOnReset s) := by
  have allowed {c : Bool} {u : State} {r : Refusal}
      (h : (if c then Outcome.next u else .refused r) = (.next t : Outcome State Fault Refusal)) : c = true ∧ t = u := by
    cases c with
    | true => exact ⟨rfl, (Outcome.next.inj h).symm⟩
    | false => cases h
  cases e with
  | perform => exact .inl ⟨rfl, (Outcome.next.inj h).symm⟩
  | csrRead o w => exact .inr (.inl ⟨o, w, rfl, allowed h⟩)
  | csrWrite o w v => exact .inr (.inr (.inl ⟨o, w, v, rfl, allowed h⟩))
  | lmemRead a n => exact .inr (.inr (.inr (.inl ⟨a, n, rfl, allowed h⟩)))
  | lmemWrite a bs => exact .inr (.inr (.inr (.inr (.inl ⟨a, bs, rfl, allowed h⟩))))
  | reset => exact .inr (.inr (.inr (.inr (.inr (.inl ⟨rfl, (Outcome.next.inj h).symm⟩)))))
  | powerCycle => exact .inr (.inr (.inr (.inr (.inr (.inr ⟨rfl, (Outcome.next.inj h).symm⟩)))))

/-- What a host write to the CSR window does: it writes `CTRL`, clears flags of `STATUS`, writes `CMD`, writes an operand
register, or is ignored. -/
theorem csrWrite_cases (s : State) (o : Nat) (v : Word) :
    (o = 0x04 ∧ csrWrite s o v = writeCtrl s v) ∨ (o = 0x08 ∧ csrWrite s o v = s.writeStatus v) ∨
      (o = 0x0C ∧ csrWrite s o v = writeCmd s v) ∨
      (∃ r, writeOperand s.opr o v = some r ∧ s.status.busy = true ∧ csrWrite s o v = s.overrun) ∨
      (∃ r, writeOperand s.opr o v = some r ∧ s.status.busy = false ∧ csrWrite s o v = { s with opr := r }) ∨
      (writeOperand s.opr o v = none ∧ csrWrite s o v = s) := by
  unfold csrWrite
  split
  · exact .inl ⟨rfl, rfl⟩
  · exact .inr (.inl ⟨rfl, rfl⟩)
  · exact .inr (.inr (.inl ⟨rfl, rfl⟩))
  · refine .inr (.inr (.inr ?_))
    split
    · rename_i h; exact .inr (.inr ⟨h, rfl⟩)
    · rename_i r h
      split
      · rename_i hb; exact .inl ⟨r, h, hb, rfl⟩
      · rename_i hb; exact .inr (.inl ⟨r, h, by simpa using hb, rfl⟩)

/-- What a reset with power held leaves, field by field where it is not the reset value. -/
@[simp] theorem warmReset_lmem (s : State) : (warmReset s).lmem = lmemOverReset s := rfl
@[simp] theorem warmReset_lmemExp (s : State) : (warmReset s).lmemExp = s.lmemExp := rfl
@[simp] theorem warmReset_lmemDraw (s : State) : (warmReset s).lmemDraw = s.lmemDraw := rfl
@[simp] theorem warmReset_agenda (s : State) : (warmReset s).agenda = s.agenda := rfl
@[simp] theorem warmReset_replies (s : State) : (warmReset s).replies = s.replies := rfl
@[simp] theorem warmReset_pd (s : State) : (warmReset s).pd = PdContext.reset := rfl
@[simp] theorem warmReset_status (s : State) : (warmReset s).status = Status.reset := rfl
@[simp] theorem powerOnReset_lmem (s : State) : (powerOnReset s).lmem = [] := rfl
@[simp] theorem powerOnReset_lmemExp (s : State) : (powerOnReset s).lmemExp = s.lmemExp := rfl
@[simp] theorem powerOnReset_pd (s : State) : (powerOnReset s).pd = PdContext.reset := rfl
@[simp] theorem powerOnReset_status (s : State) : (powerOnReset s).status = Status.reset := rfl

/-- A reset keeps the canonical form. -/
theorem lmemOverReset_wf (s : State) (h : Memory.wf s.lmem = true) : Memory.wf (lmemOverReset s) = true := by
  have fold (rs : List Region) (m : List Host.Cell) (hm : Memory.wf m = true) :
      Memory.wf (rs.foldl (blurRegion s.lmemBytes s.nextDraw) m) = true := by
    induction rs generalizing m with
    | nil => exact hm
    | cons r rs ih => exact ih _ (blurRegion_wf _ _ _ _ hm)
  unfold lmemOverReset
  split
  · exact fold _ _ h
  · exact h

/-- A reset lists no address past `LMEM_BYTES`. -/
theorem lmemOverReset_lt (s : State) (h : ∀ c ∈ s.lmem, c.1 < s.lmemBytes) : ∀ c ∈ lmemOverReset s, c.1 < s.lmemBytes := by
  have fold (rs : List Region) (m : List Host.Cell) (hm : ∀ c ∈ m, c.1 < s.lmemBytes) :
      ∀ c ∈ rs.foldl (blurRegion s.lmemBytes s.nextDraw) m, c.1 < s.lmemBytes := by
    induction rs generalizing m with
    | nil => exact hm
    | cons r rs ih => exact ih _ (blurRegion_lt _ _ _ _ hm)
  unfold lmemOverReset
  split
  · exact fold _ _ h
  · exact h

end Sys2Proof.Machine
end

