-- ==== Sys2Proof/Machine/HostProgram.lean ====
section
/-!
DEFINITION. The host program notation of the spec, its expansion into host transactions (spec/30_encoding.md R125, R126),
and the events of a program under a schedule.
-/

namespace Sys2Proof.Machine

/-- The named registers of the CSR map (spec/10_state.md R31). -/
inductive CsrName where
  /-- `ID` -/
  | id
  /-- `CTRL` -/
  | ctrl
  /-- `STATUS` -/
  | status
  /-- `CMD` -/
  | cmd
  /-- `SRC` -/
  | src
  /-- `DST` -/
  | dst
  /-- `AUX` -/
  | aux
  /-- `COEF0` -/
  | coef0
  /-- `COEF1` -/
  | coef1
  /-- `COEF2` -/
  | coef2
  /-- `DIM` -/
  | dim
  /-- `BLK` -/
  | blk
  /-- `QLEVEL` -/
  | qlevel
  /-- `COUNT` -/
  | count
  /-- `STRIDE` -/
  | stride
  /-- `AQCFG` -/
  | aqcfg
  /-- `PDCFG` -/
  | pdcfg
  /-- `AQ_ITERS` -/
  | aqIters
  /-- `AQ_NCTR` -/
  | aqNctr
  /-- `PD_STATE` -/
  | pdState
  /-- `PD_STEPNO` -/
  | pdStepno
  /-- `PD_TOTAL` -/
  | pdTotal
  deriving DecidableEq, Repr

/-- The offset of a register (spec/10_state.md R31). -/
def csrOffset : CsrName → Nat
  | .id => 0x00
  | .ctrl => 0x04
  | .status => 0x08
  | .cmd => 0x0C
  | .src => 0x10
  | .dst => 0x14
  | .aux => 0x18
  | .coef0 => 0x1C
  | .coef1 => 0x20
  | .coef2 => 0x24
  | .dim => 0x28
  | .blk => 0x2C
  | .qlevel => 0x30
  | .count => 0x34
  | .stride => 0x38
  | .aqcfg => 0x3C
  | .pdcfg => 0x40
  | .aqIters => 0x44
  | .aqNctr => 0x48
  | .pdState => 0x4C
  | .pdStepno => 0x50
  | .pdTotal => 0x54

/-- A statement of a host program: the statements of R125 and the pseudo-statements of R126. -/
inductive Stmt where
  /-- `csrw NAME, v` -/
  | csrw (r : CsrName) (v : Word)
  /-- `csrr NAME` -/
  | csrr (r : CsrName)
  /-- `mw8 a, b0, b1, ...` -/
  | mw8 (a : Nat) (bs : List Byte)
  /-- `mwi16 a, q0, q1, ...` -/
  | mwi16 (a : Nat) (qs : List Int)
  /-- `mwf64 a, x0, x1, ...` -/
  | mwf64 (a : Nat) (xs : List F64)
  /-- `mfill a, n, b` -/
  | mfill (a n : Nat) (b : Byte)
  /-- `mr a, n` -/
  | mr (a n : Nat)
  /-- `cmd MNEMONIC` -/
  | cmd (i : Instr)
  /-- `wait` -/
  | wait
  /-- `run MNEMONIC` -/
  | run (i : Instr)
  /-- `setdim W, H` -/
  | setdim (w h : Nat)
  /-- `setblk BX, BY` -/
  | setblk (x y : Nat)
  /-- `setstride SS, DS` -/
  | setstride (ss ds : Nat)
  /-- `setaq BITS, MAXITER, FMT` -/
  | setaq (bits maxIter fmt : Nat)
  /-- `setmode M` -/
  | setmode (m : Mode)
  deriving DecidableEq, Repr

/-- A 32-bit host write to a named register. -/
def csrwEvent (r : CsrName) (v : Word) : Event := .csrWrite (csrOffset r) 4 v

/-- A 32-bit host read of a named register. -/
def csrrEvent (r : CsrName) : Event := .csrRead (csrOffset r) 4

/-- What the host does for a statement: one access, or the loop of `wait` (R126). -/
inductive Transaction where
  /-- One access. -/
  | once (e : Event)
  /-- `csrr STATUS`, repeated while `BUSY` is 1. -/
  | pollStatus
  deriving DecidableEq, Repr

/-- The value of a 32-bit register write, from the number its statement gives. Bits above 31 are lost (DESIGN CHOICE,
unsafe: log entry 17). -/
def writtenWord (n : Nat) : Word := BitVec.ofNat 32 n

/-- The host's transactions of a statement, in order (R125, R126). `mwi16` writes the low 16 bits of its values' two's
complement; the spec says nothing of a value outside −32768..32767 (DESIGN CHOICE, unsafe: log entry 17). -/
def stmtTransactions : Stmt → List Transaction
  | .csrw r v => [.once (csrwEvent r v)]
  | .csrr r => [.once (csrrEvent r)]
  | .mw8 a bs => [.once (.lmemWrite a bs)]
  | .mwi16 a qs => [.once (.lmemWrite a (qs.map i16Bytes).flatten)]
  | .mwf64 a xs => [.once (.lmemWrite a (xs.map f64Bytes).flatten)]
  | .mfill a n b => [.once (.lmemWrite a (List.replicate n b))]
  | .mr a n => [.once (.lmemRead a n)]
  | .cmd i => [.once (csrwEvent .cmd (encode i))]
  | .wait => [.pollStatus]
  | .run i => [.once (csrwEvent .cmd (encode i)), .pollStatus]
  | .setdim w h => [.once (csrwEvent .dim (writtenWord (h <<< 16 ||| w)))]
  | .setblk x y => [.once (csrwEvent .blk (writtenWord (y <<< 16 ||| x)))]
  | .setstride ss ds => [.once (csrwEvent .stride (writtenWord (ds <<< 16 ||| ss)))]
  | .setaq bits maxIter fmt => [.once (csrwEvent .aqcfg (writtenWord (fmt <<< 16 ||| maxIter <<< 8 ||| bits)))]
  | .setmode m => [.once (csrwEvent .pdcfg (BitVec.ofNat 32 (modeNumber m)))]

/-- The transactions of a program, statement after statement. -/
def programTransactions (p : List Stmt) : List Transaction := (p.map stmtTransactions).flatten

/-- Whose event comes next in the one total order (spec/20_memory.md R93, spec/93_implementation_defined.md I13). -/
inductive Turn where
  /-- The block's. -/
  | block
  /-- The host's. -/
  | host
  deriving DecidableEq, Repr

/-- The state after one more event, if the event has a step. A held LMEM access takes two steps: the block's, then its
own (spec/20_memory.md R98). -/
def afterEvent (s : State) (e : Event) : Option State :=
  match step (s.setAgenda [e]) with
  | .fault _ => none
  | .refused _ => none
  | .next t =>
    if t.agenda = [] then some t
    else match step t with
      | .next u => some u
      | .fault _ => none
      | .refused _ => none

/-- What the host does on its turn: its next access, if any is left, and the transactions left after it. The loop of
`wait` is left only by the read that finds `BUSY` = 0 (R126). -/
def hostTurn (s : State) : List Transaction → Option (Event × List Transaction)
  | [] => none
  | .once e :: ts => some (e, ts)
  | .pollStatus :: ts => some (csrrEvent .status, if s.status.busy then .pollStatus :: ts else ts)

/-- The events of a host's transactions from a state, under a schedule: whose turn it is, event by event. Every
interleaving is some schedule's (spec/93_implementation_defined.md I13); an event with no step is the last. A schedule is
finite, so it gives a run's beginning; one that leaves no transaction over gives all of it. DESIGN CHOICE, safe: log entry 9. -/
def hostRun : List Turn → State → List Transaction → List Event
  | [], _, _ => []
  | .block :: turns, s, ts =>
    .perform :: match afterEvent s .perform with
      | some t => hostRun turns t ts
      | none => []
  | .host :: turns, s, ts =>
    match hostTurn s ts with
    | none => hostRun turns s []
    | some (e, ts') =>
      e :: match afterEvent s e with
        | some t => hostRun turns t ts'
        | none => []

/-- The events of a program from a state, under a schedule: an agenda for `step`. -/
def programEvents (turns : List Turn) (s : State) (p : List Stmt) : List Event :=
  hostRun turns s (programTransactions p)

end Sys2Proof.Machine
end

