-- ==== Sys2Proof/Laws/HostProgram.lean ====
section
/-!
SUPPORT. What the loop of `wait` gives under each schedule (spec/30_encoding.md R126).
-/

namespace Sys2Proof.Machine

/-- A read of `STATUS` answers at once, busy or not, and leaves the flags. -/
theorem afterEvent_readStatus (s : State) :
    afterEvent s (csrrEvent .status) = some ((s.setAgenda []).reply (.csr (csrValue s 0x08))) := by
  unfold afterEvent
  cases h : s.status.busy <;> simp [step, csrrEvent, csrOffset, Event.heldWhileBusy, hostEvent, csrAccessOk, State.setAgenda, State.reply] <;> rfl

/-- While the block is busy, `wait` reads `STATUS` as often as the schedule lets the host go first, and the read after the
block's turn ends it. -/
theorem hostRun_wait (n : Nat) (s : State) (hb : s.status.busy = true) :
    hostRun (List.replicate n .host ++ [.block, .host]) s [.pollStatus] =
      List.replicate n (csrrEvent .status) ++ [.perform, csrrEvent .status] := by
  induction n generalizing s with
  | zero =>
    obtain ⟨t, ht, hk⟩ := perform_next (s.setAgenda [])
    have ha : afterEvent s .perform = some t := by
      have : t.agenda = [] := hk.2.2.2.2.2.2.2.1
      have hs : step (s.setAgenda [.perform]) = .next t := (blockTurn_busy (s.setAgenda []) hb).trans ht
      simp only [afterEvent, hs, this, if_true]
    simp only [List.replicate_zero, List.nil_append, hostRun, ha, hostTurn, afterEvent_readStatus]
  | succ n ih =>
    rw [List.replicate_succ, List.replicate_succ, List.cons_append, List.cons_append]
    simp only [hostRun, hostTurn, hb, if_true, afterEvent_readStatus]
    exact congrArg _ (ih _ hb)

end Sys2Proof.Machine
end

