-- ==== Sys2Proof/Laws/PerInstr.lean ====
section
/-!
SUPPORT. Statements for all instructions, made one constructor at a time. The family `Encodes`: a command's word decodes
to the command, is legal, holds its opcode in its low byte and zero above (spec/30_encoding.md R120 to R122).
-/

namespace Sys2Proof.Laws.Encodes

/-- What the family says of one command, as syntax. -/
def Statement (i : Instr) : Prop :=
  i.WellFormed = true ∧ decode (encode i) = .ok i ∧ legalWord (encode i) = true ∧
    opcField (encode i) = opcodeOf i ∧ rsvField (encode i) = 0

theorem nop : Statement .nop := by unfold Statement; decide
theorem cscFwd : Statement .cscFwd := by unfold Statement; decide
theorem cscInv : Statement .cscInv := by unfold Statement; decide
theorem aq : Statement .aq := by unfold Statement; decide
theorem fdct : Statement .fdct := by unfold Statement; decide
theorem idct : Statement .idct := by unfold Statement; decide
theorem quant : Statement .quant := by unfold Statement; decide
theorem dequant : Statement .dequant := by unfold Statement; decide
theorem blkExtract : Statement .blkExtract := by unfold Statement; decide
theorem blkInsert : Statement .blkInsert := by unfold Statement; decide
theorem encode : Statement .encode := by unfold Statement; decide
theorem pdInit : Statement .pdInit := by unfold Statement; decide
theorem pdStep : Statement .pdStep := by unfold Statement; decide
theorem pdReset : Statement .pdReset := by unfold Statement; decide

end Sys2Proof.Laws.Encodes
end

