-- ==== Sys2Proof/Laws/Table.lean ====
section
/-!
SUPPORT. The machine's regions and checks are those of the region table as the claims write it out
(spec/20_memory.md R85 to R87).
-/

namespace Sys2Proof.Machine

/-- The two spellings of a strided region's size. -/
theorem stridedSize_eq (n stride e : Nat) : stridedSize n stride e = if 0 < n then (n - 1) * stride + e else 0 := by
  unfold stridedSize
  cases n <;> simp

/-- The regions a command reads are the table's. -/
theorem tableInputs_eq (i : Instr) (s : State) : tableInputs i s = inputRegions i s := by
  cases i with
  | aq => simp [tableInputs, inputRegions, stridedSize_eq, State.src, State.elements, State.srcStride, State.sampleSize]
  | blkExtract =>
    simp [tableInputs, inputRegions, stridedSize_eq, State.src, State.imgW, State.imgH, State.srcStride]
  | pdStep =>
    simp only [tableInputs, inputRegions, PdContext.exhausted, beq_iff_eq]
    split <;> rfl
  | _ => rfl

/-- The regions a command writes are the table's. -/
theorem tableOutputs_eq (i : Instr) (s : State) : tableOutputs i s = outputRegions i s := by
  cases i with
  | aq =>
    have hs (n d e : Nat) : (if 0 < n then (n - 1) * d + e else 0) = stridedSize n d e := (stridedSize_eq n d e).symm
    by_cases h : 1 ≤ s.depth ∧ s.depth ≤ 7
    · have ho : outputRegions .aq s =
          [⟨s.dst, s.sampleSize, stridedSize s.elements s.dstStride s.sampleSize⟩, ⟨s.aux, 8, 8 * s.levels⟩] := by
        simp only [outputRegions, if_pos h]
      rw [ho]; exact (if_pos h).trans (by rw [hs]; rfl)
    · have ho : outputRegions .aq s =
          [⟨s.dst, s.sampleSize, stridedSize s.elements s.dstStride s.sampleSize⟩] := by
        simp only [outputRegions, if_neg h]
      rw [ho]; exact (if_neg h).trans (by rw [hs]; rfl)
  | blkInsert =>
    simp [tableOutputs, outputRegions, stridedSize_eq, State.dst, State.imgW, State.imgH, State.dstStride]
  | pdStep =>
    simp only [tableOutputs, outputRegions, PdContext.exhausted, beq_iff_eq]
    split <;> rfl
  | _ => rfl

/-- The machine's two memory checks are those of the table. -/
theorem memoryChecks_eq (i : Instr) (s : State) :
    memoryChecks i s = [(9, !allAligned i s), (10, !allInRange i s)] := by
  have lt (a b : Nat) : decide (b < a) = !decide (a ≤ b) := by rw [← decide_not, decide_eq_decide, Nat.not_le]
  simp only [memoryChecks, tableInputs_eq, tableOutputs_eq, allAligned, allInRange, regionsOf, Region.aligned,
    Region.inRange, State.lmemBytes, List.not_all_eq_any_not, Bool.not_or, lt, bne]
  rfl

/-- A byte outside a region, in the two spellings. -/
theorem Region.contains_eq_false (r : Region) (a : Nat) : r.contains a = false ↔ a < r.base ∨ r.base + r.size ≤ a := by
  simp only [Region.contains, Bool.and_eq_false_iff, decide_eq_false_iff_not, Nat.not_le, Nat.not_lt]

/-- A byte of a region, in the two spellings. -/
theorem Region.contains_eq_true (r : Region) (a : Nat) : r.contains a = true ↔ r.base ≤ a ∧ a < r.base + r.size := by
  simp only [Region.contains, Bool.and_eq_true, decide_eq_true_eq]

end Sys2Proof.Machine
end

