-- ==== Sys2Proof/Tests/Slice0.lean ====
section
/-!
SUPPORT. The model's own tests: words that must be refused, words written out from the opcode map, one step of each command
with the result the spec's own examples give, and for each statement a state and operands that meet its hypotheses.
-/

namespace Sys2Proof.Tests

-- One theorem at a time: many evaluations at once would each hold a thread's stack.
set_option Elab.async false

open Sys2Proof Sys2Proof.Machine Host

/-! ### States for the tests -/

/-- What a command leaves. -/
def ran (i : Instr) (s : State) : State :=
  match exec i s with
  | .next t => t
  | .fault _ => s
  | .refused _ => s

/-- A block with a command in flight, with given operand registers and LMEM. -/
def busyWith (o : OperandRegs) (m : List Cell) : State :=
  { State.reset with opr := o, lmem := m, status := { Status.reset with busy := true } }

/-- The operands all zero but what a test sets. -/
def noOperands : OperandRegs := OperandRegs.reset

/-- LMEM cells of binary64 values from an address up. -/
def f64Cells (a : Nat) (xs : List F64) : List Cell := cellsAt a (xs.map f64Bytes).flatten

/-- A block whose 64 elements are one value. -/
def flat (x : F64) : List F64 := List.replicate 64 x

theorem exec_eq_ran (i : Instr) (s : State) : exec i s = .next (ran i s) := by
  unfold ran; rw [exec_eq_finish]

/-! ### Well-formedness: ill-formed words are refused (R120, R122) -/

theorem test_reserved_bit_is_refused : legalWord 0x00000100 = false ∧ reservedClear 0x00000100 = false := by decide
theorem test_top_reserved_bit_is_refused : legalWord 0x80000010 = false := by decide
theorem test_unassigned_opcode_is_refused : legalWord 0x00000003 = false ∧ opcodeAssigned 0x00000003 = false := by decide
theorem test_reserved_range_is_refused : legalWord 0x000000F0 = false ∧ legalWord 0x000000FF = false := by decide
theorem test_legal_word_is_accepted : legalWord 0x00000022 = true := by decide
theorem test_every_command_is_well_formed : ∀ i : Instr, i.WellFormed = true := fun _ => rfl

/-! ### Decoding: words written out bit by bit from R120 and R121 -/

theorem test_decode_nop : decode 0b00000000000000000000000000000000 = .ok .nop := by decide
theorem test_decode_cscFwd : decode 0b00000000000000000000000000000001 = .ok .cscFwd := by decide
theorem test_decode_cscInv : decode 0b00000000000000000000000000000010 = .ok .cscInv := by decide
theorem test_decode_aq : decode 0b00000000000000000000000000001000 = .ok .aq := by decide
theorem test_decode_fdct : decode 0b00000000000000000000000000010000 = .ok .fdct := by decide
theorem test_decode_idct : decode 0b00000000000000000000000000010001 = .ok .idct := by decide
theorem test_decode_quant : decode 0b00000000000000000000000000010010 = .ok .quant := by decide
theorem test_decode_dequant : decode 0b00000000000000000000000000010011 = .ok .dequant := by decide
theorem test_decode_blkExtract : decode 0b00000000000000000000000000010100 = .ok .blkExtract := by decide
theorem test_decode_blkInsert : decode 0b00000000000000000000000000010101 = .ok .blkInsert := by decide
theorem test_decode_encode : decode 0b00000000000000000000000000010110 = .ok .encode := by decide
theorem test_decode_pdInit : decode 0b00000000000000000000000000100000 = .ok .pdInit := by decide
theorem test_decode_pdStep : decode 0b00000000000000000000000000100001 = .ok .pdStep := by decide
theorem test_decode_pdReset : decode 0b00000000000000000000000000100010 = .ok .pdReset := by decide
theorem test_decode_refuses_by_name :
    decode 0x00000110 = .error .reservedNonzero ∧ decode 0x00000009 = .error .unassignedOpcode := by decide
theorem test_table_word_steps : decodeTableWord 32 0x00000013 = some .dequant ∧ decodeTableWord 64 0x13 = none := by decide
theorem test_fetched_word_is_run : step (State.reset.withFetchWord 32 0) = .next (succeeded
    { State.reset with status := { Status.reset with busy := true } }) := rfl

/-! ### One step of each command, with results from the spec's examples -/

theorem test_nop_completes : (ran .nop (busyWith noOperands [])).status =
    { busy := false, done := true, err := false, more := false, ovr := false, errCode := 0 } := by decide

/-- R151's example: (255, 0, 0). -/
def redPixel : State := busyWith { noOperands with dst := 8, count := 1 } (cellsAt 0 [255, 0, 0])

theorem test_cscFwd_red : (ran .cscFwd redPixel).ldF64 8 = 0x40530FAE147AE147 ∧
    (ran .cscFwd redPixel).ldF64 16 = 0xC042BE147AE147AE := by decide +kernel
theorem test_cscFwd_red_v : (ran .cscFwd redPixel).ldF64 24 = 0x40639A6666666666 := by decide +kernel

/-- R152's example: (100.0, 50.0, −20.0). -/
def yuvPixel : State :=
  busyWith { noOperands with dst := 24, count := 1 } (f64Cells 0 [fOfNat 100, fOfNat 50, fNeg (fOfNat 20)])

theorem test_cscInv_example : (ran .cscInv yuvPixel).ldBytes 24 3 = [77, 92, 202] := by decide +kernel

/-- The scenario of §1.2 of spec/95_test_vectors.md: BITS 1, bytes 0, 0, 0, 100, 100, 100. -/
def twoLevels : State :=
  busyWith { noOperands with aqBits := 1, aqFmt := true, count := 6, stride := 0x00010001, aux := 64, dst := 16 }
    (cellsAt 0 [0, 0, 0, 100, 100, 100])

theorem test_aq_two_levels : (ran .aq twoLevels).memRead 64 16 = 0x4058F380000000003FC9000000000000 := by decide +kernel

/-- R183: BITS 8 copies. -/
def eightBits : State := busyWith { twoLevels.opr with aqBits := 8 } twoLevels.lmem

theorem test_aq_passthrough : (ran .aq eightBits).ldBytes 16 6 = [0, 0, 0, 100, 100, 100] ∧
    (ran .aq eightBits).aqNctr = 0 := by decide +kernel

/-- R236's example: a constant block of 100.0. -/
def flatBlock : State := busyWith noOperands (f64Cells 0 (flat (fOfNat 100)))

theorem test_fdct_constant_block : (ran .fdct flatBlock).ldF64 0 = 0x4089000000000001 := by decide +kernel

/-- R237's example: F[0][0] = 8.0. -/
def dcBlock : State := busyWith { noOperands with dst := 512 } (f64Cells 0 (fOfNat 8 :: List.replicate 63 0))

theorem test_idct_dc : (ran .idct dcBlock).ldF64 (512 + 8 * 63) = 0x3FF0000000000001 := by decide +kernel

/-- R262's examples at N = 10, the first two elements: 1536.0 and −1536.0. -/
def quantBlock : State :=
  busyWith { noOperands with dst := 512, qlevel := 10 }
    (f64Cells 0 (fOfNat 1536 :: fNeg (fOfNat 1536) :: List.replicate 62 0))

theorem test_quant_ties : (ran .quant quantBlock).ldI16 512 = 2 ∧ (ran .quant quantBlock).ldI16 514 = -2 := by
  decide +kernel

/-- R262: 40000.0 at N = 0 raises `E_COEFRANGE`. -/
def wideBlock : State := busyWith { noOperands with dst := 512 } (f64Cells 0 (flat (fOfNat 40000)))

theorem test_quant_out_of_range : exec .quant wideBlock = .next (failed 13 wideBlock) := by
  rw [exec_eq_finish]
  have : resultOf .quant wideBlock = .error .coefRange := by decide +kernel
  rw [this]; rfl

/-- R264: 0x8000 and 0x7FFF at N = 15. -/
def coefBlock : State :=
  busyWith { noOperands with dst := 128, qlevel := 15 } (cellsAt 0 ([0x00, 0x80, 0xFF, 0x7F] ++ List.replicate 124 0))

theorem test_dequant_extremes : (ran .dequant coefBlock).ldF64 128 = fNeg (fOfNat 1073741824) ∧
    (ran .dequant coefBlock).ldF64 136 = fOfNat 1073709056 := by decide +kernel

/-- R266's example: W = 10, H = 3, sample (x, y) = (20x + y) mod 256, block (1, 0). -/
def smallPlane : State :=
  busyWith { noOperands with dim := 0x0003000A, blk := 0x00000001, stride := 0x00000001, dst := 64 }
    (cellsAt 0 ((List.range 30).map fun k => BitVec.ofNat 8 (20 * (k % 10) + k / 10)))

theorem test_blkExtract_overhang : (ran .blkExtract smallPlane).ldF64 64 = fOfNat 32 ∧
    (ran .blkExtract smallPlane).ldF64 (64 + 8 * 17) = fOfNat 54 := by decide +kernel
theorem test_blkExtract_padding : (ran .blkExtract smallPlane).ldF64 (64 + 8 * 2) = 0 ∧
    (ran .blkExtract smallPlane).ldF64 (64 + 8 * 24) = 0 := by decide +kernel

/-- R268's example: the six elements of the block that lie in the image. -/
def insertPlane : State :=
  busyWith { noOperands with dim := 0x0003000A, blk := 0x00000001, stride := 0x00010000, dst := 512 }
    (f64Cells 0 ([fLit 255 2, fNeg (fLit 257 2)] ++ List.replicate 6 0 ++ [fNeg (fOfNat 32), fNeg (fOfNat 31)] ++
      List.replicate 6 0 ++ [fNeg (fOfNat 24), fNeg (fOfNat 23)] ++ List.replicate 46 0))

theorem test_blkInsert_example : (lookup (ran .blkInsert insertPlane).lmem (512 + 8),
    lookup (ran .blkInsert insertPlane).lmem (512 + 9), lookup (ran .blkInsert insertPlane).lmem (512 + 10)) =
    (some 255, some 0, none) := by decide +kernel
theorem test_blkInsert_example_rows : (ran .blkInsert insertPlane).ldBytes (512 + 18) 2 = [96, 97] ∧
    (ran .blkInsert insertPlane).ldBytes (512 + 28) 2 = [104, 105] := by decide +kernel

/-- A 1×1 grey image: its one block of each channel is all zero, as §1.3 of spec/95_test_vectors.md has it. -/
def greyPixel : State :=
  busyWith { noOperands with dim := 0x00010001, coef0 := 128, coef1 := 256, coef2 := 384 } (cellsAt 0 [128, 128, 128])

theorem test_encode_grey : (ran .encode greyPixel).memRead 128 384 = 0 := by decide +kernel

/-- A context for that image in SUCCESSIVE_BIT mode. -/
def greyContext : State :=
  busyWith { greyPixel.opr with pdcfgMode := 2, dst := 8 }
    (cellsAt 0 [128, 128, 128] ++ cellsAt 128 (List.replicate 384 0))

theorem test_pdInit_totals : (ran .pdInit greyContext).pd.total = 16 ∧ (ran .pdInit greyContext).status.more = true := by
  decide +kernel

/-- That context, latched. -/
def greyDecoder : State :=
  { greyContext with
    pd := { valid := true, mode := .successive, step := 0, total := 16, w := 1, h := 1, n := 0, coef0 := 128, coef1 := 256
            coef2 := 384 }
    status := { greyContext.status with more := true } }

theorem test_pdInit_is_the_latched_context : (ran .pdInit greyContext).pd = greyDecoder.pd := by decide +kernel
theorem test_pdStep_grey : (ran .pdStep greyDecoder).ldBytes 8 3 = [128, 128, 128] := by decide +kernel
theorem test_pdStep_advances : (ran .pdStep greyDecoder).pd.step = 1 := by decide +kernel

/-- Mid-sequence. -/
def laterDecoder : State := { greyDecoder with pd := { greyDecoder.pd with step := 9 } }

theorem test_pdReset_rewinds : ran .pdReset laterDecoder = succeeded greyDecoder := by decide +kernel
theorem test_pdReset_needs_a_context : (ran .pdReset State.reset).status.errCode = 8 := by decide

/-- R312's table. -/
theorem test_bitmask_table : bitmask 13 1 = 12 ∧ bitmask (-6) 0 = -4 ∧ bitmask 100 4 = 100 ∧ bitmask 32767 3 = 30720 ∧
    bitmask (-32768) 0 = -32768 := by decide

/-! ### The host's side -/

/-- R43: `AQCFG` keeps its fields alone. -/
theorem test_aqcfg_reserved_bits : csrValue (csrWrite State.reset 0x3C 0xFFFFFFFF) 0x3C = 0x0001FF0F := by decide
theorem test_status_write_one_to_clear :
    csrValue (csrWrite (succeeded { State.reset with status := { Status.reset with ovr := true } }) 0x08 0x2) 0x08 = 0x20 := by
  decide
theorem test_busy_write_sets_ovr :
    csrWrite (busyWith noOperands []) 0x10 5 = { busyWith noOperands [] with
      status := { Status.reset with busy := true, ovr := true } } := by decide
/-- R126: the expansions of pseudo-statements. -/
theorem test_pseudo_statements :
    programTransactions [.setdim 10 3, .setaq 1 30 1, .cmd .encode, .setmode .spectral, .setblk 65537 1] =
    [.once (.csrWrite 0x28 4 0x0003000A), .once (.csrWrite 0x3C 4 0x00011E01), .once (.csrWrite 0x0C 4 0x16),
      .once (.csrWrite 0x40 4 1), .once (.csrWrite 0x2C 4 0x00010001)] := by decide
/-- R126: `wait` reads `STATUS` until it finds `BUSY` = 0, whenever the block's turn comes. -/
theorem test_wait_polls :
    programEvents [.host, .host, .host, .block, .host, .host] State.reset [.run .nop, .csrr .id] =
      [.csrWrite 0x0C 4 0, .csrRead 0x08 4, .csrRead 0x08 4, .perform, .csrRead 0x08 4, .csrRead 0x00 4] ∧
    programEvents [.host, .block, .host, .host] State.reset [.run .nop, .csrr .id] =
      [.csrWrite 0x0C 4 0, .perform, .csrRead 0x08 4, .csrRead 0x00 4] := by decide

/-! ### Witnesses: for each statement with hypotheses, a state and operands that meet them -/

/-- What a step leaves. -/
def stepped (s : State) : State :=
  match step s with
  | .next t => t
  | .fault _ => s
  | .refused _ => s

/-- A block with a word in flight. -/
def inFlight (w : Word) : State := { busyWith noOperands [] with pending := w }

/-- The idle block with events to come. -/
def toCome (ag : List Event) : State := { State.reset with agenda := ag }

theorem witness_DecodeEncodeRoundTrip : Instr.aq.WellFormed = true ∧ decode 0x08 = .ok .aq := by decide

theorem witness_IllegalWordCompletesWithBadOp :
    (inFlight 0x100).pending.toNat / 256 ≠ 0 ∧ (inFlight 0x23).pending.toNat / 256 = 0 ∧
      (inFlight 0x23).pending.toNat % 256 ∉
        [0x00, 0x01, 0x02, 0x08, 0x10, 0x11, 0x12, 0x13, 0x14, 0x15, 0x16, 0x20, 0x21, 0x22] ∧
      decode 0x22 = .ok .pdReset := by decide

theorem witness_StepPerformsThePendingCommand :
    (inFlight 0).status.busy = true ∧ decode (inFlight 0).pending = .ok .nop ∧ (inFlight 0).agenda = [] ∧
      ((inFlight 0).setAgenda [.perform]).agenda = [.perform] ∧
      (Event.lmemRead 0 1).heldWhileBusy = true ∧ State.reset.status.busy = false ∧ State.reset.agenda = [] ∧
      (toCome [.perform]).status.busy = false ∧ (toCome [.perform]).agenda = [.perform] := by decide

theorem illegal_decodes_to_nothing : ∀ i, decode (inFlight 0x100).pending ≠ .ok i := by
  intro i h
  have : decode (inFlight 0x100).pending = .error .reservedNonzero := by decide
  rw [this] at h; cases h

/-- The illegal word in flight, in each of the three places its step can come. -/
theorem witness_StepPerformsThePendingCommand_illegal :
    (inFlight 0x100).status.busy = true ∧ (∀ i, decode (inFlight 0x100).pending ≠ .ok i) ∧ (inFlight 0x100).agenda = [] ∧
      ((inFlight 0x100).setAgenda [.perform]).agenda = [.perform] ∧
      ((inFlight 0x100).setAgenda [.lmemRead 0 1]).agenda = [.lmemRead 0 1] :=
  ⟨rfl, illegal_decodes_to_nothing, rfl, rfl, rfl⟩

theorem witness_AcceptThenPerform :
    (toCome [.csrWrite 0x0C 4 0x10, .perform]).status.busy = false ∧ decode 0x10 = .ok .fdct ∧
      (toCome [.csrWrite 0x0C 4 0x10, .perform]).agenda = .csrWrite 0x0C 4 0x10 :: .perform :: [] := by decide

theorem witness_FailureChangesOnlyCompletionFields :
    exec .pdReset State.reset = .next (ran .pdReset State.reset) ∧ (ran .pdReset State.reset).status.errCode ≠ 0 ∧
      exec .nop State.reset = .next (ran .nop State.reset) ∧ (ran .nop State.reset).status.errCode = 0 :=
  ⟨exec_eq_ran _ _, by decide, exec_eq_ran _ _, by decide⟩

/-- Several checks fail at once; N = 16 fails where N = 15 does not. -/
theorem witness_LowestFailedCheckIsReported :
    (2, true) ∈ commandChecks .aq State.reset ∧ (5, true) ∈ commandChecks .aq State.reset ∧
      (6, true) ∈ commandChecks .aq State.reset ∧
      (3, true) ∈ commandChecks .dequant { State.reset with opr := { noOperands with qlevel := 16 } } ∧
      (3, true) ∉ commandChecks .dequant { State.reset with opr := { noOperands with qlevel := 15 } } := by decide

theorem witness_DataErrorsOfEachCommand :
    (checksPass .dequant coefBlock = true ∧ exec .dequant coefBlock = .next (ran .dequant coefBlock)) ∧
      (checksPass .cscInv yuvPixel = true ∧ exec .cscInv yuvPixel = .next (ran .cscInv yuvPixel)) ∧
      (checksPass .quant wideBlock = true ∧ exec .quant wideBlock = .next (ran .quant wideBlock)) ∧
      (checksPass .aq twoLevels = true ∧ twoLevels.opr.aqFmt = true ∧ exec .aq twoLevels = .next (ran .aq twoLevels)) :=
  ⟨⟨by decide, exec_eq_ran _ _⟩, ⟨by decide, exec_eq_ran _ _⟩, ⟨by decide, exec_eq_ran _ _⟩, by decide, rfl,
    exec_eq_ran _ _⟩

/-- A block whose last element is an infinity. -/
def infiniteBlock : State :=
  busyWith { noOperands with dst := 512, dim := 0x00080008, stride := 0x00010000 }
    (f64Cells 0 (List.replicate 63 0 ++ [0x7FF0000000000000]))

/-- A pixel whose V is a NaN. -/
def nanPixel : State := busyWith { noOperands with dst := 24, count := 1 } (f64Cells 0 [0, 0, 0x7FF8000000000001])

/-- One infinite sample. -/
def infiniteSample : State :=
  busyWith { noOperands with dst := 8, count := 1, stride := 0x00080008, aqBits := 8 } (f64Cells 0 [0xFFF0000000000000])

theorem witness_NonFiniteInputIsReported :
    (checksPass .fdct infiniteBlock = true ∧ checksPass .idct infiniteBlock = true ∧ checksPass .quant infiniteBlock = true ∧
      checksPass .blkInsert infiniteBlock = true ∧ fFinite (infiniteBlock.ldF64 (infiniteBlock.src + 8 * 63)) = false) ∧
    (checksPass .cscInv nanPixel = true ∧ 0 < nanPixel.elements ∧
      nanPixel.ldF64 (nanPixel.src + 24 * 0 + 16) ∈ invValues nanPixel 0 ∧
      fFinite (nanPixel.ldF64 (nanPixel.src + 24 * 0 + 16)) = false) ∧
    (checksPass .aq infiniteSample = true ∧ infiniteSample.opr.aqFmt = false ∧ 0 < infiniteSample.elements ∧
      fFinite (infiniteSample.ldF64 (infiniteSample.src + 0 * infiniteSample.srcStride)) = false) :=
  ⟨by decide +kernel, ⟨by decide, by decide, by simp [invValues], by decide +kernel⟩, by decide +kernel⟩

/-- The greatest finite value in every element: the first sum overflows. -/
def hugeBlock : State := busyWith noOperands (f64Cells 0 (flat 0x7FEFFFFFFFFFFFFF))

/-- The greatest finite value and its negation: their difference overflows. -/
def hugeRange : State :=
  busyWith { noOperands with dst := 64, aux := 128, count := 2, stride := 0x00080008, aqBits := 1 }
    (f64Cells 0 [0x7FEFFFFFFFFFFFFF, 0xFFEFFFFFFFFFFFFF])

theorem hugeBlock_block : blockAt hugeBlock hugeBlock.src = flat 0x7FEFFFFFFFFFFFFF := by decide +kernel
theorem hugeBlock_finite : ∀ k < 64, fFinite (hugeBlock.ldF64 (hugeBlock.src + 8 * k)) = true := by decide +kernel
theorem fdct_overflows : fdct (flat 0x7FEFFFFFFFFFFFFF) = .error .nonFinite := by decide +kernel
theorem idct_overflows : idct (flat 0x7FEFFFFFFFFFFFFF) = .error .nonFinite := by decide +kernel

theorem witness_NonFiniteInputIsReported_computed :
    (∀ k < 64, fFinite (hugeBlock.ldF64 (hugeBlock.src + 8 * k)) = true) ∧
    (checksPass .fdct hugeBlock = true ∧ fdct (blockAt hugeBlock hugeBlock.src) = .error .nonFinite) ∧
    (checksPass .idct hugeBlock = true ∧ idct (blockAt hugeBlock hugeBlock.src) = .error .nonFinite) := by
  rw [hugeBlock_block]
  exact ⟨hugeBlock_finite, ⟨by decide, fdct_overflows⟩, by decide, idct_overflows⟩

theorem witness_NonFiniteInputIsReported_aq :
    checksPass .aq hugeRange = true ∧ hugeRange.depth ≤ 7 ∧ (∀ m < hugeRange.elements, fFinite (aqInput hugeRange m) = true) ∧
      aqQuantize (2 ^ hugeRange.depth) hugeRange.opr.aqMaxIter.toNat ((List.range hugeRange.elements).map (aqInput hugeRange)) =
        .error .nonFinite := by decide +kernel

theorem witness_ReportAndContextHaveTheirWriters :
    exec .nop State.reset = .next (ran .nop State.reset) ∧ Instr.nop ≠ .aq ∧ Instr.nop ∉ [Instr.pdInit, .pdStep, .pdReset] ∧
      exec .aq State.reset = .next (ran .aq State.reset) ∧ (ran .aq State.reset).status.errCode ≠ 0 :=
  ⟨exec_eq_ran _ _, by decide, by decide, exec_eq_ran _ _, by decide⟩

/-- The command that runs writes: its output region is not empty, and byte 500 lies outside it. -/
theorem witness_CommandWritesOnlyItsOutputRegions :
    exec .dequant coefBlock = .next (ran .dequant coefBlock) ∧
      (∀ r ∈ tableOutputs .dequant coefBlock, 700 < r.base ∨ r.base + r.size ≤ 700) ∧
      (∃ r ∈ tableOutputs .dequant coefBlock, r.base ≤ 128 ∧ 128 < r.base + r.size) := ⟨exec_eq_ran _ _, by decide, by decide⟩

/-- Two states that differ in a byte the command does not read. -/
def coefBlockToo : State := coefBlock.setLmem (coefBlock.lmem ++ [(2000, 1)])

theorem witness_CommandReadsOnlyItsInputRegions :
    coefBlock.opr = coefBlockToo.opr ∧ coefBlock.pd = coefBlockToo.pd ∧ coefBlock.lmemExp = coefBlockToo.lmemExp ∧
      coefBlock.DecoderInv ∧ coefBlock.lmem ≠ coefBlockToo.lmem ∧
      (∀ r ∈ tableInputs .dequant coefBlock, ∀ a, r.base ≤ a → a < r.base + r.size →
        coefBlock.ldByte a = coefBlockToo.ldByte a) ∧
      exec .dequant coefBlock = .next (ran .dequant coefBlock) ∧
      exec .dequant coefBlockToo = .next (ran .dequant coefBlockToo) := by
  refine ⟨rfl, rfl, rfl, by unfold State.DecoderInv; decide, by decide, ?_, exec_eq_ran _ _, exec_eq_ran _ _⟩
  intro r hr a _ ha
  have hr : r = ⟨0, 2, 128⟩ := by simpa [tableInputs, coefBlock, busyWith, noOperands, OperandRegs.reset] using hr
  subst hr
  have ha : a ≠ 2000 := by simp only at ha; omega
  simp only [State.ldByte, coefBlockToo, State.setLmem_lmem, lookup_append]
  have : lookup [((2000 : Nat), (1 : Byte))] a = none := by simp [lookup, Ne.symm ha]
  rw [this, Option.or_none]; rfl

theorem witness_DecoderNeverWritesItsCoefficients :
    exec .pdStep greyDecoder = .next (ran .pdStep greyDecoder) ∧
      ∃ c ∈ [greyDecoder.pd.coef0, greyDecoder.pd.coef1, greyDecoder.pd.coef2], c.toNat ≤ 255 ∧
        255 < c.toNat + 128 * ((greyDecoder.pd.w.toNat + 7) / 8 * ((greyDecoder.pd.h.toNat + 7) / 8)) :=
  ⟨exec_eq_ran _ _, greyDecoder.pd.coef0, by decide, by decide⟩

theorem witness_CscFwdConvertsEveryPixel :
    (checksPass .cscFwd redPixel = true ∧ 0 < redPixel.elements) ∧ checksPass .cscFwd State.reset = true := by decide

theorem witness_CscInvConvertsEveryPixel :
    checksPass .cscInv yuvPixel = true ∧ ∀ p < yuvPixel.elements, ∀ v ∈ invValues yuvPixel p, fFinite v = true :=
  ⟨by decide +kernel, fun p hp => List.all_eq_true.mp
    (by revert p; decide +kernel : ((invValues yuvPixel p).all fun v => fFinite v) = true)⟩

/-- Binary64 samples at BITS 8, −0.0 among them. -/
def eightBitsF64 : State :=
  busyWith { noOperands with aqBits := 8, count := 2, stride := 0x00100008, dst := 64 }
    (f64Cells 0 [0x8000000000000000, fOfNat 3])

theorem witness_AqPassesThroughAtEightBits :
    (checksPass .aq eightBits = true ∧ eightBits.depth = 8 ∧
      (∀ m < eightBits.elements, fFinite (aqInput eightBits m) = true) ∧ eightBits.opr.aqFmt = true) ∧
    (checksPass .aq eightBitsF64 = true ∧ eightBitsF64.depth = 8 ∧
      (∀ m < eightBitsF64.elements, fFinite (aqInput eightBitsF64 m) = true) ∧ eightBitsF64.opr.aqFmt = false) := by
  decide +kernel

/-- A constant input, as bytes and as binary64 values of both zeros. -/
def constantBytes : State := busyWith twoLevels.opr (cellsAt 0 [7, 7, 7, 7, 7, 7])

/-- Both zeros, −0.0 first, at the largest depth below passthrough. -/
def bothZeros : State :=
  busyWith { noOperands with aqBits := 7, count := 2, stride := 0x00080008, dst := 16, aux := 1024 }
    (f64Cells 0 [0x8000000000000000, 0])

theorem witness_AqCollapsesConstantInput :
    (checksPass .aq constantBytes = true ∧ constantBytes.depth ≤ 7 ∧
      (∀ m < constantBytes.elements, fFinite (aqInput constantBytes m) = true) ∧
      (∀ m < constantBytes.elements, fEq (aqInput constantBytes m) (aqInput constantBytes 0) = true) ∧
      (∀ k < constantBytes.sampleSize, Region.contains ⟨constantBytes.aux, 8, 8 * constantBytes.levels⟩
        (constantBytes.dst + 0 * constantBytes.dstStride + k) = false)) ∧
    (checksPass .aq bothZeros = true ∧ bothZeros.depth ≤ 7 ∧
      (∀ m < bothZeros.elements, fFinite (aqInput bothZeros m) = true) ∧
      (∀ m < bothZeros.elements, fEq (aqInput bothZeros m) (aqInput bothZeros 0) = true)) := by decide +kernel

/-- Two distinct samples, with no refinement pass. -/
def unrefined : State := busyWith { twoLevels.opr with aqMaxIter := 0 } twoLevels.lmem

theorem ok_of_isOk {α ε : Type} (x : Except ε α) (h : x.isOk = true) : ∃ r, x = .ok r := by
  cases x with
  | ok r => exact ⟨r, rfl⟩
  | error e => cases h

theorem unrefined_checks : checksPass .aq unrefined = true := by decide +kernel
theorem unrefined_depth : unrefined.depth ≤ 7 := by decide +kernel
theorem unrefined_finite : ∀ m < unrefined.elements, fFinite (aqInput unrefined m) = true := by decide +kernel
theorem unrefined_clear : AqOutputClear unrefined 0 := by unfold AqOutputClear; decide +kernel
theorem unrefined_quantizes : (aqQuantize (2 ^ unrefined.depth) unrefined.opr.aqMaxIter.toNat
    ((List.range unrefined.elements).map (aqInput unrefined))).isOk = true := by decide +kernel

theorem witness_AqWritesTheQuantizersResult :
    checksPass .aq unrefined = true ∧ unrefined.depth ≤ 7 ∧
      (∀ m < unrefined.elements, fFinite (aqInput unrefined m) = true) ∧ AqOutputClear unrefined 0 ∧
      ∃ r, aqQuantize (2 ^ unrefined.depth) unrefined.opr.aqMaxIter.toNat
        ((List.range unrefined.elements).map (aqInput unrefined)) = .ok r :=
  ⟨unrefined_checks, unrefined_depth, unrefined_finite, unrefined_clear, ok_of_isOk _ unrefined_quantizes⟩

/-- The samples of that state: least 0, greatest 100, each the first of its equals. -/
theorem witness_AqWritesTheQuantizersResult_steps :
    ([0, 0, 0, fOfNat 100, fOfNat 100, fOfNat 100].all fun x => fFinite x && fLe 0 x && fLe x (fOfNat 100)) = true ∧
      [0, 0, 0, fOfNat 100, fOfNat 100, fOfNat 100].find? (fEq 0) = some 0 ∧
      [0, 0, 0, fOfNat 100, fOfNat 100, fOfNat 100].find? (fEq (fOfNat 100)) = some (fOfNat 100) ∧
      fLt 0 (fOfNat 100) = true ∧
      ((List.range unrefined.elements).map (aqInput unrefined) : List F64) =
        [0, 0, 0, fOfNat 100, fOfNat 100, fOfNat 100] := by decide +kernel

/-- A byte between two samples: DS = 16 leaves bytes 8 to 15 after each. -/
theorem witness_AqBytesKept_gap :
    checksPass .aq eightBitsF64 = true ∧
      (∀ m < eightBitsF64.elements, 72 < eightBitsF64.dst + m * eightBitsF64.dstStride ∨
        eightBitsF64.dst + m * eightBitsF64.dstStride + eightBitsF64.sampleSize ≤ 72) := by decide +kernel

theorem witness_AqOutputsAreAscendingCenters :
    exec .aq constantBytes = .next (ran .aq constantBytes) ∧ (ran .aq constantBytes).status.errCode = 0 ∧
      constantBytes.depth ≤ 7 := ⟨exec_eq_ran _ _, by decide +kernel, by decide⟩

theorem flat_within : ∀ v ∈ flat (fOfNat 100), Within (2 ^ (1100 + 1)) v := by
  intro v hv
  rw [List.eq_of_mem_replicate hv]
  exact ⟨by decide +kernel, Nat.le_of_ble_eq_true (by decide +kernel)⟩

theorem flatBlock_block : blockAt flatBlock flatBlock.src = flat (fOfNat 100) := by decide +kernel

theorem witness_DctCommandsWriteTheTransform :
    (∀ k < 64, fFinite (flatBlock.ldF64 (flatBlock.src + 8 * k)) = true) ∧ checksPass .fdct flatBlock = true ∧
      checksPass .idct flatBlock = true ∧ (∃ d, fdct (blockAt flatBlock flatBlock.src) = .ok d) ∧
      ∃ d, idct (blockAt flatBlock flatBlock.src) = .ok d := by
  refine ⟨by decide +kernel, by decide, by decide, ?_, ?_⟩ <;> rw [flatBlock_block]
  · obtain ⟨d, hd, _⟩ := fdct_bound 1100 _ (by decide) (by decide) flat_within; exact ⟨d, hd⟩
  · obtain ⟨d, hd, _⟩ := idct_bound 1100 _ (by decide) (by decide) flat_within; exact ⟨d, hd⟩

/-- R262: 32767.4 and −32768.4 are the last that fit at N = 0, 32767.5 and −32768.5 the first that do not. -/
def edgeBlock : State :=
  busyWith { noOperands with dst := 512 }
    (f64Cells 0 (fLit 327674 10 :: fNeg (fLit 327684 10) :: List.replicate 62 0))

/-- One element just too large, one just too small. -/
def overEdgeBlock : State :=
  busyWith { noOperands with dst := 512 }
    (f64Cells 0 (fLit 65535 2 :: fNeg (fLit 65537 2) :: List.replicate 62 0))

theorem witness_QuantWritesRoundedQuotients :
    (checksPass .quant edgeBlock = true ∧ (∀ k < 64, fFinite (edgeBlock.ldF64 (edgeBlock.src + 8 * k)) = true) ∧
      ∀ k < 64, -32768 ≤ roundHalfAway (edgeBlock.ldF64 (edgeBlock.src + 8 * k)) edgeBlock.level ∧
        roundHalfAway (edgeBlock.ldF64 (edgeBlock.src + 8 * k)) edgeBlock.level ≤ 32767) ∧
    (checksPass .quant overEdgeBlock = true ∧
      (∀ k < 64, fFinite (overEdgeBlock.ldF64 (overEdgeBlock.src + 8 * k)) = true) ∧
      32767 < roundHalfAway (overEdgeBlock.ldF64 (overEdgeBlock.src + 8 * 0)) overEdgeBlock.level ∧
      roundHalfAway (overEdgeBlock.ldF64 (overEdgeBlock.src + 8 * 1)) overEdgeBlock.level < -32768) := by decide +kernel

theorem witness_DequantWritesScaledCoefficients : checksPass .dequant coefBlock = true := by decide

theorem witness_BlkExtractWritesShiftedBlock : checksPass .blkExtract smallPlane = true := by decide

/-- Column 9 of the image is in the block, column 10 is outside the image. -/
theorem witness_BlkInsertWritesOnlyImagePositions :
    checksPass .blkInsert insertPlane = true ∧
      (∀ k < 64, fFinite (insertPlane.ldF64 (insertPlane.src + 8 * k)) = true) ∧
      8 * insertPlane.blkX + 1 < insertPlane.imgW ∧ 8 * insertPlane.blkY + 2 < insertPlane.imgH ∧
      ¬ 8 * insertPlane.blkX + 2 < insertPlane.imgW := by decide +kernel

theorem witness_EncodeWritesEveryCoefficient :
    checksPass .encode greyPixel = true ∧
      (∀ c < 3, ∀ c', c < c' → c' < 3 → Region.meets ⟨greyPixel.coefBase c, 2, greyPixel.coefSetSize⟩
        ⟨greyPixel.coefBase c', 2, greyPixel.coefSetSize⟩ = false) ∧
      0 < ceil8 greyPixel.imgW * ceil8 greyPixel.imgH ∧ checksPass .encode State.reset = true := by
  refine ⟨by decide, ?_, by decide, by decide⟩
  intro c hc c' h h'
  interval_cases c <;> interval_cases c' <;> decide

theorem witness_PdInitLatchesTheContext :
    checksPass .pdInit greyContext = true ∧
      (Mode.successive, greyContext.opr.pdcfgMode) ∈
        ([(.baseline, 0), (.spectral, 1), (.successive, 2)] : List (Mode × BitVec 2)) ∧
      checksPass .pdInit State.reset = true ∧
      (Mode.baseline, State.reset.opr.pdcfgMode) ∈
        ([(.baseline, 0), (.spectral, 1), (.successive, 2)] : List (Mode × BitVec 2)) ∧
      checksPass .pdInit { State.reset with opr := { noOperands with pdcfgMode := 1 } } = true := by decide

/-- The sequence at its end. -/
def spentDecoder : State := { greyDecoder with pd := { greyDecoder.pd with step := 16 } }

theorem witness_ExhaustedPdStepIsANoOp : spentDecoder.pd.valid = true ∧ spentDecoder.pd.step = spentDecoder.pd.total := by
  decide

/-- A 16×8 image in BASELINE, at its first and at its last step: block 1 is rendered by the last alone. -/
def twoBlocks (k : Word) : State :=
  busyWith { noOperands with dst := 1024 } [] |> fun s => { s with
    pd := { valid := true, mode := .baseline, step := k, total := 2, w := 16, h := 8, n := 15, coef0 := 0, coef1 := 256
            coef2 := 512 } }

theorem witness_PdStepRendersTheFrame :
    (checksPass .pdStep greyDecoder = true ∧ greyDecoder.pd.valid = true ∧ greyDecoder.pd.step ≠ greyDecoder.pd.total ∧
      greyDecoder.pd.mode ≠ .baseline) ∧
    (checksPass .pdStep (twoBlocks 0) = true ∧ (twoBlocks 0).pd.valid = true ∧ (twoBlocks 0).pd.step ≠ (twoBlocks 0).pd.total ∧
      0 / 8 * ceil8 16 + 7 / 8 = (twoBlocks 0).pd.step.toNat ∧ 0 / 8 * ceil8 16 + 8 / 8 ≠ (twoBlocks 0).pd.step.toNat) ∧
    (checksPass .pdStep (twoBlocks 1) = true ∧ (twoBlocks 1).pd.step ≠ (twoBlocks 1).pd.total) := by decide

theorem witness_PdResetRewinds : laterDecoder.pd.valid = true ∧ State.reset.pd.valid = false := by decide

theorem witness_Dot8SumsInOrder : dot8 [0, 0, 0, 0, 0, 0, 0, 0x3FD6A09E667F3BCD] [0, 0, 0, 0, 0, 0, 0, 0x8000000000000000] =
    .ok 0 := by decide +kernel

theorem witness_TransformsAreTwoPasses :
    (∃ d, fdct (flat (fOfNat 100)) = .ok d) ∧ ∃ d, idct (flat (fOfNat 100)) = .ok d := by
  obtain ⟨d, hd, _⟩ := fdct_bound 1100 _ (by decide) (by decide) flat_within
  obtain ⟨e, he, _⟩ := idct_bound 1100 _ (by decide) (by decide) flat_within
  exact ⟨⟨d, hd⟩, ⟨e, he⟩⟩

/-- The greatest finite value in every place: the first partial sums overflow. -/
theorem witness_TransformsAreTwoPasses_raise :
    fdct (flat 0x7FEFFFFFFFFFFFFF) = .error .nonFinite ∧ idct (flat 0x7FEFFFFFFFFFFFFF) = .error .nonFinite := by decide +kernel

/-- 12.5 at N = 1, and 40000 at N = 0. -/
theorem witness_QuantizeRoundsHalfAway :
    fFinite (fLit 25 2) = true ∧
      (6 : Int) = (fValue (fLit 25 2)).sign * ((2 * |fValue (fLit 25 2)| + 2 ^ (1074 + 1)) / (2 * 2 ^ (1074 + 1))) ∧
      fFinite (fOfNat 40000) = true ∧
      (40000 : Int) = (fValue (fOfNat 40000)).sign * ((2 * |fValue (fOfNat 40000)| + 2 ^ (1074 + 0)) / (2 * 2 ^ (1074 + 0))) := by
  decide +kernel

theorem witness_DequantizeIsExact : (-32768 : Int) ≤ -32768 ∧ (-32768 : Int) ≤ 32767 ∧ (15 : Nat) ≤ 15 := by decide

theorem witness_BitmaskKeepsTopBits :
    ((-32768 : Int) ≤ -32768 ∧ (-32768 : Int) ≤ 32767 ∧ (0 : Nat) ≤ 15) ∧ ((-32768 : Int) ≤ 32767 ∧ (15 : Nat) ≤ 15) ∧
      (List.replicate 64 (-32768 : Int)).length = 64 ∧
      ∀ c ∈ List.replicate 64 (-32768 : Int), -32768 ≤ c ∧ c ≤ 32767 := by decide

/-- R314, R315 and R312's mask at the bounds of what a step keeps. -/
theorem test_keep_at_its_bounds : keepCoef .spectral 5 5 7 = 7 ∧ keepCoef .spectral 5 6 7 = 0 ∧ keepCoef .successive 0 63 7 = 4 ∧
    keepCoef .successive 1 63 (-7) = -6 ∧ keepCoef .baseline 0 63 7 = 7 := by decide +kernel

/-- Three bins, the targets 1.5 and 4.5 of six samples; and one bin that meets both targets but seeds one center. -/
theorem witness_SeedsFollowTheCumulativeTargets :
    seedCenters 2 (fOfNat 3) 0 0 [(3, fOfNat 1), (0, fOfNat 2), (3, fOfNat 3)] = .ok [fOfNat 1, fOfNat 3] ∧
      seedCenters 2 (fOfNat 3) 0 0 [(6, fOfNat 1)] = .ok [fOfNat 1] ∧
      seedCenters 2 (fOfNat 3) 0 0 [(1, fOfNat 1)] = .ok [] := by decide +kernel

/-- Six samples in one bin and two levels: one seed, and the fallback 0 ⊕ (1.5 ⊗ (100 ⊘ 2)). Bins at the ends of the range,
below it and above it. -/
theorem witness_SeedsFollowTheCumulativeTargets_rest :
    initialCenters 2 6 0 (fOfNat 100) [(6, fOfNat 1)] = .ok [fOfNat 1, fOfNat 75] ∧
      aqBin 0 (fOfNat 1) (fOfNat 256) = .ok 255 ∧ aqBin 0 (fOfNat 1) (fNeg (fOfNat 3)) = .ok 0 ∧
      aqBin 0 (fOfNat 1) (fLit 5 2) = .ok 2 ∧ binMidpoint 0 (fOfNat 2) 3 = .ok (fOfNat 7) ∧
      (∀ b ∈ [0, 255, 3, 3], b < 256) := by decide +kernel

/-- A target, a step and a bin that overflow or have no value. -/
theorem witness_SeedsFollowTheCumulativeTargets_raise :
    seedCenters 2 0x7FF0000000000000 0 0 [(6, fOfNat 1)] = .error .nonFinite ∧
      initialCenters 2 6 0 0x7FF0000000000000 [(6, fOfNat 1)] = .error .nonFinite ∧ aqBin 0 0 (fOfNat 1) = .error .nonFinite ∧
      binMidpoint 0 0x7FEFFFFFFFFFFFFF 3 = .error .nonFinite := by decide +kernel

/-- Equally near: the lower index. -/
theorem witness_NearestCenterIsTheFirstNearest :
    [(0 : F64), fOfNat 100] ≠ [] ∧ nearestCenter [0, fOfNat 100] (fOfNat 50) = .ok 0 ∧
      nearestCenter [0, fOfNat 100] (fOfNat 51) = .ok 1 := by decide +kernel

/-- Three bins, two centers; the empty bin takes no part. And a center with no bin keeps its value. -/
theorem witness_NearestCenterIsTheFirstNearest_pass :
    refinePass [(3, fOfNat 1), (0, fOfNat 2), (1, fOfNat 5)] [0, fOfNat 9] = .ok ([fOfNat 1, fOfNat 5], fOfNat 4) ∧
      refinePass [(3, fOfNat 1)] [fOfNat 1, fOfNat 9] = .ok ([fOfNat 1, fOfNat 9], 0) := by decide +kernel

/-- A distance that overflows. -/
theorem witness_NearestCenterIsTheFirstNearest_raise :
    nearestCenter [0x7FEFFFFFFFFFFFFF] 0xFFEFFFFFFFFFFFFF = .error .nonFinite ∧
      refinePass [(1, 0xFFEFFFFFFFFFFFFF)] [0x7FEFFFFFFFFFFFFF] = .error .nonFinite ∧
      refine [(1, 0xFFEFFFFFFFFFFFFF)] 3 [0x7FEFFFFFFFFFFFFF] 0 = .error .nonFinite := by decide +kernel

/-- The loop that stops by its movement, the loop that runs to its cap, and the loop that never runs. -/
theorem witness_CenterSortIsStableAscending_loop :
    refine [(3, fOfNat 1), (1, fOfNat 5)] 9 [0, fOfNat 9] 0 = .ok ([fOfNat 1, fOfNat 5], 2) ∧
      refine [(3, fOfNat 1), (1, fOfNat 5)] 1 [0, fOfNat 9] 0 = .ok ([fOfNat 1, fOfNat 5], 1) ∧
      refine [(3, fOfNat 1)] 0 [fOfNat 9, 0] 0 = .ok ([fOfNat 9, 0], 0) := by decide +kernel

theorem witness_CenterSortIsStableAscending :
    ∀ x ∈ [fOfNat 2, (0 : F64), 0x8000000000000000, fOfNat 1], fFinite x = true :=
  List.all_eq_true.mp (by decide +kernel : ([fOfNat 2, 0, 0x8000000000000000, fOfNat 1].all fun x => fFinite x) = true)

theorem witness_SampleGoesToFirstCenterNotExceeded :
    [(0 : F64), fOfNat 100] ≠ [] ∧ boundaries [0, fOfNat 100] = .ok [fOfNat 50] ∧
      boundaries [(0 : F64)] = .ok [] := by decide +kernel

/-- A sum of neighbours that overflows, and a range that does. -/
theorem witness_SampleGoesToFirstCenterNotExceeded_raise :
    boundaries [0x7FEFFFFFFFFFFFFF, 0x7FEFFFFFFFFFFFFF] = .error .nonFinite ∧
      aqQuantize 2 0 [0xFFEFFFFFFFFFFFFF, 0x7FEFFFFFFFFFFFFF] = .error .nonFinite := by decide +kernel

theorem witness_ComparisonsAreExact : fFinite 0 = true ∧ fFinite 0x8000000000000000 = true ∧ fFinite 0x7FEFFFFFFFFFFFFF = true := by
  decide

/-- Integers and literals at the bounds of what the clauses take, and the sign bit alone. -/
theorem witness_ComparisonsAreExact_rest :
    ((2 : Nat) ^ 53 - 1 < 2 ^ 53 ∧ |(-(2 : Int) ^ 53 + 1)| < 2 ^ 53) ∧ ((1 : Nat) < 2 ^ 53 ∧ (0 : Nat) < 10 ∧ (10 : Nat) < 2 ^ 53) ∧
      fFinite 0x3FB9999999999999 = true ∧ fOfInt (-3) = 0xC008000000000000 ∧ fAbs 0xC008000000000000 = 0x4008000000000000 ∧
      fNeg 0 = 0x8000000000000000 := by decide +kernel

/-- 1 and 2^−53, whose sum lies halfway between 1 and 1 + 2^−52; and 2^53 and 1, halfway to 2^53 + 2. -/
theorem witness_AdditionIsCorrectlyRounded :
    fFinite 0x3FF0000000000000 = true ∧ fFinite 0x3CA0000000000000 = true ∧ fFinite 0x3FF0000000000001 = true ∧
      fFinite (fAdd 0x3FF0000000000000 0x3CA0000000000000) = true ∧
      fFinite (fSub 0x3FF0000000000000 0x3CA0000000000000) = true ∧
      |fValue (fAdd 0x3FF0000000000000 0x3CA0000000000000) - (fValue 0x3FF0000000000000 + fValue 0x3CA0000000000000)| =
        |fValue 0x3FF0000000000001 - (fValue 0x3FF0000000000000 + fValue 0x3CA0000000000000)| ∧
      fValue 0x3FF0000000000001 ≠ fValue (fAdd 0x3FF0000000000000 0x3CA0000000000000) := by decide +kernel

/-- 1 + 2^−52 times 3/2, halfway between two values. -/
theorem witness_MultiplicationIsCorrectlyRounded :
    fFinite 0x3FF0000000000001 = true ∧ fFinite 0x3FF8000000000000 = true ∧
      fFinite (fMul 0x3FF0000000000001 0x3FF8000000000000) = true ∧
      (|fValue (fMul 0x3FF0000000000001 0x3FF8000000000000) * 2 ^ 1074 - fValue 0x3FF0000000000001 * fValue 0x3FF8000000000000| =
        |fValue 0x3FF8000000000001 * 2 ^ 1074 - fValue 0x3FF0000000000001 * fValue 0x3FF8000000000000|) ∧
      fFinite 0x3FF8000000000001 = true ∧
      fValue 0x3FF8000000000001 ≠ fValue (fMul 0x3FF0000000000001 0x3FF8000000000000) := by decide +kernel

/-- The least subnormal halved: halfway between 0 and itself. -/
theorem witness_DivisionIsCorrectlyRounded :
    fFinite 0x0000000000000001 = true ∧ fFinite 0x4000000000000000 = true ∧ fValue 0x4000000000000000 ≠ 0 ∧
      fFinite (fDiv 0x0000000000000001 0x4000000000000000) = true ∧
      (|fValue (fDiv 0x0000000000000001 0x4000000000000000) * fValue 0x4000000000000000 -
          fValue 0x0000000000000001 * 2 ^ 1074| =
        |fValue 0x0000000000000001 * fValue 0x4000000000000000 - fValue 0x0000000000000001 * 2 ^ 1074|) ∧
      fValue 0x0000000000000001 ≠ fValue (fDiv 0x0000000000000001 0x4000000000000000) := by decide +kernel

/-- An overflow, an exact zero of each sign, and a quotient by each zero. -/
theorem witness_rounding_edges :
    (fFinite 0x7FEFFFFFFFFFFFFF = true ∧ fFinite (fAdd 0x7FEFFFFFFFFFFFFF 0x7C90000000000000) = false ∧
      fFinite (fAdd 0x7FEFFFFFFFFFFFFF 0x7C8FFFFFFFFFFFFF) = true) ∧
    (fValue 0x8000000000000000 + fValue 0x8000000000000000 = 0 ∧
      fAdd 0x8000000000000000 0x8000000000000000 = 0x8000000000000000 ∧ fSub 0x8000000000000000 0 = 0x8000000000000000 ∧
      fAdd 0x3FF0000000000000 0xBFF0000000000000 = 0) ∧
    (fFinite (fMul 0x7FEFFFFFFFFFFFFF 0x4000000000000000) = false ∧ fMul 0x8000000000000000 0x3FF0000000000000 =
      0x8000000000000000) ∧
    (fFinite (fDiv 0x7FEFFFFFFFFFFFFF 0x3FE0000000000000) = false ∧ fValue 0x8000000000000000 = 0 ∧
      fDiv 0x3FF0000000000000 0x8000000000000000 = 0xFFF0000000000000 ∧ fIsNaN (fDiv 0 0x8000000000000000) = true) := by
  decide +kernel

theorem witness_TruncFloorClamp :
    fFinite (fNeg (fLit 5 2)) = true ∧ fLt (fNeg (fLit 5 2)) 0 = true ∧
      (fLt (fOfNat 300) 0 = false ∧ fLt (fOfNat 255) (fOfNat 300) = true) ∧
      (fLt 0x8000000000000000 0 = false ∧ fLt (fOfNat 255) 0x8000000000000000 = false) := by decide +kernel

theorem witness_ToByteClampsAndRounds : fFinite 0xFFEFFFFFFFFFFFFF = true ∧ fFinite 0x7FEFFFFFFFFFFFFF = true := by decide

theorem witness_CsrAccessSteps :
    (toCome [.csrRead 0xFC 4]).agenda = .csrRead 0xFC 4 :: [] ∧ (0xFC : Nat) % 4 = 0 ∧ (0xFC : Nat) < 256 ∧
      (toCome [.csrWrite 0x00 4 1]).agenda = .csrWrite 0x00 4 1 :: [] ∧
      (toCome [.csrRead 0x08 2]).agenda = .csrRead 0x08 2 :: [] ∧ (2 : Nat) ≠ 4 ∧
      (toCome [.csrWrite 0x0A 4 1]).agenda = .csrWrite 0x0A 4 1 :: [] ∧ (0x0A : Nat) % 4 ≠ 0 := by decide

/-- The fields of `DIM`, `BLK` and `STRIDE` apart: R124's operands of one register value each. -/
theorem witness_CsrMapReads : greyDecoder.pd.valid = true ∧ State.reset.pd.valid = false ∧
    csrValue greyDecoder 0x4C = 2 ∧ smallPlane.imgW = 10 ∧ smallPlane.imgH = 3 ∧ smallPlane.blkX = 1 ∧ smallPlane.blkY = 0 ∧
    insertPlane.srcStride = 0 ∧ insertPlane.dstStride = 1 := by decide

theorem witness_StatusBits : csrValue greyDecoder 0x08 = 0x19 := by decide

theorem witness_ControlRegisterWrites : (inFlight 0).status.busy = true ∧ State.reset.status.busy = false := by decide

theorem witness_OperandWritesReadBack :
    (0x10 ∈ [0x10, 0x14, 0x18, 0x1C, 0x20, 0x24, 0x28, 0x2C, 0x30, 0x34, 0x38, 0x3C, 0x40] ∧ State.reset.status.busy = false) ∧
      (inFlight 0).status.busy = true ∧ 0x54 ∈ [0x00, 0x44, 0x48, 0x4C, 0x50, 0x54] ∧ 0x58 ≤ 0xFC := by decide

/-- The last byte of LMEM is inside, the one after it outside. -/
theorem witness_HostLmemAccessSteps :
    State.reset.status.busy = false ∧
      (toCome [.lmemRead 65535 1]).agenda = .lmemRead 65535 1 :: [] ∧ 65535 + 1 ≤ State.reset.lmemBytes ∧
      (toCome [.lmemWrite 65535 [7]]).agenda = .lmemWrite 65535 [7] :: [] ∧ 65535 + [(7 : Byte)].length ≤ State.reset.lmemBytes ∧
      State.reset.lmemBytes < 65536 + 1 ∧ [(7 : Byte)] ≠ [] ∧ State.reset.lmemBytes < 65535 + [(7 : Byte), 7].length := by
  decide +kernel

/-- R83: the byte at the lowest address is the least significant; an `i16` is two's complement, on both sides of its sign. -/
theorem test_elements_are_little_endian :
    (busyWith noOperands [(2, 0x01), (3, 0x80)]).ldI16 2 = -32767 ∧ (busyWith noOperands [(2, 0x01), (3, 0x7F)]).ldI16 2 = 32513 ∧
      (busyWith noOperands (cellsAt 8 [1, 2, 3, 4, 5, 6, 7, 8])).ldF64 8 = 0x0807060504030201 := by decide +kernel

theorem witness_LmemAccessIsHeldWhileBusy :
    ((inFlight 0).setAgenda [.lmemWrite 0 [1]]).status.busy = true ∧
      ((inFlight 0).setAgenda [.lmemWrite 0 [1]]).agenda = .lmemWrite 0 [1] :: [] ∧
      (Event.lmemWrite 0 [1]).heldWhileBusy = true := by decide

theorem witness_WarmResetKeepsLmem :
    (toCome [.powerCycle]).agenda = .powerCycle :: [] ∧ (toCome [.reset]).agenda = .reset :: [] ∧ (toCome [.reset]).status.busy = false ∧
      ((inFlight 0x10).setAgenda [.reset]).status.busy = true ∧
      decode ((inFlight 0x10).setAgenda [.reset]).pending = .ok .fdct ∧
      ∀ i, decode ((inFlight 0x100).setAgenda [.reset]).pending ≠ .ok i :=
  ⟨rfl, rfl, rfl, rfl, by decide, illegal_decodes_to_nothing⟩

/-- The grey decoder meets every invariant, with a step to come. -/
theorem witness_EveryStepKeepsTheInvariants : greyDecoder.Inv ∧ step greyDecoder = .next (stepped greyDecoder) := by
  refine ⟨?_, rfl⟩
  unfold State.Inv State.LmemInv State.DecoderInv State.StatusInv
  decide +kernel

theorem witness_flag_busy_rises : step (toCome [.csrWrite 0x0C 4 0]) = .next (stepped (toCome [.csrWrite 0x0C 4 0])) ∧
    (toCome [.csrWrite 0x0C 4 0]).status.busy = false ∧ (stepped (toCome [.csrWrite 0x0C 4 0])).status.busy = true :=
  ⟨rfl, rfl, rfl⟩

theorem witness_flag_done_rises : step (inFlight 0) = .next (stepped (inFlight 0)) ∧ (inFlight 0).status.done = false ∧
    (stepped (inFlight 0)).status.done = true := ⟨rfl, rfl, rfl⟩

theorem witness_flag_busy_falls : (inFlight 0x22).status.busy = true ∧ (stepped (inFlight 0x22)).status.busy = false ∧
    (inFlight 0x22).status.errCode ≠ (stepped (inFlight 0x22)).status.errCode ∧
    (stepped ((inFlight 0x22).setAgenda [.reset])).status.busy = false := ⟨rfl, rfl, by decide, rfl⟩

theorem witness_flag_err_rises : step (inFlight 0x22) = .next (stepped (inFlight 0x22)) ∧ (inFlight 0x22).status.err = false ∧
    (stepped (inFlight 0x22)).status.err = true := ⟨rfl, rfl, rfl⟩

theorem witness_flag_ovr_rises : step ((inFlight 0).setAgenda [.csrWrite 0x10 4 1]) =
      .next (stepped ((inFlight 0).setAgenda [.csrWrite 0x10 4 1])) ∧
    ((inFlight 0).setAgenda [.csrWrite 0x10 4 1]).status.ovr = false ∧
    (stepped ((inFlight 0).setAgenda [.csrWrite 0x10 4 1])).status.ovr = true := ⟨rfl, rfl, rfl⟩

/-- `PD_INIT` in flight. -/
def initInFlight : State := { greyContext with pending := 0x20 }

theorem witness_flag_pdv_and_more_rise : step initInFlight = .next (stepped initInFlight) ∧
    initInFlight.pd.valid = false ∧ (stepped initInFlight).pd.valid = true ∧
    initInFlight.status.more ≠ (stepped initInFlight).status.more := ⟨rfl, by decide +kernel⟩

/-- Every clearable flag set, a context held, and one event to come. -/
def allSet (e : Event) : State :=
  { greyDecoder with
    status := { busy := false, done := true, err := true, more := true, ovr := true, errCode := 8 }, agenda := [e] }

theorem witness_flags_fall_by_write_one : step (allSet (.csrWrite 0x08 4 0x26)) = .next (stepped (allSet (.csrWrite 0x08 4 0x26))) ∧
    (allSet (.csrWrite 0x08 4 0x26)).status.err = true ∧ (stepped (allSet (.csrWrite 0x08 4 0x26))).status.err = false ∧
    (stepped (allSet (.csrWrite 0x08 4 0x26))).status.ovr = false ∧
    (stepped (allSet (.csrWrite 0x08 4 0x26))).status.done = false := ⟨rfl, by decide⟩

theorem witness_done_falls_at_accept : step (allSet (.csrWrite 0x0C 4 0)) = .next (stepped (allSet (.csrWrite 0x0C 4 0))) ∧
    (allSet (.csrWrite 0x0C 4 0)).status.done = true ∧ (stepped (allSet (.csrWrite 0x0C 4 0))).status.done = false :=
  ⟨rfl, by decide⟩

theorem witness_flags_fall_by_reset : step (allSet .reset) = .next (stepped (allSet .reset)) ∧
    (allSet .reset).pd.valid = true ∧ (stepped (allSet .reset)).pd.valid = false ∧
    (stepped (allSet .reset)).status.err = false ∧ (stepped (allSet .reset)).status.more = false := ⟨rfl, by decide⟩

end Sys2Proof.Tests
end

/-! ## Errors: a computation that can raise `E_NONFINITE` alone (spec/00_scope.md R14) -/

namespace Sys2Proof.Machine

/-- The only error a computation can raise is `E_NONFINITE`. -/
def RaisesOnlyNonFinite {α : Type} (r : Except ErrCode α) : Prop := ∀ e, r = .error e → e = .nonFinite

namespace RaisesOnlyNonFinite

theorem ok {α : Type} (a : α) : RaisesOnlyNonFinite (.ok a) := fun _ h => nomatch h

theorem of_return {α : Type} (a : α) : RaisesOnlyNonFinite (pure a) := fun _ h => nomatch h

theorem chk (x : F64) : RaisesOnlyNonFinite (chk x) := fun e h => ((chk_error_iff x e).1 h).2

theorem bind {α β : Type} {x : Except ErrCode α} {f : α → Except ErrCode β} (hx : RaisesOnlyNonFinite x)
    (hf : ∀ a, RaisesOnlyNonFinite (f a)) : RaisesOnlyNonFinite (x >>= f) := by
  intro e h
  rcases (bind_error_iff x f e).1 h with h | ⟨a, _, h⟩
  · exact hx e h
  · exact hf a e h

theorem ite {α : Type} {p : Prop} [Decidable p] {x y : Except ErrCode α} (hx : RaisesOnlyNonFinite x)
    (hy : RaisesOnlyNonFinite y) : RaisesOnlyNonFinite (if p then x else y) := by
  split
  · exact hx
  · exact hy

theorem mapE {α β : Type} {f : α → Except ErrCode β} (hf : ∀ a, RaisesOnlyNonFinite (f a)) (as : List α) :
    RaisesOnlyNonFinite (mapE f as) := by
  intro e h
  obtain ⟨a, _, ha⟩ := mapE_error f as e h
  exact hf a e ha

theorem foldE {α σ : Type} {f : σ → α → Except ErrCode σ} (hf : ∀ s a, RaisesOnlyNonFinite (f s a)) (s : σ)
    (as : List α) : RaisesOnlyNonFinite (foldE f s as) := by
  induction as generalizing s with
  | nil => exact ok s
  | cons a as ih => exact bind (hf s a) ih

/-- Of such a computation an error is `E_NONFINITE`, so not to succeed is to raise it. -/
theorem eq_error {α : Type} {x : Except ErrCode α} (hx : RaisesOnlyNonFinite x) (h : ∀ a, x ≠ .ok a) :
    x = .error .nonFinite := by
  cases hr : x with
  | ok a => exact absurd hr (h a)
  | error e => rw [hx e hr]

/-! ### The model's own computations -/

theorem cAdd (x y : F64) : RaisesOnlyNonFinite (cAdd x y) := chk _
theorem cSub (x y : F64) : RaisesOnlyNonFinite (cSub x y) := chk _
theorem cMul (x y : F64) : RaisesOnlyNonFinite (cMul x y) := chk _
theorem cDiv (x y : F64) : RaisesOnlyNonFinite (cDiv x y) := chk _

theorem dot8 (c x : List F64) : RaisesOnlyNonFinite (dot8 c x) :=
  foldE (fun _ _ => bind (cMul _ _) fun _ => cAdd _ _) _ _

theorem fdct (b : List F64) : RaisesOnlyNonFinite (fdct b) :=
  bind (mapE (fun _ => dot8 _ _) _) fun _ => mapE (fun _ => dot8 _ _) _

theorem idct (f : List F64) : RaisesOnlyNonFinite (idct f) :=
  bind (mapE (fun _ => dot8 _ _) _) fun _ => mapE (fun _ => dot8 _ _) _

theorem loadBlock (s : State) (base : Nat) : RaisesOnlyNonFinite (loadBlock s base) := mapE (fun _ => chk _) _

theorem rgbOfYuv (y u v : F64) : RaisesOnlyNonFinite (rgbOfYuv y u v) :=
  bind (cMul _ _) fun _ => bind (cAdd _ _) fun _ => bind (cMul _ _) fun _ => bind (cSub _ _) fun _ =>
    bind (cMul _ _) fun _ => bind (cSub _ _) fun _ => bind (cMul _ _) fun _ => bind (cAdd _ _) fun _ => of_return _

theorem cscInvPixel (s : State) (p : Nat) : RaisesOnlyNonFinite (cscInvPixel s p) :=
  bind (chk _) fun _ => bind (chk _) fun _ => bind (chk _) fun _ => bind (rgbOfYuv _ _ _) fun _ => of_return _

theorem aqSample (s : State) (m : Nat) : RaisesOnlyNonFinite (aqSample s m) := ite (ok _) (chk _)

theorem aqBin (mn w x : F64) : RaisesOnlyNonFinite (aqBin mn w x) :=
  bind (cSub _ _) fun _ => bind (cDiv _ _) fun _ => of_return _

theorem binMidpoint (mn w : F64) (b : Nat) : RaisesOnlyNonFinite (binMidpoint mn w b) :=
  bind (cMul _ _) fun _ => cAdd _ _

theorem seedCenters (levels : Nat) (per : F64) (k cum : Nat) (bins : List (Nat × F64)) :
    RaisesOnlyNonFinite (seedCenters levels per k cum bins) := by
  induction bins generalizing k cum with
  | nil => exact ok _
  | cons bin bins ih =>
    exact ite (bind (cMul _ _) fun _ => ite (bind (ih _ _) fun _ => of_return _) (ih _ _)) (ok _)

theorem fallbackCenter (mn stepL : F64) (j : Nat) : RaisesOnlyNonFinite (fallbackCenter mn stepL j) :=
  bind (cMul _ _) fun _ => cAdd _ _

theorem initialCenters (levels n : Nat) (mn range : F64) (bins : List (Nat × F64)) :
    RaisesOnlyNonFinite (initialCenters levels n mn range bins) :=
  bind (cDiv _ _) fun _ => bind (seedCenters _ _ _ _ _) fun _ => bind (cDiv _ _) fun _ =>
    bind (mapE (fallbackCenter _ _) _) fun _ => of_return _

theorem nearestFrom (mid : F64) (best : Nat) (bd : F64) (j : Nat) (cs : List F64) :
    RaisesOnlyNonFinite (nearestFrom mid best bd j cs) := by
  induction cs generalizing best bd j with
  | nil => exact ok _
  | cons c cs ih => exact bind (cSub _ _) fun _ => ite (ih _ _ _) (ih _ _ _)

theorem nearestCenter (cs : List F64) (mid : F64) : RaisesOnlyNonFinite (nearestCenter cs mid) := by
  cases cs with
  | nil => exact ok _
  | cons c rest => exact bind (cSub _ _) fun _ => nearestFrom _ _ _ _ _

theorem addToTally (count : Nat) (mid : F64) (ts : Tally) (b : Nat) :
    RaisesOnlyNonFinite (addToTally count mid ts b) := by
  induction ts generalizing b with
  | nil => exact ok _
  | cons t ts ih =>
    cases b with
    | zero => exact bind (cMul _ _) fun _ => bind (cAdd _ _) fun _ => of_return _
    | succ b => exact bind (ih b) fun _ => of_return _

theorem assignBin (cs : List F64) (tally : Tally) (bin : Nat × F64) :
    RaisesOnlyNonFinite (assignBin cs tally bin) :=
  ite (ok _) (bind (nearestCenter _ _) fun _ => addToTally _ _ _ _)

theorem updateCenter (p : F64 × (F64 × Nat)) : RaisesOnlyNonFinite (updateCenter p) :=
  have moved (new : F64) : RaisesOnlyNonFinite
      (Machine.cSub new p.1 >>= fun d => Pure.pure (new, fAbs d)) := bind (cSub _ _) fun _ => of_return _
  ite (bind (ok _) moved) (bind (cDiv _ _) moved)

theorem refinePass (bins : List (Nat × F64)) (cs : List F64) : RaisesOnlyNonFinite (refinePass bins cs) :=
  bind (foldE (assignBin _) _ _) fun _ => bind (mapE updateCenter _) fun _ => of_return _

theorem refine (bins : List (Nat × F64)) (fuel : Nat) (cs : List F64) (iters : Nat) :
    RaisesOnlyNonFinite (refine bins fuel cs iters) := by
  induction fuel generalizing cs iters with
  | zero => exact ok _
  | succ fuel ih => exact bind (refinePass _ _) fun _ => ite (of_return _) (ih _ _)

theorem boundaries (cs : List F64) : RaisesOnlyNonFinite (boundaries cs) := by
  induction cs with
  | nil => exact ok _
  | cons a cs ih =>
    cases cs with
    | nil => exact ok _
    | cons b cs => exact bind (cAdd _ _) fun _ => bind (cDiv _ _) fun _ => bind ih fun _ => of_return _

theorem aqGeneral (levels maxIter : Nat) (mn mx : F64) (xs : List F64) :
    RaisesOnlyNonFinite (aqGeneral levels maxIter mn mx xs) :=
  bind (cSub _ _) fun _ => bind (cDiv _ _) fun _ => bind (mapE (aqBin _ _) _) fun _ =>
    bind (mapE (binMidpoint _ _) _) fun _ => bind (initialCenters _ _ _ _ _) fun _ =>
    bind (refine _ _ _ _) fun _ => bind (boundaries _) fun _ => of_return _

theorem aqQuantize (levels maxIter : Nat) (xs : List F64) : RaisesOnlyNonFinite (aqQuantize levels maxIter xs) := by
  cases xs with
  | nil => exact ok _
  | cons x xs => exact ite (ok _) (aqGeneral _ _ _ _ _)

end RaisesOnlyNonFinite

/-! ### Checks that pass -/

/-- The checks of a command as its meaning makes them, before it reads or computes anything (R353). -/
theorem regionChecks_of_memoryChecks {i : Instr} {s : State} (h : (memoryChecks i s).all (fun c => !c.2) = true) :
    regionChecks i s = .ok () := by
  rw [memoryChecks_eq] at h
  rw [regionChecks_ok_iff]
  simpa using h

theorem aqChecks_of_checksPass {s : State} (h : checksPass .aq s = true) : aqChecks s = .ok () := by
  simp only [checksPass, commandChecks, List.all_append, Bool.and_eq_true] at h
  obtain ⟨hown, hmem⟩ := h
  simp only [List.all_cons, List.all_nil, Bool.and_true, Bool.and_eq_true, Bool.not_not, Bool.not_eq_true'] at hown
  obtain ⟨⟨hlow, hhigh⟩, hcount, hzero, hmod⟩ := hown
  rw [decide_eq_true_eq] at hlow hhigh
  have hbits : (s.depth == 0 || decide (8 < s.depth)) = false := by simp; omega
  have hstride : (s.srcStride == 0 || s.dstStride == 0
      || (!s.opr.aqFmt && (s.srcStride % 8 != 0 || s.dstStride % 8 != 0))) = false := by rw [hzero, hmod]; rfl
  simp only [aqChecks, hbits, hcount, hstride, regionChecks_of_memoryChecks hmem]
  rfl

/-- A link that succeeds hands its value on. -/
theorem ok_bind {α β : Type} (a : α) (f : α → Except ErrCode β) : (Except.ok a >>= f) = f a := rfl

/-- A command that comes to `E_NONFINITE` ends as failed with code 12. -/
theorem exec_of_nonFinite {i : Instr} {s : State} (h : resultOf i s = .error .nonFinite) :
    exec i s = .next (failed 12 s) := by rw [exec_eq_finish, h, finish_error]; rfl

/-! ### Inputs -/

/-- A pass over the first n numbers raises `E_NONFINITE` if the computation does not succeed on one of them. -/
theorem mapE_range_nonFinite {β : Type} {f : Nat → Except ErrCode β} {n k : Nat}
    (hf : ∀ a, RaisesOnlyNonFinite (f a)) (hk : k < n) (h : ∀ b, f k ≠ .ok b) :
    mapE f (List.range n) = .error .nonFinite :=
  (RaisesOnlyNonFinite.mapE hf _).eq_error fun _ hbs =>
    let ⟨_, hfk⟩ := mapE_range hbs k hk
    h _ hfk

theorem chk_ne_ok {x : F64} (h : fFinite x = false) (y : F64) : chk x ≠ .ok y := by
  rw [Ne, chk_ok_iff, h]
  exact fun hxy => nomatch hxy.1

theorem loadBlock_nonFinite {s : State} {base k : Nat} (hk : k < 64) (h : fFinite (s.ldF64 (base + 8 * k)) = false) :
    loadBlock s base = .error .nonFinite :=
  mapE_range_nonFinite (fun _ => .chk _) hk (chk_ne_ok h)

/-- A block of finite values is read as it stands. -/
theorem loadBlock_finite {s : State} {base : Nat} (h : ∀ k < 64, fFinite (s.ldF64 (base + 8 * k)) = true) :
    loadBlock s base = .ok (blockAt s base) :=
  (mapE_congr _ (fun k => .ok (s.ldF64 (base + 8 * k))) _ fun k hk =>
    (chk_ok_iff _ _).2 ⟨h k (List.mem_range.1 hk), rfl⟩).trans (mapE_pure _ _)

/-- Finite samples are read as they stand. -/
theorem aqSamples_finite {s : State} (h : ∀ m < s.elements, fFinite (aqInput s m) = true) :
    mapE (aqSample s) (List.range s.elements) = .ok ((List.range s.elements).map (aqInput s)) := by
  refine (mapE_congr _ (fun m => .ok (aqInput s m)) _ fun m hm => ?_).trans (mapE_pure _ _)
  have hfin := h m (List.mem_range.1 hm)
  unfold aqSample aqInput at *
  split
  · rfl
  · rename_i hfmt
    rw [if_neg hfmt] at hfin
    exact (chk_ok_iff _ _).2 ⟨hfin, rfl⟩

/-- A pixel that `CSC_INV` converts has finite inputs and finite results before clamping. -/
theorem cscInvPixel_ok {s : State} {p : Nat} {w : Store} (h : cscInvPixel s p = .ok w) :
    ∀ v ∈ invValues s p, fFinite v = true := by
  simp only [cscInvPixel, rgbOfYuv, cAdd, cSub, cMul, bind_ok_iff, chk_ok_iff] at h
  obtain ⟨y, ⟨hy, rfl⟩, u, ⟨hu, rfl⟩, v, ⟨hv, rfl⟩, rgb,
    ⟨_, ⟨_, rfl⟩, _, ⟨hred, rfl⟩, _, ⟨_, rfl⟩, _, ⟨_, rfl⟩, _, ⟨_, rfl⟩, _, ⟨hgreen, rfl⟩, _, ⟨_, rfl⟩, _,
      ⟨hblue, rfl⟩, _⟩, _⟩ := h
  simp only [invValues, List.forall_mem_cons]
  exact ⟨hy, hu, hv, hred, hgreen, hblue, fun _ hn => nomatch hn⟩

/-! ### The commands -/

/-- A command that reads one block of inputs raises `E_NONFINITE` on a non-finite one. -/
theorem exec_block_nonFinite {i : Instr} {s : State} {k : Nat} (hi : i ∈ [Instr.fdct, .idct, .quant, .blkInsert])
    (hc : checksPass i s = true) (hk : k < 64) (h : fFinite (s.ldF64 (s.src + 8 * k)) = false) :
    exec i s = .next (failed 12 s) := by
  apply exec_of_nonFinite
  have hload := loadBlock_nonFinite hk h
  simp only [List.mem_cons, List.not_mem_nil, or_false] at hi
  rcases hi with rfl | rfl | rfl | rfl
  · simp only [resultOf, runFdct, regionChecks_of_memoryChecks hc, hload]; rfl
  · simp only [resultOf, runIdct, regionChecks_of_memoryChecks hc, hload]; rfl
  · simp only [checksPass, commandChecks, List.all_cons, Bool.and_eq_true, Bool.not_eq_true'] at hc
    obtain ⟨hlevel, hmem⟩ := hc
    simp only [resultOf, runQuant, hlevel, regionChecks_of_memoryChecks hmem, hload]; rfl
  · simp only [checksPass, commandChecks, List.all_append, List.all_cons, List.all_nil, Bool.and_true,
      Bool.and_eq_true, Bool.not_eq_true'] at hc
    obtain ⟨⟨hstride, hblock⟩, hmem⟩ := hc
    have hinside : blockOutside s = false := hblock
    simp only [resultOf, runBlkInsert, hstride, hinside, regionChecks_of_memoryChecks hmem, hload]; rfl

/-- `CSC_INV` raises `E_NONFINITE` on a non-finite input or result before clamping, at any pixel. -/
theorem exec_cscInv_nonFinite {s : State} {p : Nat} {v : F64} (hc : checksPass .cscInv s = true)
    (hp : p < s.elements) (hv : v ∈ invValues s p) (h : fFinite v = false) :
    exec .cscInv s = .next (failed 12 s) := by
  have hpix (w : Store) : cscInvPixel s p ≠ .ok w := fun hw => by simp [cscInvPixel_ok hw v hv] at h
  apply exec_of_nonFinite
  simp only [resultOf, runCscInv, regionChecks_of_memoryChecks hc, mapE_range_nonFinite (.cscInvPixel s) hp hpix]
  rfl

/-- `AQ` raises `E_NONFINITE` on a non-finite sample. -/
theorem exec_aq_nonFinite_sample {s : State} {m : Nat} (hc : checksPass .aq s = true) (hfmt : s.opr.aqFmt = false)
    (hm : m < s.elements) (h : fFinite (s.ldF64 (s.src + m * s.srcStride)) = false) :
    exec .aq s = .next (failed 12 s) := by
  have hsample (x : F64) : aqSample s m ≠ .ok x := by simp [aqSample, hfmt, h]
  apply exec_of_nonFinite
  simp only [resultOf, runAq, aqChecks_of_checksPass hc, mapE_range_nonFinite (.aqSample s) hm hsample]
  rfl

/-- `FDCT` raises `E_NONFINITE` where the transform of its finite inputs raises. -/
theorem exec_fdct_nonFinite {s : State} {e : ErrCode} (hfin : ∀ k < 64, fFinite (s.ldF64 (s.src + 8 * k)) = true)
    (hc : checksPass .fdct s = true) (h : fdct (blockAt s s.src) = .error e) :
    exec .fdct s = .next (failed 12 s) := by
  rw [RaisesOnlyNonFinite.fdct _ e h] at h
  apply exec_of_nonFinite
  simp only [resultOf, runFdct, regionChecks_of_memoryChecks hc, loadBlock_finite hfin, ok_bind, h]
  rfl

/-- `IDCT` raises `E_NONFINITE` where the transform of its finite inputs raises. -/
theorem exec_idct_nonFinite {s : State} {e : ErrCode} (hfin : ∀ k < 64, fFinite (s.ldF64 (s.src + 8 * k)) = true)
    (hc : checksPass .idct s = true) (h : idct (blockAt s s.src) = .error e) :
    exec .idct s = .next (failed 12 s) := by
  rw [RaisesOnlyNonFinite.idct _ e h] at h
  apply exec_of_nonFinite
  simp only [resultOf, runIdct, regionChecks_of_memoryChecks hc, loadBlock_finite hfin, ok_bind, h]
  rfl

/-- `AQ` below 8 bits raises `E_NONFINITE` where the quantizer raises on its finite samples. -/
theorem exec_aq_nonFinite_computed {s : State} {e : ErrCode} (hc : checksPass .aq s = true) (hd : s.depth ≤ 7)
    (hfin : ∀ m < s.elements, fFinite (aqInput s m) = true)
    (h : aqQuantize (2 ^ s.depth) s.opr.aqMaxIter.toNat ((List.range s.elements).map (aqInput s)) = .error e) :
    exec .aq s = .next (failed 12 s) := by
  rw [RaisesOnlyNonFinite.aqQuantize _ _ _ e h] at h
  have hdepth : s.depth ≠ 8 := by omega
  apply exec_of_nonFinite
  simp only [resultOf, runAq, aqChecks_of_checksPass hc, aqSamples_finite hfin, ok_bind, if_neg hdepth]
  exact (bind_error_iff _ _ _).2 (.inl h)

/-- Settles O11: each command's reads and computations raise `E_NONFINITE` alone, and a non-finite value keeps them from
succeeding. -/
theorem nonFiniteInputIsReported : Obligations.NonFiniteInputIsReported :=
  ⟨fun _ _ _ hi hc hk h => exec_block_nonFinite hi hc hk h,
    fun _ _ _ hc hp hv h => exec_cscInv_nonFinite hc hp hv h,
    fun _ _ hc hfmt hm h => exec_aq_nonFinite_sample hc hfmt hm h,
    fun _ _ hfin => ⟨exec_fdct_nonFinite hfin, exec_idct_nonFinite hfin⟩,
    fun _ _ hc hd hfin h => exec_aq_nonFinite_computed hc hd hfin h⟩

end Sys2Proof.Machine

/-! ## The exact value of an encoding and what rounds nothing (spec/00_scope.md R12, R15, R16) -/

namespace Sys2Proof.Machine

/-! ### Order -/

theorem magValue_lt_succ (m : Nat) : magValue m < magValue (m + 1) := by
  rcases Nat.lt_trichotomy (m + 1) (2 ^ 52) with h | h | h
  · rw [magValue, magValue, if_pos (by omega), if_pos h]
    omega
  · rw [magValue, magValue, if_pos (by omega), if_neg (by omega), h]
    norm_num
    omega
  · rw [magValue, magValue, if_neg (by omega), if_neg (by omega)]
    by_cases hcarry : (m + 1) % 2 ^ 52 = 0
    · rw [hcarry, show (m + 1) / 2 ^ 52 - 1 = m / 2 ^ 52 - 1 + 1 by omega, pow_succ' 2 (m / 2 ^ 52 - 1),
        ← Nat.mul_assoc]
      exact Nat.mul_lt_mul_of_pos_right (by omega) (Nat.two_pow_pos _)
    · rw [show (m + 1) / 2 ^ 52 = m / 2 ^ 52 by omega]
      exact Nat.mul_lt_mul_of_pos_right (by omega) (Nat.two_pow_pos _)

/-- Magnitudes order as the low 63 bits do. -/
theorem magValue_strictMono : StrictMono magValue := strictMono_nat_of_lt_succ magValue_lt_succ

theorem magValue_zero : magValue 0 = 0 := by decide

/-- The exact value from the sign and the low 63 bits. -/
theorem fValue_eq_magValue (x : F64) :
    fValue x = if fSign x then -(magValue (fLow x) : Int) else magValue (fLow x) := by
  rw [fValue_eq, fMagnitude_eq]

theorem fSign_iff (x : F64) : fSign x = true ↔ 2 ^ 63 ≤ x.toNat := by
  rw [fSign, Nat.ble_eq]
  norm_num

/-- The place of a value among the others from the sign and the low 63 bits. -/
theorem fOrder_eq (x : F64) : fOrder x = if fSign x then -(fLow x : Int) else fLow x := by
  have hsign := fSign_iff x
  unfold fOrder fLow
  split
  · rfl
  · rename_i hpos
    have := mt hsign.2 hpos
    rw [Int.ofNat_eq_natCast, Nat.mod_eq_of_lt (by omega)]

/-- Two integers, each a magnitude with a sign, order as their images under a strictly rising map that keeps 0. -/
theorem signed_lt_iff {f : Nat → Nat} (hf : StrictMono f) (h0 : f 0 = 0) (p q : Bool) (a b : Nat) :
    ((if p then -(f a : Int) else f a) < if q then -(f b : Int) else f b) ↔
      (if p then -(a : Int) else a) < if q then -(b : Int) else b := by
  have hab := hf.lt_iff_lt (a := a) (b := b)
  have hba := hf.lt_iff_lt (a := b) (b := a)
  have ha := hf.lt_iff_lt (a := 0) (b := a)
  have hb := hf.lt_iff_lt (a := 0) (b := b)
  split_ifs <;> omega

theorem fOrder_lt_iff (x y : F64) : fOrder x < fOrder y ↔ fValue x < fValue y := by
  rw [fOrder_eq, fOrder_eq, fValue_eq_magValue, fValue_eq_magValue]
  exact (signed_lt_iff magValue_strictMono magValue_zero _ _ _ _).symm

theorem fIsNaN_of_finite {x : F64} (h : fFinite x = true) : fIsNaN x = false := by
  simp only [fFinite, bne_iff_ne] at h
  simp [fIsNaN, h]

theorem fLt_iff {x y : F64} (hx : fFinite x = true) (hy : fFinite y = true) :
    fLt x y = true ↔ fValue x < fValue y := by
  simp [fLt, fIsNaN_of_finite hx, fIsNaN_of_finite hy, fOrder_lt_iff]

theorem fLe_iff {x y : F64} (hx : fFinite x = true) (hy : fFinite y = true) :
    fLe x y = true ↔ fValue x ≤ fValue y := by
  have h := fOrder_lt_iff y x
  simp only [fLe, fIsNaN_of_finite hx, fIsNaN_of_finite hy, Bool.not_false, Bool.true_and, decide_eq_true_eq]
  omega

theorem fEq_iff {x y : F64} (hx : fFinite x = true) (hy : fFinite y = true) :
    fEq x y = true ↔ fValue x = fValue y := by
  have hxy := fOrder_lt_iff x y
  have hyx := fOrder_lt_iff y x
  simp only [fEq, fIsNaN_of_finite hx, fIsNaN_of_finite hy, Bool.not_false, Bool.true_and, beq_iff_eq]
  omega

/-! ### Sign bit -/

theorem fAbs_getLsbD (x : F64) (i : Nat) : (fAbs x).getLsbD i = (x.getLsbD i && decide (i ≠ 63)) := by
  have hmask : (0x7FFFFFFFFFFFFFFF : F64) = ~~~BitVec.twoPow 64 63 := by decide
  rw [fAbs, hmask, BitVec.getLsbD_and, BitVec.getLsbD_not, BitVec.getLsbD_twoPow]
  by_cases hi : i < 64
  · by_cases h63 : i = 63 <;> simp [h63, hi]
    omega
  · rw [BitVec.getLsbD_of_ge x i (by omega), Bool.false_and, Bool.false_and]

theorem fNeg_getLsbD (x : F64) (i : Nat) : (fNeg x).getLsbD i = (x.getLsbD i ^^ decide (i = 63)) := by
  have hmask : (0x8000000000000000 : F64) = BitVec.twoPow 64 63 := by decide
  rw [fNeg, hmask, BitVec.getLsbD_xor, BitVec.getLsbD_twoPow]
  simp [eq_comm]

/-! ### Integer parts -/

/-- The integer part of a magnitude. -/
theorem truncMag_eq (x : F64) : truncMag x = fMagnitude x / 2 ^ 1074 := by
  unfold truncMag fMagnitude
  generalize 1074 = c
  rw [Nat.shiftLeft_eq _ (fPow x)]
  split
  · rename_i h
    rw [Nat.shiftLeft_eq, ← Nat.pow_div h (by omega), Nat.mul_div_assoc _ (Nat.pow_dvd_pow 2 h)]
  · rename_i h
    rw [Nat.shiftRight_eq_div_pow, ← Nat.mul_div_mul_right _ _ (Nat.two_pow_pos (fPow x)), ← Nat.pow_add,
      Nat.sub_add_cancel (by omega)]

theorem fIsInt_iff (x : F64) : fIsInt x = true ↔ fMagnitude x % 2 ^ 1074 = 0 := by
  unfold fIsInt fMagnitude
  generalize 1074 = c
  rw [Bool.or_eq_true, decide_eq_true_eq, beq_iff_eq, Nat.shiftLeft_eq, Nat.shiftLeft_eq, Nat.shiftRight_eq_div_pow,
    ← Nat.dvd_iff_mod_eq_zero]
  by_cases h : c ≤ fPow x
  · simp only [h, true_or, true_iff]
    exact Dvd.dvd.mul_left (Nat.pow_dvd_pow 2 h) _
  · have hpow : 2 ^ c = 2 ^ (c - fPow x) * 2 ^ fPow x := by rw [← Nat.pow_add, Nat.sub_add_cancel (by omega)]
    simp only [h, false_or]
    rw [hpow, Nat.mul_dvd_mul_iff_right (Nat.two_pow_pos _)]
    exact ⟨fun hd => ⟨_, by rw [Nat.mul_comm]; exact hd.symm⟩, fun hd => Nat.div_mul_cancel hd⟩

theorem fTrunc_eq (x : F64) : fTrunc x = (fValue x).tdiv (2 ^ 1074) := by
  have hmag : (truncMag x : Int) = (fMagnitude x : Int).tdiv (2 ^ 1074) := by
    rw [truncMag_eq, Int.ofNat_tdiv, Nat.cast_pow, Nat.cast_ofNat]
  rw [fTrunc, fValue_eq]
  split
  · rw [Int.neg_tdiv, ← hmag]; rfl
  · exact hmag

theorem fFloor_eq (x : F64) : fFloor x = fValue x / 2 ^ 1074 := by
  have hint : fIsInt x = true ↔ (2 ^ 1074 : Int) ∣ fMagnitude x := by
    rw [fIsInt_iff, ← Nat.dvd_iff_mod_eq_zero, ← Int.natCast_dvd_natCast, Nat.cast_pow, Nat.cast_ofNat]
  have hsign : (2 ^ 1074 : Int).sign = 1 := Int.sign_eq_one_of_pos (by positivity)
  rw [fFloor, fTrunc_eq, fValue_eq]
  by_cases hneg : fSign x = true
  · rw [if_pos hneg, Int.neg_tdiv, Int.tdiv_eq_ediv_of_nonneg (Int.natCast_nonneg _), Int.neg_ediv, hsign]
    by_cases hi : fIsInt x = true
    · rw [if_neg (by simp [hi]), if_pos (hint.1 hi), Int.sub_zero]
    · rw [if_pos (by simp [hneg, hi]), if_neg (mt hint.2 hi)]
  · rw [if_neg hneg, Int.tdiv_eq_ediv_of_nonneg (Int.natCast_nonneg _)]
    exact if_neg (by simp [hneg])

/-- The rounded magnitude over 2^n: half the integer part of twice the quotient and one. -/
theorem halfAwayMag_eq (x : F64) (n : Nat) :
    halfAwayMag x n = (2 * fMagnitude x + 2 ^ (1074 + n)) / (2 * 2 ^ (1074 + n)) := by
  unfold halfAwayMag fMagnitude
  generalize 1074 + n = c
  rw [Nat.shiftLeft_eq _ (fPow x)]
  split
  · rename_i h
    have hpow : 2 ^ fPow x = 2 ^ (fPow x - c) * 2 ^ c := by rw [← Nat.pow_add, Nat.sub_add_cancel h]
    have hpos : 0 < 2 ^ c := Nat.two_pow_pos c
    rw [Nat.shiftLeft_eq, hpow, ← Nat.mul_assoc]
    exact (Nat.div_eq_of_lt_le (by nlinarith) (by nlinarith)).symm
  · rename_i h
    have hpow : 2 ^ c = 2 ^ (c - fPow x) * 2 ^ fPow x := by rw [← Nat.pow_add, Nat.sub_add_cancel (by omega)]
    rw [Nat.shiftRight_eq_div_pow, Nat.shiftLeft_eq, Nat.one_mul, Nat.pow_succ', hpow, ← Nat.mul_assoc, ← Nat.mul_assoc,
      ← Nat.add_mul, Nat.mul_div_mul_right _ _ (Nat.two_pow_pos _)]

theorem roundHalfAway_eq (d : F64) (n : Nat) :
    roundHalfAway d n = (fValue d).sign * ((2 * |fValue d| + 2 ^ (1074 + n)) / (2 * 2 ^ (1074 + n))) := by
  have hmag : (halfAwayMag d n : Int) = (2 * fMagnitude d + 2 ^ (1074 + n)) / (2 * 2 ^ (1074 + n)) := by
    rw [halfAwayMag_eq]; rfl
  have hzero : fMagnitude d = 0 → halfAwayMag d n = 0 := fun h => by
    rw [halfAwayMag_eq, h]
    exact Nat.div_eq_of_lt (by have := Nat.two_pow_pos (1074 + n); omega)
  rw [roundHalfAway, fValue_eq]
  rcases Nat.eq_zero_or_pos (fMagnitude d) with h | h
  · simp [h, hzero h]
  · split
    · rw [Int.sign_eq_neg_one_of_neg (by omega), abs_neg, Nat.abs_cast, ← hmag]
      simp
    · rw [Int.sign_eq_one_of_pos (by omega), Nat.abs_cast, ← hmag]
      simp

/-- Settles O35: the rounded quotient is `roundHalfAway_eq`, and `quantize` tests it for 16 bits. -/
theorem quantizeRoundsHalfAway : Obligations.QuantizeRoundsHalfAway := by
  intro d n q _ hq
  have hround : roundHalfAway d n = q := (roundHalfAway_eq d n).trans hq.symm
  exact ⟨hround, by rw [quantize, hround]⟩

/-- Settles O46: `fTrunc_eq`, `fFloor_eq`, and the three branches of `fClamp`. -/
theorem truncFloorClamp : Obligations.TruncFloorClamp := by
  intro x lo hi _
  refine ⟨fTrunc_eq x, fFloor_eq x, fun hlo => ?_, fun hlo hhi => ?_, fun hlo hhi => ?_⟩
  · simp [fClamp, hlo]
  · simp [fClamp, hlo, hhi]
  · simp [fClamp, hlo, hhi]

end Sys2Proof.Machine

/-! ## Correct rounding (spec/00_scope.md R12, R13) -/

namespace Sys2Proof.Machine

/-! ### The nearest multiple of a unit -/

/-- `q` units of `u` are as near to `a` as any number of units, and `q` is even where `a` lies halfway. -/
structure IsNearestEven (a u q : Nat) : Prop where
  below : 2 * a ≤ 2 * (q * u) + u
  above : 2 * (q * u) ≤ 2 * a + u
  even : 2 * a = 2 * (q * u) + u ∨ 2 * (q * u) = 2 * a + u → q % 2 = 0

namespace IsNearestEven

theorem scale {a u q : Nat} (h : IsNearestEven a u q) {c : Nat} (hc : 0 < c) : IsNearestEven (a * c) (u * c) q := by
  obtain ⟨below, above, even⟩ := h
  refine ⟨by nlinarith, by nlinarith, fun htie => even ?_⟩
  rcases htie with h | h
  · exact .inl (Nat.eq_of_mul_eq_mul_right hc (by linarith))
  · exact .inr (Nat.eq_of_mul_eq_mul_right hc (by linarith))

/-- No other multiple of the unit is nearer, and where one is as near, `q` is even. -/
theorem nearest {a u q : Nat} (h : IsNearestEven a u q) (hu : 0 < u) (j : Nat) :
    |((q * u : Nat) : Int) - a| ≤ |((j * u : Nat) : Int) - a| ∧
      (|((q * u : Nat) : Int) - a| = |((j * u : Nat) : Int) - a| → j ≠ q → q % 2 = 0) := by
  obtain ⟨below, above, even⟩ := h
  simp only [Int.abs_eq_natAbs]
  rcases Nat.lt_trichotomy j q with hj | rfl | hj
  · have : j * u + u ≤ q * u := by nlinarith
    omega
  · exact ⟨le_refl _, fun _ hne => absurd rfl hne⟩
  · have : q * u + u ≤ j * u := by nlinarith
    omega

end IsNearestEven

theorem nearestEven_isNearest (num den : Nat) (hd : 0 < den) : IsNearestEven num den (nearestEven num den) := by
  have hdiv := Nat.div_add_mod' num den
  have hlt := Nat.mod_lt num hd
  unfold nearestEven
  generalize num / den = q at *
  have hsucc : (q + 1) * den = q * den + den := Nat.succ_mul q den
  split
  · exact ⟨by omega, by omega, by omega⟩
  · split
    · rename_i hup
      simp only [Bool.or_eq_true, Bool.and_eq_true, decide_eq_true_eq, beq_iff_eq] at hup
      exact ⟨by omega, by omega, by omega⟩
    · rename_i hdown
      simp only [Bool.or_eq_true, Bool.and_eq_true, decide_eq_true_eq, beq_iff_eq] at hdown
      exact ⟨by omega, by omega, by omega⟩

theorem nearestMultiple_isNearest (num den k j : Nat) (hd : 0 < den) :
    IsNearestEven (num * 2 ^ k) (den * 2 ^ j) (nearestMultiple num den k j) := by
  unfold nearestMultiple
  simp only [Nat.shiftLeft_eq]
  split
  · rename_i hkj
    have h := (nearestEven_isNearest num (den * 2 ^ (j - k)) (by positivity)).scale (Nat.two_pow_pos k)
    rwa [Nat.mul_assoc den, ← Nat.pow_add, Nat.sub_add_cancel hkj] at h
  · rename_i hkj
    have h := (nearestEven_isNearest (num * 2 ^ (k - j)) den hd).scale (Nat.two_pow_pos j)
    rwa [Nat.mul_assoc num, ← Nat.pow_add, Nat.sub_add_cancel (by omega)] at h

/-! ### The grid of representable magnitudes -/

/-- A significand of at most 53 bits, put over the exponent field, carries by itself. -/
theorem magValue_add (e q : Nat) (hq : q ≤ 2 ^ 53) (h : e = 0 ∨ 2 ^ 52 ≤ q) :
    magValue (e * 2 ^ 52 + q) = q * 2 ^ e := by
  by_cases hsub : e * 2 ^ 52 + q < 2 ^ 52
  · obtain rfl : e = 0 := by omega
    rw [magValue, if_pos hsub]
    omega
  · rw [magValue, if_neg hsub]
    rcases Nat.lt_or_ge q (2 ^ 53) with hlt | hge
    · rw [show (e * 2 ^ 52 + q) / 2 ^ 52 - 1 = e by omega, show (e * 2 ^ 52 + q) % 2 ^ 52 = q - 2 ^ 52 by omega,
        Nat.add_sub_cancel' (by omega)]
    · rw [show (e * 2 ^ 52 + q) / 2 ^ 52 - 1 = e + 1 by omega, show (e * 2 ^ 52 + q) % 2 ^ 52 = 0 by omega,
        show q = 2 ^ 52 * 2 by omega, Nat.add_zero, pow_succ' 2 e, Nat.mul_assoc]

/-- A representable magnitude is a multiple of 2^e, or lies below the magnitudes whose last place is 2^e. -/
theorem magValue_multiple_or_lt (e m : Nat) : (∃ j, magValue m = j * 2 ^ e) ∨ magValue m < 2 ^ 52 * 2 ^ e := by
  have hpos := Nat.two_pow_pos e
  unfold magValue
  split
  · right; nlinarith
  · rcases Nat.lt_or_ge (m / 2 ^ 52 - 1) e with hlt | hge
    · right
      calc (2 ^ 52 + m % 2 ^ 52) * 2 ^ (m / 2 ^ 52 - 1) < 2 ^ 52 * 2 * 2 ^ (m / 2 ^ 52 - 1) :=
            Nat.mul_lt_mul_of_pos_right (by omega) (Nat.two_pow_pos _)
        _ = 2 ^ 52 * 2 ^ (m / 2 ^ 52 - 1 + 1) := by rw [Nat.pow_succ']; ring
        _ ≤ 2 ^ 52 * 2 ^ e := Nat.mul_le_mul_left _ (Nat.pow_le_pow_right (by omega) (by omega))
    · left
      refine ⟨(2 ^ 52 + m % 2 ^ 52) * 2 ^ (m / 2 ^ 52 - 1 - e), ?_⟩
      rw [Nat.mul_assoc, ← Nat.pow_add, Nat.sub_add_cancel hge]

/-- A number of at most 53 bits times a power of two is representable. -/
theorem exists_magValue_eq (n p : Nat) (hn : n < 2 ^ 53) (hp : 52 ≤ p) (hp' : p ≤ 1993) :
    ∃ m < infMag, magValue m = n * 2 ^ p := by
  rcases Nat.eq_zero_or_pos n with rfl | hpos
  · exact ⟨0, by decide, by simp [magValue]⟩
  · have hlog : n.log2 < 53 := (Nat.log2_lt (by omega)).2 hn
    have hlow : 2 ^ 52 ≤ n * 2 ^ (52 - n.log2) := by
      calc 2 ^ 52 = 2 ^ n.log2 * 2 ^ (52 - n.log2) := by rw [← Nat.pow_add, Nat.add_sub_cancel' (by omega)]
        _ ≤ n * 2 ^ (52 - n.log2) := Nat.mul_le_mul_right _ (Nat.log2_self_le (by omega))
    have hhigh : n * 2 ^ (52 - n.log2) ≤ 2 ^ 53 := by
      calc n * 2 ^ (52 - n.log2) ≤ 2 ^ (n.log2 + 1) * 2 ^ (52 - n.log2) :=
            Nat.mul_le_mul_right _ (le_of_lt Nat.lt_log2_self)
        _ = 2 ^ 53 := by rw [← Nat.pow_add]; congr 1; omega
    refine ⟨(p - (52 - n.log2)) * 2 ^ 52 + n * 2 ^ (52 - n.log2), ?_, ?_⟩
    · simp only [infMag]; omega
    · rw [magValue_add _ _ hhigh (.inr hlow), Nat.mul_assoc, ← Nat.pow_add, Nat.add_sub_cancel' (by omega)]

/-! ### Rounding a quotient -/

/-- The exact quotient lies between two powers of two, one apart, that its integer part tells. -/
theorem topBit_bounds {num den k q : Nat} (hd : 0 < den) (hq : num / den = q + 1) :
    den * 2 ^ (topBit (q + 1) + k) ≤ num * 2 ^ k ∧ num * 2 ^ k < den * 2 ^ (topBit (q + 1) + 1 + k) := by
  have hlow : 2 ^ topBit (q + 1) ≤ num / den := by
    rw [topBit_eq_log2, hq]; exact Nat.log2_self_le (by omega)
  have hhigh : num / den < 2 ^ (topBit (q + 1) + 1) := by
    rw [topBit_eq_log2, hq]; exact Nat.lt_log2_self
  rw [Nat.pow_add, Nat.pow_add, ← Nat.mul_assoc, ← Nat.mul_assoc, Nat.mul_comm den, Nat.mul_comm den]
  exact ⟨Nat.mul_le_mul_right _ ((Nat.le_div_iff_mul_le hd).1 hlow),
    Nat.mul_lt_mul_of_pos_right ((Nat.div_lt_iff_lt_mul hd).1 hhigh) (Nat.two_pow_pos k)⟩

/-- A quotient below 2^53 units rounds to at most 2^53 of them. -/
theorem IsNearestEven.le_two_pow {a u q : Nat} (h : IsNearestEven a u q) (ha : a < 2 ^ 53 * u) : q ≤ 2 ^ 53 := by
  by_contra hq
  have : (2 ^ 53 + 1) * u ≤ q * u := Nat.mul_le_mul_right u (by omega)
  have := h.above
  omega

/-- A quotient of at least 2^52 units rounds to at least 2^52 of them. -/
theorem IsNearestEven.two_pow_le {a u q : Nat} (h : IsNearestEven a u q) (hu : 0 < u) (ha : 2 ^ 52 * u ≤ a) :
    2 ^ 52 ≤ q := by
  by_contra hq
  have : (q + 1) * u ≤ 2 ^ 52 * u := Nat.mul_le_mul_right u (by omega)
  have : (q + 1) * u = q * u + u := Nat.succ_mul q u
  have := h.below
  omega

theorem roundMag_of_div_eq_zero {num den : Nat} (k : Nat) (h : num / den = 0) : roundMag num den k = 0 := by
  rw [roundMag, h]

/-- The significand of a rounding has at most 53 bits, or carries to 2^53. -/
theorem significand_le {num den k p : Nat} (hd : 0 < den) (hp : num / den = p + 1) :
    nearestMultiple num den k (topBit (p + 1) + k - 3074 + 3022) ≤ 2 ^ 53 := by
  refine (nearestMultiple_isNearest num den k _ hd).le_two_pow ?_
  rw [Nat.mul_left_comm, ← Nat.pow_add]
  exact lt_of_lt_of_le (topBit_bounds hd hp).2 (Nat.mul_le_mul_left _ (Nat.pow_le_pow_right (by omega) (by omega)))

/-- A rounding is a number of units in the last place over the exponent field, or overflows to infinity. -/
theorem roundMag_eq_min {num den k p : Nat} (hd : 0 < den) (hp : num / den = p + 1) :
    roundMag num den k = min ((topBit (p + 1) + k - 3074) * 2 ^ 52 +
      nearestMultiple num den k (topBit (p + 1) + k - 3074 + 3022)) infMag := by
  have hle := significand_le (k := k) hd hp
  unfold roundMag
  simp only [hp]
  split
  · rename_i he
    rw [he] at hle
    rw [he, Nat.zero_mul, Nat.zero_add, min_eq_left (hle.trans (by decide))]
  · rename_i e he
    rw [he, Nat.min_eq_min, Nat.shiftLeft_eq]

theorem roundMag_le_infMag (num den k : Nat) (hd : 0 < den) : roundMag num den k ≤ infMag := by
  cases hp : num / den with
  | zero => rw [roundMag_of_div_eq_zero k hp]; exact Nat.zero_le _
  | succ p => rw [roundMag_eq_min hd hp]; exact min_le_right _ _

/-- A rounding short of overflow is a significand `q` over an exponent field `e`: `q` is the nearest even number of units
2^e, and where `e` is not 0 both `q` and the exact quotient have at least 53 bits. -/
theorem roundMag_eq_add (num den k : Nat) (hd : 0 < den) (h : num = 0 ∨ den ≤ num) (hr : roundMag num den k < infMag) :
    ∃ e q, roundMag num den k = e * 2 ^ 52 + q ∧ IsNearestEven (num * 2 ^ k) (den * 2 ^ (e + 3022)) q ∧
      q ≤ 2 ^ 53 ∧ (e = 0 ∨ 2 ^ 52 ≤ q ∧ 2 ^ 52 * (den * 2 ^ (e + 3022)) ≤ num * 2 ^ k) := by
  cases hp : num / den with
  | zero =>
    obtain rfl : num = 0 := h.resolve_right fun hle => absurd (Nat.div_pos hle hd) (by omega)
    exact ⟨0, 0, roundMag_of_div_eq_zero k hp, ⟨by omega, by omega, fun _ => rfl⟩, by omega, .inl rfl⟩
  | succ p =>
    have hle := significand_le (k := k) hd hp
    have hmin := roundMag_eq_min (k := k) hd hp
    rw [hmin, min_lt_iff, or_iff_left (lt_irrefl _)] at hr
    rw [min_eq_left hr.le] at hmin
    generalize he : topBit (p + 1) + k - 3074 = e at hle hmin
    have hnear := nearestMultiple_isNearest num den k (e + 3022) hd
    refine ⟨e, _, hmin, hnear, hle, ?_⟩
    rcases Nat.eq_zero_or_pos e with h0 | hpos
    · exact .inl h0
    · have hexp : 52 + (e + 3022) = topBit (p + 1) + k := by omega
      have habove : 2 ^ 52 * (den * 2 ^ (e + 3022)) ≤ num * 2 ^ k := by
        rw [Nat.mul_left_comm, ← Nat.pow_add, hexp]
        exact (topBit_bounds hd hp).1
      exact .inr ⟨hnear.two_pow_le (Nat.mul_pos hd (Nat.two_pow_pos _)) habove, habove⟩

/-- The nearest number of units 2^e is nearest among all representable magnitudes, if the exact quotient `a / b` has the
53 bits that make the units of nearer ones no finer. -/
theorem IsNearestEven.nearest_magValue {a b e q : Nat} (h : IsNearestEven a (b * 2 ^ e) q) (hb : 0 < b)
    (hnormal : e = 0 ∨ 2 ^ 52 * (b * 2 ^ e) ≤ a) (m : Nat) :
    |((q * 2 ^ e * b : Nat) : Int) - a| ≤ |((magValue m * b : Nat) : Int) - a| ∧
      (|((q * 2 ^ e * b : Nat) : Int) - a| = |((magValue m * b : Nat) : Int) - a| →
        magValue m ≠ q * 2 ^ e → q % 2 = 0) := by
  have units (j : Nat) : j * 2 ^ e * b = j * (b * 2 ^ e) := by ring
  have hnear := h.nearest (Nat.mul_pos hb (Nat.two_pow_pos e))
  have hgrid : (∃ j, magValue m = j * 2 ^ e) ∨ magValue m < 2 ^ 52 * 2 ^ e ∧ 2 ^ 52 * (b * 2 ^ e) ≤ a := by
    rcases hnormal with rfl | hnormal
    · exact .inl ⟨magValue m, by rw [Nat.pow_zero, Nat.mul_one]⟩
    · exact (magValue_multiple_or_lt e m).imp_right fun hlt => ⟨hlt, hnormal⟩
  rcases hgrid with ⟨j, hj⟩ | ⟨hlt, hle⟩
  · obtain ⟨hmin, htie⟩ := hnear j
    rw [hj, units, units]
    exact ⟨hmin, fun heq hne => htie heq fun hjq => hne (by rw [hjq])⟩
  · have hclose := (hnear (2 ^ 52)).1
    have hfar : magValue m * b < 2 ^ 52 * (b * 2 ^ e) := by
      rw [← units]; exact Nat.mul_lt_mul_of_pos_right hlt hb
    rw [units]
    simp only [Int.abs_eq_natAbs] at *
    omega

/-- A distance to the exact quotient does not depend on the fraction it is written as. -/
theorem abs_sub_scale {a b a' b' : Nat} (h : a' * b = a * b') (v : Nat) :
    |((v * b : Nat) : Int) - a| * b' = |((v * b' : Nat) : Int) - a'| * b := by
  have hint : (a' * b : Int) = a * b' := by exact_mod_cast h
  rw [← Nat.abs_cast b', ← Nat.abs_cast b, ← abs_mul, ← abs_mul]
  congr 1
  push_cast
  linear_combination hint

/-- A rounding short of overflow is correct: for the exact quotient `a / b` in units of 2^−1074 no representable magnitude
is nearer, and where another is as near, the rounding's last bit is 0. -/
theorem roundMag_nearest {num den k a b : Nat} (hd : 0 < den) (h : num = 0 ∨ den ≤ num)
    (hr : roundMag num den k < infMag) (hb : 0 < b) (hab : num * 2 ^ k * b = a * (den * 2 ^ 3022)) (m : Nat) :
    |((magValue (roundMag num den k) * b : Nat) : Int) - a| ≤ |((magValue m * b : Nat) : Int) - a| ∧
      (|((magValue (roundMag num den k) * b : Nat) : Int) - a| = |((magValue m * b : Nat) : Int) - a| →
        magValue m ≠ magValue (roundMag num den k) → roundMag num den k % 2 = 0) := by
  obtain ⟨e, q, hform, hnear, hq, hnormal⟩ := roundMag_eq_add num den k hd h hr
  have hvalue : magValue (roundMag num den k) = q * 2 ^ e := by
    rw [hform]; exact magValue_add e q hq (hnormal.imp_right And.left)
  have hparity : roundMag num den k % 2 = q % 2 := by omega
  have hden : 0 < den * 2 ^ 3022 := Nat.mul_pos hd (Nat.pow_pos Nat.two_pos)
  rw [Nat.add_comm e, Nat.pow_add 2 3022, ← Nat.mul_assoc den] at hnear hnormal
  generalize den * 2 ^ 3022 = u at *
  obtain ⟨hmin, htie⟩ := hnear.nearest_magValue hden (hnormal.imp_right And.right) m
  rw [hvalue, hparity]
  have hu : (0 : Int) < u := by exact_mod_cast hden
  have hb' : (0 : Int) < b := by exact_mod_cast hb
  have hscale := abs_sub_scale hab
  constructor
  · refine le_of_mul_le_mul_right ?_ hu
    rw [hscale, hscale]
    exact mul_le_mul_of_nonneg_right hmin hb'.le
  · intro heq hne
    refine htie (mul_right_cancel₀ hb'.ne' ?_) hne
    rw [← hscale, ← hscale, heq]

/-- A representable magnitude is its own rounding. -/
theorem roundMag_of_exact {num den k m : Nat} (hd : 0 < den) (h : num = 0 ∨ den ≤ num) (hm : m < infMag)
    (hexact : num * 2 ^ k = magValue m * (den * 2 ^ 3022)) : roundMag num den k = m := by
  have hr : roundMag num den k < infMag := lt_of_le_of_lt (roundMag_le num den k m hd hexact.le) hm
  have hnear := (roundMag_nearest hd h hr Nat.one_pos (by rw [Nat.mul_one, hexact]) m).1
  rw [Nat.mul_one, Nat.mul_one, sub_self, abs_zero, abs_nonpos_iff, sub_eq_zero] at hnear
  exact magValue_strictMono.injective (by exact_mod_cast hnear)

/-! ### Packed magnitudes -/

theorem fSign_fPack (neg : Bool) {r : Nat} (h : r < 2 ^ 63) : fSign (fPack neg r) = neg := by
  rw [Bool.eq_iff_iff, fSign_iff, fPack, BitVec.toNat_ofNat]
  cases neg <;> norm_num <;> omega

theorem fValue_fPack (neg : Bool) {r : Nat} (h : r < 2 ^ 63) :
    fValue (fPack neg r) = if neg then -(magValue r : Int) else magValue r := by
  rw [fValue_eq_magValue, fSign_fPack neg h, fLow_fPack neg r h]

theorem fFinite_fPack (neg : Bool) {r : Nat} (h : r < infMag) : fFinite (fPack neg r) = true :=
  (fPack_bound neg r r le_rfl h).1

/-! ### Integers -/

/-- A natural number below 2^53 converts to its own magnitude. -/
theorem roundMag_nat {n : Nat} (h : n < 2 ^ 53) :
    roundMag n 1 4096 < infMag ∧ magValue (roundMag n 1 4096) = n * 2 ^ 1074 := by
  obtain ⟨m, hm, hv⟩ := exists_magValue_eq n 1074 h (by omega) (by omega)
  have hexact : n * 2 ^ 4096 = magValue m * (1 * 2 ^ 3022) := by
    rw [hv, Nat.one_mul, Nat.mul_assoc, ← Nat.pow_add]
  rw [roundMag_of_exact Nat.one_pos (by omega) hm hexact]
  exact ⟨hm, hv⟩

theorem fOfNat_exact {n : Nat} (h : n < 2 ^ 53) :
    fFinite (fOfNat n) = true ∧ fValue (fOfNat n) = n * 2 ^ 1074 ∧ fSign (fOfNat n) = false := by
  obtain ⟨hr, hv⟩ := roundMag_nat h
  have hlt := hr.trans infMag_lt
  refine ⟨fFinite_fPack _ hr, ?_, fSign_fPack _ hlt⟩
  rw [fOfNat, fValue_fPack _ hlt, hv, Nat.cast_mul, Nat.cast_pow]
  rfl

theorem fOfInt_exact {z : Int} (h : |z| < 2 ^ 53) :
    fFinite (fOfInt z) = true ∧ fValue (fOfInt z) = z * 2 ^ 1074 ∧ (fSign (fOfInt z) = true ↔ z < 0) := by
  cases z with
  | ofNat n =>
    obtain ⟨hfin, hv, hs⟩ := fOfNat_exact (n := n) (by rw [Int.ofNat_eq_natCast, Nat.abs_cast] at h; omega)
    refine ⟨hfin, hv, ?_⟩
    rw [fOfInt, hs]
    simp
  | negSucc n =>
    obtain ⟨hr, hv⟩ := roundMag_nat (n := n + 1) (by rw [Int.abs_eq_natAbs] at h; omega)
    have hlt := hr.trans infMag_lt
    refine ⟨fFinite_fPack _ hr, ?_, ?_⟩
    · rw [fOfInt, fValue_fPack _ hlt, if_pos rfl, hv, Int.negSucc_eq, Int.neg_mul, Nat.cast_mul, Nat.cast_pow,
        Nat.cast_succ, Nat.cast_ofNat]
    · rw [fOfInt, fSign_fPack _ hlt]
      simp

/-! ### Decimal literals -/

/-- A literal is its numerator over its denominator, scaled so that the quotient has an integer part. -/
theorem fLit_scale (num den : Nat) : (num <<< 128) * 2 ^ 3968 * den = num * 2 ^ 1074 * (den * 2 ^ 3022) := by
  have hpow : (2 : Nat) ^ 128 * 2 ^ 3968 = 2 ^ 1074 * 2 ^ 3022 := by rw [← Nat.pow_add 2 128, ← Nat.pow_add 2 1074]
  rw [Nat.shiftLeft_eq, Nat.mul_assoc num, hpow]
  generalize 2 ^ 1074 = c, 2 ^ 3022 = d
  ring

theorem fLit_divisible {num den : Nat} (hd : den < 2 ^ 53) : num <<< 128 = 0 ∨ den ≤ num <<< 128 := by
  rw [Nat.shiftLeft_eq]
  omega

/-- A literal's magnitude is no greater than its numerator, so it is finite. -/
theorem fLit_lt_infMag {num den : Nat} (hn : num < 2 ^ 53) (hd : 0 < den) :
    roundMag (num <<< 128) den 3968 < infMag := by
  obtain ⟨m, hm, hv⟩ := exists_magValue_eq num 1074 hn (by omega) (by omega)
  refine lt_of_le_of_lt (roundMag_le _ _ _ m hd ?_) hm
  rw [hv, ← fLit_scale]
  exact Nat.le_mul_of_pos_right _ hd

/-- What is at least as near to a natural number as 0 is nearer than any negative number. -/
theorem nearer_than_negative {r v n d : Nat} {p : Prop} (hd : 0 < d)
    (hmin : |((r * d : Nat) : Int) - n| ≤ |((0 : Nat) : Int) - n|)
    (htie : |((r * d : Nat) : Int) - n| = |((0 : Nat) : Int) - n| → 0 ≠ r → p) :
    |(r * d : Int) - n| ≤ |(-v * d : Int) - n| ∧
      (|(r * d : Int) - n| = |(-v * d : Int) - n| → (-v : Int) ≠ r → p) := by
  rw [Nat.cast_mul] at hmin htie
  have hfar : |(-v * d : Int) - n| = v * d + n := by
    rw [Int.neg_mul, ← neg_add', abs_neg, abs_of_nonneg (by positivity)]
  have hzero : |((0 : Nat) : Int) - n| = n := by simp
  have hprod : (0 : Int) ≤ v * d := by positivity
  rw [hzero] at hmin htie
  rw [hfar]
  refine ⟨by omega, fun heq hne => htie (by omega) fun hr => hne ?_⟩
  have hv : (v * d : Int) = 0 := by omega
  have : v = 0 := by
    rcases mul_eq_zero.1 hv with h | h <;> omega
  simp [this, ← hr]

theorem fLit_nearest {num den : Nat} (hn : num < 2 ^ 53) (hd : 0 < den) (hd' : den < 2 ^ 53) :
    fFinite (fLit num den) = true ∧ fSign (fLit num den) = false ∧
      ∀ z : F64, fFinite z = true →
        |fValue (fLit num den) * den - num * 2 ^ 1074| ≤ |fValue z * den - num * 2 ^ 1074| ∧
        (|fValue (fLit num den) * den - num * 2 ^ 1074| = |fValue z * den - num * 2 ^ 1074| →
          fValue z ≠ fValue (fLit num den) → fFrac (fLit num den) % 2 = 0) := by
  have hr := fLit_lt_infMag hn hd
  have hlt := hr.trans infMag_lt
  have hnear := roundMag_nearest hd (fLit_divisible hd') hr hd (fLit_scale num den)
  have hparity : fFrac (fLit num den) % 2 = roundMag (num <<< 128) den 3968 % 2 := by
    rw [fFrac_eq, fLit, fLow_fPack _ _ hlt]; omega
  have hvalue : fValue (fLit num den) = magValue (roundMag (num <<< 128) den 3968) := fValue_fPack false hlt
  refine ⟨fFinite_fPack _ hr, fSign_fPack _ hlt, fun z _ => ?_⟩
  have hcast : ((num * 2 ^ 1074 : Nat) : Int) = num * 2 ^ 1074 := by rw [Nat.cast_mul, Nat.cast_pow, Nat.cast_ofNat]
  rw [hvalue, hparity, fValue_eq_magValue, ← hcast]
  split
  · -- a value below 0 is further away than 0 is
    obtain ⟨hmin, htie⟩ := hnear 0
    rw [magValue_zero, Nat.zero_mul] at hmin htie
    exact nearer_than_negative hd hmin htie
  · obtain ⟨hmin, htie⟩ := hnear (fLow z)
    rw [Nat.cast_mul, Nat.cast_mul] at hmin htie
    exact ⟨hmin, fun heq hne => htie heq (by exact_mod_cast hne)⟩

/-- The thirteen literals of the colour formulas (spec/40_color.md R151, R152). -/
theorem colour_literals :
    fLit 299 1000 = 0x3FD322D0E5604189 ∧ fLit 587 1000 = 0x3FE2C8B439581062 ∧ fLit 114 1000 = 0x3FBD2F1A9FBE76C9 ∧
    fLit 147 1000 = 0x3FC2D0E560418937 ∧ fLit 289 1000 = 0x3FD27EF9DB22D0E5 ∧ fLit 436 1000 = 0x3FDBE76C8B439581 ∧
    fLit 615 1000 = 0x3FE3AE147AE147AE ∧ fLit 515 1000 = 0x3FE07AE147AE147B ∧ fLit 100 1000 = 0x3FB999999999999A ∧
    fLit 11398 10000 = 0x3FF23C9EECBFB15B ∧ fLit 3946 10000 = 0x3FD941205BC01A37 ∧
    fLit 5806 10000 = 0x3FE294467381D7DC ∧ fLit 20321 10000 = 0x400041BDA5119CE0 := by decide +kernel

/-- Settles O42: encodings order as their exact values do, and a rounding is the nearest representable value. -/
theorem comparisonsAreExact : Obligations.ComparisonsAreExact :=
  ⟨fun _ _ hx hy => ⟨fLt_iff hx hy, fLe_iff hx hy, fEq_iff hx hy⟩,
    fun x i => ⟨fAbs_getLsbD x i, fNeg_getLsbD x i⟩,
    fun _ hn => fOfNat_exact hn,
    fun _ hz => fOfInt_exact hz,
    fun _ _ hn hd hd' => fLit_nearest hn hd hd',
    colour_literals⟩

/-! ### Bytes -/

/-- A value that is not negative has an integer part that is not. -/
theorem fTrunc_nonneg {x : F64} (h : 0 ≤ fValue x) : 0 ≤ fTrunc x := by
  rw [fTrunc_eq]
  exact Int.tdiv_nonneg h (by positivity)

/-- A value below n + 1 in magnitude has an integer part of at most n. -/
theorem fTrunc_le {x : F64} {n : Nat} (h : fMagnitude x < (n + 1) * 2 ^ 1074) : fTrunc x ≤ n := by
  have hmag : truncMag x < n + 1 := by
    rw [truncMag_eq]; exact (Nat.div_lt_iff_lt_mul (by positivity)).2 h
  unfold fTrunc
  split <;> simp only [Int.ofNat_eq_natCast] <;> omega

theorem fMagnitude_of_nonneg {x : F64} (h : 0 ≤ fValue x) : (fMagnitude x : Int) = fValue x := by
  rw [fValue_eq] at *
  split_ifs at * <;> omega

/-- A value in coarser units is exact where its power of two is no less. -/
theorem fScaled_mul {x : F64} {e : Nat} (h : e ≤ fPow x) : fScaled x e * 2 ^ e = fValue x := by
  have hmag : ((fSig x <<< (fPow x - e) : Nat) : Int) * 2 ^ e = fMagnitude x := by
    rw [fMagnitude, Nat.shiftLeft_eq, Nat.shiftLeft_eq, ← Nat.sub_add_cancel h, Nat.pow_add, Nat.add_sub_cancel]
    push_cast
    ring
  rw [fScaled, fValue_eq]
  split
  · rw [Int.neg_mul, Int.ofNat_eq_natCast, hmag]
  · exact hmag

/-- An exact sum that is not negative does not round to a negative value. -/
theorem roundSum_nonneg (z : Bool) (e : Nat) {n : Int} (h : 0 ≤ n) : 0 ≤ fValue (roundSum z e n) := by
  cases n with
  | negSucc n => exact absurd h (by omega)
  | ofNat n =>
    cases n with
    | zero => rw [roundSum, fValue_fPack z (by omega), magValue_zero]; cases z <;> decide
    | succ n =>
      have hlt := (roundMag_le_infMag (n + 1) 1 (e + 3022) Nat.one_pos).trans_lt infMag_lt
      rw [roundSum, fValue_fPack false hlt, if_neg Bool.false_ne_true]
      exact Int.natCast_nonneg _

/-- A sum of finite values that are not negative is not negative. -/
theorem fAdd_nonneg {x y : F64} (hx : fFinite x = true) (hy : fFinite y = true) (hx0 : 0 ≤ fValue x)
    (hy0 : 0 ≤ fValue y) : 0 ≤ fValue (fAdd x y) := by
  have key (z : Bool) (e : Nat) (hex : e ≤ fPow x) (hey : e ≤ fPow y) :
      0 ≤ fValue (roundSum z e (fScaled x e + fScaled y e)) := by
    refine roundSum_nonneg z e (nonneg_of_mul_nonneg_left (b := 2 ^ e) ?_ (by positivity))
    rw [Int.add_mul, fScaled_mul hex, fScaled_mul hey]
    exact Int.add_nonneg hx0 hy0
  rw [fAdd, hx, hy, Bool.and_self, if_pos rfl, addFinite, Nat.min_eq_min]
  split
  · exact key _ 0 (Nat.zero_le _) (Nat.zero_le _)
  · exact key _ _ (by omega) (by omega)

/-- A value clamped to 0..255 is a finite value of that range. -/
theorem fClamp_byte {x : F64} (hx : fFinite x = true) :
    fFinite (fClamp x 0 (fOfNat 255)) = true ∧ 0 ≤ fValue (fClamp x 0 (fOfNat 255)) ∧
      fValue (fClamp x 0 (fOfNat 255)) ≤ 255 * 2 ^ 1074 := by
  obtain ⟨hfin, hv, _⟩ := fOfNat_exact (n := 255) (by omega)
  have hzero : fFinite 0 = true ∧ fValue 0 = 0 := by decide
  have hbound : (0 : Int) ≤ 255 * 2 ^ 1074 := by positivity
  have hlo := fLt_iff hx hzero.1
  have hhi := fLt_iff hfin hx
  rw [hv, Nat.cast_ofNat] at hhi
  rw [hzero.2] at hlo
  unfold fClamp
  split
  · exact ⟨hzero.1, hzero.2.ge, hzero.2.trans_le hbound⟩
  · rename_i h0
    split
    · exact ⟨hfin, by rw [hv]; exact hbound, by rw [hv]; rfl⟩
    · rename_i h255
      exact ⟨hx, not_lt.1 (mt hlo.2 h0), not_lt.1 (mt hhi.2 h255)⟩

/-- The half that `toByte` adds, in units of 2^−1074. -/
theorem fLit_half : fFinite (fLit 1 2) = true ∧ 0 ≤ fValue (fLit 1 2) ∧ fMagnitude (fLit 1 2) = 2 ^ 1073 := by
  decide +kernel

/-- The clamped value and the half stay below 256 after the rounding, so `toByte` truncates to a byte. -/
theorem toByte_range {x : F64} (hx : fFinite x = true) :
    0 ≤ fTrunc (fAdd (fClamp x 0 (fOfNat 255)) (fLit 1 2)) ∧
      fTrunc (fAdd (fClamp x 0 (fOfNat 255)) (fLit 1 2)) ≤ 255 := by
  obtain ⟨hfin, hnonneg, hle⟩ := fClamp_byte hx
  obtain ⟨hhalf, hhalf0, hmag⟩ := fLit_half
  refine ⟨fTrunc_nonneg (fAdd_nonneg hfin hhalf hnonneg hhalf0), fTrunc_le (n := 255) ?_⟩
  obtain ⟨m, hm, hv⟩ := exists_magValue_eq 511 1073 (by omega) (by omega) (by omega)
  have hclamp : fMagnitude (fClamp x 0 (fOfNat 255)) ≤ 255 * 2 ^ 1074 := by
    rw [← Int.ofNat_le, fMagnitude_of_nonneg hnonneg, Nat.cast_mul, Nat.cast_pow, Nat.cast_ofNat, Nat.cast_ofNat]
    exact hle
  have hpos : 0 < 2 ^ 1073 := by positivity
  rw [show 1074 = 1073 + 1 from rfl, pow_succ' 2 1073] at hclamp ⊢
  generalize 2 ^ 1073 = u at *
  have hsum := (fAdd_bound (fClamp x 0 (fOfNat 255)) (fLit 1 2) m hfin hhalf hm (by omega)).2
  omega

/-- The examples of spec/00_scope.md R17. -/
theorem toByte_examples :
    toByte 0x3FDFFFFFFFFFFFFF = 1 ∧ toByte (fLit 509 2) = 255 ∧ toByte (fNeg (fOfNat 3)) = 0 ∧
      toByte (fOfNat 300) = 255 ∧ toByte (fLit 12749 100) = 127 := by decide +kernel

/-- Settles O47: the truncated sum is a byte's number, so the low eight bits are all of it. -/
theorem toByteClampsAndRounds : Obligations.ToByteClampsAndRounds := by
  refine ⟨fun x hx => ?_, toByte_examples⟩
  obtain ⟨h0, h255⟩ := toByte_range hx
  refine ⟨h0, h255, ?_⟩
  rw [toByte, BitVec.toNat_ofInt]
  omega

end Sys2Proof.Machine

/-! ## A command stages writes inside its output regions alone (spec/20_memory.md R86, R87) -/

namespace Sys2Proof.Machine

/-- A staged write lies inside a region. -/
def Region.Covers (r : Region) (w : Store) : Prop := r.base ≤ w.addr ∧ w.addr + w.bytes.length ≤ r.base + r.size

/-- What a successful command stages: writes inside its output regions, which are in range; the report of `AQ` by `AQ` alone
and the decoder context by a decoder command alone. -/
structure Staged.Fits (st : Staged) (i : Instr) (s : State) : Prop where
  inRange : ∀ r ∈ outputRegions i s, r.inRange s.lmemBytes = true
  covered : ∀ w ∈ st.writes, ∃ r ∈ outputRegions i s, r.Covers w
  report : i ≠ .aq → st.aq = none
  context : i ∉ [Instr.pdInit, .pdStep, .pdReset] → st.pd = none

/-- A byte that a covered write writes is a byte of a covering region. -/
theorem contains_of_storesTo {rs : List Region} {ws : List Store} (h : ∀ w ∈ ws, ∃ r ∈ rs, r.Covers w) {a : Nat}
    (ha : storesTo ws a = true) : ∃ r ∈ rs, r.contains a = true := by
  simp only [storesTo, List.any_eq_true, Bool.and_eq_true, decide_eq_true_eq] at ha
  obtain ⟨w, hw, hlow, hhigh⟩ := ha
  obtain ⟨r, hr, hbase, hend⟩ := h w hw
  exact ⟨r, hr, (Region.contains_eq_true r a).2 ⟨by omega, by omega⟩⟩

/-- A region in range has its bytes below the bound. -/
theorem Region.lt_of_contains {r : Region} {n a : Nat} (hr : r.inRange n = true) (ha : r.contains a = true) : a < n := by
  rw [Region.contains_eq_true] at ha
  simp only [Region.inRange, Bool.or_eq_true, beq_iff_eq, decide_eq_true_eq] at hr
  omega

/-- A successful command writes below `LMEM_BYTES` alone. -/
theorem Staged.Fits.lt_lmemBytes {st : Staged} {i : Instr} {s : State} (h : st.Fits i s) {a : Nat}
    (ha : storesTo st.writes a = true) : a < s.lmemBytes := by
  obtain ⟨r, hr, hcontains⟩ := contains_of_storesTo h.covered ha
  exact Region.lt_of_contains (h.inRange r hr) hcontains

/-- Where the memory checks pass, the output regions are in range. -/
theorem outputRegions_inRange {i : Instr} {s : State} (h : allInRange i s = true) :
    ∀ r ∈ outputRegions i s, r.inRange s.lmemBytes = true := fun r hr =>
  List.all_eq_true.1 h r (List.mem_append_right _ hr)

/-- A command that passes its memory checks and stages covered writes alone. -/
theorem fits_ofWrites {i : Instr} {s : State} {ws : List Store} (hr : allInRange i s = true)
    (h : ∀ w ∈ ws, ∃ r ∈ outputRegions i s, r.Covers w) : (Staged.ofWrites ws).Fits i s :=
  ⟨outputRegions_inRange hr, h, fun _ => rfl, fun _ => rfl⟩

/-! ### Runs of elements -/

/-- A result of a pass is the computation's on some element. -/
theorem mem_of_mapE_ok {α β : Type} {f : α → Except ErrCode β} {as : List α} {bs : List β} (h : mapE f as = .ok bs) {b : β}
    (hb : b ∈ bs) : ∃ a ∈ as, f a = .ok b := by
  obtain ⟨k, hk, rfl⟩ := List.getElem_of_mem hb
  have hka : k < as.length := by rwa [← mapE_length h]
  exact ⟨as[k], List.getElem_mem hka, mapE_getElem h k hka hk⟩

/-- A run of elements of one size. -/
theorem stArray_length {α : Type} {enc : α → List Byte} {e : Nat} (henc : ∀ x, (enc x).length = e) (a : Nat) (xs : List α) :
    (stArray enc a xs).bytes.length = e * xs.length := by
  simp [stArray, List.length_flatten, Function.comp_def, henc, Nat.mul_comm]

/-- A block of 64 values covers 512 bytes. -/
theorem storeBlock_covered {al a : Nat} {xs : List F64} (h : xs.length = 64) :
    ∀ w ∈ storeBlock a xs, ∃ r ∈ [(⟨a, al, 512⟩ : Region)], r.Covers w := by
  intro w hw
  obtain rfl := List.mem_singleton.1 hw
  refine ⟨_, List.mem_singleton_self _, Nat.le_refl a, ?_⟩
  rw [stArray_length f64Bytes_length, h]
  exact Nat.le_refl _

/-- The last byte of element j of n lies inside the strided region. -/
theorem le_stridedSize {j n d e : Nat} (h : j < n) : j * d + e ≤ stridedSize n d e := by
  have := Nat.mul_le_mul_right d (show j ≤ n - 1 by omega)
  rw [stridedSize, if_neg (by omega)]
  omega

/-- Elements of one size, a stride apart, lie inside a region that holds the last of them. -/
theorem storeEach_covered {α : Type} {st : Nat → α → Store} {r : Region} {d e : Nat} {xs : List α}
    (hst : ∀ b, ∀ x ∈ xs, (st b x).addr = b ∧ (st b x).bytes.length = e) (hr : ∀ j < xs.length, j * d + e ≤ r.size) :
    ∀ w ∈ storeEach st r.base d xs, r.Covers w := by
  intro w hw
  rw [storeEach_eq_map, List.mem_mapIdx] at hw
  obtain ⟨j, hj, rfl⟩ := hw
  obtain ⟨haddr, hlen⟩ := hst (r.base + j * d) xs[j] (List.getElem_mem hj)
  have := hr j hj
  exact ⟨by omega, by omega⟩

/-- Pixel (x, y) is one of the first w·h. -/
theorem pixelIndex_lt {x y w h : Nat} (hx : x < w) (hy : y < h) : y * w + x < w * h := by
  have := Nat.mul_le_mul_right w (show y + 1 ≤ h from hy)
  rw [Nat.add_mul, Nat.one_mul, Nat.mul_comm h w] at this
  omega

/-- A block put back into a plane writes one byte at each of some pixels of the image. -/
theorem insertBlock_mem {addr : Nat → Nat → Nat} {w h col row : Nat} {f : List F64} {ws : List Store}
    (hws : insertBlock addr w h col row f = .ok ws) {v : Store} (hv : v ∈ ws) :
    ∃ x < w, ∃ y < h, v.addr = addr x y ∧ v.bytes.length = 1 := by
  simp only [insertBlock, bind_ok_iff, pure_ok_iff] at hws
  obtain ⟨vss, hvss, rfl⟩ := hws
  obtain ⟨vs, hvs, hv⟩ := List.mem_flatten.1 hv
  obtain ⟨k, -, hk⟩ := mem_of_mapE_ok hvss hvs
  unfold insertElem at hk
  split at hk
  · rename_i hin
    simp only [bind_ok_iff, pure_ok_iff] at hk
    obtain ⟨x, -, rfl⟩ := hk
    obtain rfl := List.mem_singleton.1 hv
    exact ⟨_, hin.1, _, hin.2, rfl, rfl⟩
  · cases hk
    cases hv

/-! ### The commands of the color converter, the transform and the block codec -/

/-- `CSC_FWD` gives three values for a pixel. -/
theorem yuvOfRgb_length {r g b : F64} {yuv : List F64} (h : yuvOfRgb r g b = .ok yuv) : yuv.length = 3 := by
  unfold yuvOfRgb at h
  iterate 15 obtain ⟨_, -, h⟩ := (bind_ok_iff _ _ _).1 h
  obtain rfl := (pure_ok_iff _ _).1 h
  rfl

/-- `CSC_INV` gives three values for a pixel. -/
theorem rgbOfYuv_length {y u v : F64} {rgb : List F64} (h : rgbOfYuv y u v = .ok rgb) : rgb.length = 3 := by
  unfold rgbOfYuv at h
  iterate 8 obtain ⟨_, -, h⟩ := (bind_ok_iff _ _ _).1 h
  obtain rfl := (pure_ok_iff _ _).1 h
  rfl

theorem runCscFwd_fits {s : State} {st : Staged} (h : runCscFwd s = .ok st) : st.Fits .cscFwd s := by
  simp only [runCscFwd, bind_ok_iff, regionChecks_ok_iff, pure_ok_iff] at h
  obtain ⟨-, ⟨-, hr⟩, ws, hws, rfl⟩ := h
  refine fits_ofWrites hr fun w hw => ⟨_, List.mem_singleton_self _, ?_⟩
  obtain ⟨p, hp, hpix⟩ := mem_of_mapE_ok hws hw
  simp only [cscFwdPixel, bind_ok_iff, pure_ok_iff] at hpix
  obtain ⟨yuv, hyuv, rfl⟩ := hpix
  have hlen := stArray_length f64Bytes_length (s.dst + 24 * p) yuv
  rw [yuvOfRgb_length hyuv] at hlen
  have := List.mem_range.1 hp
  refine ⟨Nat.le_add_right _ _, ?_⟩
  show s.dst + 24 * p + (stArray f64Bytes (s.dst + 24 * p) yuv).bytes.length ≤ s.dst + 24 * s.elements
  omega

theorem runCscInv_fits {s : State} {st : Staged} (h : runCscInv s = .ok st) : st.Fits .cscInv s := by
  simp only [runCscInv, bind_ok_iff, regionChecks_ok_iff, pure_ok_iff] at h
  obtain ⟨-, ⟨-, hr⟩, ws, hws, rfl⟩ := h
  refine fits_ofWrites hr fun w hw => ⟨_, List.mem_singleton_self _, ?_⟩
  obtain ⟨p, hp, hpix⟩ := mem_of_mapE_ok hws hw
  simp only [cscInvPixel, bind_ok_iff, pure_ok_iff] at hpix
  obtain ⟨y, -, u, -, v, -, rgb, hrgb, rfl⟩ := hpix
  have hlen := rgbOfYuv_length hrgb
  have := List.mem_range.1 hp
  refine ⟨Nat.le_add_right _ _, ?_⟩
  simp only [List.length_map, hlen]
  omega

theorem runFdct_fits {s : State} {st : Staged} (h : runFdct s = .ok st) : st.Fits .fdct s := by
  simp only [runFdct, bind_ok_iff, regionChecks_ok_iff, pure_ok_iff] at h
  obtain ⟨-, ⟨-, hr⟩, b, -, d, hd, rfl⟩ := h
  exact fits_ofWrites hr (storeBlock_covered (fdct_length hd))

theorem runIdct_fits {s : State} {st : Staged} (h : runIdct s = .ok st) : st.Fits .idct s := by
  simp only [runIdct, bind_ok_iff, regionChecks_ok_iff, pure_ok_iff] at h
  obtain ⟨-, ⟨-, hr⟩, f, -, b, hb, rfl⟩ := h
  exact fits_ofWrites hr (storeBlock_covered (idct_length hb))

theorem runDequant_fits {s : State} {st : Staged} (h : runDequant s = .ok st) : st.Fits .dequant s := by
  simp only [runDequant, bind_ok_iff, regionChecks_ok_iff, pure_ok_iff] at h
  obtain ⟨-, -, -, ⟨-, hr⟩, rfl⟩ := h
  exact fits_ofWrites hr (storeBlock_covered (by simp [loadCoefs]))

theorem runBlkExtract_fits {s : State} {st : Staged} (h : runBlkExtract s = .ok st) : st.Fits .blkExtract s := by
  simp only [runBlkExtract, bind_ok_iff, regionChecks_ok_iff, pure_ok_iff] at h
  obtain ⟨-, -, -, -, -, ⟨-, hr⟩, rfl⟩ := h
  exact fits_ofWrites hr (storeBlock_covered (by simp [extractBlock]))

theorem runQuant_fits {s : State} {st : Staged} (h : runQuant s = .ok st) : st.Fits .quant s := by
  simp only [runQuant, bind_ok_iff, regionChecks_ok_iff, pure_ok_iff] at h
  obtain ⟨-, -, -, ⟨-, hr⟩, d, hd, q, hq, rfl⟩ := h
  refine fits_ofWrites hr fun w hw => ⟨_, List.mem_singleton_self _, ?_⟩
  obtain rfl := List.mem_singleton.1 hw
  refine ⟨Nat.le_refl _, ?_⟩
  rw [stArray_length i16Bytes_length, mapE_length hq, mapE_length hd, List.length_range]
  exact Nat.le_refl _

theorem runBlkInsert_fits {s : State} {st : Staged} (h : runBlkInsert s = .ok st) : st.Fits .blkInsert s := by
  simp only [runBlkInsert, bind_ok_iff, regionChecks_ok_iff, pure_ok_iff] at h
  obtain ⟨-, -, -, -, -, ⟨-, hr⟩, f, -, ws, hws, rfl⟩ := h
  refine fits_ofWrites hr fun w hw => ⟨_, List.mem_singleton_self _, ?_⟩
  obtain ⟨x, hx, y, hy, haddr, hlen⟩ := insertBlock_mem hws hw
  have := le_stridedSize (d := s.dstStride) (e := 1) (pixelIndex_lt hx hy)
  rw [planeAddr, Nat.mul_comm] at haddr
  exact ⟨by simp only; omega, by simp only; omega⟩

/-- A coefficient set of the image lies in its region. -/
theorem encodeChannel_covered {s : State} {c : Nat} {ws : List Store} (h : encodeChannel s c = .ok ws) :
    ∀ w ∈ ws, Region.Covers ⟨s.coefBase c, 2, s.coefSetSize⟩ w := by
  simp only [encodeChannel, bind_ok_iff, pure_ok_iff] at h
  obtain ⟨blocks, hblocks, rfl⟩ := h
  refine storeEach_covered (r := ⟨s.coefBase c, 2, s.coefSetSize⟩) (e := 128) (fun b q hq => ⟨rfl, ?_⟩) fun j hj => ?_
  · obtain ⟨k, -, hk⟩ := mem_of_mapE_ok hblocks hq
    simp only [encodeBlock, bind_ok_iff] at hk
    obtain ⟨d, hd, hq⟩ := hk
    rw [stArray_length i16Bytes_length, mapE_length hq, fdct_length hd]
  · rw [mapE_length hblocks, List.length_range] at hj
    simp only [State.coefSetSize]
    omega

theorem runEncode_fits {s : State} {st : Staged} (h : runEncode s = .ok st) : st.Fits .encode s := by
  simp only [runEncode, bind_ok_iff, regionChecks_ok_iff, pure_ok_iff] at h
  obtain ⟨-, -, -, ⟨-, hr⟩, wss, hwss, rfl⟩ := h
  refine fits_ofWrites hr fun w hw => ?_
  obtain ⟨ws, hws, hw⟩ := List.mem_flatten.1 hw
  obtain ⟨c, hc, hch⟩ := mem_of_mapE_ok hwss hws
  refine ⟨⟨s.coefBase c, 2, s.coefSetSize⟩, ?_, encodeChannel_covered hch w hw⟩
  exact List.mem_map_of_mem (f := fun c => (⟨s.coefBase c, 2, s.coefSetSize⟩ : Region)) hc

/-! ### `AQ` -/

/-- The seeds are no more than the levels left. -/
theorem seedCenters_length {levels k cum : Nat} {per : F64} {bins : List (Nat × F64)} {cs : List F64}
    (h : seedCenters levels per k cum bins = .ok cs) : cs.length ≤ levels - k := by
  induction bins generalizing k cum cs with
  | nil =>
    cases h
    exact Nat.zero_le _
  | cons bin bins ih =>
    unfold seedCenters at h
    split at h
    · rename_i hk
      obtain ⟨target, -, h⟩ := (bind_ok_iff _ _ _).1 h
      split at h
      · simp only [bind_ok_iff, pure_ok_iff] at h
        obtain ⟨rest, hrest, rfl⟩ := h
        have := ih hrest
        simp only [List.length_cons]
        omega
      · exact ih h
    · cases h
      exact Nat.zero_le _

/-- Seeds and fallback values are one center a level. -/
theorem initialCenters_length {levels n : Nat} {mn range : F64} {bins : List (Nat × F64)} {cs : List F64}
    (h : initialCenters levels n mn range bins = .ok cs) : cs.length = levels := by
  simp only [initialCenters, bind_ok_iff, pure_ok_iff] at h
  obtain ⟨per, -, seeds, hseeds, stepL, -, rest, hrest, rfl⟩ := h
  have hle := seedCenters_length hseeds
  rw [List.length_append, mapE_length hrest, List.length_drop, List.length_range]
  omega

theorem insertAscending_length (x : F64) (xs : List F64) : (insertAscending x xs).length = xs.length + 1 := by
  induction xs with
  | nil => rfl
  | cons y ys ih =>
    unfold insertAscending
    split
    · rfl
    · rw [List.length_cons, ih, List.length_cons]

theorem sortAscending_length (xs : List F64) : (sortAscending xs).length = xs.length := by
  have insertAll (xs acc : List F64) :
      (xs.foldl (fun acc x => insertAscending x acc) acc).length = acc.length + xs.length := by
    induction xs generalizing acc with
    | nil => rfl
    | cons x xs ih =>
      rw [List.foldl_cons, ih, insertAscending_length, List.length_cons]
      omega
  rw [sortAscending, insertAll, List.length_nil, Nat.zero_add]

/-- A pass gives no new center. -/
theorem refinePass_length {bins : List (Nat × F64)} {cs : List F64} {p : List F64 × F64} (h : refinePass bins cs = .ok p) :
    p.1.length ≤ cs.length := by
  simp only [refinePass, bind_ok_iff, pure_ok_iff] at h
  obtain ⟨tally, -, upd, hupd, rfl⟩ := h
  rw [List.length_map, mapE_length hupd, List.length_zip]
  exact Nat.min_le_left _ _

/-- Refinement gives no new center. -/
theorem refine_length {bins : List (Nat × F64)} {fuel iters : Nat} {cs : List F64} {r : List F64 × Nat}
    (h : refine bins fuel cs iters = .ok r) : r.1.length ≤ cs.length := by
  induction fuel generalizing cs iters with
  | zero =>
    cases h
    exact Nat.le_refl _
  | succ fuel ih =>
    obtain ⟨p, hp, h⟩ := (bind_ok_iff _ _ _).1 h
    have hpass := refinePass_length hp
    rw [← sortAscending_length] at hpass
    split at h
    · obtain rfl := (pure_ok_iff _ _).1 h
      exact hpass
    · exact (ih h).trans hpass

/-- The quantizer gives at most one center a level, and one output a sample. -/
theorem aqQuantize_length {levels maxIter : Nat} {xs : List F64} {r : AqOutcome} (h : aqQuantize levels maxIter xs = .ok r) :
    r.centers.length ≤ levels ∧ r.out.length = xs.length := by
  cases xs with
  | nil =>
    cases h
    exact ⟨Nat.zero_le _, rfl⟩
  | cons x xs =>
    simp only [aqQuantize] at h
    split at h
    · cases h
      exact ⟨by simp, by simp⟩
    · simp only [aqGeneral, bind_ok_iff, pure_ok_iff] at h
      obtain ⟨range, -, w, -, nums, -, mids, -, seeds, hseeds, centers, hcenters, bnd, -, rfl⟩ := h
      refine ⟨?_, List.length_map _⟩
      rw [sortAscending_length, ← initialCenters_length hseeds]
      exact refine_length hcenters

/-- One sample of `sampleSize` bytes for each element lies in the destination region. -/
theorem aqOutput_covered {α : Type} {s : State} {st : Nat → α → Store} {xs : List α}
    (hst : ∀ b x, (st b x).addr = b ∧ (st b x).bytes.length = s.sampleSize) (h : xs.length = s.elements) :
    ∀ w ∈ storeEach st s.dst s.dstStride xs,
      Region.Covers ⟨s.dst, s.sampleSize, stridedSize s.elements s.dstStride s.sampleSize⟩ w :=
  storeEach_covered (r := ⟨s.dst, s.sampleSize, stridedSize s.elements s.dstStride s.sampleSize⟩)
    (fun b x _ => hst b x) fun _ hj => le_stridedSize (h ▸ hj)

/-- A stored byte is one sample with `FMT` 1. -/
theorem stU8_sample {s : State} (h : s.opr.aqFmt = true) (b : Nat) (x : Byte) :
    (stU8 b x).addr = b ∧ (stU8 b x).bytes.length = s.sampleSize :=
  ⟨rfl, (if_pos h).symm⟩

/-- A stored binary64 value is one sample with `FMT` 0. -/
theorem stF64_sample {s : State} (h : ¬s.opr.aqFmt = true) (b : Nat) (x : F64) :
    (stF64 b x).addr = b ∧ (stF64 b x).bytes.length = s.sampleSize :=
  ⟨rfl, (f64Bytes_length x).trans (if_neg h).symm⟩

/-- The quantized samples lie in the destination region. -/
theorem aqStoreSamples_covered {s : State} {xs : List F64} (h : xs.length = s.elements) :
    ∀ w ∈ aqStoreSamples s xs,
      Region.Covers ⟨s.dst, s.sampleSize, stridedSize s.elements s.dstStride s.sampleSize⟩ w := by
  unfold aqStoreSamples
  split
  · rename_i hfmt
    exact aqOutput_covered (stU8_sample hfmt) ((List.length_map _).trans h)
  · rename_i hfmt
    exact aqOutput_covered (stF64_sample hfmt) h

/-- The samples passed through lie in the destination region. -/
theorem aqPassthrough_covered {s : State} {xs : List F64} (h : xs.length = s.elements) :
    ∀ w ∈ (aqPassthrough s xs).writes,
      Region.Covers ⟨s.dst, s.sampleSize, stridedSize s.elements s.dstStride s.sampleSize⟩ w := by
  simp only [aqPassthrough]
  split
  · rename_i hfmt
    exact aqOutput_covered (stU8_sample hfmt) ((List.length_map _).trans List.length_range)
  · rename_i hfmt
    exact aqOutput_covered (stF64_sample hfmt) h

theorem runAq_fits {s : State} {st : Staged} (h : runAq s = .ok st) : st.Fits .aq s := by
  obtain ⟨_, hchecks, h⟩ := (bind_ok_iff _ _ _).1 h
  obtain ⟨xs, hxs, h⟩ := (bind_ok_iff _ _ _).1 h
  simp only [aqChecks, bind_ok_iff, failIf_ok_iff, regionChecks_ok_iff] at hchecks
  obtain ⟨-, hbits, -, -, -, -, -, hr⟩ := hchecks
  have hlen : xs.length = s.elements := by rw [mapE_length hxs, List.length_range]
  split at h
  · obtain rfl := (pure_ok_iff _ _).1 h
    exact ⟨outputRegions_inRange hr, fun w hw => ⟨_, List.mem_cons_self, aqPassthrough_covered hlen w hw⟩,
      fun hne => absurd rfl hne, fun _ => rfl⟩
  · rename_i hdepth
    simp only [bind_ok_iff, pure_ok_iff] at h
    obtain ⟨r, hq, rfl⟩ := h
    obtain ⟨hcenters, hout⟩ := aqQuantize_length hq
    have hout := hout.trans hlen
    have hlow : 1 ≤ s.depth ∧ s.depth ≤ 7 := by
      simp only [Bool.or_eq_false_iff, beq_eq_false_iff_ne, decide_eq_false_iff_not] at hbits
      omega
    refine ⟨outputRegions_inRange hr, fun w hw => ?_, fun hne => absurd rfl hne, fun _ => rfl⟩
    rcases List.mem_append.1 hw with hw | hw
    · exact ⟨_, List.mem_cons_self, aqStoreSamples_covered hout w hw⟩
    · refine ⟨⟨s.aux, 8, 8 * s.levels⟩, by simp [outputRegions, hlow], ?_⟩
      refine storeEach_covered (r := ⟨s.aux, 8, 8 * s.levels⟩) (e := 8) (fun _ _ _ => ⟨rfl, f64Bytes_length _⟩)
        (fun j hj => ?_) w hw
      simp only
      omega

/-! ### The decoder commands -/

/-- What a successful `PD_INIT` found and stages (R301). -/
theorem runPdInit_ok {s : State} {st : Staged} (h : runPdInit s = .ok st) :
    ∃ m, allAligned .pdInit s = true ∧ allInRange .pdInit s = true ∧
      st = { writes := [], aq := none, pd := some (initialContext s m, (initialContext s m).stepsRemain) } := by
  obtain ⟨_, -, h⟩ := (bind_ok_iff _ _ _).1 h
  split at h
  · cases h
  · rename_i m hm
    simp only [bind_ok_iff, regionChecks_ok_iff, pure_ok_iff] at h
    obtain ⟨-, ⟨halign, hrange⟩, rfl⟩ := h
    exact ⟨m, halign, hrange, rfl⟩

/-- What a successful `PD_STEP` found and stages: nothing but `MORE` when the sequence is exhausted (R318), else the rendered
blocks and the next step (R311). -/
theorem runPdStep_ok {s : State} {st : Staged} (h : runPdStep s = .ok st) :
    s.pd.valid = true ∧
      ((s.pd.exhausted = true ∧ st = { writes := [], aq := none, pd := some (s.pd, false) }) ∨
        (s.pd.exhausted = false ∧ Region.inRange ⟨s.dst, 1, s.pd.outputSize⟩ s.lmemBytes = true ∧
          ∃ wss, mapE (renderBlock s) (blocksRendered s.pd) = .ok wss ∧
            st = { writes := zeroOutput s ++ wss.flatten, aq := none
                   pd := some (s.pd.advance, s.pd.advance.stepsRemain) })) := by
  obtain ⟨_, hvalid, h⟩ := (bind_ok_iff _ _ _).1 h
  refine ⟨by simpa using hvalid, ?_⟩
  split at h
  · rename_i hex
    exact .inl ⟨hex, ((pure_ok_iff _ _).1 h).symm⟩
  · rename_i hex
    simp only [bind_ok_iff, failIf_ok_iff, pure_ok_iff, Bool.not_eq_false'] at h
    obtain ⟨-, hrange, -, -, wss, hwss, rfl⟩ := h
    exact .inr ⟨by simpa using hex, hrange, wss, hwss, rfl⟩

/-- What a successful `PD_RESET` found and stages (R321). -/
theorem runPdReset_ok {s : State} {st : Staged} (h : runPdReset s = .ok st) :
    s.pd.valid = true ∧
      st = { writes := [], aq := none, pd := some ({ s.pd with step := 0 }, decide (0 < s.pd.total.toNat)) } := by
  simp only [runPdReset, bind_ok_iff, failIf_ok_iff, pure_ok_iff, Bool.not_eq_false'] at h
  obtain ⟨-, hvalid, rfl⟩ := h
  exact ⟨hvalid, rfl⟩

theorem runPdInit_fits {s : State} {st : Staged} (h : runPdInit s = .ok st) : st.Fits .pdInit s := by
  obtain ⟨m, -, hrange, rfl⟩ := runPdInit_ok h
  exact ⟨outputRegions_inRange hrange, fun _ hw => (List.not_mem_nil hw).elim, fun _ => rfl,
    fun hi => absurd List.mem_cons_self hi⟩

/-- A rendered block lies in the decoder's output. -/
theorem renderBlock_covered {s : State} {b : Nat} {ws : List Store} (h : renderBlock s b = .ok ws) :
    ∀ w ∈ ws, Region.Covers ⟨s.dst, 1, s.pd.outputSize⟩ w := by
  intro w hw
  simp only [renderBlock, bind_ok_iff, pure_ok_iff] at h
  obtain ⟨wss, hwss, rfl⟩ := h
  obtain ⟨ws, hws, hw⟩ := List.mem_flatten.1 hw
  obtain ⟨c, hc, hchannel⟩ := mem_of_mapE_ok hwss hws
  have hc : c < 3 := List.mem_range.1 hc
  obtain ⟨f, -, hinsert⟩ := (bind_ok_iff _ _ _).1 hchannel
  obtain ⟨x, hx, y, hy, haddr, hlen⟩ := insertBlock_mem hinsert hw
  have hpixel := pixelIndex_lt hx hy
  simp only [planeAddr] at haddr
  simp only [Region.Covers, PdContext.outputSize]
  omega

/-- The zeroing covers the decoder's output exactly. -/
theorem zeroOutput_covered (s : State) : ∀ w ∈ zeroOutput s, Region.Covers ⟨s.dst, 1, s.pd.outputSize⟩ w := by
  intro w hw
  unfold zeroOutput at hw
  split at hw
  · obtain rfl := List.mem_singleton.1 hw
    exact ⟨Nat.le_refl _, by simp⟩
  · cases hw

theorem runPdStep_fits {s : State} {st : Staged} (h : runPdStep s = .ok st) : st.Fits .pdStep s := by
  have hcontext : Instr.pdStep ∉ [Instr.pdInit, .pdStep, .pdReset] → st.pd = none := fun hi => absurd (by decide) hi
  obtain ⟨-, ⟨hex, rfl⟩ | ⟨hex, hrange, wss, hwss, rfl⟩⟩ := runPdStep_ok h
  · exact ⟨by simp [outputRegions, hex], fun _ hw => (List.not_mem_nil hw).elim, fun _ => rfl, hcontext⟩
  · have hregions : outputRegions .pdStep s = [⟨s.dst, 1, s.pd.outputSize⟩] := by simp [outputRegions, hex]
    refine ⟨by simpa [hregions] using hrange, fun w hw => ?_, fun _ => rfl, hcontext⟩
    rw [hregions]
    refine ⟨_, List.mem_singleton_self _, ?_⟩
    rcases List.mem_append.1 hw with hw | hw
    · exact zeroOutput_covered s w hw
    · obtain ⟨ws, hws, hw⟩ := List.mem_flatten.1 hw
      obtain ⟨b, -, hb⟩ := mem_of_mapE_ok hwss hws
      exact renderBlock_covered hb w hw

theorem runPdReset_fits {s : State} {st : Staged} (h : runPdReset s = .ok st) : st.Fits .pdReset s := by
  obtain ⟨-, rfl⟩ := runPdReset_ok h
  exact ⟨fun _ hr => (List.not_mem_nil hr).elim, fun _ hw => (List.not_mem_nil hw).elim, fun _ => rfl,
    fun hi => absurd (by decide) hi⟩

/-! ### Every command -/

/-- What any command stages on success. -/
theorem resultOf_fits {i : Instr} {s : State} {st : Staged} (h : resultOf i s = .ok st) : st.Fits i s := by
  cases i with
  | nop =>
    cases h
    exact ⟨fun _ hr => (List.not_mem_nil hr).elim, fun _ hw => (List.not_mem_nil hw).elim, fun _ => rfl, fun _ => rfl⟩
  | cscFwd => exact runCscFwd_fits h
  | cscInv => exact runCscInv_fits h
  | aq => exact runAq_fits h
  | fdct => exact runFdct_fits h
  | idct => exact runIdct_fits h
  | quant => exact runQuant_fits h
  | dequant => exact runDequant_fits h
  | blkExtract => exact runBlkExtract_fits h
  | blkInsert => exact runBlkInsert_fits h
  | encode => exact runEncode_fits h
  | pdInit => exact runPdInit_fits h
  | pdStep => exact runPdStep_fits h
  | pdReset => exact runPdReset_fits h

/-- A command other than `PD_INIT` stages no context but the one held, at some step. -/
theorem resultOf_context {i : Instr} {s : State} {st : Staged} (h : resultOf i s = .ok st) (hi : i ≠ .pdInit)
    {p : PdContext × Bool} (hp : st.pd = some p) : p.1 = { s.pd with step := p.1.step } := by
  by_cases hdec : i ∈ [Instr.pdInit, .pdStep, .pdReset]
  · simp only [List.mem_cons, List.not_mem_nil, or_false] at hdec
    rcases hdec with rfl | rfl | rfl
    · exact absurd rfl hi
    · obtain ⟨-, ⟨-, rfl⟩ | ⟨-, -, _, -, rfl⟩⟩ := runPdStep_ok h
      · cases hp; rfl
      · cases hp; rfl
    · obtain ⟨-, rfl⟩ := runPdReset_ok h
      cases hp; rfl
  · rw [(resultOf_fits h).context hdec] at hp
    cases hp

end Sys2Proof.Machine
/-! ## What a completion changes (spec/10_state.md R45, R46, R53, R55) -/

namespace Sys2Proof.Machine

/-- A successful command that is no `AQ` keeps the report registers. -/
theorem aqReportKept_of_ok {i : Instr} {s : State} {st : Staged} (h : resultOf i s = .ok st) (hi : i ≠ .aq) :
    AqReportKept s (succeeded (commit s st)) := by
  simp [AqReportKept, (resultOf_fits h).report hi]

/-- A successful command that is no decoder command keeps the decoder context and `MORE`. -/
theorem decoderKept_of_ok {i : Instr} {s : State} {st : Staged} (h : resultOf i s = .ok st)
    (hi : i ∉ [Instr.pdInit, .pdStep, .pdReset]) : DecoderKept s (succeeded (commit s st)) := by
  simp [DecoderKept, (resultOf_fits h).context hi]

/-- A successful command that is no `PD_INIT` keeps the context but for its step. -/
theorem context_of_ok {i : Instr} {s : State} {st : Staged} (h : resultOf i s = .ok st) (hi : i ≠ .pdInit) :
    (commit s st).pd = { s.pd with step := (commit s st).pd.step } := by
  rw [commit_pd]
  cases hp : st.pd with
  | none => rfl
  | some p => exact resultOf_context h hi hp

/-- Settles O12: a failure keeps everything but the completion fields, and a success stages what `Staged.Fits` and
`resultOf_context` allow the command. -/
theorem reportAndContextHaveTheirWriters : Obligations.ReportAndContextHaveTheirWriters := by
  intro i s t h
  rw [exec_next_iff] at h
  rcases finish_cases s (resultOf i s) with ⟨st, hst, hfin⟩ | ⟨e, -, hfin⟩
  · obtain rfl := h.trans hfin
    have hcode : (succeeded (commit s st)).status.errCode = 0 := rfl
    refine ⟨fun hi => aqReportKept_of_ok hst ?_, fun hi => decoderKept_of_ok hst ?_, context_of_ok hst⟩
    · exact hi.resolve_right fun hne => hne hcode
    · exact hi.resolve_right fun hne => hne hcode
  · obtain rfl := h.trans hfin
    exact ⟨fun _ => ⟨rfl, rfl⟩, fun _ => ⟨rfl, rfl⟩, fun _ => rfl⟩

end Sys2Proof.Machine

/-! ## What a step does to the flags and the decoder context (spec/10_state.md R55) -/

namespace Sys2Proof.Machine

/-- The offsets of the operand registers (spec/10_state.md R36 to R44). -/
def operandOffsets : List Nat := [0x10, 0x14, 0x18, 0x1C, 0x20, 0x24, 0x28, 0x2C, 0x30, 0x34, 0x38, 0x3C, 0x40]

/-- A write finds an operand register exactly at their offsets. -/
theorem writeOperand_eq_none_iff (r : OperandRegs) (o : Nat) (v : Word) :
    writeOperand r o v = none ↔ o ∉ operandOffsets := by
  unfold writeOperand
  split
  case h_14 =>
    refine iff_of_true rfl ?_
    simp_all [operandOffsets]
  all_goals simp [operandOffsets]

/-- A write that finds an operand register is at one of their offsets. -/
theorem mem_operandOffsets {r r' : OperandRegs} {o : Nat} {v : Word} (h : writeOperand r o v = some r') :
    o ∈ operandOffsets := not_not.1 fun hne => by
  rw [(writeOperand_eq_none_iff r o v).2 hne] at h
  cases h

/-- A CSR access is answered exactly when it is 4 bytes wide at a word-aligned offset of the window. -/
theorem csrAccessOk_iff (o w : Nat) : csrAccessOk o w = true ↔ w = 4 ∧ o % 4 = 0 ∧ o < 256 := by
  simp [csrAccessOk, and_assoc]

/-- What a step does to the flags of `STATUS` and to the decoder context, with its cause. -/
inductive FlagEffect (s t : State) : Prop where
  /-- The command in flight succeeds. -/
  | success (ag : List Event) (i : Instr) (st : Staged) (hbusy : s.status.busy = true) (hcmd : decode s.pending = .ok i)
      (hst : resultOf i (s.setAgenda ag) = .ok st) (ht : t = succeeded (commit (s.setAgenda ag) st))
  /-- The command in flight fails. -/
  | failure (e : ErrCode) (hbusy : s.status.busy = true) (hstatus : t.status = s.status.completeError e) (hpd : t.pd = s.pd)
  /-- Neither the flags nor the context change. -/
  | quiet (hstatus : t.status = s.status) (hpd : t.pd = s.pd)
  /-- The host writes `STATUS`. -/
  | clear (v : Word) (rest : List Event) (hev : s.agenda = .csrWrite 0x08 4 v :: rest)
      (hstatus : t.status = s.status.writeOneToClear v) (hpd : t.pd = s.pd)
  /-- A `CMD` write is accepted. -/
  | accept (w : Word) (rest : List Event) (hev : s.agenda = .csrWrite 0x0C 4 w :: rest)
      (hstatus : t.status = s.status.accept) (hpending : t.pending = w) (hpd : t.pd = s.pd)
  /-- A write to `CMD` or to an operand register is ignored. -/
  | overrun (o : Nat) (v : Word) (rest : List Event) (hbusy : s.status.busy = true)
      (hev : s.agenda = .csrWrite o 4 v :: rest) (ho : o ∈ 0x0C :: operandOffsets)
      (hstatus : t.status = s.status.overrun) (hpd : t.pd = s.pd)
  /-- A reset. -/
  | reset (e : Event) (rest : List Event) (hev : s.agenda = e :: rest) (he : e ∈ [Event.reset, .powerCycle])
      (hstatus : t.status = Status.reset) (hpd : t.pd = PdContext.reset)

namespace FlagEffect

/-- The command in flight ends in a success or a failure. -/
theorem of_perform {s t : State} {ag : List Event} (hbusy : s.status.busy = true)
    (h : perform (s.setAgenda ag) = .next t) : FlagEffect s t := by
  unfold perform at h
  split at h
  · rename_i i hcmd
    rw [exec_next_iff] at h
    rcases finish_cases (s.setAgenda ag) (resultOf i (s.setAgenda ag)) with ⟨st, hst, hfin⟩ | ⟨e, -, hfin⟩
    · exact .success ag i st hbusy hcmd hst (h.trans hfin)
    · obtain rfl := h.trans hfin
      exact .failure e hbusy rfl rfl
  · cases h
    exact .failure .badOp hbusy rfl rfl

/-- A host's CSR write does what its register's rule says. -/
theorem of_csrWrite {s : State} {o : Nat} {v : Word} {rest : List Event}
    (hev : s.agenda = .csrWrite o 4 v :: rest) : FlagEffect s (csrWrite (s.setAgenda rest) o v) := by
  rcases csrWrite_cases (s.setAgenda rest) o v with
    ⟨rfl, h⟩ | ⟨rfl, h⟩ | ⟨rfl, h⟩ | ⟨r, hr, hbusy, h⟩ | ⟨r, hr, hidle, h⟩ | ⟨hr, h⟩
  · rw [h]
    exact .quiet rfl rfl
  · rw [h]
    exact .clear v rest hev rfl rfl
  · rw [h, writeCmd]
    split
    · rename_i hbusy
      exact .overrun 0x0C v rest hbusy hev List.mem_cons_self rfl rfl
    · exact .accept v rest hev rfl rfl rfl
  · rw [h]
    exact .overrun o v rest hbusy hev (List.mem_cons_of_mem _ (mem_operandOffsets hr)) rfl rfl
  · rw [h]
    exact .quiet rfl rfl
  · rw [h]
    exact .quiet rfl rfl

/-- A host event changes the flags and the context by a CSR write or a reset alone. -/
theorem of_hostEvent {s t : State} {e : Event} {rest : List Event} (hev : s.agenda = e :: rest)
    (h : hostEvent e (s.setAgenda rest) = .next t) : FlagEffect s t := by
  rcases hostEvent_cases e _ t h with ⟨rfl, rfl⟩ | ⟨o, w, rfl, hok, rfl⟩ | ⟨o, w, v, rfl, hok, rfl⟩ | ⟨a, n, rfl, hok, rfl⟩ |
    ⟨a, bs, rfl, hok, rfl⟩ | ⟨rfl, rfl⟩ | ⟨rfl, rfl⟩
  · exact .quiet rfl rfl
  · exact .quiet rfl rfl
  · obtain rfl := ((csrAccessOk_iff o w).1 hok).1
    exact of_csrWrite hev
  · exact .quiet rfl rfl
  · exact .quiet rfl rfl
  · exact .reset _ rest hev (by decide) rfl rfl
  · exact .reset _ rest hev (by decide) rfl rfl

/-- Every step has one of these effects. -/
theorem of_step {s t : State} (h : step s = .next t) : FlagEffect s t := by
  rcases step_cases s t h with ⟨ag, hbusy, h⟩ | ⟨ag, -, rfl⟩ | ⟨e, rest, hev, -, h⟩
  · exact of_perform hbusy h
  · exact .quiet rfl rfl
  · exact of_hostEvent hev h

/-! ### The cause of each change -/

variable {s t : State} (h : FlagEffect s t)
include h

theorem busy_rises (h0 : s.status.busy = false) (h1 : t.status.busy = true) :
    ∃ w rest, s.agenda = .csrWrite 0x0C 4 w :: rest ∧ t.pending = w := by
  cases h with
  | accept w rest hev hstatus hpending hpd => exact ⟨w, rest, hev, hpending⟩
  | _ => simp_all [Status.reset]

theorem busy_falls (h0 : s.status.busy = true) (h1 : t.status.busy = false) : CompletedIn s t ∨ ResetNext s := by
  cases h with
  | success ag i st hbusy hcmd hst ht => exact .inl ⟨h0, h1, by rw [ht]; rfl⟩
  | failure e hbusy hstatus hpd => exact .inl ⟨h0, h1, by rw [hstatus]; rfl⟩
  | reset e rest hev he hstatus hpd => exact .inr ⟨e, rest, hev, he⟩
  | _ => simp_all

theorem errCode_changes (h0 : s.status.errCode ≠ t.status.errCode) : CompletedIn s t ∨ ResetNext s := by
  cases h with
  | success ag i st hbusy hcmd hst ht => exact .inl ⟨hbusy, by rw [ht]; rfl, by rw [ht]; rfl⟩
  | failure e hbusy hstatus hpd => exact .inl ⟨hbusy, by rw [hstatus]; rfl, by rw [hstatus]; rfl⟩
  | reset e rest hev he hstatus hpd => exact .inr ⟨e, rest, hev, he⟩
  | _ => simp_all

theorem done_rises (h0 : s.status.done = false) (h1 : t.status.done = true) : CompletedIn s t := by
  cases h with
  | success ag i st hbusy hcmd hst ht => exact ⟨hbusy, by rw [ht]; rfl, h1⟩
  | failure e hbusy hstatus hpd => exact ⟨hbusy, by rw [hstatus]; rfl, h1⟩
  | _ => simp_all [Status.reset]

theorem err_rises (h0 : s.status.err = false) (h1 : t.status.err = true) : CompletedIn s t ∧ t.status.errCode ≠ 0 := by
  cases h with
  | failure e hbusy hstatus hpd =>
    rw [CompletedIn, hstatus]
    exact ⟨⟨hbusy, rfl, rfl⟩, errorCode_ne_zero e⟩
  | _ => simp_all [Status.reset]

theorem ovr_rises (h0 : s.status.ovr = false) (h1 : t.status.ovr = true) :
    s.status.busy = true ∧ ∃ o v rest, s.agenda = .csrWrite o 4 v :: rest ∧ o ∈ 0x0C :: operandOffsets := by
  cases h with
  | overrun o v rest hbusy hev ho hstatus hpd => exact ⟨hbusy, o, v, rest, hev, ho⟩
  | _ => simp_all [Status.reset]

theorem pdv_rises (h0 : s.pd.valid = false) (h1 : t.pd.valid = true) :
    CompletedIn s t ∧ t.status.errCode = 0 ∧ decode s.pending = .ok .pdInit := by
  cases h with
  | success ag i st hbusy hcmd hst ht =>
    subst ht
    by_cases hi : i = .pdInit
    · exact ⟨⟨hbusy, rfl, rfl⟩, rfl, hi ▸ hcmd⟩
    · rw [succeeded_pd, context_of_ok hst hi] at h1
      exact absurd (h0.symm.trans h1) Bool.false_ne_true
  | _ => simp_all [PdContext.reset]

theorem pdv_falls (h0 : s.pd.valid = true) (h1 : t.pd.valid = false) : ResetNext s := by
  cases h with
  | success ag i st hbusy hcmd hst ht =>
    subst ht
    by_cases hi : i = .pdInit
    · subst hi
      obtain ⟨m, -, -, rfl⟩ := runPdInit_ok hst
      cases h1
    · rw [succeeded_pd, context_of_ok hst hi] at h1
      exact absurd (h0.symm.trans h1).symm Bool.false_ne_true
  | reset e rest hev he hstatus hpd => exact ⟨e, rest, hev, he⟩
  | _ => simp_all

theorem more_changes (h0 : s.status.more ≠ t.status.more) :
    (CompletedIn s t ∧ t.status.errCode = 0 ∧ ∃ i ∈ [Instr.pdInit, .pdStep, .pdReset], decode s.pending = .ok i) ∨
      ResetNext s := by
  cases h with
  | success ag i st hbusy hcmd hst ht =>
    subst ht
    have hi : i ∈ [Instr.pdInit, .pdStep, .pdReset] := not_not.1 fun hi => h0 (decoderKept_of_ok hst hi).2.symm
    exact .inl ⟨⟨hbusy, rfl, rfl⟩, rfl, i, hi, hcmd⟩
  | reset e rest hev he hstatus hpd => exact .inr ⟨e, rest, hev, he⟩
  | _ => simp_all

theorem err_falls (h0 : s.status.err = true) (h1 : t.status.err = false) :
    ∃ e rest, s.agenda = e :: rest ∧
      (e ∈ [Event.reset, .powerCycle] ∨ ∃ v, e = .csrWrite 0x08 4 v ∧ v.getLsbD 2 = true) := by
  cases h with
  | clear v rest hev hstatus hpd => exact ⟨_, rest, hev, .inr ⟨v, rfl, by simpa [hstatus, h0] using h1⟩⟩
  | reset e rest hev he hstatus hpd => exact ⟨e, rest, hev, .inl he⟩
  | _ => simp_all

theorem ovr_falls (h0 : s.status.ovr = true) (h1 : t.status.ovr = false) :
    ∃ e rest, s.agenda = e :: rest ∧
      (e ∈ [Event.reset, .powerCycle] ∨ ∃ v, e = .csrWrite 0x08 4 v ∧ v.getLsbD 5 = true) := by
  cases h with
  | clear v rest hev hstatus hpd => exact ⟨_, rest, hev, .inr ⟨v, rfl, by simpa [hstatus, h0] using h1⟩⟩
  | reset e rest hev he hstatus hpd => exact ⟨e, rest, hev, .inl he⟩
  | _ => simp_all

theorem done_falls (h0 : s.status.done = true) (h1 : t.status.done = false) :
    ∃ e rest, s.agenda = e :: rest ∧
      (e ∈ [Event.reset, .powerCycle] ∨ (∃ v, e = .csrWrite 0x08 4 v ∧ v.getLsbD 1 = true) ∨
        ∃ w, e = .csrWrite 0x0C 4 w ∧ t.status.busy = true) := by
  cases h with
  | clear v rest hev hstatus hpd => exact ⟨_, rest, hev, .inr (.inl ⟨v, rfl, by simpa [hstatus, h0] using h1⟩)⟩
  | accept w rest hev hstatus hpending hpd => exact ⟨_, rest, hev, .inr (.inr ⟨w, rfl, by rw [hstatus]; rfl⟩)⟩
  | reset e rest hev he hstatus hpd => exact ⟨e, rest, hev, .inl he⟩
  | _ => simp_all

end FlagEffect

/-- Settles O60: each step has one of the effects `FlagEffect` lists, and each change has its cause in one of them. -/
theorem flagsChangeOnlyForTheirCause : Obligations.FlagsChangeOnlyForTheirCause := fun _ _ h =>
  have effect := FlagEffect.of_step h
  ⟨effect.busy_rises, effect.busy_falls, effect.errCode_changes, effect.done_rises, effect.err_rises, effect.ovr_rises,
    effect.pdv_rises, effect.more_changes, effect.err_falls, effect.ovr_falls, effect.done_falls, effect.pdv_falls⟩

end Sys2Proof.Machine

/-! ## The invariants (spec/10_state.md R53, spec/20_memory.md R80, spec/44_progressive_decoder.md R323) -/

namespace Sys2Proof.Machine

open Host (Outcome)

/-! ### LMEM and the build parameter -/

theorem commit_lmemExp (s : State) (st : Staged) : (commit s st).lmemExp = s.lmemExp := by
  obtain ⟨-, -, -, -, hexp, -⟩ := commit_kept s st
  exact hexp

theorem commit_lmemBytes (s : State) (st : Staged) : (commit s st).lmemBytes = s.lmemBytes := by
  rw [State.lmemBytes, commit_lmemExp, State.lmemBytes]

/-- The LMEM invariant speaks of LMEM and the build parameter alone. -/
theorem State.LmemInv.of_eq {s t : State} (h : s.LmemInv) (hlmem : t.lmem = s.lmem) (hexp : t.lmemExp = s.lmemExp) :
    t.LmemInv := by
  rwa [State.LmemInv, State.lmemBytes, hlmem, hexp]

/-- A successful command keeps LMEM canonical and below `LMEM_BYTES`. -/
theorem State.LmemInv.commit {s : State} (h : s.LmemInv) {i : Instr} {st : Staged} (hst : st.Fits i s) :
    (commit s st).LmemInv := by
  obtain ⟨hwf, hlt⟩ := h
  rw [State.LmemInv, commit_lmem, commit_lmemBytes]
  exact ⟨applyStores_wf _ _ hwf, applyStores_lt _ _ _ hlt fun _ => hst.lt_lmemBytes⟩

/-- A command's end keeps the LMEM invariant. -/
theorem State.LmemInv.finish {s : State} (h : s.LmemInv) (i : Instr) : (finish s (resultOf i s)).LmemInv := by
  rcases finish_cases s (resultOf i s) with ⟨st, hst, hfin⟩ | ⟨e, -, hfin⟩
  · rw [hfin]
    exact h.commit (resultOf_fits hst)
  · rw [hfin]
    exact h

/-- Performing the command in flight keeps the LMEM invariant and the build parameter. -/
theorem State.LmemInv.perform {s t : State} (h : s.LmemInv) (ht : perform s = .next t) :
    t.LmemInv ∧ t.lmemExp = s.lmemExp := by
  obtain ⟨u, hu, -, -, -, -, hexp, -⟩ := perform_next s
  obtain rfl := Outcome.next.inj (ht.symm.trans hu)
  refine ⟨?_, hexp⟩
  unfold Machine.perform at ht
  split at ht
  · obtain rfl := (exec_next_iff _ _ _).1 ht
    exact h.finish _
  · cases ht
    exact h

/-- A CSR write leaves LMEM and the build parameter as they are. -/
theorem csrWrite_lmem (s : State) (o : Nat) (v : Word) :
    (csrWrite s o v).lmem = s.lmem ∧ (csrWrite s o v).lmemExp = s.lmemExp := by
  rcases csrWrite_cases s o v with ⟨-, h⟩ | ⟨-, h⟩ | ⟨-, h⟩ | ⟨r, -, -, h⟩ | ⟨r, -, -, h⟩ | ⟨-, h⟩
  · rw [h]; exact ⟨rfl, rfl⟩
  · rw [h]; exact ⟨rfl, rfl⟩
  · rw [h, writeCmd]
    split
    · exact ⟨rfl, rfl⟩
    · exact ⟨rfl, rfl⟩
  · rw [h]; exact ⟨rfl, rfl⟩
  · rw [h]; exact ⟨rfl, rfl⟩
  · rw [h]; exact ⟨rfl, rfl⟩

/-- A host event keeps the LMEM invariant and the build parameter. -/
theorem State.LmemInv.hostEvent {s t : State} {e : Event} (h : s.LmemInv) (ht : hostEvent e s = .next t) :
    t.LmemInv ∧ t.lmemExp = s.lmemExp := by
  rcases hostEvent_cases e s t ht with ⟨-, rfl⟩ | ⟨o, w, -, -, rfl⟩ | ⟨o, w, v, -, -, rfl⟩ | ⟨a, n, -, -, rfl⟩ |
    ⟨a, bs, -, hok, rfl⟩ | ⟨-, rfl⟩ | ⟨-, rfl⟩
  · exact ⟨h, rfl⟩
  · exact ⟨h, rfl⟩
  · obtain ⟨hlmem, hexp⟩ := csrWrite_lmem s o v
    exact ⟨h.of_eq hlmem hexp, hexp⟩
  · exact ⟨h, rfl⟩
  · obtain ⟨hwf, hlt⟩ := h
    refine ⟨⟨writeRun_wf _ _ _ hwf, writeRun_lt _ _ _ _ hlt ?_⟩, rfl⟩
    simpa [lmemAccessOk] using hok
  · obtain ⟨hwf, hlt⟩ := h
    exact ⟨⟨lmemOverReset_wf s hwf, lmemOverReset_lt s hlt⟩, rfl⟩
  · exact ⟨⟨rfl, fun _ hc => (List.not_mem_nil hc).elim⟩, rfl⟩

/-- Every step keeps the LMEM invariant and the build parameter. -/
theorem State.LmemInv.step {s t : State} (h : s.LmemInv) (ht : step s = .next t) : t.LmemInv ∧ t.lmemExp = s.lmemExp := by
  have hag (ag : List Event) : (s.setAgenda ag).LmemInv := h
  rcases step_cases s t ht with ⟨ag, -, ht⟩ | ⟨ag, -, rfl⟩ | ⟨e, rest, -, -, ht⟩
  · exact (hag ag).perform ht
  · exact ⟨hag ag, rfl⟩
  · exact (hag rest).hostEvent ht

/-! ### The completion fields -/

theorem errorCode_toNat_le (e : ErrCode) : (errorCode e).toNat ≤ 13 := by cases e <;> decide

/-- Each effect keeps `BUSY` and `DONE` apart and the error code in the table. -/
theorem FlagEffect.statusInv {s t : State} (h : FlagEffect s t) (hs : s.StatusInv) : t.StatusInv := by
  obtain ⟨happart, hcode⟩ := hs
  cases h with
  | success ag i st hbusy hcmd hst ht =>
    rw [ht]
    exact ⟨fun hboth => Bool.false_ne_true hboth.1, Nat.zero_le _⟩
  | failure e hbusy hstatus hpd =>
    rw [State.StatusInv, hstatus]
    exact ⟨fun hboth => Bool.false_ne_true hboth.1, errorCode_toNat_le e⟩
  | quiet hstatus hpd =>
    rw [State.StatusInv, hstatus]
    exact ⟨happart, hcode⟩
  | clear v rest hev hstatus hpd =>
    rw [State.StatusInv, hstatus]
    refine ⟨fun ⟨hbusy, hdone⟩ => happart ⟨hbusy, ?_⟩, hcode⟩
    rw [Status.writeOneToClear_done, Bool.and_eq_true] at hdone
    exact hdone.1
  | accept w rest hev hstatus hpending hpd =>
    rw [State.StatusInv, hstatus]
    exact ⟨fun hboth => Bool.false_ne_true hboth.2, hcode⟩
  | overrun o v rest hbusy hev ho hstatus hpd =>
    rw [State.StatusInv, hstatus]
    exact ⟨happart, hcode⟩
  | reset e rest hev he hstatus hpd =>
    rw [State.StatusInv, hstatus]
    exact ⟨fun hboth => Bool.false_ne_true hboth.1, Nat.zero_le _⟩

/-! ### The decoder context -/

/-- The decoder invariant speaks of the context, `MORE` and the build parameter alone. -/
theorem State.DecoderInv.of_eq {s t : State} (h : s.DecoderInv) (hpd : t.pd = s.pd)
    (hmore : t.status.more = s.status.more) (hexp : t.lmemExp = s.lmemExp) : t.DecoderInv := by
  rwa [State.DecoderInv, State.lmemBytes, hpd, hmore, hexp]

/-- What the decoder invariant asks of a valid context. -/
theorem State.decoderInv_of_valid {t : State} (hvalid : t.pd.valid = true)
    (htotal : t.pd.total.toNat = totalSteps t.pd.mode t.pd.w.toNat t.pd.h.toNat) (hstep : t.pd.step.toNat ≤ t.pd.total.toNat)
    (hregions : ∀ r ∈ t.pd.coefRegions, r.aligned = true ∧ r.inRange t.lmemBytes = true)
    (hmore : t.status.more = t.pd.stepsRemain) : t.DecoderInv := by
  refine ⟨fun h => absurd (hvalid.symm.trans h) (by decide), fun _ => htotal, hstep, hregions, ?_⟩
  rw [hmore, PdContext.stepsRemain, decide_eq_true_eq]
  exact (and_iff_right hvalid).symm

/-- A reset context meets the decoder invariant. -/
theorem State.decoderInv_of_reset {t : State} (hpd : t.pd = PdContext.reset) (hstatus : t.status = Status.reset) :
    t.DecoderInv := by
  rw [State.DecoderInv, hpd, hstatus]
  simp [PdContext.reset, Status.reset, PdContext.coefRegions, PdContext.coefBase, PdContext.blocks, Region.aligned,
    Region.inRange, ceil8]

theorem imgW_lt (s : State) : s.imgW < 65536 := Nat.mod_lt _ (by decide)

theorem imgH_lt (s : State) : s.imgH < 65536 := by
  have := s.opr.dim.isLt
  unfold State.imgH
  omega

/-- The image fits the context's fields. -/
theorem initialContext_size (s : State) (m : Mode) :
    (initialContext s m).w.toNat = s.imgW ∧ (initialContext s m).h.toNat = s.imgH :=
  ⟨Nat.mod_eq_of_lt (imgW_lt s), Nat.mod_eq_of_lt (imgH_lt s)⟩

/-- The context latches the sets that the command checks. -/
theorem initialContext_coefRegions (s : State) (m : Mode) : (initialContext s m).coefRegions = s.coefRegions := by
  obtain ⟨hw, hh⟩ := initialContext_size s m
  rw [PdContext.coefRegions, PdContext.blocks, hw, hh]
  rfl

/-- An image has fewer than 2^32 blocks, so its total fits the register (R302). -/
theorem totalSteps_lt (m : Mode) {w h : Nat} (hw : w < 65536) (hh : h < 65536) : totalSteps m w h < 2 ^ 32 := by
  cases m with
  | baseline =>
    have := Nat.mul_le_mul (show ceil8 w ≤ 8192 by unfold ceil8; omega) (show ceil8 h ≤ 8192 by unfold ceil8; omega)
    simp only [totalSteps]
    omega
  | spectral => exact show 64 < 2 ^ 32 by decide
  | successive => exact show 16 < 2 ^ 32 by decide

/-- `PD_INIT` gives a context that meets the invariant. -/
theorem decoderInv_of_pdInit {s : State} {st : Staged} (h : runPdInit s = .ok st) :
    (succeeded (commit s st)).DecoderInv := by
  obtain ⟨m, halign, hrange, rfl⟩ := runPdInit_ok h
  refine State.decoderInv_of_valid rfl ?_ (Nat.zero_le _) (fun r hr => ?_) rfl
  · obtain ⟨hw, hh⟩ := initialContext_size s m
    exact (Nat.mod_eq_of_lt (totalSteps_lt m (imgW_lt s) (imgH_lt s))).trans (by rw [← hw, ← hh]; rfl)
  · have hr : r ∈ s.coefRegions := initialContext_coefRegions s m ▸ hr
    have hr : r ∈ regionsOf .pdInit s := List.mem_append_left _ hr
    exact ⟨List.all_eq_true.1 halign r hr, List.all_eq_true.1 hrange r hr⟩

/-- One step short of the total takes the context no further than its total. -/
theorem advance_le {p : PdContext} (hex : p.exhausted = false) (hle : p.step.toNat ≤ p.total.toNat) :
    p.advance.step.toNat ≤ p.total.toNat := by
  have hne : p.step.toNat ≠ p.total.toNat := fun heq => by
    simp [PdContext.exhausted, BitVec.eq_of_toNat_eq heq] at hex
  have := p.total.isLt
  rw [PdContext.advance, BitVec.toNat_add, show (1 : Word).toNat = 1 from rfl]
  omega

/-- `PD_STEP` keeps the decoder invariant. -/
theorem decoderInv_of_pdStep {s : State} {st : Staged} (hs : s.DecoderInv) (h : runPdStep s = .ok st) :
    (succeeded (commit s st)).DecoderInv := by
  obtain ⟨-, htotal, hstep, hregions, -⟩ := hs
  obtain ⟨hvalid, ⟨hex, rfl⟩ | ⟨hex, -, wss, -, rfl⟩⟩ := runPdStep_ok h
  · refine State.decoderInv_of_valid hvalid (htotal hvalid) hstep hregions ?_
    simp only [PdContext.exhausted, beq_iff_eq] at hex
    simp [PdContext.stepsRemain, hex]
  · exact State.decoderInv_of_valid hvalid (htotal hvalid) (advance_le hex hstep) hregions rfl

/-- `PD_RESET` keeps the decoder invariant. -/
theorem decoderInv_of_pdReset {s : State} {st : Staged} (hs : s.DecoderInv) (h : runPdReset s = .ok st) :
    (succeeded (commit s st)).DecoderInv := by
  obtain ⟨-, htotal, -, hregions, -⟩ := hs
  obtain ⟨hvalid, rfl⟩ := runPdReset_ok h
  exact State.decoderInv_of_valid hvalid (htotal hvalid) (Nat.zero_le _) hregions rfl

/-- A successful command keeps the decoder invariant. -/
theorem State.DecoderInv.commit {s : State} (hs : s.DecoderInv) {i : Instr} {st : Staged} (h : resultOf i s = .ok st) :
    (succeeded (commit s st)).DecoderInv := by
  by_cases hi : i ∈ [Instr.pdInit, .pdStep, .pdReset]
  · simp only [List.mem_cons, List.not_mem_nil, or_false] at hi
    rcases hi with rfl | rfl | rfl
    · exact decoderInv_of_pdInit h
    · exact decoderInv_of_pdStep hs h
    · exact decoderInv_of_pdReset hs h
  · obtain ⟨hpd, hmore⟩ := decoderKept_of_ok h hi
    exact hs.of_eq hpd hmore (commit_lmemExp s st)

/-- Each effect keeps the decoder invariant, the build parameter being kept. -/
theorem FlagEffect.decoderInv {s t : State} (h : FlagEffect s t) (hexp : t.lmemExp = s.lmemExp) (hs : s.DecoderInv) :
    t.DecoderInv := by
  cases h with
  | success ag i st hbusy hcmd hst ht =>
    rw [ht]
    exact State.DecoderInv.commit (s := s.setAgenda ag) hs hst
  | failure e hbusy hstatus hpd => exact hs.of_eq hpd (by rw [hstatus]; rfl) hexp
  | quiet hstatus hpd => exact hs.of_eq hpd (by rw [hstatus]) hexp
  | clear v rest hev hstatus hpd => exact hs.of_eq hpd (by rw [hstatus]; rfl) hexp
  | accept w rest hev hstatus hpending hpd => exact hs.of_eq hpd (by rw [hstatus]; rfl) hexp
  | overrun o v rest hbusy hev ho hstatus hpd => exact hs.of_eq hpd (by rw [hstatus]; rfl) hexp
  | reset e rest hev he hstatus hpd => exact State.decoderInv_of_reset hpd hstatus

/-- Settles O59: LMEM by the bounds of the staged writes, the context and the flags by the effect of the step. -/
theorem everyStepKeepsTheInvariants : Obligations.EveryStepKeepsTheInvariants := by
  intro s t ⟨hlmem, hdecoder, hstatus⟩ h
  have effect := FlagEffect.of_step h
  obtain ⟨hlmem, hexp⟩ := hlmem.step h
  exact ⟨⟨hlmem, effect.decoderInv hexp hdecoder, effect.statusInv hstatus⟩, hexp⟩

end Sys2Proof.Machine

/-! ## The CSR window (spec/10_state.md R31 to R56) -/

namespace Sys2Proof.Machine

/-! ### Fields of a word -/

/-- A field of a word, from the word's number. -/
theorem extractLsb'_of_toNat {v : Word} {start len : Nat} {f : BitVec len}
    (h : v.toNat / 2 ^ start % 2 ^ len = f.toNat) : v.extractLsb' start len = f := by
  apply BitVec.eq_of_toNat_eq
  rw [BitVec.extractLsb'_toNat, Nat.shiftRight_eq_div_pow, h]

theorem extractLsb'_eq_zero_of_toNat {v : Word} {start len : Nat} (h : v.toNat / 2 ^ start % 2 ^ len = 0) :
    v.extractLsb' start len = 0 := extractLsb'_of_toNat (h.trans BitVec.toNat_zero.symm)

/-- A flag of a word, from the word's number. -/
theorem getLsbD_of_toNat {v : Word} {i : Nat} {b : Bool} (h : v.toNat / 2 ^ i % 2 = bit b) : v.getLsbD i = b := by
  rw [BitVec.getLsbD, Nat.testBit_eq_decide_div_mod_eq, h]
  cases b <;> rfl

theorem bit_le_one (b : Bool) : bit b ≤ 1 := by cases b <;> decide

/-- `STATUS` as a number: its flags and its code at their places (R34). -/
theorem statusWord_toNat (s : State) :
    (statusWord s).toNat = bit s.status.busy + 2 * bit s.status.done + 4 * bit s.status.err + 8 * bit s.status.more +
      16 * bit s.pd.valid + 32 * bit s.status.ovr + 256 * s.status.errCode.toNat := by
  have hbusy := bit_le_one s.status.busy
  have hdone := bit_le_one s.status.done
  have herr := bit_le_one s.status.err
  have hmore := bit_le_one s.status.more
  have hvalid := bit_le_one s.pd.valid
  have hovr := bit_le_one s.status.ovr
  have hcode := s.status.errCode.isLt
  exact Nat.mod_eq_of_lt (by omega)

/-- `AQCFG` as a number: its fields at their places (R43). -/
theorem aqcfgWord_toNat (r : OperandRegs) :
    (aqcfgWord r).toNat = r.aqBits.toNat + 256 * r.aqMaxIter.toNat + 65536 * bit r.aqFmt := by
  have hbits := r.aqBits.isLt
  have hiter := r.aqMaxIter.isLt
  have hfmt := bit_le_one r.aqFmt
  exact Nat.mod_eq_of_lt (by omega)

/-- Settles O50: each field is read off `STATUS` as a number, the other fields being no wider than their places. -/
theorem statusBits : Obligations.StatusBits := by
  rintro s v rfl
  have hv : (csrValue s 0x08).toNat = _ := statusWord_toNat s
  have hbusy := bit_le_one s.status.busy
  have hdone := bit_le_one s.status.done
  have herr := bit_le_one s.status.err
  have hmore := bit_le_one s.status.more
  have hvalid := bit_le_one s.pd.valid
  have hovr := bit_le_one s.status.ovr
  have hcode := s.status.errCode.isLt
  refine ⟨getLsbD_of_toNat ?_, getLsbD_of_toNat ?_, getLsbD_of_toNat ?_, getLsbD_of_toNat ?_, getLsbD_of_toNat ?_,
    getLsbD_of_toNat ?_, extractLsb'_eq_zero_of_toNat ?_, extractLsb'_of_toNat ?_, extractLsb'_eq_zero_of_toNat ?_⟩
  all_goals
    rw [hv]
    omega

/-- Settles O55: bit 1 of `STATUS` is `DONE` and bit 0 of `CTRL` is `IRQEN`. -/
theorem irqIsDoneAndEnabled : Obligations.IrqIsDoneAndEnabled := by
  intro s
  obtain ⟨-, hdone, -⟩ := statusBits s _ rfl
  have hirq : (csrValue s 0x04).getLsbD 0 = s.irqEn := by
    show (BitVec.ofNat 32 (bit s.irqEn)).getLsbD 0 = s.irqEn
    cases s.irqEn <;> rfl
  rw [hdone, hirq, irq]

/-! ### Accesses and writes to the control registers -/

/-- An event that is not the block's turn and is not held happens at once. -/
theorem step_hostEvent {s : State} {e : Event} {rest : List Event} (hev : s.agenda = e :: rest) (hne : e ≠ .perform)
    (hheld : e.heldWhileBusy = false) : step s = hostEvent e (s.setAgenda rest) := by
  rw [step, hev]
  cases e with
  | perform => exact absurd rfl hne
  | _ => simp [hheld]

/-- Settles O48: a CSR access is never held, and is answered exactly when `csrAccessOk` says so. -/
theorem csrAccessSteps : Obligations.CsrAccessSteps := by
  intro s o w v rest
  refine ⟨fun hev hw ho ho' => ?_, fun hev hw ho ho' => ?_, fun hev hbad => ?_⟩
  · rw [step_hostEvent hev (by simp) rfl, hostEvent, if_pos ((csrAccessOk_iff o w).2 ⟨hw, ho, ho'⟩)]
    rfl
  · rw [step_hostEvent hev (by simp) rfl, hostEvent, if_pos ((csrAccessOk_iff o w).2 ⟨hw, ho, ho'⟩)]
  · have hno : csrAccessOk o w ≠ true := by
      rw [Ne, csrAccessOk_iff]
      omega
    rcases hev with hev | hev
    · rw [step_hostEvent hev (by simp) rfl, hostEvent, if_neg hno]
    · rw [step_hostEvent hev (by simp) rfl, hostEvent, if_neg hno]

/-- Settles O51: the writes of `CTRL` and `STATUS` are their definitions, a write of `CMD` goes by `BUSY`. -/
theorem controlRegisterWrites : Obligations.ControlRegisterWrites := by
  intro s v
  refine ⟨rfl, rfl, fun hbusy => ?_, fun hidle => ?_⟩
  · exact if_pos hbusy
  · exact if_neg (by simp [hidle])

/-! ### The map -/

/-- Offsets from `PD_TOTAL`'s up are reserved (R31). -/
theorem csrValue_reserved (s : State) {o : Nat} (h : 0x58 ≤ o) : csrValue s o = 0 := by
  unfold csrValue
  split
  case h_22 => rfl
  all_goals omega

/-- The low half of a word. -/
theorem toNat_extractLsb'_low (v : Word) : (v.extractLsb' 0 16).toNat = v.toNat % 65536 := by
  rw [BitVec.extractLsb'_toNat, Nat.shiftRight_zero]

/-- The high half of a word. -/
theorem toNat_extractLsb'_high (v : Word) : (v.extractLsb' 16 16).toNat = v.toNat / 65536 := by
  have := v.isLt
  rw [BitVec.extractLsb'_toNat, Nat.shiftRight_eq_div_pow]
  omega

/-- The fields of `AQCFG` (R43). -/
theorem aqcfgWord_fields (r : OperandRegs) :
    (aqcfgWord r).extractLsb' 0 4 = r.aqBits ∧ (aqcfgWord r).extractLsb' 4 4 = 0 ∧
      (aqcfgWord r).extractLsb' 8 8 = r.aqMaxIter ∧ (aqcfgWord r).getLsbD 16 = r.aqFmt ∧
      (aqcfgWord r).extractLsb' 17 15 = 0 := by
  have hv := aqcfgWord_toNat r
  have hbits := r.aqBits.isLt
  have hiter := r.aqMaxIter.isLt
  have hfmt := bit_le_one r.aqFmt
  refine ⟨extractLsb'_of_toNat ?_, extractLsb'_eq_zero_of_toNat ?_, extractLsb'_of_toNat ?_, getLsbD_of_toNat ?_,
    extractLsb'_eq_zero_of_toNat ?_⟩
  all_goals
    rw [hv]
    omega

/-- The field of `PDCFG` (R44). -/
theorem pdcfgWord_fields (m : BitVec 2) :
    (BitVec.ofNat 32 m.toNat).extractLsb' 0 2 = m ∧ (BitVec.ofNat 32 m.toNat).extractLsb' 2 30 = 0 := by
  revert m
  decide

/-- The decoder's registers while the context is valid (R47 to R49). -/
theorem csrValue_decoder_valid {s : State} (h : s.pd.valid = true) :
    csrValue s 0x4C = BitVec.ofNat 32 (modeNumber s.pd.mode) ∧ csrValue s 0x50 = s.pd.step ∧
      csrValue s 0x54 = s.pd.total := by simp [csrValue, whileValid, h]

/-- The decoder's registers while it is not. -/
theorem csrValue_decoder_invalid {s : State} (h : s.pd.valid = false) :
    csrValue s 0x4C = 0 ∧ csrValue s 0x50 = 0 ∧ csrValue s 0x54 = 0 := by simp [csrValue, whileValid, h]

/-- The number of each mode (R47). -/
theorem mode_mem_numbers (m : Mode) :
    (m, BitVec.ofNat 32 (modeNumber m)) ∈ ([(.baseline, 0), (.spectral, 1), (.successive, 2)] : List (Mode × Word)) := by
  cases m <;> decide

/-- Settles O49: the plain registers by definition, the fields of the others by their lemmas. -/
theorem csrMapReads : Obligations.CsrMapReads := by
  intro s
  obtain ⟨hbits, hlow, hiter, hfmt, hhigh⟩ := aqcfgWord_fields s.opr
  refine ⟨rfl, ?_, rfl, rfl, rfl, rfl, rfl, rfl, rfl, rfl, rfl, rfl, rfl, rfl, rfl, rfl, ?_, ?_, fun hvalid => ?_,
    csrValue_decoder_invalid, fun _ => csrValue_reserved s, rfl, rfl, rfl, rfl, rfl, rfl,
    (toNat_extractLsb'_low _).symm, (toNat_extractLsb'_high _).symm, (toNat_extractLsb'_low _).symm,
    (toNat_extractLsb'_high _).symm, rfl, rfl, (toNat_extractLsb'_low _).symm, (toNat_extractLsb'_high _).symm,
    (congrArg BitVec.toNat hbits).symm, rfl, ?_⟩
  · show BitVec.ofNat 32 (bit s.irqEn) = _
    cases s.irqEn <;> rfl
  · rintro _ rfl
    exact ⟨hbits, hlow, hiter, hfmt, hhigh⟩
  · rintro _ rfl
    exact pdcfgWord_fields s.opr.pdcfgMode
  · obtain ⟨hmode, hstep, htotal⟩ := csrValue_decoder_valid hvalid
    exact ⟨hmode ▸ mode_mem_numbers s.pd.mode, hstep, htotal⟩
  · show s.sampleSize = if (aqcfgWord s.opr).getLsbD 16 then 1 else 8
    rw [hfmt, State.sampleSize]

/-! ### Writes to the operand registers -/

/-- A written operand register changes what no other offset reads. -/
theorem csrValue_writeOperand_ne {s : State} {o o' : Nat} {v : Word} {r : OperandRegs}
    (hr : writeOperand s.opr o v = some r) (hne : o' ≠ o) : csrValue { s with opr := r } o' = csrValue s o' := by
  unfold writeOperand at hr
  split at hr
  case h_14 => cases hr
  all_goals
    cases hr
    unfold csrValue
    split <;> trivial

/-- A word is known from the fields of `AQCFG` and the reserved bits between and above them. -/
theorem eq_of_aqcfg_fields {v w : Word} (h0 : v.extractLsb' 0 4 = w.extractLsb' 0 4)
    (h4 : v.extractLsb' 4 4 = w.extractLsb' 4 4) (h8 : v.extractLsb' 8 8 = w.extractLsb' 8 8)
    (h16 : v.getLsbD 16 = w.getLsbD 16) (h17 : v.extractLsb' 17 15 = w.extractLsb' 17 15) : v = w := by
  apply BitVec.eq_of_toNat_eq
  have hv := v.isLt
  have hw := w.isLt
  rw [← BitVec.toNat_inj, BitVec.extractLsb'_toNat, BitVec.extractLsb'_toNat, Nat.shiftRight_eq_div_pow,
    Nat.shiftRight_eq_div_pow] at h0 h4 h8 h17
  have h16 := congrArg Bool.toNat h16
  rw [BitVec.getLsbD, BitVec.getLsbD, Nat.toNat_testBit, Nat.toNat_testBit] at h16
  omega

/-- `AQCFG` reads the written value with its reserved bits 0 (R43). -/
theorem aqcfgWord_written (r : OperandRegs) (v : Word) :
    aqcfgWord { r with aqBits := v.extractLsb' 0 4, aqMaxIter := v.extractLsb' 8 8, aqFmt := v.getLsbD 16 } =
      v &&& 0x0001FF0F := by
  obtain ⟨hbits, hlow, hiter, hfmt, hhigh⟩ := aqcfgWord_fields
    { r with aqBits := v.extractLsb' 0 4, aqMaxIter := v.extractLsb' 8 8, aqFmt := v.getLsbD 16 }
  apply eq_of_aqcfg_fields
  · rw [hbits, BitVec.extractLsb'_and]
    exact BitVec.and_allOnes.symm
  · rw [hlow, BitVec.extractLsb'_and]
    exact BitVec.and_zero.symm
  · rw [hiter, BitVec.extractLsb'_and]
    exact BitVec.and_allOnes.symm
  · rw [hfmt, BitVec.getLsbD_and]
    exact (Bool.and_true _).symm
  · rw [hhigh, BitVec.extractLsb'_and]
    exact BitVec.and_zero.symm

/-- `PDCFG` reads the written value with its reserved bits 0 (R44). -/
theorem pdcfgWord_written (v : Word) : BitVec.ofNat 32 (v.extractLsb' 0 2).toNat = v &&& 0x3 := by
  apply BitVec.eq_of_toNat_eq
  have hmask : v.toNat &&& 3 = v.toNat % 4 := Nat.and_two_pow_sub_one_eq_mod v.toNat 2
  rw [BitVec.toNat_ofNat, BitVec.extractLsb'_toNat, BitVec.toNat_and, show (0x3 : Word).toNat = 3 from rfl, hmask,
    Nat.shiftRight_zero]
  omega

/-- The bits of an operand register that are not reserved (R43, R44). -/
def operandMask (o : Nat) : Word := if o = 0x3C then 0x0001FF0F else if o = 0x40 then 0x3 else 0xFFFFFFFF

/-- A written operand register reads the written value with its reserved bits 0. -/
theorem csrValue_writeOperand_self {s : State} {o : Nat} {v : Word} {r : OperandRegs}
    (hr : writeOperand s.opr o v = some r) : csrValue { s with opr := r } o = v &&& operandMask o := by
  unfold writeOperand at hr
  split at hr
  case h_12 =>
    cases hr
    exact aqcfgWord_written s.opr v
  case h_13 =>
    cases hr
    exact pdcfgWord_written v
  case h_14 => cases hr
  all_goals
    cases hr
    exact BitVec.and_allOnes.symm

/-- A write that finds an operand register goes by `BUSY`. -/
theorem csrWrite_of_some {s : State} {o : Nat} {v : Word} {r : OperandRegs} (hr : writeOperand s.opr o v = some r) :
    csrWrite s o v = if s.status.busy then s.overrun else { s with opr := r } := by
  have ho := mem_operandOffsets hr
  unfold csrWrite
  split
  case h_4 => rw [hr]
  all_goals exact absurd ho (by decide)

/-- A write that finds no writable register is ignored. -/
theorem csrWrite_ignored {s : State} {o : Nat} {v : Word} (ho : o ∉ 0x04 :: 0x08 :: 0x0C :: operandOffsets) :
    csrWrite s o v = s := by
  simp only [List.mem_cons, not_or] at ho
  obtain ⟨hctrl, hstatus, hcmd, hoperand⟩ := ho
  rcases csrWrite_cases s o v with ⟨h, -⟩ | ⟨h, -⟩ | ⟨h, -⟩ | ⟨r, hr, -⟩ | ⟨r, hr, -⟩ | ⟨-, h⟩
  · exact absurd h hctrl
  · exact absurd h hstatus
  · exact absurd h hcmd
  · exact absurd (mem_operandOffsets hr) hoperand
  · exact absurd (mem_operandOffsets hr) hoperand
  · exact h

/-- Settles O52: an idle block's operand write replaces the one register, a busy block's sets `OVR`. -/
theorem operandWritesReadBack : Obligations.OperandWritesReadBack := by
  intro s o v
  refine ⟨fun ho => ?_, fun ho => csrWrite_ignored ?_⟩
  · obtain ⟨r, hr⟩ := Option.ne_none_iff_exists'.1 fun hnone => (writeOperand_eq_none_iff s.opr o v).1 hnone ho
    refine ⟨fun hidle => ?_, fun hbusy => ?_⟩
    · rw [csrWrite_of_some hr, hidle, if_neg Bool.false_ne_true]
      exact ⟨csrValue_writeOperand_self hr, fun _ hne => csrValue_writeOperand_ne hr hne, rfl⟩
    · rw [csrWrite_of_some hr, if_pos hbusy]
      rfl
  · simp only [operandOffsets, List.mem_cons, List.not_mem_nil, or_false] at ho ⊢
    omega

end Sys2Proof.Machine

/-! ## LMEM over a command and under a host's access (spec/20_memory.md R81 to R99) -/

namespace Sys2Proof.Machine

/-! ### What a command leaves of LMEM -/

/-- A byte that no staged write writes reads after the commit as before. -/
theorem commit_ldByte_of_not_stored {s : State} {st : Staged} {a : Nat} (h : storesTo st.writes a = false) :
    (commit s st).ldByte a = s.ldByte a := by
  obtain ⟨-, -, -, -, -, hdraw, -⟩ := commit_kept s st
  rw [State.ldByte, State.unwrittenByte, commit_lmem, hdraw, lookup_applyStores_outside _ _ _ h]
  rfl

/-- A successful command keeps every byte outside its output regions. -/
theorem Staged.Fits.lmemKeptOutside {st : Staged} {i : Instr} {s : State} (h : st.Fits i s) :
    LmemKeptOutside (outputRegions i s) s (commit s st) := by
  intro a hout
  refine commit_ldByte_of_not_stored (Bool.eq_false_iff.2 fun ha => ?_)
  obtain ⟨r, hr, hin⟩ := contains_of_storesTo h.covered ha
  rw [(Region.contains_eq_false r a).2 (hout r hr)] at hin
  cases hin

/-- A byte that lies outside the output regions whenever the command succeeds is kept: a failure commits nothing. -/
theorem ldByte_of_exec {i : Instr} {s t : State} {a : Nat} (h : exec i s = .next t)
    (hout : ∀ st, resultOf i s = .ok st → ∀ r ∈ outputRegions i s, a < r.base ∨ r.base + r.size ≤ a) :
    t.ldByte a = s.ldByte a := by
  rw [exec_next_iff] at h
  rcases finish_cases s (resultOf i s) with ⟨st, hst, hfin⟩ | ⟨e, -, hfin⟩
  · obtain rfl := h.trans hfin
    exact (resultOf_fits hst).lmemKeptOutside a (hout st hst)
  · obtain rfl := h.trans hfin
    rfl

/-- Settles O13: what a success stages lies in its output regions (`Staged.Fits`), which are the table's. -/
theorem commandWritesOnlyItsOutputRegions : Obligations.CommandWritesOnlyItsOutputRegions := by
  intro i s t h a hout
  rw [tableOutputs_eq] at hout
  exact ldByte_of_exec h fun _ _ => hout

/-! ### The decoder's coefficients -/

/-- A decoder step that succeeds before the sequence is exhausted has passed the overlap check (R310). -/
theorem outputOverlaps_eq_false {s : State} {st : Staged} (h : runPdStep s = .ok st) (hex : s.pd.exhausted = false) :
    outputOverlaps s = false := by
  simp only [runPdStep, hex, Bool.false_eq_true, if_false, bind_ok_iff, failIf_ok_iff] at h
  obtain ⟨-, -, -, -, -, hoverlap, -⟩ := h
  exact hoverlap

/-- No byte belongs to two regions that do not meet. -/
theorem Region.contains_eq_false_of_meets {r q : Region} {a : Nat} (h : r.meets q = false) (hq : q.contains a = true) :
    r.contains a = false := by
  rw [Region.contains_eq_true] at hq
  rw [Region.contains_eq_false]
  simp only [Region.meets, Bool.and_eq_false_iff, decide_eq_false_iff_not] at h
  omega

/-- Where the overlap check passes, a byte of a latched coefficient set is no byte of the decoder's output: either region may
be empty, and two others do not meet. -/
theorem output_not_contains_coefficient {s : State} (h : outputOverlaps s = false) {q : Region}
    (hq : q ∈ s.pd.coefRegions) {a : Nat} (ha : q.contains a = true) :
    Region.contains ⟨s.dst, 1, s.pd.outputSize⟩ a = false := by
  have hsize : q.size = 128 * s.pd.blocks := by
    simp only [PdContext.coefRegions, List.mem_cons, List.not_mem_nil, or_false] at hq
    rcases hq with rfl | rfl | rfl <;> rfl
  simp only [outputOverlaps, Bool.and_eq_false_iff, decide_eq_false_iff_not, Nat.not_lt, Nat.le_zero] at h
  rcases h with (houtput | hblocks) | hmeets
  · rw [Region.contains_eq_false]
    simp only
    omega
  · rw [Region.contains_eq_true] at ha
    omega
  · exact Region.contains_eq_false_of_meets (Bool.eq_false_iff.2 (List.any_eq_false.1 hmeets q hq)) ha

/-- A decoder command that succeeds has no output region that holds a byte of a latched coefficient set: `PD_INIT` and
`PD_RESET` have none, and `PD_STEP` passes the overlap check. -/
theorem outside_of_coefficient {i : Instr} (hi : i ∈ [Instr.pdInit, .pdStep, .pdReset]) {s : State} {st : Staged}
    (h : resultOf i s = .ok st) {q : Region} (hq : q ∈ s.pd.coefRegions) {a : Nat} (ha : q.contains a = true) :
    ∀ r ∈ outputRegions i s, a < r.base ∨ r.base + r.size ≤ a := by
  simp only [List.mem_cons, List.not_mem_nil, or_false] at hi
  rcases hi with rfl | rfl | rfl
  · exact fun _ hr => (List.not_mem_nil hr).elim
  · intro r hr
    simp only [outputRegions] at hr
    split at hr
    · exact (List.not_mem_nil hr).elim
    · rename_i hex
      obtain rfl := List.mem_singleton.1 hr
      rw [← Region.contains_eq_false]
      exact output_not_contains_coefficient (outputOverlaps_eq_false h (Bool.eq_false_iff.2 hex)) hq ha
  · exact fun _ hr => (List.not_mem_nil hr).elim

/-- Each latched base begins one of the coefficient sets of the context. -/
theorem mem_coefRegions {p : PdContext} {c : Word} (hc : c ∈ [p.coef0, p.coef1, p.coef2]) :
    ⟨c.toNat, 2, 128 * p.blocks⟩ ∈ p.coefRegions := by
  simp only [List.mem_cons, List.not_mem_nil, or_false] at hc
  rcases hc with rfl | rfl | rfl <;> simp [PdContext.coefRegions, PdContext.coefBase]

/-- Settles O15: a decoder command writes inside its output region alone, which holds no coefficient. -/
theorem decoderNeverWritesItsCoefficients : Obligations.DecoderNeverWritesItsCoefficients := by
  intro i s t hi h c hc a hlow hhigh
  refine ldByte_of_exec h fun st hst => outside_of_coefficient hi hst (mem_coefRegions hc) ?_
  exact (Region.contains_eq_true _ a).2 ⟨hlow, hhigh⟩

/-! ### The loads -/

/-- `ld_f64` as a number: the 8 bytes fill its 64 bits (R81, R83). -/
theorem ldF64_toNat (s : State) (a : Nat) :
    (s.ldF64 a).toNat = ((List.range 8).map fun m => (s.ldByte (a + m)).toNat * 2 ^ (8 * m)).sum := by
  have hlt : s.memRead a 8 < 2 ^ 64 := by
    have := leNat_lt (s.ldBytes a 8)
    rwa [ldBytes_eq_map, List.length_map, List.length_range, ← ldBytes_eq_map] at this
  rw [State.ldF64, BitVec.toNat_ofNat, Nat.mod_eq_of_lt hlt, memRead_eq_sum]

/-- `ld_i16` is the two's complement reading of its two bytes (R81, R83). -/
theorem ldI16_eq (s : State) (a : Nat) :
    s.ldI16 a = ((s.ldByte a).toNat + 256 * (s.ldByte (a + 1)).toNat : Int) -
      (if 128 ≤ (s.ldByte (a + 1)).toNat then 65536 else 0) := by
  have hread : s.memRead a 2 = (s.ldByte a).toNat + 256 * (s.ldByte (a + 1)).toNat := by
    simp [memRead_eq_sum, List.range_succ, Nat.mul_comm]
  have hlow := (s.ldByte a).isLt
  have hhigh := (s.ldByte (a + 1)).isLt
  rw [State.ldI16, hread, BitVec.toInt_eq_toNat_cond, BitVec.toNat_ofNat, Nat.mod_eq_of_lt (by omega)]
  by_cases hsign : 128 ≤ (s.ldByte (a + 1)).toNat
  · rw [if_neg (by omega), if_pos hsign]
    omega
  · rw [if_pos (by omega), if_neg hsign]
    omega

/-! ### The host's accesses -/

/-- An access is answered exactly when it has no byte or ends inside LMEM. -/
theorem lmemAccessOk_iff (s : State) (a n : Nat) : lmemAccessOk s a n = true ↔ n = 0 ∨ a + n ≤ s.lmemBytes := by
  simp [lmemAccessOk]

/-- An access inside LMEM is answered, whatever is still to come. -/
theorem lmemAccessOk_of_le {s : State} {a n : Nat} (h : a + n ≤ s.lmemBytes) (ag : List Event) :
    lmemAccessOk (s.setAgenda ag) a n = true := (lmemAccessOk_iff _ a n).2 (.inr h)

/-- An access of at least one byte that reaches `LMEM_BYTES` is not, whatever is still to come. -/
theorem not_lmemAccessOk_of_lt {s : State} {a n : Nat} (hpos : 0 < n) (h : s.lmemBytes < a + n) (ag : List Event) :
    ¬lmemAccessOk (s.setAgenda ag) a n = true := by
  rw [lmemAccessOk_iff, State.setAgenda_lmemBytes]
  omega

/-- While the block is idle no event is held. -/
theorem step_hostEvent_of_idle {s : State} {e : Event} {rest : List Event} (hidle : s.status.busy = false)
    (hev : s.agenda = e :: rest) (hne : e ≠ .perform) : step s = hostEvent e (s.setAgenda rest) := by
  rw [step, hev]
  cases e with
  | perform => exact absurd rfl hne
  | _ => simp [hidle]

/-- Settles O53: the loads by the place values of their bytes, an access by `lmemAccessOk` and what a written run leaves. -/
theorem hostLmemAccessSteps : Obligations.HostLmemAccessSteps := by
  refine ⟨fun s a => ⟨rfl, ldF64_toNat s a, ldI16_eq s a⟩, fun s a rest hidle => ⟨?_, ?_, ?_, ?_⟩⟩
  · intro n hev hin
    rw [step_hostEvent_of_idle hidle hev (by simp), hostEvent, if_pos (lmemAccessOk_of_le hin rest), ldBytes_eq_map]
    rfl
  · intro bs hev hin
    refine ⟨(s.setAgenda rest).setLmem (writeRun s.lmem a bs), ?_, rfl, fun k hk => ?_, fun x hx => ?_⟩
    · rw [step_hostEvent_of_idle hidle hev (by simp), hostEvent, if_pos (lmemAccessOk_of_le hin rest)]
      rfl
    · rw [List.getElem?_eq_getElem hk]
      exact congrArg some (ldByte_writeRun_inside (s.setAgenda rest) a bs k hk).symm
    · exact ldByte_writeRun_outside (s.setAgenda rest) a bs x hx
  · intro n hev hpos hout
    rw [step_hostEvent_of_idle hidle hev (by simp), hostEvent, if_neg (not_lmemAccessOk_of_lt hpos hout rest)]
  · intro bs hev hne hout
    have hpos := List.length_pos_iff.2 hne
    rw [step_hostEvent_of_idle hidle hev (by simp), hostEvent, if_neg (not_lmemAccessOk_of_lt hpos hout rest)]

/-! ### A held access -/

/-- The block's turn ends in a completion, of a legal word or of an illegal one (spec/45_control.md R352). -/
theorem perform_eq_finish (s : State) : ∃ r, perform s = .next (finish s r) := by
  unfold perform
  split
  · exact ⟨_, exec_eq_finish _ s⟩
  · exact ⟨_, rfl⟩

/-- A completion clears `BUSY` and sets `DONE`. -/
theorem finish_completes (s : State) (r : Result) : (finish s r).status.busy = false ∧ (finish s r).status.done = true := by
  cases r with
  | ok st => exact ⟨rfl, rfl⟩
  | error e => exact ⟨rfl, rfl⟩

/-- A held access gives the busy block its turn (R98). -/
theorem step_held {s : State} {e : Event} {rest : List Event} (hbusy : s.status.busy = true) (hev : s.agenda = e :: rest)
    (hheld : e.heldWhileBusy = true) : step s = perform s := by
  rw [step, hev]
  cases e with
  | perform => cases hheld
  | _ => simp [hbusy, hheld]

/-- Settles O54: the busy block performs with the agenda as it was, and its completion leaves it idle, so that the next step is
the access's own. -/
theorem lmemAccessIsHeldWhileBusy : Obligations.LmemAccessIsHeldWhileBusy := by
  intro s e rest hbusy hev hheld
  obtain ⟨r, hr⟩ := perform_eq_finish s
  obtain ⟨-, -, -, -, -, -, -, hagenda, hreplies⟩ := finish_kept s r
  obtain ⟨hidle, hdone⟩ := finish_completes s r
  refine ⟨finish s r, (step_held hbusy hev hheld).trans hr, hagenda.trans hev, hreplies, hidle, hdone, ?_⟩
  exact step_hostEvent_of_idle hidle (hagenda.trans hev) fun he => by rw [he] at hheld; cases hheld

end Sys2Proof.Machine

/-! ## The decoder (spec/30_encoding.md R120 to R122) -/

namespace Sys2Proof.Machine

/-! ### The fields of a command word -/

theorem opcField_toNat (w : Word) : (opcField w).toNat = w.toNat % 256 := by
  rw [opcField, BitVec.extractLsb'_toNat, Nat.shiftRight_zero]

theorem rsvField_eq_zero_iff (w : Word) : rsvField w = 0 ↔ w.toNat / 256 = 0 := by
  have hlt : w.toNat / 256 < 2 ^ 24 := Nat.div_lt_of_lt_mul w.isLt
  rw [← BitVec.toNat_inj, rsvField, BitVec.extractLsb'_toNat, Nat.shiftRight_eq_div_pow, Nat.mod_eq_of_lt hlt]
  rfl

theorem encode_toNat (i : Instr) : (encode i).toNat = (opcodeOf i).toNat := by
  rw [encode, BitVec.toNat_append]
  simp

/-- The encoder's word, by the two fields a word is made of (R120). -/
theorem eq_encode_iff (w : Word) (i : Instr) :
    w = encode i ↔ w.toNat / 256 = 0 ∧ w.toNat % 256 = (opcodeOf i).toNat := by
  have hopc := (opcodeOf i).isLt
  rw [← BitVec.toNat_inj, encode_toNat]
  omega

/-! ### The map -/

/-- The opcode map gives a command for that command's own opcode alone (R121). -/
theorem decodeOpcode_eq_ok_iff (opc : BitVec 8) (i : Instr) : decodeOpcode opc = .ok i ↔ opc = opcodeOf i := by
  constructor
  · intro h
    unfold decodeOpcode at h
    split at h <;> cases h <;> exact BitVec.eq_of_toNat_eq ‹_›
  · rintro rfl
    cases i <;> rfl

/-- One word selects each command: the one the encoder gives (R121, R122). -/
theorem decode_eq_ok_iff (w : Word) (i : Instr) : decode w = .ok i ↔ w = encode i := by
  rw [eq_encode_iff, ← rsvField_eq_zero_iff, ← opcField_toNat, BitVec.toNat_inj, ← decodeOpcode_eq_ok_iff, decode]
  split
  next hclear => exact (and_iff_right hclear).symm
  next hset => exact iff_of_false nofun fun h => hset h.1

/-- The map of R121 as `WordSelectsCommandExactly` writes it out, each opcode with its command. -/
def opcodeMap : List (Nat × Instr) :=
  [(0x00, .nop), (0x01, .cscFwd), (0x02, .cscInv), (0x08, .aq), (0x10, .fdct), (0x11, .idct), (0x12, .quant),
    (0x13, .dequant), (0x14, .blkExtract), (0x15, .blkInsert), (0x16, .encode), (0x20, .pdInit), (0x21, .pdStep),
    (0x22, .pdReset)]

theorem mem_opcodeMap (n : Nat) (i : Instr) : (n, i) ∈ opcodeMap ↔ n = (opcodeOf i).toNat := by
  cases i <;> simp [opcodeMap, opcodeOf]

theorem mem_assignedOpcodes (n : Nat) : n ∈ assignedOpcodes ↔ ∃ i, n = (opcodeOf i).toNat := by
  have hmap : assignedOpcodes = opcodeMap.map Prod.fst := rfl
  simp [hmap, mem_opcodeMap]

/-- Settles O2: a word selects a command when its two fields are those of the command's encoding, and the map holds each
command at its opcode alone. -/
theorem wordSelectsCommandExactly : Obligations.WordSelectsCommandExactly := fun w i =>
  (decode_eq_ok_iff w i).trans <| (eq_encode_iff w i).trans <| and_congr_right' (mem_opcodeMap _ i).symm

/-! ### Illegal words -/

/-- A word decodes exactly when it is legal (R122). -/
theorem decode_ok_iff_legal (w : Word) :
    (∃ i, decode w = .ok i) ↔ w.toNat / 256 = 0 ∧ w.toNat % 256 ∈ assignedOpcodes := by
  simp only [decode_eq_ok_iff, eq_encode_iff, mem_assignedOpcodes, exists_and_left]

/-- The block's turn with a word in flight that decodes to nothing: the completion with code 1 (R122, R360). -/
theorem perform_of_no_command {s : State} (h : ¬∃ i, decode s.pending = .ok i) : perform s = .next (failed 1 s) := by
  unfold perform
  split
  · exact absurd ⟨_, ‹_›⟩ h
  · rfl

/-- Of the 256 opcodes, all but the 14 of the map are illegal. -/
theorem illegal_opcode_count :
    ((List.range 256).filter fun opc => (decode (BitVec.ofNat 32 opc)).toOption.isNone).length = 242 := by
  decide +kernel

/-- Settles O4: an illegal word decodes to nothing, so that its turn is the completion with code 1, and a word that decodes to
a command is that command's encoding. -/
theorem illegalWordCompletesWithBadOp : Obligations.IllegalWordCompletesWithBadOp := by
  refine ⟨fun s hillegal => perform_of_no_command ?_, illegal_opcode_count, fun w w' i hw hw' => ?_⟩
  · rw [decode_ok_iff_legal, not_and_or]
    exact hillegal
  · rw [decode_eq_ok_iff] at hw hw'
    exact hw.trans hw'.symm

end Sys2Proof.Machine

/-! ## The colour-space converter (spec/40_color.md R151, R152) -/

namespace Sys2Proof.Machine

/-! ### Computations on small values -/

theorem fMul_within {c x : F64} {n : Nat} (hn : n < 2 ^ 53) (hc : Within (2 ^ 1074) c) (hx : Within (n * 2 ^ 1074) x) :
    Within (n * 2 ^ 1074) (fMul c x) := by
  obtain ⟨m, hm, hv⟩ := exists_magValue_eq n 1074 hn (by omega) (by omega)
  rw [← hv] at hx ⊢
  exact fMul_bound c x m hc.1 hx.1 hm ((Nat.mul_le_mul hc.2 hx.2).trans_eq (Nat.mul_comm _ _))

theorem fAdd_within {x y : F64} {a b : Nat} (hab : a + b < 2 ^ 53) (hx : Within (a * 2 ^ 1074) x)
    (hy : Within (b * 2 ^ 1074) y) : Within ((a + b) * 2 ^ 1074) (fAdd x y) := by
  obtain ⟨m, hm, hv⟩ := exists_magValue_eq (a + b) 1074 hab (by omega) (by omega)
  rw [← hv]
  refine fAdd_bound x y m hx.1 hy.1 hm ?_
  rw [hv, Nat.add_mul]
  exact Nat.add_le_add hx.2 hy.2

theorem fNeg_within {x : F64} {b : Nat} (hx : Within b x) : Within b (fNeg x) := by
  rwa [Within, fFinite_fNeg, fMagnitude_fNeg]

theorem fSub_within {x y : F64} {a b : Nat} (hab : a + b < 2 ^ 53) (hx : Within (a * 2 ^ 1074) x)
    (hy : Within (b * 2 ^ 1074) y) : Within ((a + b) * 2 ^ 1074) (fSub x y) := fAdd_within hab hx (fNeg_within hy)

theorem fSub_finite {x y : F64} (h : fFinite (fSub x y) = true) : fFinite x = true ∧ fFinite y = true := by
  have hxy := fAdd_finite x (fNeg y) h
  rwa [fFinite_fNeg] at hxy

/-- A literal of at most 1. -/
theorem fLit_within {num den : Nat} (hd : 0 < den) (h : num ≤ den) : Within (2 ^ 1074) (fLit num den) := by
  obtain ⟨m, hm, hv⟩ := exists_magValue_eq 1 1074 (by omega) (by omega) (by omega)
  rw [Nat.one_mul] at hv
  rw [← hv]
  refine fPack_bound _ _ m (roundMag_le _ _ _ m hd ?_) hm
  refine Nat.le_of_mul_le_mul_right ?_ hd
  rw [fLit_scale, hv, Nat.mul_assoc num, Nat.mul_comm num]
  exact Nat.mul_le_mul_left _ h

theorem fOfNat_ldU8_within (s : State) (a : Nat) : Within (255 * 2 ^ 1074) (fOfNat (s.ldU8 a)) := by
  obtain ⟨m, hm, hv⟩ := exists_magValue_eq 255 1074 (by omega) (by omega) (by omega)
  rw [← hv]
  refine fOfNat_bound _ m hm ?_
  rw [hv]
  exact Nat.mul_le_mul_right _ (Nat.le_of_lt_succ (s.ldByte a).isLt)

/-- A finite value passes its check. -/
theorem chk_bind {α : Type} {x : F64} (h : fFinite x = true) (f : F64 → Except ErrCode α) : (chk x >>= f) = f x := by
  rw [(chk_ok_iff x x).2 ⟨h, rfl⟩, ok_bind]

/-! ### One pixel -/

/-- Y of a pixel (R151). -/
def fwdY (r g b : F64) : F64 :=
  fAdd (fAdd (fMul (fLit 299 1000) r) (fMul (fLit 587 1000) g)) (fMul (fLit 114 1000) b)

/-- U of a pixel (R151). -/
def fwdU (r g b : F64) : F64 :=
  fAdd (fSub (fMul (fNeg (fLit 147 1000)) r) (fMul (fLit 289 1000) g)) (fMul (fLit 436 1000) b)

/-- V of a pixel (R151). -/
def fwdV (r g b : F64) : F64 :=
  fSub (fSub (fMul (fLit 615 1000) r) (fMul (fLit 515 1000) g)) (fMul (fLit 100 1000) b)

/-- A product or sum inside a finite result is finite too, so where the three results are finite no step raises. -/
theorem yuvOfRgb_of_finite {r g b : F64} (hy : fFinite (fwdY r g b) = true) (hu : fFinite (fwdU r g b) = true)
    (hv : fFinite (fwdV r g b) = true) : yuvOfRgb r g b = .ok [fwdY r g b, fwdU r g b, fwdV r g b] := by
  unfold fwdY fwdU fwdV at *
  obtain ⟨hyrg, hyb⟩ := fAdd_finite _ _ hy
  obtain ⟨hyr, hyg⟩ := fAdd_finite _ _ hyrg
  obtain ⟨hurg, hub⟩ := fAdd_finite _ _ hu
  obtain ⟨hur, hug⟩ := fSub_finite hurg
  obtain ⟨hvrg, hvb⟩ := fSub_finite hv
  obtain ⟨hvr, hvg⟩ := fSub_finite hvrg
  simp only [yuvOfRgb, cAdd, cSub, cMul, chk_bind, *]
  rfl

/-- Bytes stay far below overflow: each product is at most 255 and each result at most three times that. -/
theorem yuvOfRgb_of_bytes {r g b : F64} (hr : Within (255 * 2 ^ 1074) r) (hg : Within (255 * 2 ^ 1074) g)
    (hb : Within (255 * 2 ^ 1074) b) : yuvOfRgb r g b = .ok [fwdY r g b, fwdU r g b, fwdV r g b] := by
  have lit {num : Nat} (h : num ≤ 1000) : Within (2 ^ 1074) (fLit num 1000) := fLit_within (by omega) h
  have term {num : Nat} {x : F64} (h : num ≤ 1000) (hx : Within (255 * 2 ^ 1074) x) :
      Within (255 * 2 ^ 1074) (fMul (fLit num 1000) x) := fMul_within (by omega) (lit h) hx
  have hneg : Within (255 * 2 ^ 1074) (fMul (fNeg (fLit 147 1000)) r) :=
    fMul_within (by omega) (fNeg_within (lit (by omega))) hr
  have hy := fAdd_within (by omega) (fAdd_within (by omega) (term (num := 299) (by omega) hr)
    (term (num := 587) (by omega) hg)) (term (num := 114) (by omega) hb)
  have hu := fAdd_within (by omega) (fSub_within (by omega) hneg (term (num := 289) (by omega) hg))
    (term (num := 436) (by omega) hb)
  have hv := fSub_within (by omega) (fSub_within (by omega) (term (num := 615) (by omega) hr)
    (term (num := 515) (by omega) hg)) (term (num := 100) (by omega) hb)
  exact yuvOfRgb_of_finite hy.1 hu.1 hv.1

/-- Pixel p of `CSC_FWD` as it is staged. -/
def fwdStore (s : State) (p : Nat) : Store :=
  let r := fOfNat (s.ldU8 (s.src + 3 * p))
  let g := fOfNat (s.ldU8 (s.src + 3 * p + 1))
  let b := fOfNat (s.ldU8 (s.src + 3 * p + 2))
  stArray f64Bytes (s.dst + 24 * p) [fwdY r g b, fwdU r g b, fwdV r g b]

theorem cscFwdPixel_eq (s : State) (p : Nat) : cscFwdPixel s p = .ok (fwdStore s p) := by
  rw [cscFwdPixel, yuvOfRgb_of_bytes (fOfNat_ldU8_within ..) (fOfNat_ldU8_within ..) (fOfNat_ldU8_within ..)]
  rfl

/-- Pixel p of `CSC_INV` as it is staged. -/
def invStore (s : State) (p : Nat) : Store :=
  ⟨s.dst + 3 * p, [toByte (invRed s p), toByte (invGreen s p), toByte (invBlue s p)]⟩

/-- Where the values `CSC_INV` checks are finite, so is every product and sum inside them. -/
theorem cscInvPixel_eq {s : State} {p : Nat} (h : ∀ v ∈ invValues s p, fFinite v = true) :
    cscInvPixel s p = .ok (invStore s p) := by
  simp only [invValues, List.forall_mem_cons] at h
  obtain ⟨hy, hu, hv, hred, hgreen, hblue, -⟩ := h
  unfold invRed invGreen invBlue at *
  obtain ⟨-, hrv⟩ := fAdd_finite _ _ hred
  obtain ⟨hgyu, hgv⟩ := fSub_finite hgreen
  obtain ⟨-, hgu⟩ := fSub_finite hgyu
  obtain ⟨-, hbu⟩ := fAdd_finite _ _ hblue
  simp only [cscInvPixel, rgbOfYuv, cAdd, cSub, cMul, chk_bind, *]
  rfl

/-! ### Staged writes read back -/

/-- Every byte of a staged write reads as staged. -/
def Store.ReadBack (w : Store) (t : State) : Prop := ∀ k b, w.bytes[k]? = some b → t.ldByte (w.addr + k) = b

/-- Staged writes of one size, one after another: none meets another, so each reads back. -/
theorem readBack_of_consecutive {w : Nat → Store} {base size : Nat} (haddr : ∀ p, (w p).addr = base + size * p)
    (hlen : ∀ p, (w p).bytes.length = size) (s : State) {n p : Nat} (hp : p < n) :
    (w p).ReadBack (commit s (.ofWrites ((List.range n).map w))) := by
  intro k b hb
  obtain ⟨hk, rfl⟩ := List.getElem?_eq_some_iff.1 hb
  obtain ⟨before, after, hsplit⟩ := List.append_of_mem (List.mem_range.2 hp)
  have hnodup : (before ++ p :: after).Nodup := hsplit ▸ List.nodup_range
  have hafter : storesTo (after.map w) ((w p).addr + k) = false := by
    simp only [storesTo, List.any_map, List.any_eq_false, Function.comp_apply, Bool.and_eq_true,
      decide_eq_true_eq, haddr, hlen]
    intro q hq
    have hne : p ≠ q := fun h => (List.nodup_cons.1 hnodup.of_append_right).1 (h ▸ hq)
    rw [hlen] at hk
    have apart {i j : Nat} (hij : i < j) : size * i + size ≤ size * j := Nat.mul_le_mul_left size hij
    rcases Nat.lt_or_gt_of_ne hne with h | h
    · have := apart h
      omega
    · have := apart h
      omega
  rw [commit_ofWrites, setLmem_ldByte, hsplit, List.map_append, List.map_cons,
    lookup_applyStores_last _ _ _ _ k hk hafter]
  rfl

/-- Byte k of element i of a run of elements of one size. -/
theorem stArray_getElem? {α : Type} {enc : α → List Byte} {e : Nat} (henc : ∀ x, (enc x).length = e) (a : Nat)
    {xs : List α} {i k : Nat} (hi : i < xs.length) (hk : k < e) :
    (stArray enc a xs).bytes[e * i + k]? = (enc xs[i])[k]? := by
  induction xs generalizing i with
  | nil => exact absurd hi (Nat.not_lt_zero i)
  | cons x xs ih =>
    simp only [stArray, List.map_cons, List.flatten_cons] at ih ⊢
    cases i with
    | zero => rw [Nat.mul_zero, Nat.zero_add, List.getElem?_append_left (by rwa [henc])]; rfl
    | succ i =>
      rw [List.getElem?_append_right (by rw [henc, Nat.mul_succ]; omega), henc,
        show e * (i + 1) + k - e = e * i + k by rw [Nat.mul_succ]; omega]
      exact ih (Nat.lt_of_succ_lt_succ hi)

/-- Where a run of binary64 values reads back, `ld_f64` gives each of them. -/
theorem Store.ReadBack.ldF64 {t : State} {a : Nat} {xs : List F64} (h : (stArray f64Bytes a xs).ReadBack t) {i : Nat}
    {x : F64} (hx : xs[i]? = some x) : t.ldF64 (a + 8 * i) = x := by
  obtain ⟨hi, rfl⟩ := List.getElem?_eq_some_iff.1 hx
  refine ldF64_of_bytes t _ _ fun k hk => ?_
  rw [Nat.add_assoc]
  exact h _ _ ((stArray_getElem? f64Bytes_length a hi hk).trans (List.getElem?_eq_getElem _))

/-! ### The commands -/

/-- A pass whose computation succeeds on every element is a map. -/
theorem mapE_eq_map {α β : Type} {f : α → Except ErrCode β} {g : α → β} {as : List α} (h : ∀ a ∈ as, f a = .ok (g a)) :
    mapE f as = .ok (as.map g) := (mapE_congr f _ as h).trans (mapE_pure g as)

/-- A command that only stages writes completes with them committed: it changes only LMEM, only inside its output
regions. -/
theorem exec_of_writes {i : Instr} {s : State} {ws : List Store} (h : resultOf i s = .ok (.ofWrites ws)) :
    exec i s = .next (succeeded (commit s (.ofWrites ws))) ∧ OnlyLmem s (succeeded (commit s (.ofWrites ws))) ∧
      LmemKeptOutside (tableOutputs i s) s (succeeded (commit s (.ofWrites ws))) := by
  have hexec : exec i s = .next (succeeded (commit s (.ofWrites ws))) := by rw [exec_eq_finish, h, finish_ok]
  exact ⟨hexec, rfl, commandWritesOnlyItsOutputRegions i s _ hexec⟩

theorem runCscFwd_eq {s : State} (hc : checksPass .cscFwd s = true) :
    runCscFwd s = .ok (.ofWrites ((List.range s.elements).map (fwdStore s))) := by
  rw [runCscFwd, regionChecks_of_memoryChecks hc, mapE_eq_map fun p _ => cscFwdPixel_eq s p]
  rfl

theorem runCscInv_eq {s : State} (hc : checksPass .cscInv s = true)
    (hfin : ∀ p < s.elements, ∀ v ∈ invValues s p, fFinite v = true) :
    runCscInv s = .ok (.ofWrites ((List.range s.elements).map (invStore s))) := by
  rw [runCscInv, regionChecks_of_memoryChecks hc, mapE_eq_map fun p hp => cscInvPixel_eq (hfin p (List.mem_range.1 hp))]
  rfl

/-- Settles O17: no value computed from bytes overflows, and the pixels' writes do not meet. -/
theorem cscFwdConvertsEveryPixel : Obligations.CscFwdConvertsEveryPixel := by
  intro s hc
  obtain ⟨hexec, honly, hkept⟩ := exec_of_writes (i := .cscFwd) (runCscFwd_eq hc)
  refine ⟨_, hexec, honly, hkept, ?_⟩
  rintro p hp r g b rfl rfl rfl
  have hread := readBack_of_consecutive (w := fwdStore s) (fun _ => rfl) (fun _ => stArray_length f64Bytes_length _ _) s hp
  exact ⟨hread.ldF64 (i := 0) rfl, hread.ldF64 (i := 1) rfl, hread.ldF64 (i := 2) rfl⟩

/-- Settles O18: finite results have finite operands, so no pixel raises, and the pixels' writes do not meet. -/
theorem cscInvConvertsEveryPixel : Obligations.CscInvConvertsEveryPixel := by
  intro s hc hfin
  obtain ⟨hexec, honly, hkept⟩ := exec_of_writes (i := .cscInv) (runCscInv_eq hc hfin)
  refine ⟨_, hexec, honly, hkept, fun p hp => ?_⟩
  have hread := readBack_of_consecutive (w := invStore s) (fun _ => rfl) (fun _ => rfl) s hp
  exact ⟨hread 0 _ rfl, hread 1 _ rfl, hread 2 _ rfl⟩

end Sys2Proof.Machine

/-! ## The adaptive quantizer: the center sort and the refinement loop (spec/41_adaptive_quantizer.md R189, R192) -/

namespace Sys2Proof.Machine

/-! ### Order on finite values -/

theorem fLt_eq_false_iff {x y : F64} (hx : fFinite x = true) (hy : fFinite y = true) :
    fLt x y = false ↔ fValue y ≤ fValue x := by rw [← Bool.not_eq_true, fLt_iff hx hy, not_lt]

theorem fEq_eq_false_iff {x y : F64} (hx : fFinite x = true) (hy : fFinite y = true) :
    fEq x y = false ↔ fValue x ≠ fValue y := by rw [← Bool.not_eq_true, fEq_iff hx hy]

/-- Finite values, none of which is greater than a later one. -/
structure FiniteSorted (xs : List F64) : Prop where
  finite : ∀ x ∈ xs, fFinite x = true
  sorted : xs.Pairwise fun x y => fValue x ≤ fValue y

theorem FiniteSorted.tail {x : F64} {xs : List F64} (h : FiniteSorted (x :: xs)) : FiniteSorted xs :=
  ⟨fun y hy => h.finite y (List.mem_cons_of_mem x hy), h.sorted.of_cons⟩

/-- Sorted finite values ascend, neighbour by neighbour. -/
theorem FiniteSorted.ascending {xs : List F64} (h : FiniteSorted xs) : ascending xs = true := by
  induction xs with
  | nil => rfl
  | cons x xs ih =>
    cases xs with
    | nil => rfl
    | cons y ys =>
      rw [Machine.ascending, Bool.and_eq_true, fLe_iff (h.finite x (by simp)) (h.finite y (by simp))]
      exact ⟨List.rel_of_pairwise_cons h.sorted (by simp), ih h.tail⟩

/-! ### The sort -/

theorem insertAscending_perm (x : F64) (ys : List F64) : (insertAscending x ys).Perm (x :: ys) := by
  induction ys with
  | nil => exact .refl _
  | cons y ys ih =>
    unfold insertAscending
    split
    · exact .refl _
    · exact (ih.cons y).trans (.swap x y ys)

theorem insertAscending_sorted {x : F64} {ys : List F64} (hx : fFinite x = true) (h : FiniteSorted ys) :
    FiniteSorted (insertAscending x ys) := by
  have hfin : ∀ z ∈ insertAscending x ys, fFinite z = true := fun z hz => by
    rcases List.mem_cons.1 ((insertAscending_perm x ys).mem_iff.1 hz) with rfl | hz
    · exact hx
    · exact h.finite z hz
  refine ⟨hfin, ?_⟩
  induction ys with
  | nil => exact List.pairwise_singleton _ _
  | cons y ys ih =>
    have hle : ∀ z ∈ ys, fValue y ≤ fValue z := fun z => List.rel_of_pairwise_cons h.sorted
    have hy : fFinite y = true := h.finite y (by simp)
    unfold insertAscending at hfin ⊢
    split
    · rename_i hlt
      rw [fLt_iff hx hy] at hlt
      refine List.pairwise_cons.2 ⟨fun z hz => ?_, h.sorted⟩
      rcases List.mem_cons.1 hz with rfl | hz
      · exact hlt.le
      · exact hlt.le.trans (hle z hz)
    · rename_i hlt
      rw [if_neg hlt] at hfin
      rw [Bool.not_eq_true, fLt_eq_false_iff hx hy] at hlt
      refine List.pairwise_cons.2 ⟨fun z hz => ?_, ih h.tail fun z hz => hfin z (List.mem_cons_of_mem y hz)⟩
      rcases List.mem_cons.1 ((insertAscending_perm x ys).mem_iff.1 hz) with rfl | hz
      · exact hlt
      · exact hle z hz

/-- A value goes after those equal to it: whatever follows it is greater. -/
theorem insertAscending_filter {v x : F64} {ys : List F64} (hv : fFinite v = true) (hx : fFinite x = true)
    (h : FiniteSorted ys) :
    (insertAscending x ys).filter (fEq v) = ys.filter (fEq v) ++ [x].filter (fEq v) := by
  induction ys with
  | nil => rfl
  | cons y ys ih =>
    unfold insertAscending
    split
    · rename_i hlt
      rw [fLt_iff hx (h.finite y (by simp))] at hlt
      cases hvx : fEq v x with
      | false => simp [hvx]
      | true =>
        have hnone : (y :: ys).filter (fEq v) = [] := by
          rw [List.filter_eq_nil_iff]
          intro z hz
          rw [Bool.not_eq_true, fEq_eq_false_iff hv (h.finite z hz), (fEq_iff hv hx).1 hvx]
          rcases List.mem_cons.1 hz with rfl | hz
          · exact hlt.ne
          · exact (hlt.trans_le (List.rel_of_pairwise_cons h.sorted hz)).ne
        rw [List.filter_cons_of_pos hvx, hnone, List.filter_cons_of_pos hvx]
        rfl
    · rw [List.filter_cons, List.filter_cons, ih h.tail]
      split <;> rfl

theorem sortAscending_concat (xs : List F64) (x : F64) :
    sortAscending (xs ++ [x]) = insertAscending x (sortAscending xs) := by
  rw [sortAscending, List.foldl_append]
  rfl

theorem sortAscending_perm (xs : List F64) : (sortAscending xs).Perm xs := by
  induction xs using List.reverseRecOn with
  | nil => exact .refl _
  | append_singleton xs x ih =>
    rw [sortAscending_concat]
    exact (insertAscending_perm x _).trans ((ih.cons x).trans (List.perm_append_singleton x xs).symm)

theorem sortAscending_sorted {xs : List F64} (h : ∀ x ∈ xs, fFinite x = true) : FiniteSorted (sortAscending xs) := by
  induction xs using List.reverseRecOn with
  | nil => exact ⟨h, .nil⟩
  | append_singleton xs x ih =>
    rw [sortAscending_concat]
    exact insertAscending_sorted (h x (by simp)) (ih fun y hy => h y (List.mem_append_left _ hy))

/-- Equal values keep their order. -/
theorem sortAscending_filter {v : F64} {xs : List F64} (hv : fFinite v = true) (h : ∀ x ∈ xs, fFinite x = true) :
    (sortAscending xs).filter (fEq v) = xs.filter (fEq v) := by
  induction xs using List.reverseRecOn with
  | nil => rfl
  | append_singleton xs x ih =>
    have hxs : ∀ y ∈ xs, fFinite y = true := fun y hy => h y (List.mem_append_left _ hy)
    rw [sortAscending_concat, insertAscending_filter hv (h x (by simp)) (sortAscending_sorted hxs), ih hxs,
      List.filter_append]

/-! ### The loop -/

/-- The centers after a pass that answers, sorted. -/
def nextCenters (bins : List (Nat × F64)) (cs : List F64) : List F64 :=
  match refinePass bins cs with
  | .ok p => sortAscending p.1
  | .error _ => cs

/-- The movement of a pass that answers. -/
def passMovement (bins : List (Nat × F64)) (cs : List F64) : F64 :=
  match refinePass bins cs with
  | .ok p => p.2
  | .error _ => 0

theorem nextCenters_of_ok {bins : List (Nat × F64)} {cs : List F64} {p : List F64 × F64}
    (h : refinePass bins cs = .ok p) : nextCenters bins cs = sortAscending p.1 := by rw [nextCenters, h]

theorem passMovement_of_ok {bins : List (Nat × F64)} {cs : List F64} {p : List F64 × F64}
    (h : refinePass bins cs = .ok p) : passMovement bins cs = p.2 := by rw [passMovement, h]

/-- A pass from these centers gives the next ones, with its movement. -/
def PassAnswers (bins : List (Nat × F64)) (cs : List F64) : Prop :=
  ∃ new, refinePass bins cs = .ok (new, passMovement bins cs) ∧ nextCenters bins cs = sortAscending new

theorem passAnswers_of_ok {bins : List (Nat × F64)} {cs : List F64} {p : List F64 × F64}
    (h : refinePass bins cs = .ok p) : PassAnswers bins cs :=
  ⟨p.1, by rw [h, passMovement_of_ok h], nextCenters_of_ok h⟩

/-- The movement the loop stops at (R192). -/
theorem fLit_quarter : fLit 1 4 = 0x3FD0000000000000 := by decide +kernel

/-- What one turn of the loop does: its pass raises, or stops the loop, or goes on (R189). -/
theorem refine_succ_cases (bins : List (Nat × F64)) (fuel : Nat) (cs : List F64) (iters : Nat) :
    (∃ e, refinePass bins cs = .error e ∧ refine bins (fuel + 1) cs iters = .error e) ∨
      PassAnswers bins cs ∧
        (fLe (passMovement bins cs) 0x3FD0000000000000 = true ∧
            refine bins (fuel + 1) cs iters = .ok (nextCenters bins cs, iters + 1) ∨
          fLe (passMovement bins cs) 0x3FD0000000000000 = false ∧
            refine bins (fuel + 1) cs iters = refine bins fuel (nextCenters bins cs) (iters + 1)) := by
  cases hp : refinePass bins cs with
  | error e => exact .inl ⟨e, rfl, by rw [refine, hp]; rfl⟩
  | ok p =>
    refine .inr ⟨passAnswers_of_ok hp, ?_⟩
    rw [refine, hp, ok_bind, fLit_quarter, nextCenters_of_ok hp, passMovement_of_ok hp]
    cases hle : fLe p.2 0x3FD0000000000000 with
    | true => exact .inl ⟨rfl, rfl⟩
    | false => exact .inr ⟨rfl, rfl⟩

/-- A result of the loop comes after `n` passes: all answer, all but the last move on, and the last stops it short of the
cap. -/
theorem refine_ok {bins : List (Nat × F64)} {fuel iters : Nat} {cs : List F64} {r : List F64 × Nat}
    (h : refine bins fuel cs iters = .ok r) :
    ∃ n, r = ((nextCenters bins)^[n] cs, iters + n) ∧ n ≤ fuel ∧
      (∀ p < n, PassAnswers bins ((nextCenters bins)^[p] cs)) ∧
      (∀ p, p + 1 < n → fLe (passMovement bins ((nextCenters bins)^[p] cs)) 0x3FD0000000000000 = false) ∧
      (n < fuel → 0 < n ∧ fLe (passMovement bins ((nextCenters bins)^[n - 1] cs)) 0x3FD0000000000000 = true) := by
  induction fuel generalizing cs iters with
  | zero =>
    cases h
    exact ⟨0, rfl, Nat.le_refl 0, by simp, by simp, by simp⟩
  | succ fuel ih =>
    rcases refine_succ_cases bins fuel cs iters with ⟨e, -, he⟩ | ⟨hpass, ⟨hle, hstop⟩ | ⟨hle, hgo⟩⟩
    · rw [he] at h
      cases h
    · rw [hstop] at h
      cases h
      exact ⟨1, rfl, by omega, by simpa using hpass, by simp, fun _ => ⟨Nat.one_pos, hle⟩⟩
    · rw [hgo] at h
      obtain ⟨n, rfl, hn, hall, hmove, hlast⟩ := ih h
      refine ⟨n + 1, by rw [Function.iterate_succ_apply, Nat.add_assoc, Nat.add_comm 1], by omega,
        Nat.forall_lt_succ_left.2 ⟨hpass, hall⟩, fun p hp => ?_, fun hlt => ⟨by omega, ?_⟩⟩
      · cases p with
        | zero => exact hle
        | succ p => exact hmove p (by omega)
      · obtain ⟨hpos, hle'⟩ := hlast (by omega)
        obtain ⟨m, rfl⟩ := Nat.exists_eq_succ_of_ne_zero hpos.ne'
        exact hle'

/-- An error of the loop is that of a pass before the cap, after passes that move on. -/
theorem refine_error {bins : List (Nat × F64)} {fuel iters : Nat} {cs : List F64} {e : ErrCode}
    (h : refine bins fuel cs iters = .error e) :
    ∃ n < fuel, (∀ p < n, PassAnswers bins ((nextCenters bins)^[p] cs) ∧
        fLe (passMovement bins ((nextCenters bins)^[p] cs)) 0x3FD0000000000000 = false) ∧
      refinePass bins ((nextCenters bins)^[n] cs) = .error e := by
  induction fuel generalizing cs iters with
  | zero => cases h
  | succ fuel ih =>
    rcases refine_succ_cases bins fuel cs iters with ⟨e', hpass, he⟩ | ⟨hpass, ⟨-, hstop⟩ | ⟨hle, hgo⟩⟩
    · rw [he] at h
      cases h
      exact ⟨0, by omega, by simp, hpass⟩
    · rw [hstop] at h
      cases h
    · rw [hgo] at h
      obtain ⟨n, hn, hall, hlast⟩ := ih h
      exact ⟨n + 1, by omega, Nat.forall_lt_succ_left.2 ⟨⟨hpass, hle⟩, hall⟩, hlast⟩

/-- Settles O40: every insertion puts a value after its equals, and the centers before pass p are p turns of the loop. -/
theorem centerSortIsStableAscending : Obligations.CenterSortIsStableAscending := by
  refine ⟨fun xs hfin => ⟨(sortAscending_sorted hfin).ascending, sortAscending_perm xs,
    fun v hv => sortAscending_filter hv hfin⟩, fun bins maxIter cs e h => ?_, fun bins maxIter cs r iters h => ?_⟩
  · obtain ⟨n, hn, hall, hlast⟩ := refine_error h
    refine ⟨fun p => (nextCenters bins)^[p] cs, fun p => passMovement bins ((nextCenters bins)^[p] cs), n, rfl, hn,
      fun q hq => ?_, hlast⟩
    obtain ⟨⟨new, hnew, hsort⟩, hmove⟩ := hall q hq
    exact ⟨new, hnew, (Function.iterate_succ_apply' _ _ _).trans hsort, hmove⟩
  · obtain ⟨n, heq, hn, hall, hmove, hlast⟩ := refine_ok h
    rw [Nat.zero_add, Prod.mk.injEq] at heq
    obtain ⟨rfl, rfl⟩ := heq
    refine ⟨fun p => (nextCenters bins)^[p] cs, fun p => passMovement bins ((nextCenters bins)^[p] cs), rfl, rfl, hn,
      fun q hq => ?_, hmove, hlast⟩
    obtain ⟨new, hnew, hsort⟩ := hall q hq
    exact ⟨new, hnew, (Function.iterate_succ_apply' _ _ _).trans hsort⟩

end Sys2Proof.Machine

/-! ## The adaptive quantizer: boundaries and output (spec/41_adaptive_quantizer.md R194) -/

namespace Sys2Proof.Machine

/-- The checked operations give the rounded result exactly where it is finite (R14). -/
theorem cAdd_ok_iff (x y v : F64) : cAdd x y = .ok v ↔ fFinite (fAdd x y) = true ∧ fAdd x y = v := chk_ok_iff _ _

theorem cSub_ok_iff (x y v : F64) : cSub x y = .ok v ↔ fFinite (fSub x y) = true ∧ fSub x y = v := chk_ok_iff _ _

theorem cMul_ok_iff (x y v : F64) : cMul x y = .ok v ↔ fFinite (fMul x y) = true ∧ fMul x y = v := chk_ok_iff _ _

theorem cDiv_ok_iff (x y v : F64) : cDiv x y = .ok v ↔ fFinite (fDiv x y) = true ∧ fDiv x y = v := chk_ok_iff _ _

theorem boundaries_cons_ok_iff (a b : F64) (cs bnd : List F64) :
    boundaries (a :: b :: cs) = .ok bnd ↔ ∃ v rest, bnd = v :: rest ∧ fFinite (fAdd a b) = true ∧ fFinite v = true ∧
      v = fDiv (fAdd a b) (fOfNat 2) ∧ boundaries (b :: cs) = .ok rest := by
  simp only [boundaries, bind_ok_iff, pure_ok_iff, cAdd_ok_iff, cDiv_ok_iff]
  constructor
  · rintro ⟨_, ⟨hsum, rfl⟩, _, ⟨hmid, rfl⟩, rest, hrest, rfl⟩
    exact ⟨_, rest, rfl, hsum, hmid, rfl, hrest⟩
  · rintro ⟨_, rest, rfl, hsum, hmid, rfl, hrest⟩
    exact ⟨_, ⟨hsum, rfl⟩, _, ⟨hmid, rfl⟩, rest, hrest, rfl⟩

theorem boundaries_ok_iff {cs bnd : List F64} (h : cs ≠ []) :
    boundaries cs = .ok bnd ↔ bnd.length + 1 = cs.length ∧
      ∀ j < bnd.length, fFinite (fAdd (cs.getD j 0) (cs.getD (j + 1) 0)) = true ∧ fFinite (bnd.getD j 0) = true ∧
        bnd.getD j 0 = fDiv (fAdd (cs.getD j 0) (cs.getD (j + 1) 0)) (fOfNat 2) := by
  induction cs generalizing bnd with
  | nil => exact absurd rfl h
  | cons a cs ih =>
    cases cs with
    | nil => cases bnd <;> simp [boundaries]
    | cons b cs =>
      rw [boundaries_cons_ok_iff]
      cases bnd with
      | nil => simp
      | cons v rest =>
        simp only [ih (List.cons_ne_nil b cs), List.length_cons, Nat.forall_lt_succ_left, List.getD_cons_zero,
          List.getD_cons_succ, List.cons.injEq, Nat.add_right_cancel_iff]
        constructor
        · rintro ⟨_, _, ⟨rfl, rfl⟩, hsum, hmid, hv, hlen, hrest⟩
          exact ⟨hlen, ⟨hsum, hmid, hv⟩, hrest⟩
        · rintro ⟨hlen, ⟨hsum, hmid, hv⟩, hrest⟩
          exact ⟨v, rest, ⟨rfl, rfl⟩, hsum, hmid, hv, hlen, hrest⟩

/-- A sample goes to the first center whose boundary it does not exceed, or to the last. -/
theorem assignSample_first {cs bnd : List F64} (x : F64) (h : bnd.length + 1 = cs.length) :
    ∃ j < cs.length, assignSample cs bnd x = cs.getD j 0 ∧ (∀ t < j, fLe x (bnd.getD t 0) = false) ∧
      (j < bnd.length → fLe x (bnd.getD j 0) = true) := by
  induction cs generalizing bnd with
  | nil => cases h
  | cons c cs ih =>
    cases bnd with
    | nil => exact ⟨0, Nat.succ_pos _, rfl, by simp, by simp⟩
    | cons b bs =>
      rw [assignSample]
      split
      · rename_i hle
        exact ⟨0, Nat.succ_pos _, rfl, by simp, fun _ => hle⟩
      · rename_i hgt
        obtain ⟨j, hj, hout, hbefore, hat⟩ := ih (bnd := bs) (Nat.succ.inj h)
        exact ⟨j + 1, Nat.succ_lt_succ hj, hout, Nat.forall_lt_succ_left.2 ⟨Bool.not_eq_true _ ▸ hgt, hbefore⟩,
          fun hlt => hat (Nat.lt_of_succ_lt_succ hlt)⟩

/-- Settles O41: `boundaries_ok_iff` and `assignSample_first`, each by induction along the centers. -/
theorem sampleGoesToFirstCenterNotExceeded : Obligations.SampleGoesToFirstCenterNotExceeded := fun cs _ x hne =>
  ⟨boundaries_ok_iff hne, RaisesOnlyNonFinite.boundaries cs,
    fun hbnd => assignSample_first x ((boundaries_ok_iff hne).1 hbnd).1⟩

end Sys2Proof.Machine

/-! ## The adaptive quantizer: one refinement pass (spec/41_adaptive_quantizer.md R190, R191) -/

namespace Sys2Proof.Machine

/-! ### The nearest center -/

theorem fLow_fAbs (x : F64) : fLow (fAbs x) = fLow x := by
  have hmask : (0x7FFFFFFFFFFFFFFF : F64).toNat = 2 ^ 63 - 1 := by decide
  rw [fLow, fLow, fAbs, BitVec.toNat_and, hmask, Nat.and_two_pow_sub_one_eq_mod, Nat.mod_mod]

theorem fFinite_fAbs {x : F64} (h : fFinite x = true) : fFinite (fAbs x) = true := by
  rwa [fFinite_iff, fLow_fAbs, ← fFinite_iff]

/-- How far a midpoint is from center k. -/
def centerDistance (cs : List F64) (mid : F64) (k : Nat) : F64 := fAbs (fSub mid (cs.getD k 0))

/-- Center j is the first nearest of the first n. -/
structure IsFirstNearest (cs : List F64) (mid : F64) (n j : Nat) : Prop where
  lt : j < n
  nearest : ∀ k < n, fLe (centerDistance cs mid j) (centerDistance cs mid k) = true
  first : ∀ k < j, fLt (centerDistance cs mid j) (centerDistance cs mid k) = true

/-- Every distance to one of the first n centers is finite. -/
def DistancesFinite (cs : List F64) (mid : F64) (n : Nat) : Prop := ∀ k < n, fFinite (fSub mid (cs.getD k 0)) = true

section
variable {cs : List F64} {mid : F64} {n : Nat}

theorem DistancesFinite.distance (h : DistancesFinite cs mid n) {k : Nat} (hk : k < n) :
    fFinite (centerDistance cs mid k) = true := fFinite_fAbs (h k hk)

theorem isFirstNearest_one (h : DistancesFinite cs mid 1) : IsFirstNearest cs mid 1 0 := by
  refine ⟨Nat.one_pos, fun k hk => ?_, fun k hk => absurd hk (Nat.not_lt_zero k)⟩
  obtain rfl : k = 0 := by omega
  exact (fLe_iff (h.distance hk) (h.distance hk)).2 le_rfl

/-- A nearer center becomes the first nearest, and any other leaves it. -/
theorem IsFirstNearest.succ {j : Nat} (h : IsFirstNearest cs mid n j) (hfin : DistancesFinite cs mid (n + 1)) :
    IsFirstNearest cs mid (n + 1)
      (if fLt (centerDistance cs mid n) (centerDistance cs mid j) = true then n else j) := by
  obtain ⟨hlt, hnear, hfirst⟩ := h
  have dist {k : Nat} (hk : k ≤ n) : fFinite (centerDistance cs mid k) = true := hfin.distance (Nat.lt_succ_of_le hk)
  split
  · rename_i hnew
    rw [fLt_iff (dist le_rfl) (dist hlt.le)] at hnew
    have closer {k : Nat} (hk : k < n) : fValue (centerDistance cs mid n) < fValue (centerDistance cs mid k) :=
      hnew.trans_le ((fLe_iff (dist hlt.le) (dist hk.le)).1 (hnear k hk))
    refine ⟨Nat.lt_succ_self n, fun k hk => ?_, fun k hk => (fLt_iff (dist le_rfl) (dist hk.le)).2 (closer hk)⟩
    rw [fLe_iff (dist le_rfl) (dist (Nat.le_of_lt_succ hk))]
    rcases Nat.lt_succ_iff_lt_or_eq.1 hk with hk | rfl
    · exact (closer hk).le
    · exact le_rfl
  · rename_i hold
    rw [Bool.not_eq_true, fLt_eq_false_iff (dist le_rfl) (dist hlt.le)] at hold
    refine ⟨Nat.lt_succ_of_lt hlt, fun k hk => ?_, hfirst⟩
    rcases Nat.lt_succ_iff_lt_or_eq.1 hk with hk | rfl
    · exact hnear k hk
    · exact (fLe_iff (dist hlt.le) (dist le_rfl)).2 hold

theorem IsFirstNearest.unique {i j : Nat} (hi : IsFirstNearest cs mid n i) (hj : IsFirstNearest cs mid n j)
    (hfin : DistancesFinite cs mid n) : i = j := by
  have not_before {i j : Nat} (hi : IsFirstNearest cs mid n i) (hj : IsFirstNearest cs mid n j) : ¬i < j := fun hij => by
    have hlt := (fLt_iff (hfin.distance hj.lt) (hfin.distance hi.lt)).1 (hj.first i hij)
    have hle := (fLe_iff (hfin.distance hi.lt) (hfin.distance hj.lt)).1 (hi.nearest j hj.lt)
    omega
  exact Nat.le_antisymm (not_lt.1 (not_before hj hi)) (not_lt.1 (not_before hi hj))

/-- The search over the centers left answers exactly where their distances are finite, with the first nearest of all. -/
theorem nearestFrom_ok_iff {rest : List F64} {best j : Nat} (hrest : rest = cs.drop n) (hn : n ≤ cs.length)
    (hfin : DistancesFinite cs mid n) (hbest : IsFirstNearest cs mid n best) :
    nearestFrom mid best (centerDistance cs mid best) n rest = .ok j ↔
      DistancesFinite cs mid cs.length ∧ IsFirstNearest cs mid cs.length j := by
  induction rest generalizing n best with
  | nil =>
    obtain rfl : n = cs.length := Nat.le_antisymm hn (List.drop_eq_nil_iff.1 hrest.symm)
    simp only [nearestFrom, Except.ok.injEq]
    exact ⟨fun h => ⟨hfin, h ▸ hbest⟩, fun h => hbest.unique h.2 hfin⟩
  | cons c rest ih =>
    have hlt : n < cs.length := by
      have := congrArg List.length hrest
      rw [List.length_cons, List.length_drop] at this
      omega
    rw [List.drop_eq_getElem_cons hlt, List.cons.injEq] at hrest
    obtain ⟨hc, hrest⟩ := hrest
    rw [← List.getD_eq_getElem cs 0 hlt] at hc
    simp only [nearestFrom, bind_ok_iff, cSub_ok_iff]
    have hsucc (h : fFinite (fSub mid c) = true) : DistancesFinite cs mid (n + 1) := fun k hk => by
      rcases Nat.lt_succ_iff_lt_or_eq.1 hk with hk | rfl
      · exact hfin k hk
      · exact hc ▸ h
    have step (h : fFinite (fSub mid c) = true) :
        (if fLt (fAbs (fSub mid c)) (centerDistance cs mid best) = true
          then nearestFrom mid n (fAbs (fSub mid c)) (n + 1) rest
          else nearestFrom mid best (centerDistance cs mid best) (n + 1) rest) = .ok j ↔
        DistancesFinite cs mid cs.length ∧ IsFirstNearest cs mid cs.length j := by
      have hnext := hbest.succ (hsucc h)
      rw [show fAbs (fSub mid c) = centerDistance cs mid n by rw [hc, centerDistance]]
      split
      · rename_i hnew
        rw [if_pos hnew] at hnext
        exact ih hrest hlt (hsucc h) hnext
      · rename_i hold
        rw [if_neg hold] at hnext
        exact ih hrest hlt (hsucc h) hnext
    constructor
    · rintro ⟨_, ⟨hd, rfl⟩, h⟩
      exact (step hd).1 h
    · intro h
      have hd : fFinite (fSub mid c) = true := hc ▸ h.1 n hlt
      exact ⟨_, ⟨hd, rfl⟩, (step hd).2 h⟩

theorem nearestCenter_ok_iff {j : Nat} (hne : cs ≠ []) :
    nearestCenter cs mid = .ok j ↔ DistancesFinite cs mid cs.length ∧ IsFirstNearest cs mid cs.length j := by
  obtain ⟨c, rest, rfl⟩ := List.exists_cons_of_ne_nil hne
  simp only [nearestCenter, bind_ok_iff, cSub_ok_iff]
  have start (h : fFinite (fSub mid c) = true) : DistancesFinite (c :: rest) mid 1 := fun k hk => by
    obtain rfl : k = 0 := by omega
    exact h
  have search (h : fFinite (fSub mid c) = true) :=
    nearestFrom_ok_iff (j := j) (rest := rest) rfl (Nat.succ_pos _) (start h) (isFirstNearest_one (start h))
  constructor
  · rintro ⟨_, ⟨hd, rfl⟩, h⟩
    exact (search hd).1 h
  · intro h
    have hd := h.1 0 (Nat.succ_pos _)
    exact ⟨_, ⟨hd, rfl⟩, (search hd).2 h⟩

end

/-! ### Least and greatest -/

/-- A choice between the value kept so far and the next one, carried along finite values, is Mathlib's. -/
theorem foldl_argAux_eq {r : F64 → F64 → Prop} [DecidableRel r] {pick : F64 → List F64 → F64} {better : F64 → F64 → Bool}
    (hnil : ∀ m, pick m [] = m) (hcons : ∀ m y ys, pick m (y :: ys) = pick (if better y m then y else m) ys)
    (hr : ∀ y m, fFinite y = true → fFinite m = true → (better y m = true ↔ r y m)) {x : F64} {xs : List F64}
    (h : ∀ y ∈ x :: xs, fFinite y = true) : xs.foldl (List.argAux r) (some x) = some (pick x xs) := by
  induction xs generalizing x with
  | nil => rw [hnil, List.foldl_nil]
  | cons y ys ih =>
    obtain ⟨hx, hy, hys⟩ : fFinite x = true ∧ fFinite y = true ∧ ∀ z ∈ ys, fFinite z = true := by simpa using h
    rw [hcons, List.foldl_cons]
    by_cases hb : better y x = true
    · rw [if_pos hb, ← ih (List.forall_mem_cons.2 ⟨hy, hys⟩)]
      exact congrArg (ys.foldl (List.argAux r)) (if_pos ((hr y x hy hx).1 hb))
    · rw [if_neg hb, ← ih (List.forall_mem_cons.2 ⟨hx, hys⟩)]
      exact congrArg (ys.foldl (List.argAux r)) (if_neg (mt (hr y x hy hx).2 hb))

/-- The least of finite values, the first of several. -/
theorem argmin_eq_aqMin {x : F64} {xs : List F64} (h : ∀ y ∈ x :: xs, fFinite y = true) :
    (x :: xs).argmin fValue = some (aqMin x xs) :=
  foldl_argAux_eq (fun _ => rfl) (fun _ _ _ => rfl) (fun _ _ hy hm => fLt_iff hy hm) h

/-- The greatest of finite values, the first of several. -/
theorem argmax_eq_aqMax {x : F64} {xs : List F64} (h : ∀ y ∈ x :: xs, fFinite y = true) :
    (x :: xs).argmax fValue = some (aqMax x xs) :=
  foldl_argAux_eq (better := fun y m => fLt m y) (fun _ => rfl) (fun _ _ _ => rfl) (fun _ _ hy hm => fLt_iff hm hy) h

/-- The first element of least image is the one no other is below, found before every other of its image. -/
theorem argmin_of_find {α β : Type} [LinearOrder β] [DecidableEq α] {f : α → β} {l : List α} {m : α}
    (hfind : l.find? (fun x => decide (f m = f x)) = some m) (hle : ∀ x ∈ l, f m ≤ f x) : l.argmin f = some m := by
  obtain ⟨-, before, after, rfl, hbefore⟩ := List.find?_eq_some_iff_append.1 hfind
  refine List.mem_argmin_iff.2 ⟨by simp, hle, fun a ha hma => ?_⟩
  have hout : a ∉ before := fun hin => by simpa [le_antisymm (hle a ha) hma] using hbefore a hin
  have hm : m ∉ before := fun hin => by simpa using hbefore m hin
  rw [List.idxOf_append_of_notMem hout, List.idxOf_append_of_notMem hm, List.idxOf_cons_self]
  omega

/-! ### The tally of a pass -/

/-- A tally with one bin's population added. -/
def addBin (t : F64 × Nat) (b : Nat × F64) : F64 × Nat := (fAdd t.1 (fMul (fOfNat b.1) b.2), t.2 + b.1)

/-- The non-empty bins nearest to center j. -/
def binsOf (cs : List F64) (bins : List (Nat × F64)) (j : Nat) : List (Nat × F64) :=
  bins.filter fun b => b.1 ≠ 0 ∧ nearestCenter cs b.2 = .ok j

theorem addToTally_ok_iff {count : Nat} {mid : F64} {ts ts' : Tally} {j : Nat} :
    addToTally count mid ts j = .ok ts' ↔
      ts' = ts.modify j (addBin · (count, mid)) ∧ ∀ t, ts[j]? = some t → fFinite (addBin t (count, mid)).1 = true := by
  induction ts generalizing j ts' with
  | nil =>
    simp only [addToTally, Except.ok.injEq, List.modify_nil, List.getElem?_nil]
    exact ⟨fun h => ⟨h.symm, nofun⟩, fun h => h.1.symm⟩
  | cons t ts ih =>
    cases j with
    | zero =>
      simp only [addToTally, bind_ok_iff, pure_ok_iff, cMul_ok_iff, cAdd_ok_iff, List.modify_zero_cons,
        List.getElem?_cons_zero, Option.some.injEq, forall_eq', addBin]
      constructor
      · rintro ⟨_, ⟨-, rfl⟩, _, ⟨hsum, rfl⟩, rfl⟩
        exact ⟨rfl, hsum⟩
      · rintro ⟨rfl, hsum⟩
        exact ⟨_, ⟨(fAdd_finite _ _ hsum).2, rfl⟩, _, ⟨hsum, rfl⟩, rfl⟩
    | succ j =>
      simp only [addToTally, bind_ok_iff, pure_ok_iff, ih, List.modify_succ_cons, List.getElem?_cons_succ]
      constructor
      · rintro ⟨_, ⟨rfl, hsum⟩, rfl⟩
        exact ⟨rfl, hsum⟩
      · rintro ⟨rfl, hsum⟩
        exact ⟨_, ⟨rfl, hsum⟩, rfl⟩

/-- A sum from +0.0 or any start, and a count. -/
theorem foldl_addBin (t : F64 × Nat) (bs : List (Nat × F64)) :
    bs.foldl addBin t = (bs.foldl (fun acc b => fAdd acc (fMul (fOfNat b.1) b.2)) t.1, t.2 + (bs.map Prod.fst).sum) := by
  induction bs generalizing t with
  | nil => rfl
  | cons b bs ih => rw [List.foldl_cons, ih, List.map_cons, List.sum_cons, ← Nat.add_assoc]; rfl

/-- A finite sum has finite partial sums. -/
theorem finite_of_foldl_addBin {t : F64 × Nat} {bs : List (Nat × F64)} (h : fFinite (bs.foldl addBin t).1 = true) :
    fFinite t.1 = true := by
  induction bs generalizing t with
  | nil => exact h
  | cons b bs ih => exact (fAdd_finite t.1 (fMul (fOfNat b.1) b.2) (ih (t := addBin t b) h)).1

/-- Every sum of a tally is finite. -/
def Tally.Finite (ts : Tally) : Prop := ∀ t ∈ ts, fFinite t.1 = true

/-- A tally after all bins: each center's own bins added, in bin order. -/
def tallyAll (cs : List F64) (bins : List (Nat × F64)) (ts : Tally) : Tally :=
  ts.mapIdx fun j t => (binsOf cs bins j).foldl addBin t

theorem tallyAll_nil (cs : List F64) (ts : Tally) : tallyAll cs [] ts = ts := List.mapIdx_eq_iff.2 fun i => by
  cases ts[i]? <;> rfl

theorem tallyAll_cons_empty {cs : List F64} {b : Nat × F64} (bins : List (Nat × F64)) (ts : Tally) (h : b.1 = 0) :
    tallyAll cs (b :: bins) ts = tallyAll cs bins ts := by
  simp [tallyAll, binsOf, h]

theorem tallyAll_cons {cs : List F64} {b : Nat × F64} (bins : List (Nat × F64)) (ts : Tally) {i : Nat} (h : b.1 ≠ 0)
    (hi : nearestCenter cs b.2 = .ok i) :
    tallyAll cs (b :: bins) ts = tallyAll cs bins (ts.modify i (addBin · b)) := by
  refine List.ext_getElem? fun j => ?_
  simp only [tallyAll, List.getElem?_mapIdx, List.getElem?_modify, Option.map_eq_map, Option.map_map]
  congr 1
  funext t
  by_cases hij : i = j
  · subst hij
    simp [binsOf, h, hi]
  · simp [binsOf, hi, hij]

/-- A tally is given exactly where every non-empty bin has a nearest center and every sum is finite. -/
theorem tally_ok_iff {cs : List F64} {bins : List (Nat × F64)} {ts ts' : Tally} (hts : ts.Finite) :
    foldE (assignBin cs) ts bins = .ok ts' ↔
      (∀ b ∈ bins, b.1 ≠ 0 → ∃ j, nearestCenter cs b.2 = .ok j) ∧ ts'.Finite ∧ ts' = tallyAll cs bins ts := by
  induction bins generalizing ts with
  | nil =>
    simp only [foldE, Except.ok.injEq, List.not_mem_nil, tallyAll_nil]
    exact ⟨fun h => ⟨by simp, h ▸ hts, h.symm⟩, fun h => h.2.2.symm⟩
  | cons b bins ih =>
    rw [foldE, bind_ok_iff, List.forall_mem_cons]
    by_cases hb : b.1 = 0
    · simp only [assignBin, if_pos hb, Except.ok.injEq, exists_eq_left', ih hts, tallyAll_cons_empty bins ts hb]
      simp [hb]
    · simp only [assignBin, if_neg hb, bind_ok_iff, addToTally_ok_iff]
      constructor
      · rintro ⟨ts₁, ⟨i, hi, rfl, hsum⟩, h⟩
        have hts₁ : Tally.Finite (ts.modify i (addBin · b)) := fun t ht => by
          obtain ⟨j, hj⟩ := List.mem_iff_getElem?.1 ht
          rw [List.getElem?_modify] at hj
          obtain ⟨u, hu, rfl⟩ := Option.map_eq_some_iff.1 hj
          split
          · rename_i hij
            exact hsum u (hij ▸ hu)
          · exact hts u (List.mem_of_getElem? hu)
        obtain ⟨hall, hfin, rfl⟩ := (ih hts₁).1 h
        exact ⟨⟨fun _ => ⟨i, hi⟩, hall⟩, hfin, (tallyAll_cons bins ts hb hi).symm⟩
      · rintro ⟨⟨hnear, hall⟩, hfin, rfl⟩
        obtain ⟨i, hi⟩ := hnear hb
        have hstep := tallyAll_cons bins ts hb hi
        rw [hstep] at hfin
        have hts₁ : Tally.Finite (ts.modify i (addBin · b)) := fun t ht => by
          obtain ⟨j, hj⟩ := List.mem_iff_getElem?.1 ht
          refine finite_of_foldl_addBin (bs := binsOf cs bins j) (hfin _ (List.mem_of_getElem? (i := j) ?_))
          rw [tallyAll, List.getElem?_mapIdx, hj]
          rfl
        refine ⟨_, ⟨i, hi, rfl, fun t ht => hts₁ _ (List.mem_of_getElem? (i := i) ?_)⟩, (ih hts₁).2 ⟨hall, hstep ▸ hfin, hstep⟩⟩
        rw [List.getElem?_modify, ht]
        simp

/-! ### The pass -/

/-- The new value of a center from its tally (R191). -/
def newValue (c : F64) (t : F64 × Nat) : F64 := if t.2 = 0 then c else fDiv t.1 (fOfNat t.2)

theorem updateCenter_ok_iff (p : F64 × (F64 × Nat)) (r : F64 × F64) :
    updateCenter p = .ok r ↔
      fFinite (fSub (newValue p.1 p.2) p.1) = true ∧ r = (newValue p.1 p.2, fAbs (fSub (newValue p.1 p.2) p.1)) := by
  unfold updateCenter newValue
  split
  · simp only [bind_ok_iff, pure_ok_iff, cSub_ok_iff, Except.ok.injEq]
    constructor
    · rintro ⟨_, rfl, _, ⟨hd, rfl⟩, rfl⟩
      exact ⟨hd, rfl⟩
    · rintro ⟨hd, rfl⟩
      exact ⟨_, rfl, _, ⟨hd, rfl⟩, rfl⟩
  · simp only [bind_ok_iff, pure_ok_iff, cSub_ok_iff, cDiv_ok_iff]
    constructor
    · rintro ⟨_, ⟨-, rfl⟩, _, ⟨hd, rfl⟩, rfl⟩
      exact ⟨hd, rfl⟩
    · rintro ⟨hd, rfl⟩
      exact ⟨_, ⟨(fSub_finite hd).1, rfl⟩, _, ⟨hd, rfl⟩, rfl⟩

/-- A pass whose computation gives one value exactly where a condition holds. -/
theorem mapE_ok_iff_map {α β : Type} {f : α → Except ErrCode β} {g : α → β} {P : α → Prop}
    (h : ∀ a b, f a = .ok b ↔ P a ∧ b = g a) (as : List α) (bs : List β) :
    mapE f as = .ok bs ↔ (∀ a ∈ as, P a) ∧ bs = as.map g := by
  constructor
  · intro hm
    have hP (a : α) (ha : a ∈ as) : P a := by
      obtain ⟨k, hk, rfl⟩ := List.getElem_of_mem ha
      exact ((h _ _).1 (mapE_getElem hm k hk (by rwa [mapE_length hm]))).1
    rw [mapE_eq_map fun a ha => (h a (g a)).2 ⟨hP a ha, rfl⟩] at hm
    exact ⟨hP, (Except.ok.inj hm).symm⟩
  · rintro ⟨hP, rfl⟩
    exact mapE_eq_map fun a ha => (h a (g a)).2 ⟨hP a ha, rfl⟩

/-- The tally of center j in a pass. -/
def passTally (bins : List (Nat × F64)) (cs : List F64) (j : Nat) : F64 × Nat := (binsOf cs bins j).foldl addBin (0, 0)

/-- The new value of center j in a pass. -/
def passValue (bins : List (Nat × F64)) (cs : List F64) (j : Nat) : F64 := newValue (cs.getD j 0) (passTally bins cs j)

/-- How far center j moves in a pass. -/
def passDistance (bins : List (Nat × F64)) (cs : List F64) (j : Nat) : F64 :=
  fAbs (fSub (passValue bins cs j) (cs.getD j 0))

theorem zip_tallyAll (cs : List F64) (bins : List (Nat × F64)) :
    cs.zip (tallyAll cs bins (cs.map fun _ => ((0 : F64), 0))) =
      (List.range cs.length).map fun j => (cs.getD j 0, passTally bins cs j) := by
  refine List.ext_getElem (by simp [tallyAll]) fun j hj hj' => ?_
  have hlt : j < cs.length := by simpa using hj'
  simp [tallyAll, passTally, List.getD_eq_getElem?_getD, hlt]

/-- What a pass needs to answer: a nearest center for every non-empty bin, and every sum and distance finite. -/
structure PassFinite (bins : List (Nat × F64)) (cs : List F64) : Prop where
  nearest : ∀ b ∈ bins, b.1 ≠ 0 → ∃ j, nearestCenter cs b.2 = .ok j
  sum : ∀ j < cs.length, fFinite (passTally bins cs j).1 = true
  moved : ∀ j < cs.length, fFinite (fSub (passValue bins cs j) (cs.getD j 0)) = true

/-- What a pass gives, and exactly when (R190, R191). -/
theorem refinePass_ok_iff (bins : List (Nat × F64)) (cs : List F64) (p : List F64 × F64) :
    refinePass bins cs = .ok p ↔ PassFinite bins cs ∧
      p = ((List.range cs.length).map (passValue bins cs), aqMax 0 ((List.range cs.length).map (passDistance bins cs))) := by
  have hzero : Tally.Finite (cs.map fun _ => ((0 : F64), 0)) := fun t ht => by
    obtain ⟨_, -, rfl⟩ := List.mem_map.1 ht
    decide
  have hfin : (tallyAll cs bins (cs.map fun _ => ((0 : F64), 0))).Finite ↔
      ∀ j < cs.length, fFinite (passTally bins cs j).1 = true := by
    simp only [Tally.Finite, tallyAll, List.mem_mapIdx, List.length_map, List.getElem_map]
    exact ⟨fun h j hj => h _ ⟨j, hj, rfl⟩, by rintro h _ ⟨j, hj, rfl⟩; exact h j hj⟩
  simp only [refinePass, bind_ok_iff, pure_ok_iff, tally_ok_iff hzero, mapE_ok_iff_map updateCenter_ok_iff]
  constructor
  · rintro ⟨_, ⟨hall, hsum, rfl⟩, upd, ⟨hmoved, rfl⟩, rfl⟩
    rw [zip_tallyAll] at hmoved ⊢
    rw [List.forall_mem_map] at hmoved
    refine ⟨⟨hall, hfin.1 hsum, fun j hj => hmoved j (List.mem_range.2 hj)⟩, ?_⟩
    simp only [List.map_map]
    rfl
  · rintro ⟨⟨hall, hsum, hmoved⟩, rfl⟩
    refine ⟨_, ⟨hall, hfin.2 hsum, rfl⟩, _, ⟨?_, rfl⟩, ?_⟩
    · rw [zip_tallyAll, List.forall_mem_map]
      exact fun j hj => hmoved j (List.mem_range.1 hj)
    · rw [zip_tallyAll]
      simp only [List.map_map]
      rfl

/-- The movement is no less than any distance, and is one of them, or 0. -/
theorem passMovement_greatest {bins : List (Nat × F64)} {cs : List F64} (h : PassFinite bins cs) :
    (∀ j < cs.length, fLe (passDistance bins cs j) (aqMax 0 ((List.range cs.length).map (passDistance bins cs))) = true) ∧
      (aqMax 0 ((List.range cs.length).map (passDistance bins cs)) = 0 ∨
        ∃ j < cs.length, aqMax 0 ((List.range cs.length).map (passDistance bins cs)) = passDistance bins cs j) := by
  have hfin : ∀ d ∈ 0 :: (List.range cs.length).map (passDistance bins cs), fFinite d = true := by
    simp only [List.forall_mem_cons, List.forall_mem_map, List.mem_range]
    exact ⟨by decide, fun j hj => fFinite_fAbs (h.moved j hj)⟩
  have hmax := Option.mem_def.2 (argmax_eq_aqMax hfin)
  have hmem := List.argmax_mem hmax
  refine ⟨fun j hj => ?_, ?_⟩
  · have hj : passDistance bins cs j ∈ 0 :: (List.range cs.length).map (passDistance bins cs) :=
      List.mem_cons_of_mem _ (List.mem_map_of_mem (List.mem_range.2 hj))
    exact (fLe_iff (hfin _ hj) (hfin _ hmem)).2 (List.le_of_mem_argmax hj hmax)
  · rcases List.mem_cons.1 hmem with hzero | hmem
    · exact .inl hzero
    · obtain ⟨j, hj, heq⟩ := List.mem_map.1 hmem
      exact .inr ⟨j, List.mem_range.1 hj, heq.symm⟩

theorem passTally_eq (bins : List (Nat × F64)) (cs : List F64) (j : Nat) :
    passTally bins cs j = ((binsOf cs bins j).foldl (fun acc b => fAdd acc (fMul (fOfNat b.1) b.2)) 0,
      ((binsOf cs bins j).map Prod.fst).sum) := by
  rw [passTally, foldl_addBin, Nat.zero_add]

theorem passValue_eq (bins : List (Nat × F64)) (cs : List F64) (j : Nat) :
    passValue bins cs j = if ((binsOf cs bins j).map Prod.fst).sum = 0 then cs.getD j 0 else
      fDiv ((binsOf cs bins j).foldl (fun acc b => fAdd acc (fMul (fOfNat b.1) b.2)) 0)
        (fOfNat ((binsOf cs bins j).map Prod.fst).sum) := by
  rw [passValue, newValue, passTally_eq]

/-- Settles O39: the search keeps the first nearest center, and a pass tallies each center's own bins. -/
theorem nearestCenterIsTheFirstNearest : Obligations.NearestCenterIsTheFirstNearest := by
  refine ⟨fun cs mid j hne => (nearestCenter_ok_iff hne).trans (and_congr_right fun _ =>
      ⟨fun h => ⟨h.lt, h.nearest, h.first⟩, fun ⟨hlt, hnear, hfirst⟩ => ⟨hlt, hnear, hfirst⟩⟩),
    fun bins cs => ?_, fun bins cs mid e h => h.elim (RaisesOnlyNonFinite.nearestCenter cs mid e)
      (RaisesOnlyNonFinite.refinePass bins cs e),
    fun bins cs new moved h => ?_⟩
  · constructor
    · rintro ⟨new, moved, h⟩
      obtain ⟨hpass, -⟩ := (refinePass_ok_iff _ _ _).1 h
      refine ⟨hpass.nearest, ?_⟩
      rintro j hj _ _ _ _ rfl rfl rfl rfl
      have hsum := hpass.sum j hj
      have hmoved := hpass.moved j hj
      rw [passTally_eq] at hsum
      rw [passValue_eq] at hmoved
      exact ⟨hsum, (fSub_finite hmoved).1, hmoved⟩
    · rintro ⟨hnear, hall⟩
      refine ⟨_, _, (refinePass_ok_iff _ _ _).2 ⟨⟨hnear, fun j hj => ?_, fun j hj => ?_⟩, rfl⟩⟩
      · rw [passTally_eq]
        exact (hall j hj _ _ _ _ rfl rfl rfl rfl).1
      · rw [passValue_eq]
        exact (hall j hj _ _ _ _ rfl rfl rfl rfl).2.2
  · obtain ⟨hpass, heq⟩ := (refinePass_ok_iff _ _ _).1 h
    rw [Prod.mk.injEq] at heq
    obtain ⟨rfl, rfl⟩ := heq
    have hvalue {j : Nat} (hj : j < cs.length) :
        ((List.range cs.length).map (passValue bins cs))[j]? = some (passValue bins cs j) := by simp [hj]
    obtain ⟨hle, hmem⟩ := passMovement_greatest hpass
    have hdist {j : Nat} (hj : j < cs.length) :
        fAbs (fSub (((List.range cs.length).map (passValue bins cs)).getD j 0) (cs.getD j 0)) = passDistance bins cs j := by
      rw [List.getD_eq_getElem?_getD, hvalue hj]
      rfl
    refine ⟨by simp, ?_, fun j hj => hdist hj ▸ hle j hj, hmem.imp_right fun ⟨j, hj, h⟩ => ⟨j, hj, (hdist hj).symm ▸ h⟩⟩
    rintro j hj _ _ _ rfl rfl rfl
    rw [hvalue hj, passValue_eq]
    rfl

end Sys2Proof.Machine

/-! ## The adaptive quantizer: bins, seeds and initial centers (spec/41_adaptive_quantizer.md R185 to R188) -/

namespace Sys2Proof.Machine

/-! ### Bins and midpoints -/

theorem aqBin_ok_iff (mn w x : F64) (b : Nat) : aqBin mn w x = .ok b ↔
    fFinite (fSub x mn) = true ∧ fFinite (fDiv (fSub x mn) w) = true ∧
      (b : Int) = max 0 (min 255 (fFloor (fDiv (fSub x mn) w))) := by
  have clamp (z : Int) : Nat.min z.toNat 255 = b ↔ (b : Int) = max 0 (min 255 z) := by
    rw [Nat.min_eq_min]
    omega
  simp only [aqBin, bind_ok_iff, pure_ok_iff, cSub_ok_iff, cDiv_ok_iff]
  constructor
  · rintro ⟨_, ⟨hsub, rfl⟩, _, ⟨hdiv, rfl⟩, hb⟩
    exact ⟨hsub, hdiv, (clamp _).1 hb⟩
  · rintro ⟨hsub, hdiv, hb⟩
    exact ⟨_, ⟨hsub, rfl⟩, _, ⟨hdiv, rfl⟩, (clamp _).2 hb⟩

theorem bump_eq_modify (cs : List Nat) (b : Nat) : bump cs b = cs.modify b (· + 1) := by
  induction cs generalizing b with
  | nil => simp [bump]
  | cons c cs ih => cases b <;> simp [bump, ih]

theorem histogram_concat (nums : List Nat) (b : Nat) :
    histogram (nums ++ [b]) = (histogram nums).modify b (· + 1) := by
  rw [histogram, List.foldl_append, ← bump_eq_modify]
  rfl

theorem histogram_length (nums : List Nat) : (histogram nums).length = 256 := by
  induction nums using List.reverseRecOn with
  | nil => exact List.length_replicate
  | append_singleton nums b ih => rw [histogram_concat, List.length_modify, ih]

theorem histogram_getElem? (nums : List Nat) {b : Nat} (hb : b < 256) : (histogram nums)[b]? = some (nums.count b) := by
  induction nums using List.reverseRecOn with
  | nil => exact List.getElem?_replicate_of_lt hb
  | append_singleton nums c ih =>
    rw [histogram_concat, List.getElem?_modify, ih, List.count_append, List.count_singleton]
    by_cases hbc : c = b <;> simp [hbc]

theorem halfPast_exact {k : Nat} (hk : 2 * k + 1 < 2 ^ 53) :
    fFinite (halfPast k) = true ∧ fValue (halfPast k) = (2 * k + 1) * 2 ^ 1073 := by
  obtain ⟨m, hm, hv⟩ := exists_magValue_eq (2 * k + 1) 1073 hk (by omega) (by omega)
  have hexact : (2 * k + 1) <<< 128 * 2 ^ 3968 = magValue m * (2 * 2 ^ 3022) := by
    have hscale := fLit_scale (2 * k + 1) 2
    rw [hv]
    rw [show 1074 = 1073 + 1 from rfl, pow_succ 2 1073] at hscale
    generalize 2 ^ 3968 = a, 2 ^ 3022 = b, 2 ^ 1073 = c at *
    linarith
  have hround := roundMag_of_exact Nat.two_pos (fLit_divisible (by omega)) hm hexact
  rw [halfPast, fLit, hround]
  refine ⟨fFinite_fPack _ hm, ?_⟩
  rw [fValue_fPack _ (hm.trans infMag_lt), hv]
  generalize 1073 = c
  push_cast
  rfl

/-- A value above a least one by a multiple of a width, the form of midpoints and fallback centers (R186, R188). -/
theorem cAdd_cMul_ok_iff (mn w v : F64) (k : Nat) : (cMul (halfPast k) w >>= fun p => cAdd mn p) = .ok v ↔
    fFinite (fMul (halfPast k) w) = true ∧ fFinite v = true ∧ v = fAdd mn (fMul (halfPast k) w) := by
  simp only [bind_ok_iff, cMul_ok_iff, cAdd_ok_iff]
  constructor
  · rintro ⟨_, ⟨hmul, rfl⟩, hadd, rfl⟩
    exact ⟨hmul, hadd, rfl⟩
  · rintro ⟨hmul, hadd, rfl⟩
    exact ⟨_, ⟨hmul, rfl⟩, hadd, rfl⟩

theorem binMidpoint_ok_iff (mn w v : F64) (b : Nat) : binMidpoint mn w b = .ok v ↔
    fFinite (fMul (halfPast b) w) = true ∧ fFinite v = true ∧ v = fAdd mn (fMul (halfPast b) w) :=
  cAdd_cMul_ok_iff mn w v b

theorem fallbackCenter_ok_iff (mn stepL v : F64) (j : Nat) : fallbackCenter mn stepL j = .ok v ↔
    fFinite (fMul (halfPast j) stepL) = true ∧ fFinite v = true ∧ v = fAdd mn (fMul (halfPast j) stepL) :=
  cAdd_cMul_ok_iff mn stepL v j

/-! ### Seeding -/

/-- The number of samples in the bins up to bin b. -/
def countUpTo (bins : List (Nat × F64)) (b : Nat) : Nat := ((bins.take (b + 1)).map Prod.fst).sum

/-- The running count at bin b has reached the target of seed k (R187). -/
def reachesTarget (per : F64) (bins : List (Nat × F64)) (k b : Nat) : Bool :=
  fLe (fMul (halfPast k) per) (fOfNat (countUpTo bins b))

/-- What seeding finds from seed k and bin `lo` on: each seed with the first bin at which its target is reached; no bin left
reaches the next target, if there is one. -/
inductive SeedRun (levels : Nat) (per : F64) (bins : List (Nat × F64)) : Nat → Nat → List F64 → List Nat → Prop
  | stop {k lo : Nat}
      (none_left : k < levels → ∀ b, lo ≤ b → b < bins.length →
        fFinite (fMul (halfPast k) per) = true ∧ reachesTarget per bins k b = false) :
      SeedRun levels per bins k lo [] []
  | seed {k lo i : Nat} {c : F64} {cs : List F64} {idx : List Nat}
      (finite : fFinite (fMul (halfPast k) per) = true) (after : lo ≤ i) (at_bin : (bins[i]?).map Prod.snd = some c)
      (reached : reachesTarget per bins k i = true) (first : ∀ b, lo ≤ b → b < i → reachesTarget per bins k b = false)
      (rest : SeedRun levels per bins (k + 1) (i + 1) cs idx) : SeedRun levels per bins k lo (c :: cs) (i :: idx)

/-- A bin that misses the target may stand before. -/
theorem SeedRun.skip {levels : Nat} {per : F64} {bins : List (Nat × F64)} {k lo : Nat} {cs : List F64} {idx : List Nat}
    (h : SeedRun levels per bins k (lo + 1) cs idx) (hfin : fFinite (fMul (halfPast k) per) = true)
    (hmiss : reachesTarget per bins k lo = false) : SeedRun levels per bins k lo cs idx := by
  cases h with
  | stop hnone =>
    refine .stop fun hk b hlo hb => ?_
    rcases Nat.eq_or_lt_of_le hlo with rfl | hlo
    · exact ⟨hfin, hmiss⟩
    · exact hnone hk b hlo hb
  | seed hfin hafter hat hreached hfirst hrest =>
    refine .seed hfin (Nat.le_of_succ_le hafter) hat hreached (fun b hlo hb => ?_) hrest
    rcases Nat.eq_or_lt_of_le hlo with rfl | hlo
    · exact hmiss
    · exact hfirst b hlo hb

theorem countUpTo_eq {bins rest : List (Nat × F64)} {bin : Nat × F64} {lo : Nat} (h : bins.drop lo = bin :: rest) :
    countUpTo bins lo = ((bins.take lo).map Prod.fst).sum + bin.1 := by
  have hget : bins[lo]? = some bin := by rw [← List.head?_drop, h]; rfl
  rw [countUpTo, List.take_add_one, hget]
  simp

theorem seedCenters_run {levels : Nat} {per : F64} {bins rest : List (Nat × F64)} {k lo cum : Nat} {cs : List F64}
    (hrest : bins.drop lo = rest) (hcum : cum = ((bins.take lo).map Prod.fst).sum)
    (h : seedCenters levels per k cum rest = .ok cs) : ∃ idx, SeedRun levels per bins k lo cs idx := by
  induction rest generalizing k lo cum cs with
  | nil =>
    cases h
    have := List.drop_eq_nil_iff.1 hrest
    exact ⟨[], .stop fun _ b hlo hb => by omega⟩
  | cons bin rest ih =>
    have hcount : cum + bin.1 = countUpTo bins lo := by rw [countUpTo_eq hrest, hcum]
    have hdrop : bins.drop (lo + 1) = rest := by rw [← List.tail_drop, hrest, List.tail_cons]
    have hget : (bins[lo]?).map Prod.snd = some bin.2 := by rw [← List.head?_drop, hrest]; rfl
    unfold seedCenters at h
    split at h
    · obtain ⟨target, htarget, h⟩ := (bind_ok_iff _ _ _).1 h
      obtain ⟨hfin, rfl⟩ := (cMul_ok_iff _ _ _).1 htarget
      rw [hcount] at h
      split at h
      · rename_i hreached
        simp only [bind_ok_iff, pure_ok_iff] at h
        obtain ⟨cs, hcs, rfl⟩ := h
        obtain ⟨idx, hrun⟩ := ih hdrop rfl hcs
        exact ⟨lo :: idx, .seed hfin le_rfl hget hreached (fun b hlo hb => by omega) hrun⟩
      · rename_i hmissed
        obtain ⟨idx, hrun⟩ := ih hdrop rfl h
        exact ⟨idx, hrun.skip hfin (Bool.not_eq_true _ ▸ hmissed)⟩
    · cases h
      exact ⟨[], .stop fun hk => by omega⟩

/-- The first bin that seed k may take: the one past the bin of the seed before. -/
def seedStart (lo : Nat) (idx : List Nat) (k : Nat) : Nat := if k = 0 then lo else idx.getD (k - 1) 0 + 1

theorem seedStart_cons_succ (lo i : Nat) (idx : List Nat) (k : Nat) :
    seedStart lo (i :: idx) (k + 1) = seedStart (i + 1) idx k := by cases k <;> rfl

/-- The clauses of R187 for each seed of a run. -/
theorem SeedRun.clauses {levels : Nat} {per : F64} {bins : List (Nat × F64)} {k lo : Nat} {cs : List F64} {idx : List Nat}
    (h : SeedRun levels per bins k lo cs idx) :
    idx.length = cs.length ∧
      (∀ j < cs.length, fFinite (fMul (halfPast (k + j)) per) = true ∧ seedStart lo idx j ≤ idx.getD j 0 ∧
        idx.getD j 0 < bins.length ∧ (bins[idx.getD j 0]?).map Prod.snd = cs[j]? ∧
        reachesTarget per bins (k + j) (idx.getD j 0) = true ∧
        ∀ b, seedStart lo idx j ≤ b → b < idx.getD j 0 → reachesTarget per bins (k + j) b = false) ∧
      (k + cs.length < levels → ∀ b, seedStart lo idx cs.length ≤ b → b < bins.length →
        fFinite (fMul (halfPast (k + cs.length)) per) = true ∧ reachesTarget per bins (k + cs.length) b = false) := by
  induction h with
  | stop hnone => exact ⟨rfl, fun j hj => absurd hj (Nat.not_lt_zero j), hnone⟩
  | @seed k lo i c cs idx hfin hafter hat hreached hfirst _ ih =>
    obtain ⟨hlen, heach, hend⟩ := ih
    simp only [Nat.add_right_comm k 1] at heach hend
    have hlt : i < bins.length := by
      obtain ⟨_, hb, -⟩ := Option.map_eq_some_iff.1 hat
      exact (List.getElem?_eq_some_iff.1 hb).1
    refine ⟨congrArg (· + 1) hlen, Nat.forall_lt_succ_left.2 ⟨⟨hfin, hafter, hlt, hat, hreached, hfirst⟩, fun j hj => ?_⟩, ?_⟩
    · rw [seedStart_cons_succ]
      exact heach j hj
    · rw [List.length_cons, seedStart_cons_succ]
      exact hend

/-- Seeding raises only at a target that is not finite. -/
theorem seedCenters_error {levels : Nat} {per : F64} {k cum : Nat} {bins : List (Nat × F64)} {e : ErrCode}
    (h : seedCenters levels per k cum bins = .error e) : ∃ j < levels, fFinite (fMul (halfPast j) per) = false := by
  induction bins generalizing k cum with
  | nil => cases h
  | cons bin bins ih =>
    unfold seedCenters at h
    split at h
    · rename_i hk
      rcases (bind_error_iff _ _ _).1 h with h | ⟨target, -, h⟩
      · exact ⟨k, hk, ((chk_error_iff _ _).1 h).1⟩
      · split at h
        · simp only [bind_error_iff, pure_error_iff, and_false, exists_false, or_false] at h
          exact ih h
        · exact ih h
    · cases h

/-! ### Initial centers -/

/-- Seeds first, then the fallback values at the indices left. -/
theorem initialCenters_ok_iff (levels n : Nat) (mn range : F64) (bins : List (Nat × F64)) (cs : List F64) :
    initialCenters levels n mn range bins = .ok cs ↔
    fFinite (fDiv (fOfNat n) (fOfNat levels)) = true ∧ fFinite (fDiv range (fOfNat levels)) = true ∧
    ∃ seeds : List F64, seedCenters levels (fDiv (fOfNat n) (fOfNat levels)) 0 0 bins = .ok seeds ∧ cs.length = levels ∧
      (∀ j < seeds.length, cs[j]? = seeds[j]?) ∧
      ∀ j, seeds.length ≤ j → j < levels → ∃ v, fFinite (fMul (halfPast j) (fDiv range (fOfNat levels))) = true ∧
        fFinite v = true ∧ v = fAdd mn (fMul (halfPast j) (fDiv range (fOfNat levels))) ∧ cs[j]? = some v := by
  constructor
  · intro h
    have hlen := initialCenters_length h
    simp only [initialCenters, bind_ok_iff, pure_ok_iff, cDiv_ok_iff] at h
    obtain ⟨_, ⟨hper, rfl⟩, seeds, hseeds, _, ⟨hstep, rfl⟩, rest, hrest, rfl⟩ := h
    refine ⟨hper, hstep, seeds, hseeds, hlen, fun j hj => List.getElem?_append_left hj, fun j hj hlt => ?_⟩
    rw [List.length_append] at hlen
    have hvalue := mapE_getElem hrest (j - seeds.length) (by rw [List.length_drop, List.length_range]; omega) (by omega)
    rw [List.getElem_drop, List.getElem_range, Nat.add_sub_cancel' hj, fallbackCenter_ok_iff] at hvalue
    obtain ⟨hmul, hv, heq⟩ := hvalue
    exact ⟨_, hmul, hv, heq, by rw [List.getElem?_append_right hj, List.getElem?_eq_getElem]⟩
  · rintro ⟨hper, hstep, seeds, hseeds, hlen, hleft, hright⟩
    have hle := seedCenters_length hseeds
    have hsplit : cs = seeds ++ cs.drop seeds.length := by
      refine List.ext_getElem? fun j => ?_
      rcases Nat.lt_or_ge j seeds.length with hj | hj
      · rw [hleft j hj, List.getElem?_append_left hj]
      · rw [List.getElem?_append_right hj, List.getElem?_drop, Nat.add_sub_cancel' hj]
    have hrest : mapE (fallbackCenter mn (fDiv range (fOfNat levels))) ((List.range levels).drop seeds.length) =
        .ok (cs.drop seeds.length) := by
      refine mapE_ok_of_getElem _ _ _ (by simp [hlen]) fun j hj hj' => ?_
      rw [List.length_drop] at hj'
      obtain ⟨v, hmul, hv, heq, hat⟩ := hright (seeds.length + j) (by omega) (by omega)
      rw [List.getElem_drop, List.getElem_drop, List.getElem_range, fallbackCenter_ok_iff,
        (List.getElem?_eq_some_iff.1 hat).2]
      exact ⟨hmul, hv, heq⟩
    simp only [initialCenters, bind_ok_iff, pure_ok_iff, cDiv_ok_iff]
    exact ⟨_, ⟨hper, rfl⟩, seeds, hseeds, _, ⟨hstep, rfl⟩, _, hrest, hsplit.symm⟩

/-- Settles O38: a run of seeding finds the first bin that reaches each target, and the rest computes what R185 to R188
write. -/
theorem seedsFollowTheCumulativeTargets : Obligations.SeedsFollowTheCumulativeTargets := by
  refine ⟨aqBin_ok_iff, fun nums _ => ⟨histogram_length nums, fun b hb => histogram_getElem? nums hb⟩,
    fun k hk => halfPast_exact (by omega), binMidpoint_ok_iff, initialCenters_ok_iff,
    fun levels per bins e h => ⟨RaisesOnlyNonFinite.seedCenters _ _ _ _ _ e h, seedCenters_error h⟩,
    fun mn w x range b levels n bins e h => ?_, fun levels per bins cs h => ?_⟩
  · rcases h with h | h | h
    · exact RaisesOnlyNonFinite.aqBin _ _ _ e h
    · exact RaisesOnlyNonFinite.binMidpoint _ _ _ e h
    · exact RaisesOnlyNonFinite.initialCenters _ _ _ _ _ e h
  · obtain ⟨idx, hrun⟩ := seedCenters_run (bins := bins) (lo := 0) rfl rfl h
    obtain ⟨hlen, heach, hend⟩ := hrun.clauses
    simp only [Nat.zero_add] at heach hend
    refine ⟨idx, hlen, seedCenters_length h, ?_, hend⟩
    rintro k hk _ rfl
    exact heach k hk

end Sys2Proof.Machine

/-! ## The adaptive quantizer: the steps in order (spec/41_adaptive_quantizer.md R184 to R194) -/

namespace Sys2Proof.Machine

/-! ### The least and the greatest sample -/

theorem finite_of_find {xs : List F64} {m : F64} {p : F64 → Bool} (hfin : ∀ x ∈ xs, fFinite x = true)
    (h : xs.find? p = some m) : fFinite m = true := hfin m (List.mem_of_find?_eq_some h)

/-- To find a value equal to `m` is to find one of its exact value. -/
theorem find_fValue {xs : List F64} {m : F64} (hfin : ∀ x ∈ xs, fFinite x = true) (h : xs.find? (fEq m) = some m) :
    xs.find? (fun x => decide (fValue m = fValue x)) = some m := by
  refine (List.find?_congr fun x hx => ?_).trans h
  rw [Bool.eq_iff_iff, decide_eq_true_eq, fEq_iff (finite_of_find hfin h) (hfin x hx)]

/-- The first least sample is `aqMin` of all. -/
theorem aqMin_eq {x mn : F64} {xs : List F64} (hfin : ∀ y ∈ x :: xs, fFinite y = true)
    (hfind : (x :: xs).find? (fEq mn) = some mn) (hle : ∀ y ∈ x :: xs, fLe mn y = true) : aqMin x xs = mn := by
  have hmn := finite_of_find hfin hfind
  have hleast := argmin_of_find (find_fValue hfin hfind) fun y hy => (fLe_iff hmn (hfin y hy)).1 (hle y hy)
  rw [argmin_eq_aqMin hfin, Option.some.injEq] at hleast
  exact hleast

/-- The first greatest sample is `aqMax` of all. -/
theorem aqMax_eq {x mx : F64} {xs : List F64} (hfin : ∀ y ∈ x :: xs, fFinite y = true)
    (hfind : (x :: xs).find? (fEq mx) = some mx) (hle : ∀ y ∈ x :: xs, fLe y mx = true) : aqMax x xs = mx := by
  have hmx := finite_of_find hfin hfind
  have hgreatest : (x :: xs).argmax fValue = some mx :=
    argmin_of_find (β := Intᵒᵈ) (f := fun y => OrderDual.toDual (fValue y)) (find_fValue hfin hfind)
      fun y hy => (fLe_iff (hfin y hy) hmx).1 (hle y hy)
  rw [argmax_eq_aqMax hfin, Option.some.injEq] at hgreatest
  exact hgreatest

/-! ### The general case -/

theorem mapE_ok_iff_getD {α β : Type} (f : α → Except ErrCode β) (as : List α) (bs : List β) (a₀ : α) (b₀ : β) :
    mapE f as = .ok bs ↔ bs.length = as.length ∧ ∀ m < as.length, f (as.getD m a₀) = .ok (bs.getD m b₀) := by
  constructor
  · intro h
    have hlen := mapE_length h
    refine ⟨hlen, fun m hm => ?_⟩
    rw [List.getD_eq_getElem _ _ hm, List.getD_eq_getElem _ _ (hlen ▸ hm)]
    exact mapE_getElem h m hm _
  · rintro ⟨hlen, hall⟩
    refine mapE_ok_of_getElem f as bs hlen fun m hm hm' => ?_
    rw [← List.getD_eq_getElem _ a₀ hm, ← List.getD_eq_getElem _ b₀ hm']
    exact hall m hm

theorem midpoints_ok_iff (mn w : F64) (mids : List F64) :
    mapE (binMidpoint mn w) (List.range 256) = .ok mids ↔
      mids.length = 256 ∧ ∀ b < 256, binMidpoint mn w b = .ok (mids.getD b 0) := by
  rw [mapE_ok_iff_getD _ _ _ 0 0, List.length_range]
  refine and_congr_right fun _ => forall₂_congr fun b hb => ?_
  rw [List.getD_eq_getElem _ _ (by simpa using hb), List.getElem_range]

/-- The steps of R185 to R194 in their order. -/
theorem aqGeneral_ok_iff (levels maxIter : Nat) (mn mx : F64) (xs : List F64) (r : AqOutcome) :
    aqGeneral levels maxIter mn mx xs = .ok r ↔
    ∃ (w : F64) (nums : List Nat) (mids seeds cs bnd : List F64),
      fFinite (fSub mx mn) = true ∧ fFinite w = true ∧ w = fDiv (fSub mx mn) (fOfNat 256) ∧
      nums.length = xs.length ∧ (∀ m < xs.length, aqBin mn w (xs.getD m 0) = .ok (nums.getD m 0)) ∧
      mids.length = 256 ∧ (∀ b < 256, binMidpoint mn w b = .ok (mids.getD b 0)) ∧
      initialCenters levels xs.length mn (fSub mx mn) ((histogram nums).zip mids) = .ok seeds ∧
      refine ((histogram nums).zip mids) maxIter seeds 0 = .ok (cs, r.iters) ∧
      r.centers = sortAscending cs ∧ boundaries r.centers = .ok bnd ∧ r.out = xs.map (assignSample r.centers bnd) := by
  simp only [aqGeneral, bind_ok_iff, pure_ok_iff, cSub_ok_iff, cDiv_ok_iff, midpoints_ok_iff,
    mapE_ok_iff_getD _ _ _ (0 : F64) (0 : Nat)]
  constructor
  · rintro ⟨_, ⟨hrange, rfl⟩, w, ⟨hw, rfl⟩, nums, ⟨hnums, hbin⟩, mids, ⟨hmids, hmid⟩, seeds, hseeds, ⟨cs, iters⟩, hrefine,
      bnd, hbnd, rfl⟩
    exact ⟨_, nums, mids, seeds, cs, bnd, hrange, hw, rfl, hnums, hbin, hmids, hmid, hseeds, hrefine, rfl, hbnd, rfl⟩
  · rintro ⟨_, nums, mids, seeds, cs, bnd, hrange, hw, rfl, hnums, hbin, hmids, hmid, hseeds, hrefine, hcenters, hbnd, hout⟩
    exact ⟨_, ⟨hrange, rfl⟩, _, ⟨hw, rfl⟩, nums, ⟨hnums, hbin⟩, mids, ⟨hmids, hmid⟩, seeds, hseeds, (cs, r.iters), hrefine,
      bnd, hcenters ▸ hbnd, by rw [← hcenters, ← hout]⟩

/-- Samples that are not all equal take the general case, from the first least to the first greatest. -/
theorem aqQuantize_eq_aqGeneral {levels maxIter : Nat} {xs : List F64} {mn mx : F64} (hfin : ∀ x ∈ xs, fFinite x = true)
    (hmn : xs.find? (fEq mn) = some mn) (hmx : xs.find? (fEq mx) = some mx)
    (hle : ∀ x ∈ xs, fLe mn x = true ∧ fLe x mx = true) (hlt : fLt mn mx = true) :
    aqQuantize levels maxIter xs = aqGeneral levels maxIter mn mx xs := by
  cases xs with
  | nil => cases hmn
  | cons x xs =>
    have hne : fEq mn mx = false :=
      (fEq_eq_false_iff (finite_of_find hfin hmn) (finite_of_find hfin hmx)).2
        ((fLt_iff (finite_of_find hfin hmn) (finite_of_find hfin hmx)).1 hlt).ne
    simp only [aqQuantize, aqMin_eq hfin hmn fun y hy => (hle y hy).1, aqMax_eq hfin hmx fun y hy => (hle y hy).2, hne,
      Bool.false_eq_true, if_false]

/-- Samples that all equal the first collapse to it (R184). -/
theorem aqQuantize_constant (levels maxIter : Nat) {x : F64} {xs : List F64} (hfin : ∀ y ∈ x :: xs, fFinite y = true)
    (heq : ∀ y ∈ x :: xs, fEq y x = true) :
    aqQuantize levels maxIter (x :: xs) = .ok ⟨List.replicate levels x, 0, List.replicate (xs.length + 1) x⟩ := by
  have hx : fFinite x = true := hfin x (by simp)
  have hself : fEq x x = true := (fEq_iff hx hx).2 rfl
  have hvalue (y : F64) (hy : y ∈ x :: xs) : fValue y = fValue x := (fEq_iff (hfin y hy) hx).1 (heq y hy)
  have hfind : (x :: xs).find? (fEq x) = some x := List.find?_cons_of_pos hself
  have hmin : aqMin x xs = x := aqMin_eq hfin hfind fun y hy => (fLe_iff hx (hfin y hy)).2 (hvalue y hy).ge
  have hmax : aqMax x xs = x := aqMax_eq hfin hfind fun y hy => (fLe_iff (hfin y hy) hx).2 (hvalue y hy).le
  simp only [aqQuantize, hmin, hmax, hself, if_true]

/-! ### What every result of the quantizer is -/

/-- What holds before the loop and after each pass that answers holds of the loop's result. -/
theorem refine_invariant {bins : List (Nat × F64)} {fuel : Nat} {cs : List F64} {r : List F64 × Nat} {P : List F64 → Prop}
    (h : refine bins fuel cs 0 = .ok r) (hstart : P cs)
    (hpass : ∀ c, P c → PassAnswers bins c → P (nextCenters bins c)) : P r.1 := by
  obtain ⟨n, rfl, -, hall, -, -⟩ := refine_ok h
  have key (p : Nat) (hp : p ≤ n) : P ((nextCenters bins)^[p] cs) := by
    induction p with
    | zero => exact hstart
    | succ p ih =>
      rw [Function.iterate_succ_apply']
      exact hpass _ (ih (Nat.le_of_succ_le hp)) (hall p hp)
  exact key n le_rfl

/-- Centers of a number, all finite. -/
def CentersFinite (levels : Nat) (cs : List F64) : Prop := cs.length = levels ∧ ∀ c ∈ cs, fFinite c = true

theorem CentersFinite.sortAscending {levels : Nat} {cs : List F64} (h : CentersFinite levels cs) :
    CentersFinite levels (sortAscending cs) :=
  ⟨(sortAscending_perm cs).length_eq.trans h.1, fun c hc => h.2 c ((sortAscending_perm cs).mem_iff.1 hc)⟩

theorem PassAnswers.centersFinite {bins : List (Nat × F64)} {cs : List F64} (h : PassAnswers bins cs) :
    CentersFinite cs.length (nextCenters bins cs) := by
  obtain ⟨new, hpass, hnext⟩ := h
  obtain ⟨hfin, heq⟩ := (refinePass_ok_iff _ _ _).1 hpass
  obtain rfl := congrArg Prod.fst heq
  rw [hnext]
  refine CentersFinite.sortAscending ⟨by simp, ?_⟩
  simp only [List.forall_mem_map, List.mem_range]
  exact fun j hj => (fSub_finite (hfin.moved j hj)).1

/-- Every seed is the midpoint of a bin. -/
theorem mem_of_mem_seedCenters {levels : Nat} {per : F64} {bins : List (Nat × F64)} {seeds : List F64}
    (h : seedCenters levels per 0 0 bins = .ok seeds) {c : F64} (hc : c ∈ seeds) : ∃ b ∈ bins, b.2 = c := by
  obtain ⟨idx, hrun⟩ := seedCenters_run (bins := bins) (lo := 0) rfl rfl h
  obtain ⟨-, heach, -⟩ := hrun.clauses
  obtain ⟨j, hj⟩ := List.mem_iff_getElem?.1 hc
  obtain ⟨-, -, -, hat, -⟩ := heach j (List.getElem?_eq_some_iff.1 hj).1
  rw [hj] at hat
  obtain ⟨b, hb, rfl⟩ := Option.map_eq_some_iff.1 hat
  exact ⟨b, List.mem_of_getElem? hb, rfl⟩

/-- Where the midpoints are finite, so are the initial centers. -/
theorem initialCenters_finite {levels n : Nat} {mn range : F64} {bins : List (Nat × F64)} {cs : List F64}
    (h : initialCenters levels n mn range bins = .ok cs) (hbins : ∀ b ∈ bins, fFinite b.2 = true) :
    CentersFinite levels cs := by
  obtain ⟨-, -, seeds, hseeds, hlen, hleft, hright⟩ := (initialCenters_ok_iff _ _ _ _ _ _).1 h
  refine ⟨hlen, fun c hc => ?_⟩
  obtain ⟨j, hj⟩ := List.mem_iff_getElem?.1 hc
  rcases Nat.lt_or_ge j seeds.length with hlt | hge
  · rw [hleft j hlt] at hj
    obtain ⟨b, hb, rfl⟩ := mem_of_mem_seedCenters hseeds (List.mem_of_getElem? hj)
    exact hbins b hb
  · obtain ⟨v, -, hv, -, hat⟩ := hright j hge (hlen ▸ (List.getElem?_eq_some_iff.1 hj).1)
    rw [hj, Option.some.injEq] at hat
    exact hat ▸ hv

/-- One center a level, finite and ascending, and every output among them; no more passes than the cap (R197). -/
structure AqOutcome.Proper (r : AqOutcome) (levels maxIter n : Nat) : Prop where
  centers_length : r.centers.length = levels
  out_length : r.out.length = n
  iters_le : r.iters ≤ maxIter
  sorted : FiniteSorted r.centers
  out_mem : ∀ x ∈ r.out, x ∈ r.centers

theorem assignSample_mem {cs bnd : List F64} (x : F64) (hne : cs ≠ []) (h : boundaries cs = .ok bnd) :
    assignSample cs bnd x ∈ cs := by
  obtain ⟨j, hj, heq, -⟩ := assignSample_first x ((boundaries_ok_iff hne).1 h).1
  rw [heq, List.getD_eq_getElem _ _ hj]
  exact List.getElem_mem hj

theorem aqGeneral_proper {levels maxIter : Nat} {mn mx : F64} {xs : List F64} {r : AqOutcome} (hlevels : 0 < levels)
    (h : aqGeneral levels maxIter mn mx xs = .ok r) : r.Proper levels maxIter xs.length := by
  obtain ⟨w, nums, mids, seeds, cs, bnd, -, -, -, -, -, hmids, hmid, hseeds, hrefine, hcenters, hbnd, hout⟩ :=
    (aqGeneral_ok_iff _ _ _ _ _ _).1 h
  have hbins : ∀ b ∈ (histogram nums).zip mids, fFinite b.2 = true := fun b hb => by
    obtain ⟨k, hk, heq⟩ := List.getElem_of_mem (List.of_mem_zip hb).2
    have hb' := hmid k (hmids ▸ hk)
    rw [List.getD_eq_getElem _ _ hk, heq] at hb'
    exact ((binMidpoint_ok_iff _ _ _ _).1 hb').2.1
  have hcs : CentersFinite levels cs := refine_invariant (P := CentersFinite levels) hrefine
    (initialCenters_finite hseeds hbins) fun c hc hpass => hc.1 ▸ hpass.centersFinite
  have hlen : r.centers.length = levels := hcenters ▸ hcs.sortAscending.1
  have hne : r.centers ≠ [] := List.ne_nil_of_length_pos (hlen ▸ hlevels)
  obtain ⟨n, heq, hn, -⟩ := refine_ok hrefine
  refine ⟨hlen, by rw [hout, List.length_map], ?_, hcenters ▸ sortAscending_sorted hcs.2, ?_⟩
  · have : r.iters = 0 + n := congrArg Prod.snd heq
    omega
  · rw [hout, List.forall_mem_map]
    exact fun x _ => assignSample_mem x hne hbnd

theorem aqQuantize_proper {levels maxIter : Nat} {xs : List F64} {r : AqOutcome} (hlevels : 0 < levels) (hne : xs ≠ [])
    (hfin : ∀ x ∈ xs, fFinite x = true) (h : aqQuantize levels maxIter xs = .ok r) :
    r.Proper levels maxIter xs.length := by
  obtain ⟨x, xs, rfl⟩ := List.exists_cons_of_ne_nil hne
  simp only [aqQuantize] at h
  split at h
  · cases h
    have hmem : aqMin x xs ∈ x :: xs := List.argmin_mem (Option.mem_def.2 (argmin_eq_aqMin hfin))
    refine ⟨List.length_replicate, List.length_replicate, Nat.zero_le _, ⟨fun c hc => ?_, ?_⟩, fun c hc => ?_⟩
    · rw [List.eq_of_mem_replicate hc]
      exact hfin _ hmem
    · exact List.pairwise_replicate.2 (.inr le_rfl)
    · rw [List.eq_of_mem_replicate hc]
      exact List.mem_replicate.2 ⟨hlevels.ne', rfl⟩
  · exact aqGeneral_proper hlevels h

end Sys2Proof.Machine

/-! ## The adaptive quantizer: the command (spec/41_adaptive_quantizer.md R181 to R197) -/

namespace Sys2Proof.Machine

/-! ### Elements a stride apart -/

/-- The bytes that elements of one size, a stride apart, write. -/
theorem storesTo_storeEach_iff {α : Type} {st : Nat → α → Store} {e : Nat}
    (hst : ∀ b x, (st b x).addr = b ∧ (st b x).bytes.length = e) (a d : Nat) (xs : List α) (x : Nat) :
    storesTo (storeEach st a d xs) x = true ↔ ∃ j < xs.length, a + j * d ≤ x ∧ x < a + j * d + e := by
  simp only [storeEach_eq_map, storesTo, List.any_eq_true, List.mem_mapIdx, Bool.and_eq_true, decide_eq_true_eq]
  constructor
  · rintro ⟨_, ⟨j, hj, rfl⟩, hlow, hhigh⟩
    rw [(hst _ _).1] at hlow hhigh
    rw [(hst _ _).2] at hhigh
    exact ⟨j, hj, hlow, hhigh⟩
  · rintro ⟨j, hj, hlow, hhigh⟩
    refine ⟨_, ⟨j, hj, rfl⟩, ?_⟩
    rw [(hst _ _).1, (hst _ _).2]
    exact ⟨hlow, hhigh⟩

/-- Elements no wider than their stride do not meet: each holds its bytes, where no later write covers them. -/
theorem lookup_storeEach {α : Type} {st : Nat → α → Store} {e d : Nat}
    (hst : ∀ b x, (st b x).addr = b ∧ (st b x).bytes.length = e) (hd : e ≤ d) (m : List Host.Cell) (a : Nat) (xs : List α)
    (vs : List Store) {j k : Nat} (hj : j < xs.length) (hk : k < e) (hclear : storesTo vs (a + j * d + k) = false) :
    lookup (applyStores m (storeEach st a d xs ++ vs)) (a + j * d + k) = (st (a + j * d) xs[j]).bytes[k]? := by
  induction xs generalizing m a j with
  | nil => exact absurd hj (Nat.not_lt_zero j)
  | cons x xs ih =>
    cases j with
    | zero =>
      obtain ⟨haddr, hlen⟩ := hst a x
      rw [Nat.zero_mul, Nat.add_zero] at hclear ⊢
      have hlater : storesTo (storeEach st (a + d) d xs ++ vs) (a + k) = false := by
        rw [storesTo_append, hclear, Bool.or_false, Bool.eq_false_iff, Ne, storesTo_storeEach_iff hst]
        rintro ⟨j, -, hlow, -⟩
        omega
      rw [← haddr] at hlater
      have hlast := lookup_applyStores_last m [] (st a x) _ k (hlen ▸ hk) hlater
      rw [haddr] at hlast
      rw [storeEach, List.cons_append, List.getElem_cons_zero, List.getElem?_eq_getElem (hlen ▸ hk)]
      exact hlast
    | succ j =>
      have hshift : a + (j + 1) * d = a + d + j * d := by ring
      rw [hshift] at hclear ⊢
      exact ih (writeRun m (st a x).addr (st a x).bytes) (a + d) (Nat.lt_of_succ_lt_succ hj) hclear

theorem commit_ldByte_of_lookup {s : State} {stg : Staged} {a : Nat} {b : Byte}
    (h : lookup (applyStores s.lmem stg.writes) a = some b) : (commit s stg).ldByte a = b := by
  rw [State.ldByte, commit_lmem, h]
  rfl

/-- Each of the elements reads back, where no later write covers it. -/
theorem storeEach_readBack {α : Type} {st : Nat → α → Store} {e d : Nat}
    (hst : ∀ b x, (st b x).addr = b ∧ (st b x).bytes.length = e) (hd : e ≤ d) {s : State} {stg : Staged} {ws : List Store}
    {a : Nat} {xs : List α} {vs : List Store} (hstg : stg.writes = ws ++ (storeEach st a d xs ++ vs)) {j : Nat}
    (hj : j < xs.length) (hclear : ∀ k < e, storesTo vs (a + j * d + k) = false) :
    (st (a + j * d) xs[j]).ReadBack (commit s stg) := by
  intro k b hb
  obtain ⟨haddr, hlen⟩ := hst (a + j * d) xs[j]
  have hk : k < e := hlen ▸ (List.getElem?_eq_some_iff.1 hb).1
  refine commit_ldByte_of_lookup ?_
  rw [haddr, hstg, applyStores_append, lookup_storeEach hst hd _ a xs vs hj hk (hclear k hk), hb]

theorem Store.ReadBack.ldF64_stF64 {t : State} {a : Nat} {x : F64} (h : (stF64 a x).ReadBack t) : t.ldF64 a = x :=
  ldF64_of_bytes t a x fun k _ => h k _ (List.getElem?_eq_getElem _)

theorem Store.ReadBack.ldByte_stU8 {t : State} {a : Nat} {b : Byte} (h : (stU8 a b).ReadBack t) : t.ldByte a = b :=
  h 0 b rfl

theorem stF64_size (b : Nat) (x : F64) : (stF64 b x).addr = b ∧ (stF64 b x).bytes.length = 8 :=
  ⟨rfl, f64Bytes_length x⟩

/-! ### Output samples -/

/-- The output samples, bytes or binary64 values by `FMT` (R183, R195). -/
def sampleStores (s : State) (bytes : List Byte) (xs : List F64) : List Store :=
  if s.opr.aqFmt then storeEach stU8 s.dst s.dstStride bytes else storeEach stF64 s.dst s.dstStride xs

section
variable {s : State} {bytes : List Byte} {xs : List F64} {n : Nat}

/-- Output samples write their own bytes alone. -/
theorem sampleStores_outside (hbytes : bytes.length = n) (hxs : xs.length = n) {a : Nat}
    (h : ∀ m < n, a < s.dst + m * s.dstStride ∨ s.dst + m * s.dstStride + s.sampleSize ≤ a) :
    storesTo (sampleStores s bytes xs) a = false := by
  have outside {m : Nat} (hm : m < n) : ¬(s.dst + m * s.dstStride ≤ a ∧ a < s.dst + m * s.dstStride + s.sampleSize) := by
    have := h m hm
    omega
  rw [Bool.eq_false_iff, Ne, sampleStores]
  split
  · rename_i hfmt
    rw [storesTo_storeEach_iff (stU8_sample hfmt)]
    exact fun ⟨m, hm, hin⟩ => outside (hbytes ▸ hm) hin
  · rename_i hfmt
    rw [storesTo_storeEach_iff (stF64_sample hfmt)]
    exact fun ⟨m, hm, hin⟩ => outside (hxs ▸ hm) hin

/-- An output sample reads back, where no later write covers it. -/
theorem sampleStores_readBack (hbytes : bytes.length = n) (hxs : xs.length = n) (hd : s.sampleSize ≤ s.dstStride)
    {stg : Staged} {vs : List Store} (hstg : stg.writes = sampleStores s bytes xs ++ vs) {m : Nat} (hm : m < n)
    (hclear : ∀ k < s.sampleSize, storesTo vs (s.dst + m * s.dstStride + k) = false) :
    (s.opr.aqFmt = true → (commit s stg).ldByte (s.dst + m * s.dstStride) = bytes[m]) ∧
      (s.opr.aqFmt = false → (commit s stg).ldF64 (s.dst + m * s.dstStride) = xs[m]) := by
  constructor
  · intro hfmt
    rw [sampleStores, if_pos hfmt] at hstg
    exact (storeEach_readBack (stU8_sample hfmt) hd (ws := []) hstg (hbytes ▸ hm) hclear).ldByte_stU8
  · intro hfmt
    have hfmt : ¬s.opr.aqFmt = true := by simp [hfmt]
    rw [sampleStores, if_neg hfmt] at hstg
    exact (storeEach_readBack (stF64_sample hfmt) hd (ws := []) hstg (hxs ▸ hm) hclear).ldF64_stF64

end

/-! ### What `AQ` stages -/

/-- What `AQ` stages below 8 bits (R195, R196). -/
def aqQuantized (s : State) (r : AqOutcome) : Staged :=
  { writes := sampleStores s (r.out.map toByte) r.out ++ storeEach stF64 s.aux 8 r.centers
    aq := some (BitVec.ofNat 32 r.iters, BitVec.ofNat 32 s.levels)
    pd := none }

/-- Where the checks of R181 pass there is a sample, and an output sample is no wider than its stride. -/
theorem aqChecks_ok {s : State} (h : aqChecks s = .ok ()) : 0 < s.elements ∧ s.sampleSize ≤ s.dstStride := by
  simp only [aqChecks, bind_ok_iff, failIf_ok_iff] at h
  obtain ⟨-, -, -, hcount, -, hstride, -⟩ := h
  rw [beq_eq_false_iff_ne] at hcount
  refine ⟨Nat.pos_of_ne_zero hcount, ?_⟩
  simp only [Bool.or_eq_false_iff, Bool.and_eq_false_iff, beq_eq_false_iff_ne, bne_eq_false_iff_eq,
    Bool.not_eq_false'] at hstride
  obtain ⟨⟨-, hpos⟩, hmod⟩ := hstride
  unfold State.sampleSize
  split
  · omega
  · rename_i hfmt
    have hmultiple : s.dstStride % 8 = 0 := (hmod.resolve_left hfmt).2
    omega

theorem aqSample_finite {s : State} {m : Nat} {x : F64} (h : aqSample s m = .ok x) : fFinite x = true := by
  unfold aqSample at h
  split at h
  · cases h
    exact (fOfNat_ldU8_within s _).1
  · obtain ⟨hfin, rfl⟩ := (chk_ok_iff _ _).1 h
    exact hfin

/-- At 8 bits `AQ` stages its finite samples as they stand. -/
theorem runAq_passthrough {s : State} (hc : checksPass .aq s = true) (hd : s.depth = 8)
    (hfin : ∀ m < s.elements, fFinite (aqInput s m) = true) :
    runAq s = .ok (aqPassthrough s ((List.range s.elements).map (aqInput s))) := by
  simp only [runAq, aqChecks_of_checksPass hc, aqSamples_finite hfin, ok_bind, if_pos hd]
  rfl

/-- Below 8 bits `AQ` stages the quantizer's result on its finite samples. -/
theorem runAq_quantized {s : State} {r : AqOutcome} (hc : checksPass .aq s = true) (hd : s.depth ≤ 7)
    (hfin : ∀ m < s.elements, fFinite (aqInput s m) = true)
    (h : aqQuantize (2 ^ s.depth) s.opr.aqMaxIter.toNat ((List.range s.elements).map (aqInput s)) = .ok r) :
    runAq s = .ok (aqQuantized s r) := by
  have hdepth : s.depth ≠ 8 := by omega
  have hr : aqQuantize s.levels s.opr.aqMaxIter.toNat ((List.range s.elements).map (aqInput s)) = .ok r := h
  simp only [runAq, aqChecks_of_checksPass hc, aqSamples_finite hfin, ok_bind, if_neg hdepth, hr]
  rfl

/-- A success of `AQ` below 8 bits stages a result of the quantizer on finite samples. -/
theorem runAq_ok {s : State} {stg : Staged} (hd : s.depth ≤ 7) (h : runAq s = .ok stg) :
    ∃ r : AqOutcome, stg = aqQuantized s r ∧ s.sampleSize ≤ s.dstStride ∧
      r.Proper (2 ^ s.depth) s.opr.aqMaxIter.toNat s.elements := by
  obtain ⟨_, hchecks, h⟩ := (bind_ok_iff _ _ _).1 h
  obtain ⟨xs, hxs, h⟩ := (bind_ok_iff _ _ _).1 h
  obtain ⟨hpos, hstride⟩ := aqChecks_ok hchecks
  rw [if_neg (by omega)] at h
  simp only [bind_ok_iff, pure_ok_iff] at h
  obtain ⟨r, hr, rfl⟩ := h
  have hlen : xs.length = s.elements := by rw [mapE_length hxs, List.length_range]
  have hfin : ∀ x ∈ xs, fFinite x = true := fun x hx => by
    obtain ⟨m, -, hm⟩ := mem_of_mapE_ok hxs hx
    exact aqSample_finite hm
  exact ⟨r, rfl, hstride, hlen ▸ aqQuantize_proper (Nat.two_pow_pos _) (List.ne_nil_of_length_pos (by omega)) hfin hr⟩

/-! ### What `AQ` leaves in LMEM -/

/-- What LMEM holds after the quantizer's result is committed: the centers, the outputs clear of them, and every other byte as
before (R195). -/
structure AqWritten (s t : State) (r : AqOutcome) : Prop where
  kept : AqBytesKept s t
  centers : ∀ j < 2 ^ s.depth, r.centers[j]? = some (t.ldF64 (s.aux + 8 * j))
  outputs : ∀ m < s.elements, AqOutputClear s m → ∃ x, r.out[m]? = some x ∧ AqOutputIs s t m x

theorem aqWritten_of_commit {s : State} {r : AqOutcome} (hd : s.depth ≤ 7) (hstride : s.sampleSize ≤ s.dstStride)
    (hcenters : r.centers.length = 2 ^ s.depth) (hout : r.out.length = s.elements) :
    AqWritten s (succeeded (commit s (aqQuantized s r))) r := by
  have hbytes : (r.out.map toByte).length = s.elements := (List.length_map _).trans hout
  have clear {a : Nat} (h : a < s.aux ∨ s.aux + 8 * 2 ^ s.depth ≤ a) :
      storesTo (storeEach stF64 s.aux 8 r.centers) a = false := by
    rw [Bool.eq_false_iff, Ne, storesTo_storeEach_iff stF64_size, hcenters]
    rintro ⟨j, hj, hlow, hhigh⟩
    omega
  refine ⟨fun a hsamples hregion => ?_, fun j hj => ?_, fun m hm hclear => ?_⟩
  · refine commit_ldByte_of_not_stored ?_
    rw [aqQuantized, storesTo_append, sampleStores_outside hbytes hout hsamples, clear (hregion hd), Bool.or_false]
  · have hread := storeEach_readBack stF64_size le_rfl (s := s) (stg := aqQuantized s r) (xs := r.centers) (vs := [])
      (by rw [List.append_nil]; rfl) (hcenters ▸ hj) fun _ _ => rfl
    rw [List.getElem?_eq_getElem (hcenters ▸ hj), Nat.mul_comm 8 j]
    exact congrArg some hread.ldF64_stF64.symm
  · obtain ⟨hbyte, hf64⟩ := sampleStores_readBack hbytes hout hstride (stg := aqQuantized s r) rfl hm fun k hk =>
      clear ((Region.contains_eq_false _ _).1 (hclear k hk))
    refine ⟨r.out[m], List.getElem?_eq_getElem _, ?_⟩
    unfold AqOutputIs
    split
    · rename_i hfmt
      exact (hbyte hfmt).trans (List.getElem_map _)
    · rename_i hfmt
      exact hf64 (Bool.not_eq_true _ ▸ hfmt)

/-- `AQ` below 8 bits, where its checks pass and the quantizer gives a result on its finite samples. -/
theorem exec_aq_quantized {s : State} {r : AqOutcome} (hc : checksPass .aq s = true) (hd : s.depth ≤ 7)
    (hfin : ∀ m < s.elements, fFinite (aqInput s m) = true)
    (h : aqQuantize (2 ^ s.depth) s.opr.aqMaxIter.toNat ((List.range s.elements).map (aqInput s)) = .ok r) :
    exec .aq s = .next (succeeded (commit s (aqQuantized s r))) ∧
      AqWritten s (succeeded (commit s (aqQuantized s r))) r := by
  obtain ⟨hpos, hstride⟩ := aqChecks_ok (aqChecks_of_checksPass hc)
  have hproper := aqQuantize_proper (Nat.two_pow_pos _) (List.ne_nil_of_length_pos (by simpa using hpos))
    (List.forall_mem_map.2 fun m hm => hfin m (List.mem_range.1 hm)) h
  have hout : r.out.length = s.elements := by simpa using hproper.out_length
  refine ⟨?_, aqWritten_of_commit hd hstride hproper.centers_length hout⟩
  rw [exec_eq_finish, resultOf, runAq_quantized hc hd hfin h, finish_ok]

/-! ### The statements -/

/-- Settles O19: the passthrough's samples do not meet, and nothing is written after them. -/
theorem aqPassesThroughAtEightBits : Obligations.AqPassesThroughAtEightBits := by
  intro s hc hd hfin
  obtain ⟨-, hstride⟩ := aqChecks_ok (aqChecks_of_checksPass hc)
  have hbytes : ((List.range s.elements).map fun m => s.ldByte (s.src + m * s.srcStride)).length = s.elements := by simp
  have hxs : ((List.range s.elements).map (aqInput s)).length = s.elements := by simp
  refine ⟨_, by rw [exec_eq_finish, resultOf, runAq_passthrough hc hd hfin, finish_ok], rfl, fun a hsamples _ => ?_,
    fun m hm => ?_⟩
  · exact commit_ldByte_of_not_stored (sampleStores_outside hbytes hxs hsamples)
  · obtain ⟨hbyte, hf64⟩ := sampleStores_readBack hbytes hxs hstride (vs := [])
      (stg := aqPassthrough s ((List.range s.elements).map (aqInput s))) (by rw [List.append_nil]; rfl) hm fun _ _ => rfl
    simp only [List.getElem_map, List.getElem_range] at hbyte hf64
    exact ⟨hbyte, fun hfmt => (hf64 hfmt).trans (by simp [aqInput, hfmt])⟩

/-- Settles O21: the command commits the quantizer's result, whose writes read back, and `aqGeneral_ok_iff` lists the
steps. -/
theorem aqWritesTheQuantizersResult : Obligations.AqWritesTheQuantizersResult := by
  refine ⟨fun s r hc hd hfin h => ?_, fun levels maxIter xs => RaisesOnlyNonFinite.aqQuantize levels maxIter xs,
    fun levels maxIter xs mn mx r hfin hmn hmx hle hlt => ?_⟩
  · obtain ⟨hexec, hkept, hcenters, houtputs⟩ := exec_aq_quantized hc hd hfin h
    exact ⟨_, hexec, rfl, hkept, hcenters, houtputs⟩
  · rw [aqQuantize_eq_aqGeneral hfin hmn hmx hle hlt]
    exact aqGeneral_ok_iff levels maxIter mn mx xs r

/-- Settles O20: on equal samples the quantizer's result is the first of them throughout. -/
theorem aqCollapsesConstantInput : Obligations.AqCollapsesConstantInput := by
  intro s hc hd hfin heq
  obtain ⟨hpos, -⟩ := aqChecks_ok (aqChecks_of_checksPass hc)
  obtain ⟨n, hn⟩ := Nat.exists_eq_succ_of_ne_zero hpos.ne'
  have hsamples : (List.range s.elements).map (aqInput s) =
      aqInput s 0 :: (List.range n).map fun m => aqInput s (m + 1) := by
    rw [hn, List.range_succ_eq_map, List.map_cons, List.map_map]
    rfl
  have each {P : F64 → Prop} (h : ∀ m < s.elements, P (aqInput s m)) :
      ∀ x ∈ aqInput s 0 :: (List.range n).map fun m => aqInput s (m + 1), P x := by
    rw [← hsamples, List.forall_mem_map]
    exact fun m hm => h m (List.mem_range.1 hm)
  have hquant := aqQuantize_constant (2 ^ s.depth) s.opr.aqMaxIter.toNat (each hfin) (each heq)
  rw [← hsamples] at hquant
  obtain ⟨hexec, hkept, hcenters, houtputs⟩ := exec_aq_quantized hc hd hfin hquant
  refine ⟨_, hexec, rfl, hkept, fun j hj => ?_, fun m hm hclear => ?_⟩
  · exact List.eq_of_mem_replicate (List.mem_of_getElem? (hcenters j hj))
  · obtain ⟨x, hx, hout⟩ := houtputs m hm hclear
    rwa [List.eq_of_mem_replicate (List.mem_of_getElem? hx)] at hout

/-- Settles O22: a success has committed a proper result of the quantizer. -/
theorem aqOutputsAreAscendingCenters : Obligations.AqOutputsAreAscendingCenters := by
  intro s t ht hcode hd
  rw [exec_next_iff] at ht
  rcases finish_cases s (resultOf .aq s) with ⟨stg, hstg, hfin⟩ | ⟨e, he, -⟩
  · obtain ⟨r, rfl, hstride, hproper⟩ := runAq_ok hd hstg
    obtain rfl := ht.trans hfin
    obtain ⟨-, hcenters, houtputs⟩ := aqWritten_of_commit hd hstride hproper.centers_length hproper.out_length
    generalize hst : succeeded (commit s (aqQuantized s r)) = t at *
    have hlist : ((List.range (2 ^ s.depth)).map fun j => t.ldF64 (s.aux + 8 * j)) = r.centers := by
      refine List.ext_getElem (by simp [hproper.centers_length]) fun j hj hj' => ?_
      have hj := hcenters j (by simpa using hj)
      rw [List.getElem?_eq_getElem hj', Option.some.injEq] at hj
      rw [List.getElem_map, List.getElem_range, hj]
    refine ⟨by rw [← hst]; rfl, ?_, hlist ▸ hproper.sorted.ascending, fun j hj => ?_, fun m hm hclear => ?_⟩
    · rw [← hst]
      exact (Nat.mod_le _ _).trans hproper.iters_le
    · exact hproper.sorted.finite _ (List.mem_of_getElem? (hcenters j hj))
    · obtain ⟨x, hx, hout⟩ := houtputs m hm hclear
      obtain ⟨j, hj⟩ := List.mem_iff_getElem?.1 (hproper.out_mem x (List.mem_of_getElem? hx))
      have hlt : j < 2 ^ s.depth := hproper.centers_length ▸ (List.getElem?_eq_some_iff.1 hj).1
      rw [hcenters j hlt, Option.some.injEq] at hj
      exact ⟨j, hlt, hj ▸ hout⟩
  · rw [ht, he] at hcode
    exact absurd hcode (errorCode_ne_zero e)

end Sys2Proof.Machine

/-! ## The 8×8 DCT (spec/42_dct.md R230 to R237) -/

namespace Sys2Proof.Machine

/-! ### Sums that are not −0.0 -/

/-- A sum of finite values is its exact value, in units fine enough for both operands, rounded once. -/
theorem fAdd_eq_roundSum {x y : F64} (hx : fFinite x = true) (hy : fFinite y = true) :
    ∃ e ≤ fPow x, e ≤ fPow y ∧ fAdd x y = roundSum (fSign x && fSign y) e (fScaled x e + fScaled y e) := by
  rw [fAdd, hx, hy, Bool.and_self, if_pos rfl, addFinite, Nat.min_eq_min]
  split
  · exact ⟨0, Nat.zero_le _, Nat.zero_le _, rfl⟩
  · exact ⟨_, by omega, by omega, rfl⟩

theorem eq_negZero_iff (x : F64) : x = 0x8000000000000000 ↔ fSign x = true ∧ fLow x = 0 := by
  have hlt := x.isLt
  rw [fSign_iff, fLow, ← BitVec.toNat_inj, show (0x8000000000000000 : F64).toNat = 2 ^ 63 from rfl]
  omega

/-- A sum in units of 2^−1074 or coarser is a multiple of the least representable magnitude, so it does not round to 0. -/
theorem roundMag_sum_ne_zero (n e : Nat) : roundMag (n + 1) 1 (e + 3022) ≠ 0 := by
  intro h0
  obtain ⟨e', q, hform, hnear, -, -⟩ := roundMag_eq_add (n + 1) 1 (e + 3022) Nat.one_pos (.inr (by omega))
    (h0 ▸ by decide)
  obtain ⟨rfl, rfl⟩ : e' = 0 ∧ q = 0 := by omega
  have hbelow := hnear.below
  rw [Nat.pow_add, ← Nat.mul_assoc (n + 1), Nat.zero_add] at hbelow
  have hunit := Nat.two_pow_pos 3022
  have hmul : 1 * 2 ^ 3022 ≤ (n + 1) * 2 ^ e * 2 ^ 3022 :=
    Nat.mul_le_mul_right _ (Nat.mul_pos n.succ_pos (Nat.two_pow_pos e))
  generalize 2 ^ 3022 = u at *
  omega

/-- Only an exact zero, under the sign for one, rounds to −0.0. -/
theorem roundSum_eq_negZero {z : Bool} {e : Nat} {n : Int} (h : roundSum z e n = 0x8000000000000000) :
    z = true ∧ n = 0 := by
  obtain ⟨hsign, hlow⟩ := (eq_negZero_iff _).1 h
  have hlt (k : Nat) := (roundMag_le_infMag (k + 1) 1 (e + 3022) Nat.one_pos).trans_lt infMag_lt
  match n with
  | .ofNat 0 =>
    rw [roundSum, fSign_fPack z (by decide)] at hsign
    exact ⟨hsign, rfl⟩
  | .ofNat (k + 1) =>
    rw [roundSum, fSign_fPack false (hlt k)] at hsign
    exact absurd hsign Bool.false_ne_true
  | .negSucc k =>
    rw [roundSum, fLow_fPack true _ (hlt k)] at hlow
    exact absurd hlow (roundMag_sum_ne_zero k e)

theorem fScaled_nonpos {x : F64} (h : fSign x = true) (e : Nat) : fScaled x e ≤ 0 := by
  rw [fScaled, if_pos h]
  exact Int.neg_nonpos_of_nonneg (Int.natCast_nonneg _)

/-- A sum is −0.0 only where its first operand is: an exact zero of two negative values has both zero. -/
theorem fAdd_ne_negZero {x : F64} (hx : x ≠ 0x8000000000000000) (y : F64) : fAdd x y ≠ 0x8000000000000000 := by
  intro h
  obtain ⟨hfx, hfy⟩ := fAdd_finite x y (h ▸ by decide)
  obtain ⟨e, hex, -, hround⟩ := fAdd_eq_roundSum hfx hfy
  obtain ⟨hsigns, hzero⟩ := roundSum_eq_negZero (hround.symm.trans h)
  rw [Bool.and_eq_true] at hsigns
  obtain ⟨hsx, hsy⟩ := hsigns
  have hscaled : (fScaled x e).natAbs = 0 := by
    have hx := fScaled_nonpos hsx e
    have hy := fScaled_nonpos hsy e
    omega
  have hmag := fScaled_natAbs x e hex
  rw [hscaled, Nat.zero_mul, fMagnitude_eq, ← magValue_zero] at hmag
  exact hx ((eq_negZero_iff x).2 ⟨hsx, (magValue_strictMono.injective hmag).symm⟩)

/-! ### The datapath -/

/-- The sum of the products of pairs in order, every operation rounded and none checked (R232). -/
def dotSum (s : F64) (ps : List (F64 × F64)) : F64 := ps.foldl (fun s p => fAdd s (fMul p.1 p.2)) s

theorem dotStep_ok_iff (s : F64) (p : F64 × F64) (r : F64) :
    dotStep s p = .ok r ↔ fFinite (fAdd s (fMul p.1 p.2)) = true ∧ fAdd s (fMul p.1 p.2) = r := by
  simp only [dotStep, cMul, cAdd, bind_ok_iff, chk_ok_iff]
  constructor
  · rintro ⟨_, ⟨-, rfl⟩, h⟩
    exact h
  · exact fun h => ⟨_, ⟨(fAdd_finite _ _ h.1).2, rfl⟩, h⟩

/-- A finite sum started from a finite value. -/
theorem finite_of_dotSum {s : F64} {ps : List (F64 × F64)} (h : fFinite (dotSum s ps) = true) : fFinite s = true := by
  induction ps generalizing s with
  | nil => exact h
  | cons p ps ih => exact (fAdd_finite _ _ (ih h)).1

/-- No check of a product or partial sum fails exactly where the whole sum is finite. -/
theorem foldE_dotStep_ok_iff {s : F64} (hs : fFinite s = true) (ps : List (F64 × F64)) (r : F64) :
    foldE dotStep s ps = .ok r ↔ fFinite r = true ∧ r = dotSum s ps := by
  induction ps generalizing s with
  | nil =>
    rw [foldE, Except.ok.injEq]
    exact ⟨fun h => h ▸ ⟨hs, rfl⟩, fun h => h.2.symm⟩
  | cons p ps ih =>
    simp only [foldE, bind_ok_iff, dotStep_ok_iff]
    constructor
    · rintro ⟨_, ⟨hfin, rfl⟩, hrest⟩
      exact (ih hfin).1 hrest
    · rintro ⟨hr, rfl⟩
      have hfin : fFinite (fAdd s (fMul p.1 p.2)) = true := finite_of_dotSum hr
      exact ⟨_, ⟨hfin, rfl⟩, (ih hfin).2 ⟨hr, rfl⟩⟩

/-- The sum starts from +0.0, so `dot8` never gives −0.0 (R232). -/
theorem dot8_ne_negZero {c x : List F64} {r : F64} (h : dot8 c x = .ok r) : r ≠ 0x8000000000000000 := by
  refine foldE_invariant dotStep (· ≠ 0x8000000000000000) (c.zip x) 0 r h (by decide) fun s p t _ hs ht => ?_
  obtain ⟨-, rfl⟩ := (dotStep_ok_iff s p t).1 ht
  exact fAdd_ne_negZero hs _

/-- Settles O33: the checks pass exactly where the sum is finite, and a sum from +0.0 is never −0.0. -/
theorem dot8SumsInOrder : Obligations.Dot8SumsInOrder := by
  intro c0 c1 c2 c3 c4 c5 c6 c7 x0 x1 x2 x3 x4 x5 x6 x7 r
  exact ⟨foldE_dotStep_ok_iff (by decide) _ r, dot8_ne_negZero⟩

/-! ### The transforms -/

/-- The angle of the basis entry of row k and column n, in units of π/16 (R231). -/
def basisAngle (k n : Nat) : Nat := if k = 0 then 4 else (2 * n + 1) * k % 32

/-- An angle folded into the first quarter turn (R231). -/
def foldAngle (a : Nat) : Nat := if a ≤ 8 then a else if a ≤ 16 then 16 - a else if a ≤ 24 then a - 16 else 32 - a

/-- Half the cosine of each folded angle (R231). -/
def basisMagnitudes : List (Nat × F64) :=
  [(1, 0x3FDF6297CFF75CB0), (2, 0x3FDD906BCF328D46), (3, 0x3FDA9B66290EA1A3), (4, 0x3FD6A09E667F3BCD),
    (5, 0x3FD1C73B39AE68C8), (6, 0x3FC87DE2A6AEA963), (7, 0x3FB8F8B83C69A60B)]

theorem basisRom_entry : ∀ k < 8, ∀ n < 8, ∀ p ∈ basisMagnitudes, p.1 = foldAngle (basisAngle k n) →
    elem basisRom k n = if 8 < basisAngle k n ∧ basisAngle k n < 24 then fNeg p.2 else p.2 := by decide

/-- A pass over the 64 places of an array gives the value at each row and column. -/
theorem mapE_grid_ok_iff (f : Nat → Nat → Except ErrCode F64) (r : List F64) :
    mapE (fun k => f (k / 8) (k % 8)) (List.range 64) = .ok r ↔
      r.length = 64 ∧ ∀ i < 8, ∀ j < 8, f i j = .ok (elem r i j) := by
  constructor
  · intro h
    refine ⟨by simpa using mapE_length h, fun i hi j hj => ?_⟩
    obtain ⟨hlt, hk⟩ := mapE_range h (8 * i + j) (by omega)
    rw [show (8 * i + j) / 8 = i by omega, show (8 * i + j) % 8 = j by omega] at hk
    rw [hk, elem, List.getD_eq_getElem _ _ hlt]
  · rintro ⟨hlen, h⟩
    refine mapE_ok_of_getElem _ _ r (by simpa using hlen) fun k _ hk => ?_
    rw [List.getElem_range, h (k / 8) (by omega) (k % 8) (by omega), elem, Nat.div_add_mod, List.getD_eq_getElem _ _ hk]

/-- Two passes, the second on the array the first gives. -/
theorem twoPasses_ok_iff (f : Nat → Nat → Except ErrCode F64) (g : List F64 → Nat → Nat → Except ErrCode F64)
    (d : List F64) :
    (mapE (fun k => f (k / 8) (k % 8)) (List.range 64) >>= fun r =>
        mapE (fun k => g r (k / 8) (k % 8)) (List.range 64)) = .ok d ↔
      ∃ r : List F64, r.length = 64 ∧ d.length = 64 ∧
        ∀ i < 8, ∀ j < 8, f i j = .ok (elem r i j) ∧ g r i j = .ok (elem d i j) := by
  simp only [bind_ok_iff, mapE_grid_ok_iff]
  constructor
  · rintro ⟨r, ⟨hr, hf⟩, hd, hg⟩
    exact ⟨r, hr, hd, fun i hi j hj => ⟨hf i hi j hj, hg i hi j hj⟩⟩
  · rintro ⟨r, hr, hd, h⟩
    exact ⟨r, ⟨hr, fun i hi j hj => (h i hi j hj).1⟩, hd, fun i hi j hj => (h i hi j hj).2⟩

/-- Settles O34: the basis ROM by evaluation, and each transform as two passes of `dot8` over an array. -/
theorem transformsAreTwoPasses : Obligations.TransformsAreTwoPasses := by
  refine ⟨?_, fun b d => ⟨?_, ?_, ?_⟩⟩
  · rintro k hk n hn _ _ mag rfl rfl hmem
    exact basisRom_entry k hk n hn _ hmem rfl
  · exact twoPasses_ok_iff (fun i j => dot8 (rowOf basisRom j) (rowOf b i))
      (fun r i j => dot8 (rowOf basisRom i) (colOf r j)) d
  · exact twoPasses_ok_iff (fun i j => dot8 (colOf basisRom j) (rowOf b i))
      (fun q i j => dot8 (colOf basisRom i) (colOf q j)) d
  · rintro e (h | h)
    · exact RaisesOnlyNonFinite.fdct b e h
    · exact RaisesOnlyNonFinite.idct b e h

/-! ### The commands -/

/-- A write that is all a command stages reads back. -/
theorem readBack_of_single (s : State) (w : Store) : w.ReadBack (commit s (.ofWrites [w])) := by
  intro k b hb
  obtain ⟨hk, rfl⟩ := List.getElem?_eq_some_iff.1 hb
  exact ldByte_writeRun_inside s w.addr w.bytes k hk

/-- A command that stages one block of binary64 values and nothing else leaves it at `DST`, and every byte outside its output
regions as before. -/
theorem exec_of_storeBlock {i : Instr} {s : State} {d : List F64}
    (h : resultOf i s = .ok (.ofWrites (storeBlock s.dst d))) (hlen : d.length = 64) :
    ∃ t, exec i s = .next t ∧ OnlyLmem s t ∧ LmemKeptOutside (tableOutputs i s) s t ∧
      ∀ k < 64, d[k]? = some (t.ldF64 (s.dst + 8 * k)) := by
  obtain ⟨hexec, honly, hkept⟩ := exec_of_writes h
  refine ⟨_, hexec, honly, hkept, fun k hk => ?_⟩
  have hget := List.getElem?_eq_getElem (hlen ▸ hk)
  have hread : (stArray f64Bytes s.dst d).ReadBack (succeeded (commit s (.ofWrites (storeBlock s.dst d)))) :=
    readBack_of_single s _
  rw [hget, hread.ldF64 hget]

theorem runFdct_eq {s : State} {d : List F64} (hc : checksPass .fdct s = true)
    (hfin : ∀ k < 64, fFinite (s.ldF64 (s.src + 8 * k)) = true) (h : fdct (blockAt s s.src) = .ok d) :
    runFdct s = .ok (.ofWrites (storeBlock s.dst d)) := by
  simp only [runFdct, regionChecks_of_memoryChecks hc, loadBlock_finite hfin, ok_bind, h]
  rfl

theorem runIdct_eq {s : State} {d : List F64} (hc : checksPass .idct s = true)
    (hfin : ∀ k < 64, fFinite (s.ldF64 (s.src + 8 * k)) = true) (h : idct (blockAt s s.src) = .ok d) :
    runIdct s = .ok (.ofWrites (storeBlock s.dst d)) := by
  simp only [runIdct, regionChecks_of_memoryChecks hc, loadBlock_finite hfin, ok_bind, h]
  rfl

/-- Settles O23: both commands stage the transform of the block as it stood before, and the one write reads back. -/
theorem dctCommandsWriteTheTransform : Obligations.DctCommandsWriteTheTransform := by
  intro s d hfin
  exact ⟨fun hc h => exec_of_storeBlock (i := .fdct) (runFdct_eq hc hfin h) (fdct_length h),
    fun hc h => exec_of_storeBlock (i := .idct) (runIdct_eq hc hfin h) (idct_length h)⟩

end Sys2Proof.Machine

/-! ## The block codec (spec/43_block_codec.md R260 to R283) -/

namespace Sys2Proof.Machine

/-! ### Coefficients and their quotients -/

/-- Settles O36: c·2^N is an integer below 2^53, which converts exactly. -/
theorem dequantizeIsExact : Obligations.DequantizeIsExact := by
  intro c n hlow hhigh hn
  have hpow : Int.ofNat (1 <<< n) = 2 ^ n := by
    rw [Nat.shiftLeft_eq, Nat.one_mul, Int.ofNat_eq_natCast, Nat.cast_pow, Nat.cast_ofNat]
  have hsmall : |c * 2 ^ n| < 2 ^ 53 := by
    rw [abs_mul, abs_of_pos (by positivity : (0 : Int) < 2 ^ n)]
    calc |c| * 2 ^ n ≤ 32768 * 2 ^ 15 :=
          mul_le_mul (abs_le.2 ⟨hlow, by omega⟩) (pow_le_pow_right₀ (by norm_num) hn) (by positivity) (by norm_num)
      _ < 2 ^ 53 := by norm_num
  obtain ⟨hfin, hvalue, -⟩ := fOfInt_exact hsmall
  refine ⟨?_, ?_, ?_⟩
  · rw [dequantize, hpow, hfin]
  · rw [dequantize, hpow, hvalue]
  · rw [dequantize, Int.zero_mul]
    decide

/-- An integer in the range of a coefficient (R261). -/
def FitsI16 (q : Int) : Prop := -32768 ≤ q ∧ q ≤ 32767

theorem quantize_of_fits {n : Nat} {d : F64} (h : FitsI16 (roundHalfAway d n)) : quantize n d = .ok (roundHalfAway d n) :=
  if_neg (by obtain ⟨hlow, hhigh⟩ := h; omega)

theorem quantize_ok {n : Nat} {d : F64} {q : Int} (h : quantize n d = .ok q) : FitsI16 (roundHalfAway d n) := by
  unfold quantize at h
  split at h
  · cases h
  · rw [FitsI16]
    omega

theorem quantize_error {n : Nat} {d : F64} {e : ErrCode} (h : quantize n d = .error e) : e = .coefRange := by
  unfold quantize at h
  split at h <;> cases h
  rfl

/-- One value whose quotient does not fit makes the block's quantization raise `E_COEFRANGE`. -/
theorem mapE_quantize_coefRange {n : Nat} {ds : List F64} {d : F64} (hd : d ∈ ds) (h : ¬FitsI16 (roundHalfAway d n)) :
    mapE (quantize n) ds = .error .coefRange := by
  cases hm : mapE (quantize n) ds with
  | ok qs =>
    obtain ⟨k, hk, rfl⟩ := List.getElem_of_mem hd
    exact absurd (quantize_ok (mapE_getElem hm k hk (by rwa [mapE_length hm]))) h
  | error e =>
    obtain ⟨_, -, he⟩ := mapE_error _ _ _ hm
    rw [quantize_error he]

/-- A value of magnitude at most b has a rounded quotient of at most b. -/
theorem abs_roundHalfAway_le {d : F64} {b : Nat} (h : fMagnitude d ≤ b * 2 ^ 1074) (n : Nat) : |roundHalfAway d n| ≤ b := by
  have hmag : halfAwayMag d n ≤ b := by
    have hpos := Nat.two_pow_pos (1074 + n)
    have hb : fMagnitude d ≤ b * 2 ^ (1074 + n) :=
      h.trans (Nat.mul_le_mul_left _ (Nat.pow_le_pow_right Nat.two_pos (Nat.le_add_right _ _)))
    rw [halfAwayMag_eq]
    generalize 2 ^ (1074 + n) = u at *
    exact Nat.le_of_lt_succ ((Nat.div_lt_iff_lt_mul (by omega)).2 (by nlinarith))
  unfold roundHalfAway
  split
  · rw [Int.ofNat_eq_natCast, abs_neg, Nat.abs_cast]
    exact_mod_cast hmag
  · rw [Int.ofNat_eq_natCast, Nat.abs_cast]
    exact_mod_cast hmag

/-! ### Checks and coefficients in LMEM -/

/-- The checks of `QUANT`, `DEQUANT` and `ENCODE` as their meanings make them. -/
theorem levelChecks_of_all {i : Instr} {s : State}
    (h : ((3, decide (15 < s.level)) :: memoryChecks i s).all (fun c => !c.2) = true) :
    decide (15 < s.level) = false ∧ regionChecks i s = .ok () := by
  rw [List.all_cons, Bool.and_eq_true, Bool.not_eq_true'] at h
  exact ⟨h.1, regionChecks_of_memoryChecks h.2⟩

/-- The checks of `BLK_EXTRACT` and `BLK_INSERT` as their meanings make them; `p` is the pixel stride. -/
theorem blockChecks_of_all {i : Instr} {s : State} {p : Nat}
    (h : ([(6, p == 0), (7, decide (ceil8 s.imgW ≤ s.blkX) || decide (ceil8 s.imgH ≤ s.blkY))] ++ memoryChecks i s).all
      (fun c => !c.2) = true) :
    (p == 0) = false ∧ blockOutside s = false ∧ regionChecks i s = .ok () := by
  simp only [List.all_append, List.all_cons, List.all_nil, Bool.and_true, Bool.and_eq_true, Bool.not_eq_true'] at h
  obtain ⟨⟨hstride, hblock⟩, hmem⟩ := h
  exact ⟨hstride, hblock, regionChecks_of_memoryChecks hmem⟩

/-- Where a run of coefficients reads back, `ld_i16` gives each of them. -/
theorem Store.ReadBack.ldI16 {t : State} {a : Nat} {qs : List Int} (h : (stArray i16Bytes a qs).ReadBack t) {i : Nat} {q : Int}
    (hq : qs[i]? = some q) (hfits : FitsI16 q) : t.ldI16 (a + 2 * i) = q := by
  obtain ⟨hi, rfl⟩ := List.getElem?_eq_some_iff.1 hq
  refine ldI16_of_bytes t _ _ hfits fun k hk => ?_
  rw [Nat.add_assoc]
  exact h _ _ ((stArray_getElem? i16Bytes_length a hi hk).trans (List.getElem?_eq_getElem _))

theorem mem_blockAt {s : State} {base : Nat} {d : F64} : d ∈ blockAt s base ↔ ∃ k < 64, s.ldF64 (base + 8 * k) = d := by
  simp [blockAt]

/-! ### `QUANT`, `DEQUANT` and `BLK_EXTRACT` -/

theorem runQuant_eq {s : State} (hc : checksPass .quant s = true)
    (hfin : ∀ k < 64, fFinite (s.ldF64 (s.src + 8 * k)) = true) :
    runQuant s = mapE (quantize s.level) (blockAt s s.src) >>= fun q => pure (.ofWrites (storeCoefs s.dst q)) := by
  obtain ⟨hlevel, hmem⟩ := levelChecks_of_all hc
  simp only [runQuant, hlevel, hmem, loadBlock_finite hfin]
  rfl

/-- Settles O24: the quotients are written where all fit, and one that does not makes the pass raise `E_COEFRANGE`. -/
theorem quantWritesRoundedQuotients : Obligations.QuantWritesRoundedQuotients := by
  intro s hc hfin
  have hrun := runQuant_eq hc hfin
  constructor
  · intro hfits
    rw [mapE_eq_map (g := (roundHalfAway · s.level)) fun d hd => ?fits, ok_bind] at hrun
    case fits =>
      obtain ⟨k, hk, rfl⟩ := mem_blockAt.1 hd
      exact quantize_of_fits (hfits k hk)
    obtain ⟨hexec, honly, hkept⟩ := exec_of_writes (i := .quant) hrun
    refine ⟨_, hexec, honly, hkept, fun k hk => ?_⟩
    exact (readBack_of_single s _).ldI16 (by simp [blockAt, hk]) (hfits k hk)
  · intro k hk hout
    have hbad : ¬FitsI16 (roundHalfAway (s.ldF64 (s.src + 8 * k)) s.level) := by rw [FitsI16]; omega
    rw [mapE_quantize_coefRange (mem_blockAt.2 ⟨k, hk, rfl⟩) hbad] at hrun
    rw [exec_eq_finish, show resultOf .quant s = .error .coefRange from hrun, finish_error]
    rfl

theorem runDequant_eq {s : State} (hc : checksPass .dequant s = true) :
    runDequant s = .ok (.ofWrites (storeBlock s.dst ((loadCoefs s s.src).map (dequantize s.level)))) := by
  obtain ⟨hlevel, hmem⟩ := levelChecks_of_all hc
  simp only [runDequant, hlevel, hmem]
  rfl

/-- Settles O25: `DEQUANT` stages one block, computed from the coefficients as they stood before. -/
theorem dequantWritesScaledCoefficients : Obligations.DequantWritesScaledCoefficients := by
  intro s hc
  obtain ⟨t, hexec, honly, hkept, hread⟩ := exec_of_storeBlock (i := .dequant) (runDequant_eq hc) (by simp [loadCoefs])
  refine ⟨t, hexec, honly, hkept, fun k hk => ?_⟩
  have hk' := hread k hk
  simpa [loadCoefs, hk, eq_comm] using hk'

theorem runBlkExtract_eq {s : State} (hc : checksPass .blkExtract s = true) :
    runBlkExtract s = .ok (.ofWrites (storeBlock s.dst
      (extractBlock (fun x y => s.ldU8 (planeAddr s.src s.srcStride s.imgW x y)) s.imgW s.imgH s.blkX s.blkY))) := by
  obtain ⟨hstride, hblock, hmem⟩ := blockChecks_of_all hc
  simp only [runBlkExtract, hstride, hblock, hmem]
  rfl

theorem extractBlock_getElem? (sample : Nat → Nat → Nat) (w h col row : Nat) {i j : Nat} (hi : i < 8) (hj : j < 8) :
    (extractBlock sample w h col row)[8 * i + j]? = some
      (if 8 * col + j < w ∧ 8 * row + i < h then fOfInt ((sample (8 * col + j) (8 * row + i) : Int) - 128) else 0) := by
  have hlt : 8 * i + j < 64 := by omega
  have hdiv : (8 * i + j) / 8 = i := by omega
  have hmod : (8 * i + j) % 8 = j := by omega
  rw [extractBlock, List.getElem?_map, List.getElem?_range hlt, Option.map_some, extractElem, hdiv, hmod]
  rfl

/-- Settles O26: `BLK_EXTRACT` stages the extracted block, whose element (i, j) is at index 8i + j. -/
theorem blkExtractWritesShiftedBlock : Obligations.BlkExtractWritesShiftedBlock := by
  intro s hc
  obtain ⟨t, hexec, honly, hkept, hread⟩ :=
    exec_of_storeBlock (i := .blkExtract) (runBlkExtract_eq hc) (by simp [extractBlock])
  refine ⟨t, hexec, honly, hkept, ?_⟩
  rintro i hi j hj _ _ rfl rfl
  have hk := hread (8 * i + j) (by omega)
  rw [extractBlock_getElem? _ _ _ _ _ hi hj] at hk
  exact (Option.some.inj hk).symm

/-! ### Sums just short of overflow -/

/-- A quotient below (2^53 − 1/2)·2^2045 in units of 2^−1074, halfway from the greatest finite magnitude to the next power
of two, does not round to infinity (spec/00_scope.md R12). -/
theorem roundMag_lt_infMag {num den k : Nat} (hd : 0 < den)
    (h : 2 * (num * 2 ^ k) < (2 ^ 54 - 1) * (den * 2 ^ (2045 + 3022))) : roundMag num den k < infMag := by
  cases hp : num / den with
  | zero => rw [roundMag_of_div_eq_zero k hp]; decide
  | succ p =>
    have hle := significand_le (k := k) hd hp
    have hlow := (topBit_bounds (k := k) hd hp).1
    rw [roundMag_eq_min hd hp, min_lt_iff, or_iff_left (lt_irrefl _)]
    have htop : topBit (p + 1) + k < 53 + (2045 + 3022) := by
      refine (Nat.pow_lt_pow_iff_right Nat.one_lt_two).1 (Nat.lt_of_mul_lt_mul_left (a := den) (hlow.trans_lt ?_))
      rw [Nat.pow_add, Nat.mul_left_comm]
      omega
    rcases Nat.lt_or_ge (topBit (p + 1) + k - 3074) 2045 with he | he
    · simp only [infMag]
      omega
    · have hexp : topBit (p + 1) + k - 3074 = 2045 := by omega
      have hnear := (nearestMultiple_isNearest num den k (2045 + 3022) hd).above
      rw [hexp] at hle ⊢
      have hq : nearestMultiple num den k (2045 + 3022) < 2 ^ 53 := by
        by_contra hq
        have := Nat.mul_le_mul_right (den * 2 ^ (2045 + 3022)) (Nat.le_of_not_lt hq)
        omega
      simp only [infMag]
      omega

theorem roundSum_finite (z : Bool) (e : Nat) {n : Int} (h : 2 * (n.natAbs * 2 ^ e) < (2 ^ 54 - 1) * 2 ^ 2045) :
    fFinite (roundSum z e n) = true := by
  have key (k : Nat) (hk : 2 * ((k + 1) * 2 ^ e) < (2 ^ 54 - 1) * 2 ^ 2045) : roundMag (k + 1) 1 (e + 3022) < infMag := by
    refine roundMag_lt_infMag Nat.one_pos ?_
    generalize 2045 = c, 3022 = d, 2 ^ 54 - 1 = t at hk ⊢
    have hscaled := Nat.mul_lt_mul_of_pos_right hk (Nat.two_pow_pos d)
    rw [Nat.one_mul, Nat.pow_add, Nat.pow_add]
    linarith
  unfold roundSum
  split
  · exact fFinite_fPack z (by decide)
  · exact fFinite_fPack _ (key _ h)
  · exact fFinite_fPack _ (key _ h)

/-- A sum of finite values does not overflow while the magnitudes stay short of the overflow threshold. -/
theorem fAdd_finite_of_lt {x y : F64} (hx : fFinite x = true) (hy : fFinite y = true)
    (h : 2 * (fMagnitude x + fMagnitude y) < (2 ^ 54 - 1) * 2 ^ 2045) : fFinite (fAdd x y) = true := by
  have key (e : Nat) (hex : e ≤ fPow x) (hey : e ≤ fPow y) :
      2 * ((fScaled x e + fScaled y e).natAbs * 2 ^ e) < (2 ^ 54 - 1) * 2 ^ 2045 := by
    refine (Nat.mul_le_mul_left 2 ?_).trans_lt h
    rw [← fScaled_natAbs x e hex, ← fScaled_natAbs y e hey, ← Nat.add_mul]
    exact Nat.mul_le_mul_right _ (Int.natAbs_add_le _ _)
  rw [fAdd, hx, hy, Bool.and_self, if_pos rfl, addFinite, Nat.min_eq_min]
  split
  · exact roundSum_finite _ _ (key 0 (Nat.zero_le _) (Nat.zero_le _))
  · exact roundSum_finite _ _ (key _ (by omega) (by omega))

/-- The greatest finite magnitude bounds every finite one. -/
theorem fMagnitude_le {x : F64} (hx : fFinite x = true) : fMagnitude x ≤ (2 ^ 53 - 1) * 2 ^ 2045 := by
  rw [fMagnitude_eq, ← magValue_add 2045 (2 ^ 53 - 1) (by omega) (.inr (by omega))]
  exact magValue_mono (Nat.le_of_lt_succ ((fFinite_iff x).1 hx))

theorem fOfNat_within {n b : Nat} (h : n ≤ b) (hb : b < 2 ^ 53) : Within (b * 2 ^ 1074) (fOfNat n) := by
  obtain ⟨m, hm, hv⟩ := exists_magValue_eq b 1074 hb (by omega) (by omega)
  rw [← hv]
  exact fOfNat_bound n m hm ((Nat.mul_le_mul_right _ h).trans_eq hv.symm)

/-- A level shift never overflows: 128 is less than half a unit in the last place of the greatest value. -/
theorem fAdd_levelShift_finite {x : F64} (hx : fFinite x = true) : fFinite (fAdd x (fOfNat 128)) = true := by
  obtain ⟨hfin, h128⟩ := fOfNat_within (le_refl 128) (by omega)
  have hmag : 128 * 2 ^ 1074 < 2 ^ 2044 := by
    rw [show 128 = 2 ^ 7 from rfl, ← Nat.pow_add]
    exact Nat.pow_lt_pow_right Nat.one_lt_two (by omega)
  have hle := fMagnitude_le hx
  refine fAdd_finite_of_lt hx hfin ?_
  have hhalf : 2 ^ 2045 = 2 ^ 2044 * 2 := pow_succ 2 2044
  rw [hhalf] at hle ⊢
  generalize 2 ^ 2044 = u, 128 * 2 ^ 1074 = v at *
  omega

/-! ### Writes that agree -/

/-- Every byte a staged write puts at `a` is `b`. -/
def Store.Agrees (w : Store) (a : Nat) (b : Byte) : Prop := ∀ k x, w.bytes[k]? = some x → w.addr + k = a → x = b

theorem stU8_agrees {a a' : Nat} {b b' : Byte} (h : a' = a → b' = b) : (stU8 a' b').Agrees a b := by
  intro k x hx haddr
  obtain ⟨hk, rfl⟩ := List.getElem?_eq_some_iff.1 hx
  obtain rfl : k = 0 := Nat.lt_one_iff.1 hk
  exact h haddr

/-- Where every staged write that writes a byte writes the same value, the byte holds it, whichever comes last. -/
theorem lookup_applyStores_of_agrees {ws : List Store} {a : Nat} {b : Byte} (m : List Host.Cell)
    (hws : ∀ w ∈ ws, w.Agrees a b) (h : storesTo ws a = true) : lookup (applyStores m ws) a = some b := by
  induction ws generalizing m with
  | nil => simp at h
  | cons w ws ih =>
    obtain ⟨hw, hws⟩ := List.forall_mem_cons.1 hws
    cases hlater : storesTo ws a with
    | true => exact ih _ hws hlater
    | false =>
      have hin : w.addr ≤ a ∧ a < w.addr + w.bytes.length := by
        rw [storesTo] at hlater
        simpa [storesTo, hlater] using h
      obtain ⟨k, rfl⟩ := Nat.exists_eq_add_of_le hin.1
      have hk : k < w.bytes.length := by omega
      rw [applyStores, lookup_applyStores_outside _ _ _ hlater, lookup_writeRun_inside _ _ _ _ hk,
        hw k _ (List.getElem?_eq_getElem hk) rfl]

/-! ### `BLK_INSERT` -/

/-- Place k of the block at (col, row) lies in an image of w by h pixels (R265). -/
def InImage (w h col row k : Nat) : Prop := 8 * col + k % 8 < w ∧ 8 * row + k / 8 < h

/-- The byte of place k of a block as it is staged (R267). -/
def insertedStore (addr : Nat → Nat → Nat) (col row : Nat) (f : List F64) (k : Nat) : Store :=
  stU8 (addr (8 * col + k % 8) (8 * row + k / 8)) (toByte (fAdd (f.getD k 0) (fOfNat 128)))

/-- A block of finite values goes back into a plane: no level shift overflows, and each in-image place stages its byte. -/
theorem insertBlock_ok (addr : Nat → Nat → Nat) (w h col row : Nat) {f : List F64}
    (hf : ∀ k < 64, fFinite (f.getD k 0) = true) :
    ∃ ws, insertBlock addr w h col row f = .ok ws ∧
      ∀ v, v ∈ ws ↔ ∃ k < 64, InImage w h col row k ∧ v = insertedStore addr col row f k := by
  have each : ∀ k ∈ List.range 64, insertElem addr w h col row f k =
      .ok (if 8 * col + k % 8 < w ∧ 8 * row + k / 8 < h then [insertedStore addr col row f k] else []) := by
    intro k hk
    unfold insertElem
    split
    · rw [cAdd, chk_bind (fAdd_levelShift_finite (hf k (List.mem_range.1 hk)))]
      rfl
    · rfl
  refine ⟨_, by rw [insertBlock, mapE_eq_map each]; rfl, fun v => ?_⟩
  simp only [List.mem_flatten, List.mem_map, List.mem_range, exists_exists_and_eq_and, List.mem_ite_nil_right,
    List.mem_singleton]
  rfl

theorem runBlkInsert_eq {s : State} (hc : checksPass .blkInsert s = true)
    (hfin : ∀ k < 64, fFinite (s.ldF64 (s.src + 8 * k)) = true) :
    runBlkInsert s = (insertBlock (planeAddr s.dst s.dstStride s.imgW) s.imgW s.imgH s.blkX s.blkY (blockAt s s.src) >>=
      fun ws => pure (.ofWrites ws)) := by
  obtain ⟨hstride, hblock, hmem⟩ := blockChecks_of_all hc
  simp only [runBlkInsert, hstride, hblock, hmem, loadBlock_finite hfin]
  rfl

theorem blockAt_getD (s : State) (base : Nat) {k : Nat} (hk : k < 64) : (blockAt s base).getD k 0 = s.ldF64 (base + 8 * k) := by
  simp [blockAt, hk]

/-- Pixels of one plane at one address are one pixel. -/
theorem planeAddr_inj {base p w x y x' y' : Nat} (hp : 0 < p) (hx : x < w) (hx' : x' < w)
    (h : planeAddr base p w x y = planeAddr base p w x' y') : x = x' ∧ y = y' := by
  have hindex : w * y + x = w * y' + x' := by
    have := Nat.eq_of_mul_eq_mul_left hp (Nat.add_left_cancel h)
    rwa [Nat.mul_comm y, Nat.mul_comm y'] at this
  have hmod := congrArg (· % w) hindex
  have hdiv := congrArg (· / w) hindex
  simp only [Nat.mul_add_mod, Nat.mod_eq_of_lt hx, Nat.mod_eq_of_lt hx'] at hmod
  simp only [Nat.mul_add_div (Nat.zero_lt_of_lt hx), Nat.div_eq_of_lt hx, Nat.div_eq_of_lt hx', Nat.add_zero] at hdiv
  exact ⟨hmod, hdiv⟩

/-- Settles O27: the pixels of a block have addresses of their own, so each place's byte is written once, and no other is. -/
theorem blkInsertWritesOnlyImagePositions : Obligations.BlkInsertWritesOnlyImagePositions := by
  intro s hc hfin
  obtain ⟨ws, hws, hmem⟩ := insertBlock_ok (planeAddr s.dst s.dstStride s.imgW) s.imgW s.imgH s.blkX s.blkY
    (f := blockAt s s.src) fun k hk => by rw [blockAt_getD s _ hk, hfin k hk]
  have hrun := runBlkInsert_eq hc hfin
  rw [hws, ok_bind] at hrun
  have hstride : 0 < s.dstStride := Nat.pos_of_ne_zero fun h => by
    obtain ⟨hne, -⟩ := blockChecks_of_all hc
    simp [h] at hne
  obtain ⟨hexec, honly, -⟩ := exec_of_writes (i := .blkInsert) hrun
  refine ⟨_, hexec, honly, fun i hi j hj hx hy => ?_, fun a ha => ?_⟩
  · have hdiv : (8 * i + j) / 8 = i := by omega
    have hmod : (8 * i + j) % 8 = j := by omega
    have hstored : insertedStore (planeAddr s.dst s.dstStride s.imgW) s.blkX s.blkY (blockAt s s.src) (8 * i + j) ∈ ws :=
      (hmem _).2 ⟨_, by omega, by rw [InImage, hdiv, hmod]; exact ⟨hx, hy⟩, rfl⟩
    rw [insertedStore, hdiv, hmod, blockAt_getD s _ (by omega)] at hstored
    refine commit_ldByte_of_lookup (lookup_applyStores_of_agrees _ (fun v hv => ?_) ?_)
    · obtain ⟨k, hk, ⟨hkx, -⟩, rfl⟩ := (hmem v).1 hv
      refine stU8_agrees fun haddr => ?_
      obtain ⟨hcol, hrow⟩ := planeAddr_inj hstride hkx hx haddr
      obtain rfl : k = 8 * i + j := by omega
      rw [blockAt_getD s _ hk]
    · refine List.any_eq_true.2 ⟨_, hstored, ?_⟩
      simp [stU8, planeAddr]
  · refine commit_ldByte_of_not_stored (Bool.eq_false_iff.2 fun hstored => ?_)
    simp only [storesTo, List.any_eq_true, Bool.and_eq_true, decide_eq_true_eq] at hstored
    obtain ⟨v, hv, hlow, hhigh⟩ := hstored
    obtain ⟨k, hk, ⟨hkx, hky⟩, rfl⟩ := (hmem v).1 hv
    refine ha (k / 8) (by omega) (k % 8) (by omega) hkx hky ?_
    exact Nat.le_antisymm (Nat.le_of_lt_succ hhigh) hlow

/-! ### `ENCODE` -/

theorem fValue_natAbs (x : F64) : (fValue x).natAbs = fMagnitude x := by
  rw [fValue_eq]
  split
  · rw [Int.natAbs_neg, Int.natAbs_natCast]
  · exact Int.natAbs_natCast _

theorem fOfInt_within {z : Int} {b : Nat} (h : z.natAbs ≤ b) (hb : b < 2 ^ 53) : Within (b * 2 ^ 1074) (fOfInt z) := by
  obtain ⟨hfin, hvalue, -⟩ := fOfInt_exact (z := z) (by rw [Int.abs_eq_natAbs]; omega)
  refine ⟨hfin, ?_⟩
  rw [← fValue_natAbs, hvalue, Int.natAbs_mul, Int.natAbs_pow]
  exact Nat.mul_le_mul_right _ h

/-- Level-shifted samples, and the zeros outside the image, are at most 128 in magnitude. -/
theorem extractBlock_within {sample : Nat → Nat → Nat} (hsample : ∀ x y, sample x y < 256) (w h col row : Nat) :
    ∀ v ∈ extractBlock sample w h col row, Within (128 * 2 ^ 1074) v := by
  intro v hv
  obtain ⟨k, -, rfl⟩ := List.mem_map.1 hv
  unfold extractElem
  split
  · have := hsample (8 * col + k % 8) (8 * row + k / 8)
    exact fOfInt_within (by rw [Int.ofNat_eq_natCast]; omega) (by omega)
  · exact ⟨by decide, Nat.zero_le _⟩

/-- Block b of channel c as `ENCODE` extracts it (R280). -/
def channelBlock (s : State) (c b : Nat) : List F64 :=
  extractBlock (fun x y => s.ldU8 (planeAddr s.src 3 s.imgW x y + c)) s.imgW s.imgH (b % ceil8 s.imgW) (b / ceil8 s.imgW)

/-- No block raises an error (R282): its samples are at most 128 in magnitude, so its transform is at most 2048. -/
theorem encodeBlock_ok (s : State) (c b : Nat) : ∃ d, fdct (channelBlock s c b) = .ok d ∧ d.length = 64 ∧
    (∀ x ∈ d, FitsI16 (roundHalfAway x s.level)) ∧ encodeBlock s c b = .ok (d.map (roundHalfAway · s.level)) := by
  have hsamples : ∀ v ∈ channelBlock s c b, Within (2 ^ (1080 + 1)) v := by
    have hexp : 2 ^ (1080 + 1) = 128 * 2 ^ 1074 := by rw [show 1080 + 1 = 7 + 1074 from rfl, Nat.pow_add]
    rw [hexp]
    exact extractBlock_within (fun _ _ => (s.ldByte _).isLt) _ _ _ _
  obtain ⟨d, hd, hlen, hbound⟩ := fdct_bound 1080 _ (by omega) (by omega) hsamples
  have hfits : ∀ x ∈ d, FitsI16 (roundHalfAway x s.level) := by
    intro x hx
    have hmag : fMagnitude x ≤ 2048 * 2 ^ 1074 := by
      rw [show 2048 = 2 ^ 11 from rfl, ← Nat.pow_add]
      exact (hbound x hx).2
    have := abs_le.1 (abs_roundHalfAway_le hmag s.level)
    rw [FitsI16]
    omega
  refine ⟨d, hd, hlen, hfits, ?_⟩
  rw [encodeBlock, show fdct (extractBlock _ _ _ _ _) = .ok d from hd, ok_bind]
  exact mapE_eq_map fun x hx => quantize_of_fits (hfits x hx)

/-- A set of a channel of `ENCODE` as it is staged, `q` giving the coefficients of each of its blocks (R283). -/
def coefSetStores (s : State) (q : Nat → Nat → List Int) (c : Nat) : List Store :=
  storeEach (fun a b => stArray i16Bytes a (q c b)) (s.coefBase c) 128 (List.range (ceil8 s.imgW * ceil8 s.imgH))

theorem storeEach_map {α β : Type} (st : Nat → β → Store) (f : α → β) (a d : Nat) (xs : List α) :
    storeEach st a d (xs.map f) = storeEach (fun a x => st a (f x)) a d xs := by
  induction xs generalizing a with
  | nil => rfl
  | cons x xs ih => rw [List.map_cons, storeEach, storeEach, ih]

theorem encodeChannel_eq {s : State} {q : Nat → Nat → List Int} {c : Nat} (hq : ∀ b, encodeBlock s c b = .ok (q c b)) :
    encodeChannel s c = .ok (coefSetStores s q c) := by
  rw [encodeChannel, mapE_eq_map fun b _ => hq b, ok_bind, storeEach_map]
  rfl

theorem runEncode_eq {s : State} {q : Nat → Nat → List Int} (hc : checksPass .encode s = true)
    (hq : ∀ c b, encodeBlock s c b = .ok (q c b)) :
    runEncode s = .ok (.ofWrites ((List.range 3).map (coefSetStores s q)).flatten) := by
  obtain ⟨hlevel, hmem⟩ := levelChecks_of_all hc
  simp only [runEncode, hlevel, hmem, mapE_eq_map fun c _ => encodeChannel_eq (hq c)]
  rfl

/-- The items of a flattened pass: those before index c, those at it, those after. -/
theorem flatten_map_range_split {α : Type} (f : Nat → List α) {c n : Nat} (hc : c < n) :
    ((List.range n).map f).flatten =
      ((List.range c).map f).flatten ++ (f c ++ ((List.range' (c + 1) (n - (c + 1))).map f).flatten) := by
  have hsplit : List.range n = List.range c ++ c :: List.range' (c + 1) (n - (c + 1)) := by
    rw [List.range_eq_range', List.range_eq_range', ← List.range'_succ, show n - (c + 1) + 1 = n - c by omega]
    simpa [Nat.add_sub_cancel' hc.le] using (List.range'_append_1 (s := 0) (m := c) (n := n - c)).symm
  rw [hsplit, List.map_append, List.map_cons, List.flatten_append, List.flatten_cons]

/-- A block of a set reads back where no later set meets the set: its blocks lie 128 bytes apart. -/
theorem coefSetStores_readBack {s : State} {q : Nat → Nat → List Int} (hq : ∀ c b, encodeBlock s c b = .ok (q c b))
    (hlen : ∀ c b, (q c b).length = 64) {c b : Nat} (hc : c < 3)
    (hmeets : ∀ c', c < c' → c' < 3 →
      Region.meets ⟨s.coefBase c, 2, s.coefSetSize⟩ ⟨s.coefBase c', 2, s.coefSetSize⟩ = false)
    (hb : b < ceil8 s.imgW * ceil8 s.imgH) :
    (stArray i16Bytes (s.coefBase c + b * 128) (q c b)).ReadBack
      (commit s (.ofWrites ((List.range 3).map (coefSetStores s q)).flatten)) := by
  have hst (a b : Nat) : (stArray i16Bytes a (q c b)).addr = a ∧ (stArray i16Bytes a (q c b)).bytes.length = 128 :=
    ⟨rfl, by rw [stArray_length i16Bytes_length, hlen]⟩
  have hread := storeEach_readBack hst (Nat.le_refl 128) (s := s)
    (stg := .ofWrites ((List.range 3).map (coefSetStores s q)).flatten)
    (flatten_map_range_split (coefSetStores s q) hc) (by rwa [List.length_range]) (j := b) fun k hk => ?clear
  case clear =>
    refine Bool.eq_false_iff.2 fun hstored => ?_
    obtain ⟨r, hr, hlater⟩ := contains_of_storesTo
      (rs := (List.range' (c + 1) (3 - (c + 1))).map fun c' => ⟨s.coefBase c', 2, s.coefSetSize⟩) (fun w hw => by
        obtain ⟨_, hset, hw⟩ := List.mem_flatten.1 hw
        obtain ⟨c', hc', rfl⟩ := List.mem_map.1 hset
        exact ⟨_, List.mem_map_of_mem hc', encodeChannel_covered (encodeChannel_eq (hq c')) w hw⟩) hstored
    obtain ⟨c', hc', rfl⟩ := List.mem_map.1 hr
    rw [List.mem_range'_1] at hc'
    have hout := (Region.contains_eq_false _ _).1
      (Region.contains_eq_false_of_meets (hmeets c' (by omega) (by omega)) hlater)
    simp only [State.coefSetSize] at hout
    omega
  rwa [List.getElem_range] at hread

/-- Settles O28: no block raises an error, and no later set writes into a set it does not meet. -/
theorem encodeWritesEveryCoefficient : Obligations.EncodeWritesEveryCoefficient := by
  intro s hc
  choose d hfdct hlen hfits hencode using encodeBlock_ok s
  obtain ⟨hexec, honly, hkept⟩ := exec_of_writes (i := .encode) (runEncode_eq hc hencode)
  refine ⟨_, hexec, honly, hkept, fun c hc3 hmeets b hb => ⟨d c b, hfdct c b, fun k hk => ?_⟩⟩
  have hk : k < (d c b).length := by rwa [hlen]
  have hget := List.getElem?_eq_getElem hk
  have hread := coefSetStores_readBack hencode (fun c b => by rw [List.length_map, hlen]) hc3 hmeets hb
  refine ⟨_, hget, ?_⟩
  rw [Nat.mul_comm 128 b]
  exact hread.ldI16 (by rw [List.getElem?_map, hget]; rfl) (hfits c b _ (List.getElem_mem _))

end Sys2Proof.Machine

/-! ## The progressive decoder (spec/44_progressive_decoder.md R300 to R321) -/

namespace Sys2Proof.Machine

/-! ### What a mode keeps of a coefficient -/

theorem maskMag_eq (k m : Nat) : bitmask.maskMag k m = m / 2 ^ (m.log2 - k) * 2 ^ (m.log2 - k) := by
  rw [bitmask.maskMag, topBit_eq_log2, Nat.shiftLeft_eq, Nat.shiftRight_eq_div_pow]

/-- `bitmask` works on the magnitude and puts the sign back (R312). -/
theorem bitmask_eq_sign_mul (c : Int) (k : Nat) : bitmask c k = c.sign * (bitmask.maskMag k c.natAbs : Nat) := by
  unfold bitmask
  rcases lt_trichotomy c 0 with hneg | rfl | hpos
  · rw [if_neg hneg.ne, if_pos hneg, Int.sign_eq_neg_one_of_neg hneg, Int.neg_one_mul]
    rfl
  · rw [if_pos rfl, Int.sign_zero, Int.zero_mul]
  · rw [if_neg hpos.ne', if_neg hpos.le.not_gt, Int.sign_eq_one_of_pos hpos, Int.one_mul]
    rfl

/-- Where the highest set bit is at most bit k, nothing is cleared. -/
theorem bitmask_eq_self {c : Int} {k : Nat} (h : c.natAbs < 2 ^ (k + 1)) : bitmask c k = c := by
  have hlow : c.natAbs.log2 - k = 0 := by
    rcases Nat.eq_zero_or_pos c.natAbs with h0 | hpos
    · rw [h0, Nat.log2_zero, Nat.zero_sub]
    · have := (Nat.log2_lt hpos.ne').2 h
      omega
  rw [bitmask_eq_sign_mul, maskMag_eq, hlow, Nat.pow_zero, Nat.div_one, Nat.mul_one, Int.sign_mul_natAbs]

theorem natAbs_keepCoef_le (m : Mode) (k idx : Nat) (c : Int) : (keepCoef m k idx c).natAbs ≤ c.natAbs := by
  cases m with
  | baseline => exact Nat.le_refl _
  | spectral =>
    simp only [keepCoef]
    split
    · exact Nat.le_refl _
    · exact Nat.zero_le _
  | successive =>
    have hmask := Nat.div_mul_le_self c.natAbs (2 ^ (c.natAbs.log2 - k))
    have hsign : c.sign.natAbs ≤ 1 := by
      rw [Int.natAbs_sign]
      split <;> decide
    rw [keepCoef, bitmask_eq_sign_mul, maskMag_eq, Int.natAbs_mul, Int.natAbs_natCast]
    exact (Nat.mul_le_mul hsign hmask).trans_eq (Nat.one_mul _)

/-- A block's coefficients are kept one by one, each at its own index. -/
theorem keepFrom_eq_mapIdx (m : Mode) (k idx : Nat) (q : List Int) :
    keepFrom m k idx q = q.mapIdx fun i c => keepCoef m k (idx + i) c := by
  induction q generalizing idx with
  | nil => rfl
  | cons c q ih =>
    rw [keepFrom, ih, List.mapIdx_cons]
    simp only [Nat.add_assoc, Nat.add_comm 1, Nat.add_zero]

theorem keepFrom_eq_self {m : Mode} {k : Nat} {q : List Int} (h : ∀ i < q.length, ∀ c ∈ q, keepCoef m k i c = c) :
    keepFrom m k 0 q = q := by
  rw [keepFrom_eq_mapIdx]
  refine List.ext_getElem List.length_mapIdx fun i _ hi => ?_
  rw [List.getElem_mapIdx, Nat.zero_add, h i hi _ (List.getElem_mem hi)]

/-- Settles O37: a coefficient has at most 16 magnitude bits, so no bit of it lies below those the last step keeps. -/
theorem bitmaskKeepsTopBits : Obligations.BitmaskKeepsTopBits := by
  have whole {c : Int} (hlow : -32768 ≤ c) (hhigh : c ≤ 32767) : bitmask c 15 = c := bitmask_eq_self (by omega)
  refine ⟨fun c k hlow hhigh _ => ⟨?_, whole hlow hhigh⟩, fun _ _ _ => ⟨rfl, rfl, rfl⟩,
    fun q k hlen hq => ⟨?_, ?_, ?_⟩⟩
  · rw [bitmask_eq_sign_mul, maskMag_eq]
  · exact keepFrom_eq_self fun i hi _ _ => if_pos (by omega)
  · exact keepFrom_eq_self fun _ _ c hc => whole (hq c hc).1 (hq c hc).2
  · exact keepFrom_eq_self fun _ _ _ _ => rfl

/-! ### `PD_INIT`, `PD_RESET` and an exhausted `PD_STEP` -/

theorem runPdInit_eq {s : State} {m : Mode} (hc : checksPass .pdInit s = true) (hm : modeOfBits s.opr.pdcfgMode = some m) :
    runPdInit s = .ok { writes := [], aq := none, pd := some (initialContext s m, (initialContext s m).stepsRemain) } := by
  simp only [checksPass, commandChecks, List.all_append, Bool.and_eq_true] at hc
  obtain ⟨hown, hmem⟩ := hc
  simp only [List.all_cons, Bool.and_eq_true, Bool.not_eq_true'] at hown
  obtain ⟨hlevel, -⟩ := hown
  simp only [runPdInit, hlevel, hm, regionChecks_of_memoryChecks hmem]
  rfl

theorem initialContext_stepsRemain (s : State) (m : Mode) :
    (initialContext s m).stepsRemain = decide (0 < totalSteps m s.imgW s.imgH) := by
  have hlt := totalSteps_lt m (imgW_lt s) (imgH_lt s)
  rw [PdContext.stepsRemain, initialContext, BitVec.toNat_ofNat, Nat.mod_eq_of_lt hlt]
  rfl

/-- Settles O29: every check passes, and the total fits the 32 bits it is latched in. -/
theorem pdInitLatchesTheContext : Obligations.PdInitLatchesTheContext := by
  rintro s m _ hc hm rfl
  have hmode : modeOfBits s.opr.pdcfgMode = some m := by
    simp only [List.mem_cons, Prod.mk.injEq, List.not_mem_nil, or_false] at hm
    rcases hm with ⟨rfl, hbits⟩ | ⟨rfl, hbits⟩ | ⟨rfl, hbits⟩ <;> rw [hbits] <;> rfl
  rw [exec_eq_finish, resultOf, runPdInit_eq hc hmode, finish_ok, initialContext_stepsRemain]
  cases m <;> rfl

/-- Settles O30: the exhausted step stages the context as it is and `MORE` 0, before it looks at `DST`. -/
theorem exhaustedPdStepIsANoOp : Obligations.ExhaustedPdStepIsANoOp := by
  intro s hvalid hstep
  have hex : s.pd.exhausted = true := by rw [PdContext.exhausted, hstep, beq_self_eq_true]
  have hrun : runPdStep s = .ok { writes := [], aq := none, pd := some (s.pd, false) } := by
    simp only [runPdStep, hvalid, hex]
    rfl
  rw [exec_eq_finish, resultOf, hrun, finish_ok]
  rfl

/-- Settles O32: the one check is for a context. -/
theorem pdResetRewinds : Obligations.PdResetRewinds := by
  intro s
  constructor
  · intro hvalid
    rw [exec_eq_finish, resultOf, runPdReset, hvalid]
    rfl
  · intro hvalid
    rw [exec_eq_finish, resultOf, runPdReset, hvalid]
    rfl

/-! ### `PD_STEP`: the decode of a block -/

/-- What a step keeps of block b of channel c, dequantized (R316). -/
def keptBlock (s : State) (c b : Nat) : List F64 :=
  (List.range 64).map fun idx => dequantize s.pd.n.toNat
    (keepCoef s.pd.mode s.pd.step.toNat idx (s.ldI16 (s.pd.coefBase c + 128 * b + 2 * idx)))

theorem map_keepFrom_loadCoefs (s : State) (c b : Nat) :
    (keepFrom s.pd.mode s.pd.step.toNat 0 (loadCoefs s (s.pd.coefBase c + 128 * b))).map (dequantize s.pd.n.toNat) =
      keptBlock s c b := by
  rw [keepFrom_eq_mapIdx, loadCoefs, keptBlock]
  refine List.ext_getElem (by simp) fun i hi _ => ?_
  simp

theorem natAbs_ldI16_le (s : State) (a : Nat) : (s.ldI16 a).natAbs ≤ 2 ^ 15 := by
  have hlow := BitVec.le_toInt (BitVec.ofNat 16 (s.memRead a 2))
  have hhigh := BitVec.toInt_lt (x := BitVec.ofNat 16 (s.memRead a 2))
  rw [State.ldI16]
  omega

/-- What a step keeps of a coefficient is at most 2^15 in magnitude, and at most 2^30 dequantized (R263). -/
theorem keptBlock_within (s : State) (c b : Nat) : ∀ v ∈ keptBlock s c b, Within (2 ^ (1103 + 1)) v := by
  intro v hv
  obtain ⟨idx, -, rfl⟩ := List.mem_map.1 hv
  have hn : 2 ^ s.pd.n.toNat ≤ 2 ^ 15 := Nat.pow_le_pow_right Nat.two_pos (Nat.le_of_lt_succ s.pd.n.isLt)
  have hc := (natAbs_keepCoef_le s.pd.mode s.pd.step.toNat idx _).trans
    (natAbs_ldI16_le s (s.pd.coefBase c + 128 * b + 2 * idx))
  have hexp : 2 ^ (1103 + 1) = 2 ^ 15 * 2 ^ 15 * 2 ^ 1074 := by rw [← Nat.pow_add, ← Nat.pow_add]
  rw [dequantize, hexp]
  refine fOfInt_within ?_ (by decide)
  rw [Int.natAbs_mul, Nat.one_shiftLeft, Int.ofNat_eq_natCast, Int.natAbs_natCast]
  exact Nat.mul_le_mul hc hn

/-- The inverse transform of a kept block raises no error. -/
theorem idct_keptBlock (s : State) (c b : Nat) :
    ∃ f, idct (keptBlock s c b) = .ok f ∧ f.length = 64 ∧ ∀ k < 64, fFinite (f.getD k 0) = true := by
  obtain ⟨f, hf, hlen, hwithin⟩ := idct_bound 1103 _ (by omega) (by omega) (keptBlock_within s c b)
  refine ⟨f, hf, hlen, fun k hk => ?_⟩
  have hk : k < f.length := hlen ▸ hk
  rw [List.getD_eq_getElem _ _ hk]
  exact (hwithin _ (List.getElem_mem hk)).1

/-! ### `PD_STEP`: the bytes of the image -/

/-- The block that pixel (x, y) of the decoder's image lies in (R316). -/
def blockOfPixel (p : PdContext) (x y : Nat) : Nat := y / 8 * p.blocksX + x / 8

/-- Byte c of pixel (x, y) as it is staged, `f` being the decode of its block in channel c (R316). -/
def renderedStore (s : State) (f : List F64) (c x y : Nat) : Store :=
  stU8 (planeAddr s.dst 3 s.pd.w.toNat x y + c) (toByte (fAdd (f.getD (8 * (y % 8) + x % 8) 0) (fOfNat 128)))

/-- The staged writes `ws` are the bytes of the pixels of the blocks `bs`, `f` giving the decode of each block. -/
def Renders (s : State) (f : Nat → Nat → List F64) (bs : List Nat) (ws : List Store) : Prop :=
  ∀ v, v ∈ ws ↔ ∃ b ∈ bs, ∃ c ∈ [0, 1, 2], ∃ x < s.pd.w.toNat, ∃ y < s.pd.h.toNat,
    blockOfPixel s.pd x y = b ∧ v = renderedStore s (f c b) c x y

/-- Passes whose results each hold the items that satisfy a condition, flattened. -/
theorem mapE_flatten_ok {α β : Type} {f : α → Except ErrCode (List β)} {as : List α} {P : α → β → Prop}
    (h : ∀ a ∈ as, ∃ ws, f a = .ok ws ∧ ∀ v, v ∈ ws ↔ P a v) :
    ∃ wss, mapE f as = .ok wss ∧ ∀ v, v ∈ wss.flatten ↔ ∃ a ∈ as, P a v := by
  induction as with
  | nil => exact ⟨[], rfl, by simp⟩
  | cons a as ih =>
    obtain ⟨ws, hws, hv⟩ := h a List.mem_cons_self
    obtain ⟨wss, hwss, hvs⟩ := ih fun a ha => h a (List.mem_cons_of_mem _ ha)
    refine ⟨ws :: wss, by rw [mapE, hws, hwss]; rfl, fun v => ?_⟩
    simp [hv, hvs]

/-- The places of block b that lie in the image are the pixels of the image in block b. -/
theorem exists_inImage_iff (p : PdContext) (b : Nat) (Q : Nat → Nat → Nat → Prop) :
    (∃ k < 64, InImage p.w.toNat p.h.toNat (b % p.blocksX) (b / p.blocksX) k ∧
        Q k (8 * (b % p.blocksX) + k % 8) (8 * (b / p.blocksX) + k / 8)) ↔
      ∃ x < p.w.toNat, ∃ y < p.h.toNat, blockOfPixel p x y = b ∧ Q (8 * (y % 8) + x % 8) x y := by
  constructor
  · rintro ⟨k, hk, ⟨hx, hy⟩, hQ⟩
    refine ⟨_, hx, _, hy, ?_, ?_⟩
    · rw [blockOfPixel, show (8 * (b % p.blocksX) + k % 8) / 8 = b % p.blocksX by omega,
        show (8 * (b / p.blocksX) + k / 8) / 8 = b / p.blocksX by omega, Nat.div_add_mod']
    · rwa [show 8 * ((8 * (b / p.blocksX) + k / 8) % 8) + (8 * (b % p.blocksX) + k % 8) % 8 = k by omega]
  · rintro ⟨x, hx, y, hy, rfl, hQ⟩
    have hcol : x / 8 < p.blocksX := by
      rw [PdContext.blocksX, ceil8]
      omega
    have hmod : blockOfPixel p x y % p.blocksX = x / 8 := by
      rw [blockOfPixel, Nat.mul_add_mod', Nat.mod_eq_of_lt hcol]
    have hdiv : blockOfPixel p x y / p.blocksX = y / 8 := by
      rw [blockOfPixel, Nat.mul_comm, Nat.mul_add_div (Nat.zero_lt_of_lt hcol), Nat.div_eq_of_lt hcol, Nat.add_zero]
    have hxk : 8 * (x / 8) + (8 * (y % 8) + x % 8) % 8 = x := by omega
    have hyk : 8 * (y / 8) + (8 * (y % 8) + x % 8) / 8 = y := by omega
    refine ⟨8 * (y % 8) + x % 8, by omega, ?_, ?_⟩
    · rw [InImage, hmod, hdiv, hxk, hyk]
      exact ⟨hx, hy⟩
    · rwa [hmod, hdiv, hxk, hyk]

/-- A finite decode of a block goes into the image whole. -/
theorem renderChannel_ok {s : State} {b c : Nat} {f : List F64} (hf : idct (keptBlock s c b) = .ok f)
    (hfin : ∀ k < 64, fFinite (f.getD k 0) = true) :
    ∃ ws, renderChannel s b c = .ok ws ∧ ∀ v, v ∈ ws ↔ ∃ x < s.pd.w.toNat, ∃ y < s.pd.h.toNat,
      blockOfPixel s.pd x y = b ∧ v = renderedStore s f c x y := by
  obtain ⟨ws, hws, hmem⟩ := insertBlock_ok (fun x y => planeAddr s.dst 3 s.pd.w.toNat x y + c) s.pd.w.toNat s.pd.h.toNat
    (b % s.pd.blocksX) (b / s.pd.blocksX) hfin
  refine ⟨ws, ?_, fun v => (hmem v).trans ?_⟩
  · rw [renderChannel, map_keepFrom_loadCoefs, hf, ok_bind, hws]
  · exact exists_inImage_iff s.pd b fun k x y => v = stU8 (planeAddr s.dst 3 s.pd.w.toNat x y + c)
      (toByte (fAdd (f.getD k 0) (fOfNat 128)))

/-- No block raises an error. -/
theorem mapE_renderBlock_ok {s : State} {f : Nat → Nat → List F64} (hf : ∀ c b, idct (keptBlock s c b) = .ok (f c b))
    (hfin : ∀ c b, ∀ k < 64, fFinite ((f c b).getD k 0) = true) (bs : List Nat) :
    ∃ wss, mapE (renderBlock s) bs = .ok wss ∧ Renders s f bs wss.flatten := by
  refine mapE_flatten_ok fun b _ => ?_
  obtain ⟨wss, hwss, hmem⟩ := mapE_flatten_ok (as := [0, 1, 2]) fun c _ => renderChannel_ok (hf c b) (hfin c b)
  exact ⟨wss.flatten, by rw [renderBlock, hwss]; rfl, hmem⟩

/-- The bytes of the image have addresses of their own. -/
theorem pixelByteAddr_inj {base w c c' x x' y y' : Nat} (hc : c < 3) (hc' : c' < 3) (hx : x < w) (hx' : x' < w)
    (h : planeAddr base 3 w x y + c = planeAddr base 3 w x' y' + c') : c = c' ∧ x = x' ∧ y = y' := by
  have hcc : c = c' := by
    simp only [planeAddr] at h
    omega
  subst hcc
  exact ⟨rfl, planeAddr_inj (by decide) hx hx' (Nat.add_right_cancel h)⟩

theorem blockOfPixel_mem_blocksRendered {p : PdContext} {x y : Nat} (hx : x < p.w.toNat) (hy : y < p.h.toNat) :
    blockOfPixel p x y ∈ blocksRendered p ↔ p.mode ≠ .baseline ∨ blockOfPixel p x y = p.step.toNat := by
  have hblocks : blockOfPixel p x y < p.blocks := by
    refine pixelIndex_lt ?_ ?_ <;> simp only [PdContext.blocksX, ceil8] <;> omega
  cases hm : p.mode with
  | baseline => simp [blocksRendered, hm]
  | spectral => simp [blocksRendered, hm, hblocks]
  | successive => simp [blocksRendered, hm, hblocks]

section
variable {s : State} {f : Nat → Nat → List F64} {bs : List Nat} {ws : List Store} {c x y : Nat}

/-- A byte of a rendered block holds its decode, whatever LMEM was before. -/
theorem Renders.lookup_applyStores (h : Renders s f bs ws) (hc : c < 3) (hx : x < s.pd.w.toNat) (hy : y < s.pd.h.toNat)
    (hb : blockOfPixel s.pd x y ∈ bs) (m : List Host.Cell) :
    lookup (applyStores m ws) (planeAddr s.dst 3 s.pd.w.toNat x y + c) =
      some (toByte (fAdd ((f c (blockOfPixel s.pd x y)).getD (8 * (y % 8) + x % 8) 0) (fOfNat 128))) := by
  refine lookup_applyStores_of_agrees m (fun v hv => ?_) ?_
  · obtain ⟨_, -, c', hc', x', hx', y', -, rfl, rfl⟩ := (h v).1 hv
    refine stU8_agrees fun haddr => ?_
    obtain ⟨rfl, rfl, rfl⟩ := pixelByteAddr_inj (List.mem_range.1 hc' : c' < 3) hc hx' hx haddr
    rfl
  · refine List.any_eq_true.2 ⟨_, (h _).2 ⟨_, hb, c, List.mem_range.2 hc, x, hx, y, hy, rfl, rfl⟩, ?_⟩
    simp [renderedStore, stU8]

/-- A byte of a block that is not rendered is not written. -/
theorem Renders.storesTo_eq_false (h : Renders s f bs ws) (hc : c < 3) (hx : x < s.pd.w.toNat)
    (hb : blockOfPixel s.pd x y ∉ bs) : storesTo ws (planeAddr s.dst 3 s.pd.w.toNat x y + c) = false := by
  refine Bool.eq_false_iff.2 fun hstored => hb ?_
  simp only [storesTo, List.any_eq_true, Bool.and_eq_true, decide_eq_true_eq] at hstored
  obtain ⟨v, hv, hlow, hhigh⟩ := hstored
  obtain ⟨_, hmem, c', hc', x', hx', y', -, rfl, rfl⟩ := (h v).1 hv
  have haddr := Nat.le_antisymm hlow (Nat.le_of_lt_succ hhigh)
  obtain ⟨-, rfl, rfl⟩ := pixelByteAddr_inj (List.mem_range.1 hc' : c' < 3) hc hx' hx haddr
  exact hmem

end

/-! ### `PD_STEP`: the whole step -/

/-- A byte of the image that the blocks do not write is 0 at step 0, and else as before (R317). -/
theorem commit_ldByte_of_not_rendered {s : State} {stg : Staged} {ws : List Store} {c x y : Nat}
    (hstg : stg.writes = zeroOutput s ++ ws) (hc : c < 3) (hx : x < s.pd.w.toNat) (hy : y < s.pd.h.toNat)
    (h : storesTo ws (planeAddr s.dst 3 s.pd.w.toNat x y + c) = false) :
    (commit s stg).ldByte (planeAddr s.dst 3 s.pd.w.toNat x y + c) =
      if s.pd.step = 0 then 0 else s.ldByte (planeAddr s.dst 3 s.pd.w.toNat x y + c) := by
  split
  · rename_i hstep
    have hin : 3 * (y * s.pd.w.toNat + x) + c < (List.replicate s.pd.outputSize (0 : Byte)).length := by
      have := pixelIndex_lt hx hy
      rw [List.length_replicate, PdContext.outputSize]
      omega
    refine commit_ldByte_of_lookup ?_
    rw [hstg, applyStores_append, lookup_applyStores_outside _ _ _ h, zeroOutput, if_pos hstep, planeAddr, Nat.add_assoc]
    exact (lookup_writeRun_inside _ _ _ _ hin).trans (by rw [List.getElem_replicate])
  · rename_i hstep
    refine commit_ldByte_of_not_stored ?_
    rw [hstg, zeroOutput, if_neg hstep, List.nil_append, h]

theorem size_of_mem_coefRegions {p : PdContext} {q : Region} (hq : q ∈ p.coefRegions) : q.size = 128 * p.blocks := by
  simp only [PdContext.coefRegions, List.mem_cons, List.not_mem_nil, or_false] at hq
  rcases hq with rfl | rfl | rfl <;> rfl

/-- The checks of a `PD_STEP` with a step left, as its meaning makes them (R310). -/
theorem pdStepChecks_of_checksPass {s : State} (hc : checksPass .pdStep s = true) (hvalid : s.pd.valid = true)
    (hex : s.pd.exhausted = false) :
    Region.inRange ⟨s.dst, 1, s.pd.outputSize⟩ s.lmemBytes = true ∧ outputOverlaps s = false := by
  have hstep : ¬s.pd.step = s.pd.total := beq_eq_false_iff_ne.1 hex
  obtain ⟨hrange, hclear⟩ : (s.pd.outputSize = 0 ∨ s.dst + s.pd.outputSize ≤ s.lmemBytes) ∧
      ∀ q ∈ s.pd.coefRegions, ¬s.pd.outputSize = 0 → ¬q.size = 0 → s.dst < q.base + q.size →
        s.dst + s.pd.outputSize ≤ q.base := by
    simpa [checksPass, commandChecks, tableInputs_eq, tableOutputs_eq, inputRegions, outputRegions, State.lmemBytes,
      hvalid, hstep, hex] using hc
  refine ⟨by simpa [Region.inRange] using hrange, Bool.eq_false_iff.2 fun hoverlap => ?_⟩
  simp only [outputOverlaps, Bool.and_eq_true, decide_eq_true_eq, List.any_eq_true, Region.meets] at hoverlap
  obtain ⟨⟨houtput, hblocks⟩, q, hq, hlow, hhigh⟩ := hoverlap
  have := size_of_mem_coefRegions hq
  have := hclear q hq (by omega) (by omega) hlow
  omega

/-- What a step that renders stages (R311). -/
def renderedStep (s : State) (wss : List (List Store)) : Staged :=
  { writes := zeroOutput s ++ wss.flatten, aq := none, pd := some (s.pd.advance, s.pd.advance.stepsRemain) }

theorem runPdStep_eq {s : State} {wss : List (List Store)} (hc : checksPass .pdStep s = true) (hvalid : s.pd.valid = true)
    (hex : s.pd.exhausted = false) (hwss : mapE (renderBlock s) (blocksRendered s.pd) = .ok wss) :
    runPdStep s = .ok (renderedStep s wss) := by
  obtain ⟨hrange, hoverlap⟩ := pdStepChecks_of_checksPass hc hvalid hex
  simp only [runPdStep, hvalid, hex, hrange, hoverlap, hwss]
  rfl

/-- Settles O31: no block raises an error, each byte of the image belongs to one pixel of one block, and the zeroing comes
before the blocks. -/
theorem pdStepRendersTheFrame : Obligations.PdStepRendersTheFrame := by
  intro s hc hvalid hstep
  choose f hidct hlen hfin using idct_keptBlock s
  obtain ⟨wss, hwss, hrenders⟩ := mapE_renderBlock_ok hidct hfin (blocksRendered s.pd)
  have hexec : exec .pdStep s = .next (succeeded (commit s (renderedStep s wss))) := by
    rw [exec_eq_finish, resultOf, runPdStep_eq hc hvalid (beq_eq_false_iff_ne.2 hstep) hwss, finish_ok]
  refine ⟨_, hexec, rfl, commandWritesOnlyItsOutputRegions .pdStep s _ hexec, ?_⟩
  rintro c hc3 x hx y hy _ _ rfl rfl
  have hrendered := blockOfPixel_mem_blocksRendered hx hy
  split
  · rename_i hb
    have hk : 8 * (y % 8) + x % 8 < (f c (blockOfPixel s.pd x y)).length := by rw [hlen]; omega
    refine ⟨_, _, hidct c (blockOfPixel s.pd x y), List.getElem?_eq_getElem hk, commit_ldByte_of_lookup ?_⟩
    rw [← List.getD_eq_getElem _ 0 hk]
    refine .trans ?_ (hrenders.lookup_applyStores hc3 hx hy (hrendered.2 hb) (applyStores s.lmem (zeroOutput s)))
    rw [← applyStores_append]
    rfl
  · rename_i hb
    exact commit_ldByte_of_not_rendered rfl hc3 hx hy (hrenders.storesTo_eq_false hc3 hx (mt hrendered.1 hb))

end Sys2Proof.Machine

/-! ## The block's turn and its completion (spec/45_control.md R350 to R352) -/

namespace Sys2Proof.Machine

open Host (Outcome)

/-! ### The block's turn -/

/-- The block's turn with a legal word in flight is the command's meaning. -/
theorem perform_of_command {s : State} {i : Instr} (h : decode s.pending = .ok i) : perform s = exec i s := by
  rw [perform, h]

/-- With no event left, a step is the block's turn. -/
theorem step_of_agenda_nil {s : State} (h : s.agenda = []) : step s = blockTurn s := by rw [step, h]

/-- With the block's turn next, a step takes it off the agenda. -/
theorem step_of_agenda_perform {s : State} {rest : List Event} (h : s.agenda = .perform :: rest) :
    step s = blockTurn (s.setAgenda rest) := by rw [step, h]

/-- The three ways in which a busy block comes to its turn: no event is left, its turn is next, or a host's access to LMEM is
held. -/
theorem step_of_busy {s : State} (f : State → Outcome State Fault Refusal) (hbusy : s.status.busy = true)
    (hperform : ∀ ag, perform (s.setAgenda ag) = f (s.setAgenda ag)) :
    (s.agenda = [] → step s = f s) ∧ (∀ rest, s.agenda = .perform :: rest → step s = f (s.setAgenda rest)) ∧
      (∀ e rest, s.agenda = e :: rest → e.heldWhileBusy = true → step s = f s) := by
  refine ⟨fun hev => ?_, fun rest hev => ?_, fun e rest hev hheld => ?_⟩
  · exact (step_of_agenda_nil hev).trans ((blockTurn_busy s hbusy).trans (hperform s.agenda))
  · exact (step_of_agenda_perform hev).trans ((blockTurn_busy (s.setAgenda rest) hbusy).trans (hperform rest))
  · exact (step_held hbusy hev hheld).trans (hperform s.agenda)

/-- Settles O5: a busy block comes to `perform` in each of the three ways, which runs the command the word decodes to, or
completes with code 1; an idle block's turn passes. -/
theorem stepPerformsThePendingCommand : Obligations.StepPerformsThePendingCommand := by
  refine ⟨fun s i hbusy hcmd => ?_, fun s hbusy hnone => ?_, fun s hidle => ⟨fun hev => ?_, fun rest hev => ?_⟩⟩
  · exact step_of_busy (exec i) hbusy fun _ => perform_of_command hcmd
  · exact step_of_busy (fun t => .next (failed 1 t)) hbusy fun _ => perform_of_no_command (not_exists.2 hnone)
  · exact (step_of_agenda_nil hev).trans (blockTurn_idle s hidle)
  · exact (step_of_agenda_perform hev).trans (blockTurn_idle (s.setAgenda rest) hidle)

/-- An idle block accepts a `CMD` write: the word is pending, `BUSY` rises and `DONE` falls (R35). -/
theorem step_cmdWrite_of_idle {s : State} {w : Word} {rest : List Event} (hidle : s.status.busy = false)
    (hev : s.agenda = .csrWrite 0x0C 4 w :: rest) : step s = .next ((s.setAgenda rest).acceptCommand w) := by
  have haccept : writeCmd (s.setAgenda rest) w = (s.setAgenda rest).acceptCommand w := by simp [writeCmd, hidle]
  rw [step_hostEvent_of_idle hidle hev (by simp), ← haccept]
  rfl

/-- Settles O6: the accepted word is pending in a busy block, whose turn comes next. -/
theorem acceptThenPerform : Obligations.AcceptThenPerform := by
  intro s w i rest hidle hcmd hev
  refine ⟨_, step_cmdWrite_of_idle hidle hev, rfl, ?_⟩
  obtain ⟨hlegal, -⟩ := stepPerformsThePendingCommand
  obtain ⟨-, hturn, -⟩ := hlegal ((s.setAgenda (.perform :: rest)).acceptCommand w) i rfl hcmd
  exact hturn rest rfl

/-! ### The completion -/

/-- The code a command ends with, and what becomes of `ERR` (R352, R360, R364). -/
theorem finish_code (s : State) (r : Result) :
    (finish s r).status.errCode.toNat ≤ 13 ∧
      ((finish s r).status.errCode = 0 → (finish s r).status.err = s.status.err) ∧
      ((finish s r).status.errCode ≠ 0 → (finish s r).status.err = true) := by
  cases r with
  | ok st => exact ⟨Nat.zero_le _, fun _ => by simp, fun hcode => absurd rfl hcode⟩
  | error e => exact ⟨errorCode_toNat_le e, fun hcode => absurd hcode (errorCode_ne_zero e), fun _ => rfl⟩

/-- Settles O7: every command ends through `finish`, which keeps what no command may change. -/
theorem everyCommandCompletes : Obligations.EveryCommandCompletes := by
  intro i s
  obtain ⟨hbusy, hdone⟩ := finish_completes s (resultOf i s)
  exact ⟨_, exec_eq_finish i s, finish_kept s _, hbusy, hdone, finish_code s _⟩

/-- Settles O16: `NOP` stages nothing, and succeeds. -/
theorem nopOnlyCompletes : Obligations.NopOnlyCompletes := fun s => exec_eq_finish .nop s

end Sys2Proof.Machine

/-! ## A command reads its operands, the decoder context and its input regions alone (spec/45_control.md R355) -/

namespace Sys2Proof.Machine

/-! ### One state's operands over the rest of another -/

/-- `u` with the operand registers, the decoder context and the size of LMEM of `s`. -/
def State.operandsOver (s u : State) : State := { u with opr := s.opr, pd := s.pd, lmemExp := s.lmemExp }

/-- Where two states agree on all three, putting them over changes nothing. -/
theorem State.operandsOver_eq {s u : State} (hopr : s.opr = u.opr) (hpd : s.pd = u.pd) (hexp : s.lmemExp = u.lmemExp) :
    s.operandsOver u = u := by rw [State.operandsOver, hopr, hpd, hexp]

section

variable (s u : State)

@[simp] theorem State.operandsOver_opr : (s.operandsOver u).opr = s.opr := rfl
@[simp] theorem State.operandsOver_pd : (s.operandsOver u).pd = s.pd := rfl
@[simp] theorem State.operandsOver_src : (s.operandsOver u).src = s.src := rfl
@[simp] theorem State.operandsOver_dst : (s.operandsOver u).dst = s.dst := rfl
@[simp] theorem State.operandsOver_aux : (s.operandsOver u).aux = s.aux := rfl
@[simp] theorem State.operandsOver_coefBase : (s.operandsOver u).coefBase = s.coefBase := rfl
@[simp] theorem State.operandsOver_imgW : (s.operandsOver u).imgW = s.imgW := rfl
@[simp] theorem State.operandsOver_imgH : (s.operandsOver u).imgH = s.imgH := rfl
@[simp] theorem State.operandsOver_blkX : (s.operandsOver u).blkX = s.blkX := rfl
@[simp] theorem State.operandsOver_blkY : (s.operandsOver u).blkY = s.blkY := rfl
@[simp] theorem State.operandsOver_level : (s.operandsOver u).level = s.level := rfl
@[simp] theorem State.operandsOver_elements : (s.operandsOver u).elements = s.elements := rfl
@[simp] theorem State.operandsOver_srcStride : (s.operandsOver u).srcStride = s.srcStride := rfl
@[simp] theorem State.operandsOver_dstStride : (s.operandsOver u).dstStride = s.dstStride := rfl
@[simp] theorem State.operandsOver_depth : (s.operandsOver u).depth = s.depth := rfl
@[simp] theorem State.operandsOver_levels : (s.operandsOver u).levels = s.levels := rfl
@[simp] theorem State.operandsOver_lmemBytes : (s.operandsOver u).lmemBytes = s.lmemBytes := rfl
@[simp] theorem State.operandsOver_ldByte (a : Nat) : (s.operandsOver u).ldByte a = u.ldByte a := rfl

/-- The checks read no LMEM. -/
@[simp] theorem regionChecks_operandsOver (i : Instr) : regionChecks i (s.operandsOver u) = regionChecks i s := by
  cases i <;> rfl

@[simp] theorem aqChecks_operandsOver : aqChecks (s.operandsOver u) = aqChecks s := rfl
@[simp] theorem blockOutside_operandsOver : blockOutside (s.operandsOver u) = blockOutside s := rfl
@[simp] theorem outputOverlaps_operandsOver : outputOverlaps (s.operandsOver u) = outputOverlaps s := rfl
@[simp] theorem zeroOutput_operandsOver : zeroOutput (s.operandsOver u) = zeroOutput s := rfl
@[simp] theorem initialContext_operandsOver (m : Mode) : initialContext (s.operandsOver u) m = initialContext s m := rfl
@[simp] theorem aqStoreSamples_operandsOver (xs : List F64) :
    aqStoreSamples (s.operandsOver u) xs = aqStoreSamples s xs := rfl

end

/-! ### Reads inside a region -/

/-- Two states hold the same bytes in a region. -/
def SameBytes (s u : State) (base size : Nat) : Prop := ∀ a, base ≤ a → a < base + size → s.ldByte a = u.ldByte a

section

variable {s u : State} {base size a : Nat}

theorem SameBytes.ldByte (h : SameBytes s u base size) (hlow : base ≤ a) (hhigh : a < base + size) :
    u.ldByte a = s.ldByte a := (h a hlow hhigh).symm

theorem SameBytes.ldU8 (h : SameBytes s u base size) (hlow : base ≤ a) (hhigh : a < base + size) :
    (s.operandsOver u).ldU8 a = s.ldU8 a := congrArg BitVec.toNat (h.ldByte hlow hhigh)

theorem SameBytes.ldI16 (h : SameBytes s u base size) (hlow : base ≤ a) (hhigh : a + 2 ≤ base + size) :
    (s.operandsOver u).ldI16 a = s.ldI16 a := ldI16_congr _ _ a fun k _ => h.ldByte (by omega) (by omega)

theorem SameBytes.ldF64 (h : SameBytes s u base size) (hlow : base ≤ a) (hhigh : a + 8 ≤ base + size) :
    (s.operandsOver u).ldF64 a = s.ldF64 a := ldF64_congr _ _ a fun k _ => h.ldByte (by omega) (by omega)

/-- The block of 64 binary64 values at a base. -/
theorem SameBytes.loadBlock (h : SameBytes s u base 512) :
    loadBlock (s.operandsOver u) base = loadBlock s base := mapE_congr _ _ _ fun k hk => by
  have hk := List.mem_range.1 hk
  rw [h.ldF64 (by omega) (by omega)]

/-- The block of 64 coefficients at an address. -/
theorem SameBytes.loadCoefs (h : SameBytes s u base size) (hlow : base ≤ a) (hhigh : a + 128 ≤ base + size) :
    loadCoefs (s.operandsOver u) a = loadCoefs s a := List.map_congr_left fun k hk => by
  have hk := List.mem_range.1 hk
  rw [h.ldI16 (by omega) (by omega)]

end

/-- An extracted block reads pixels of the image alone (R265). -/
theorem extractBlock_congr {f g : Nat → Nat → Nat} {w h : Nat} (col row : Nat)
    (hfg : ∀ x < w, ∀ y < h, f x y = g x y) : extractBlock f w h col row = extractBlock g w h col row :=
  List.map_congr_left fun k _ => by
    unfold extractElem
    split
    · rename_i hin
      obtain ⟨hx, hy⟩ := hin
      rw [hfg _ hx _ hy]
    · rfl

/-! ### The commands -/

section

variable {s u : State}

theorem runCscFwd_congr (h : SameBytes s u s.src (3 * s.elements)) : runCscFwd (s.operandsOver u) = runCscFwd s := by
  have hpixel : ∀ p ∈ List.range s.elements, cscFwdPixel (s.operandsOver u) p = cscFwdPixel s p := fun p hp => by
    have hp := List.mem_range.1 hp
    simp (disch := omega) only [cscFwdPixel, State.operandsOver_src, State.operandsOver_dst, h.ldU8]
  simp [runCscFwd, mapE_congr _ _ _ hpixel]

theorem runCscInv_congr (h : SameBytes s u s.src (24 * s.elements)) : runCscInv (s.operandsOver u) = runCscInv s := by
  have hpixel : ∀ p ∈ List.range s.elements, cscInvPixel (s.operandsOver u) p = cscInvPixel s p := fun p hp => by
    have hp := List.mem_range.1 hp
    simp (disch := omega) only [cscInvPixel, State.operandsOver_src, State.operandsOver_dst, h.ldF64]
  simp [runCscInv, mapE_congr _ _ _ hpixel]

/-- A sample of `AQ`, in either format (R182). -/
theorem aqSample_congr (h : SameBytes s u s.src (stridedSize s.elements s.srcStride s.sampleSize)) {m : Nat}
    (hm : m < s.elements) : aqSample (s.operandsOver u) m = aqSample s m := by
  have hin := le_stridedSize (d := s.srcStride) (e := s.sampleSize) hm
  cases hfmt : s.opr.aqFmt with
  | true =>
    have hsize : s.sampleSize = 1 := by simp [State.sampleSize, hfmt]
    simp [aqSample, hfmt, h.ldU8 (Nat.le_add_right _ (m * s.srcStride)) (by omega)]
  | false =>
    have hsize : s.sampleSize = 8 := by simp [State.sampleSize, hfmt]
    simp [aqSample, hfmt, h.ldF64 (Nat.le_add_right _ (m * s.srcStride)) (by omega)]

/-- The bytes `AQ` passes through (R183). -/
theorem aqPassthrough_congr (h : SameBytes s u s.src (stridedSize s.elements s.srcStride s.sampleSize)) (xs : List F64) :
    aqPassthrough (s.operandsOver u) xs = aqPassthrough s xs := by
  have hsize : 1 ≤ s.sampleSize := by unfold State.sampleSize; split <;> omega
  have hbyte : ∀ m ∈ List.range s.elements, u.ldByte (s.src + m * s.srcStride) = s.ldByte (s.src + m * s.srcStride) :=
    fun m hm => by
      have hin := le_stridedSize (d := s.srcStride) (e := s.sampleSize) (List.mem_range.1 hm)
      exact h.ldByte (by omega) (by omega)
  simp [aqPassthrough, List.map_congr_left hbyte]

theorem runAq_congr (h : SameBytes s u s.src (stridedSize s.elements s.srcStride s.sampleSize)) :
    runAq (s.operandsOver u) = runAq s := by
  have hsample : ∀ m ∈ List.range s.elements, aqSample (s.operandsOver u) m = aqSample s m :=
    fun m hm => aqSample_congr h (List.mem_range.1 hm)
  simp [runAq, mapE_congr _ _ _ hsample, aqPassthrough_congr h]

theorem runFdct_congr (h : SameBytes s u s.src 512) : runFdct (s.operandsOver u) = runFdct s := by
  simp [runFdct, h.loadBlock]

theorem runIdct_congr (h : SameBytes s u s.src 512) : runIdct (s.operandsOver u) = runIdct s := by
  simp [runIdct, h.loadBlock]

theorem runQuant_congr (h : SameBytes s u s.src 512) : runQuant (s.operandsOver u) = runQuant s := by
  simp only [runQuant, State.operandsOver_src, regionChecks_operandsOver, h.loadBlock]
  rfl

theorem runDequant_congr (h : SameBytes s u s.src 128) : runDequant (s.operandsOver u) = runDequant s := by
  simp only [runDequant, State.operandsOver_src, regionChecks_operandsOver, h.loadCoefs (Nat.le_refl _) (Nat.le_refl _)]
  rfl

theorem runBlkExtract_congr (h : SameBytes s u s.src (stridedSize (s.imgW * s.imgH) s.srcStride 1)) :
    runBlkExtract (s.operandsOver u) = runBlkExtract s := by
  have hsample (x : Nat) (hx : x < s.imgW) (y : Nat) (hy : y < s.imgH) :
      (s.operandsOver u).ldU8 (s.src + s.srcStride * (y * s.imgW + x)) =
        s.ldU8 (s.src + s.srcStride * (y * s.imgW + x)) := by
    have hin := le_stridedSize (d := s.srcStride) (e := 1) (pixelIndex_lt hx hy)
    rw [Nat.mul_comm] at hin
    exact h.ldU8 (by omega) (by omega)
  simp [runBlkExtract, planeAddr, extractBlock_congr s.blkX s.blkY hsample]

theorem runBlkInsert_congr (h : SameBytes s u s.src 512) : runBlkInsert (s.operandsOver u) = runBlkInsert s := by
  simp [runBlkInsert, h.loadBlock]

/-- A block of a channel of the image (R280). -/
theorem encodeBlock_congr (h : SameBytes s u s.src (3 * (s.imgW * s.imgH))) {c : Nat} (hc : c < 3) :
    encodeBlock (s.operandsOver u) c = encodeBlock s c := funext fun b => by
  have hsample (x : Nat) (hx : x < s.imgW) (y : Nat) (hy : y < s.imgH) :
      (s.operandsOver u).ldU8 (s.src + 3 * (y * s.imgW + x) + c) = s.ldU8 (s.src + 3 * (y * s.imgW + x) + c) := by
    have hin := pixelIndex_lt hx hy
    exact h.ldU8 (by omega) (by omega)
  simp [encodeBlock, planeAddr, extractBlock_congr _ _ hsample]

theorem runEncode_congr (h : SameBytes s u s.src (3 * (s.imgW * s.imgH))) :
    runEncode (s.operandsOver u) = runEncode s := by
  have hchannel : ∀ c ∈ [0, 1, 2], encodeChannel (s.operandsOver u) c = encodeChannel s c := fun c hc => by
    simp [encodeChannel, encodeBlock_congr h (List.mem_range.1 hc)]
  simp only [runEncode, regionChecks_operandsOver, mapE_congr _ _ _ hchannel]
  rfl

theorem runPdInit_operandsOver : runPdInit (s.operandsOver u) = runPdInit s := rfl

/-- The blocks of a step lie in the latched coefficient sets: every block of the image does, and in BASELINE the step is no
greater than their number while a step is left. -/
theorem lt_blocks_of_rendered (hinv : s.DecoderInv) (hvalid : s.pd.valid = true) (hex : s.pd.exhausted = false) {b : Nat}
    (hb : b ∈ blocksRendered s.pd) : b < s.pd.blocks := by
  obtain ⟨-, htotal, hstep, -⟩ := hinv
  have htotal := htotal hvalid
  have hne : s.pd.step ≠ s.pd.total := beq_eq_false_iff_ne.1 hex
  unfold blocksRendered at hb
  split at hb
  · rename_i hmode
    rw [hmode] at htotal
    have hne : s.pd.step.toNat ≠ s.pd.total.toNat := fun h => hne (BitVec.eq_of_toNat_eq h)
    have htotal : s.pd.total.toNat = s.pd.blocks := htotal
    obtain rfl := List.mem_singleton.1 hb
    omega
  · exact List.mem_range.1 hb
  · exact List.mem_range.1 hb

/-- The coefficient set of each channel is one of the context's. -/
theorem coefBase_mem_coefRegions (p : PdContext) {c : Nat} (hc : c < 3) :
    ⟨p.coefBase c, 2, 128 * p.blocks⟩ ∈ p.coefRegions := by
  interval_cases c <;> simp [PdContext.coefRegions]

/-- Without a decoder context `PD_STEP` comes to `E_NOINIT` (R310). -/
theorem runPdStep_of_invalid {s : State} (h : s.pd.valid = false) : runPdStep s = .error .noInit := by
  rw [runPdStep, h, bind_error_iff]
  exact .inl rfl

/-- A block of the image is decoded from the latched coefficient sets (R316). -/
theorem renderBlock_congr (h : ∀ r ∈ s.pd.coefRegions, SameBytes s u r.base r.size) {b : Nat} (hb : b < s.pd.blocks) :
    renderBlock (s.operandsOver u) b = renderBlock s b := by
  have hchannel : ∀ c ∈ [0, 1, 2], renderChannel (s.operandsOver u) b c = renderChannel s b c := fun c hc => by
    have hset : SameBytes s u (s.pd.coefBase c) (128 * s.pd.blocks) :=
      h _ (coefBase_mem_coefRegions s.pd (List.mem_range.1 hc))
    simp [renderChannel, hset.loadCoefs (Nat.le_add_right _ (128 * b)) (by omega)]
  simp [renderBlock, mapE_congr _ _ _ hchannel]

theorem runPdStep_congr (hinv : s.DecoderInv)
    (h : s.pd.exhausted = false → ∀ r ∈ s.pd.coefRegions, SameBytes s u r.base r.size) :
    runPdStep (s.operandsOver u) = runPdStep s := by
  cases hvalid : s.pd.valid with
  | false => rw [runPdStep_of_invalid hvalid, runPdStep_of_invalid (s := s.operandsOver u) hvalid]
  | true =>
    cases hex : s.pd.exhausted with
    | true => simp [runPdStep, hex]
    | false =>
      have hblock : ∀ b ∈ blocksRendered s.pd, renderBlock (s.operandsOver u) b = renderBlock s b :=
        fun _ hb => renderBlock_congr (h hex) (lt_blocks_of_rendered hinv hvalid hex hb)
      simp [runPdStep, mapE_congr _ _ _ hblock]

theorem runPdReset_operandsOver : runPdReset (s.operandsOver u) = runPdReset s := rfl

/-- What a command comes to depends on its operands, the decoder context, the size of LMEM and its input regions alone. -/
theorem resultOf_congr (i : Instr) (hinv : s.DecoderInv) (h : ∀ r ∈ inputRegions i s, SameBytes s u r.base r.size) :
    resultOf i (s.operandsOver u) = resultOf i s := by
  cases i with
  | nop => rfl
  | cscFwd => exact runCscFwd_congr (h _ List.mem_cons_self)
  | cscInv => exact runCscInv_congr (h _ List.mem_cons_self)
  | aq => exact runAq_congr (h _ List.mem_cons_self)
  | fdct => exact runFdct_congr (h _ List.mem_cons_self)
  | idct => exact runIdct_congr (h _ List.mem_cons_self)
  | quant => exact runQuant_congr (h _ List.mem_cons_self)
  | dequant => exact runDequant_congr (h _ List.mem_cons_self)
  | blkExtract => exact runBlkExtract_congr (h _ List.mem_cons_self)
  | blkInsert => exact runBlkInsert_congr (h _ List.mem_cons_self)
  | encode => exact runEncode_congr (h _ List.mem_cons_self)
  | pdInit => exact runPdInit_operandsOver
  | pdStep => exact runPdStep_congr hinv fun hex => by simpa [inputRegions, hex] using h
  | pdReset => exact runPdReset_operandsOver

end

/-! ### The completion -/

/-- A successful `AQ` stages its report. -/
theorem report_of_runAq {s : State} {st : Staged} (h : runAq s = .ok st) : ∃ r, st.aq = some r := by
  obtain ⟨_, -, h⟩ := (bind_ok_iff _ _ _).1 h
  obtain ⟨xs, -, h⟩ := (bind_ok_iff _ _ _).1 h
  split at h
  · obtain rfl := (pure_ok_iff _ _).1 h
    exact ⟨_, rfl⟩
  · simp only [bind_ok_iff, pure_ok_iff] at h
    obtain ⟨r, -, rfl⟩ := h
    exact ⟨_, rfl⟩

/-- A successful decoder command stages the context and `MORE`. -/
theorem context_of_decoderCommand {i : Instr} {s : State} {st : Staged} (hi : i ∈ [Instr.pdInit, .pdStep, .pdReset])
    (h : resultOf i s = .ok st) : ∃ p, st.pd = some p := by
  simp only [List.mem_cons, List.not_mem_nil, or_false] at hi
  rcases hi with rfl | rfl | rfl
  · obtain ⟨m, -, -, rfl⟩ := runPdInit_ok h
    exact ⟨_, rfl⟩
  · obtain ⟨-, ⟨-, rfl⟩ | ⟨-, -, wss, -, rfl⟩⟩ := runPdStep_ok h
    · exact ⟨_, rfl⟩
    · exact ⟨_, rfl⟩
  · obtain ⟨-, rfl⟩ := runPdReset_ok h
    exact ⟨_, rfl⟩

/-- A byte that staged writes write holds after them a byte of theirs, whatever LMEM was before. -/
theorem exists_lookup_applyStores {ws : List Store} {a : Nat} (h : storesTo ws a = true) :
    ∃ b, ∀ m, lookup (applyStores m ws) a = some b := by
  induction ws with
  | nil => simp at h
  | cons w ws ih =>
    cases hlater : storesTo ws a with
    | true =>
      obtain ⟨b, hb⟩ := ih hlater
      exact ⟨b, fun m => hb _⟩
    | false =>
      have hin : w.addr ≤ a ∧ a < w.addr + w.bytes.length := by
        rw [storesTo] at hlater
        simpa [storesTo, hlater] using h
      obtain ⟨k, rfl⟩ := Nat.exists_eq_add_of_le hin.1
      have hk : k < w.bytes.length := by omega
      exact ⟨w.bytes[k], fun m => lookup_applyStores_last m [] w ws k hk hlater⟩

/-- After the same effects are committed to two states, a byte is equal in both or unchanged in both. -/
theorem commit_ldByte_both (s u : State) (st : Staged) (a : Nat) :
    (commit s st).ldByte a = (commit u st).ldByte a ∨
      ((commit s st).ldByte a = s.ldByte a ∧ (commit u st).ldByte a = u.ldByte a) := by
  cases hstored : storesTo st.writes a with
  | true =>
    obtain ⟨b, hb⟩ := exists_lookup_applyStores hstored
    exact .inl ((commit_ldByte_of_lookup (hb s.lmem)).trans (commit_ldByte_of_lookup (hb u.lmem)).symm)
  | false => exact .inr ⟨commit_ldByte_of_not_stored hstored, commit_ldByte_of_not_stored hstored⟩

/-- Settles O14: both states come to the same result (`resultOf_congr`), which alone is reported or committed. -/
theorem commandReadsOnlyItsInputRegions : Obligations.CommandReadsOnlyItsInputRegions := by
  intro i s u t v hopr hpd hexp hinv hbytes ht hv
  have hresult : resultOf i u = resultOf i s := by
    rw [← State.operandsOver_eq hopr hpd hexp]
    exact resultOf_congr i hinv (tableInputs_eq i s ▸ hbytes)
  rw [exec_next_iff] at ht hv
  rw [hresult] at hv
  cases hst : resultOf i s with
  | error e =>
    rw [hst] at ht hv
    subst ht hv
    have hcode : (finish s (.error e)).status.errCode ≠ 0 := errorCode_ne_zero e
    exact ⟨rfl, hpd, fun hok => absurd hok hcode, fun hok => absurd hok hcode, fun a => .inr ⟨rfl, rfl⟩⟩
  | ok st =>
    rw [hst] at ht hv
    subst ht hv
    refine ⟨rfl, ?_, fun _ hi => ?_, fun _ hi => ?_, fun a => commit_ldByte_both s u st a⟩
    · simp [hpd]
    · subst hi
      obtain ⟨r, hr⟩ := report_of_runAq hst
      simp [hr]
    · obtain ⟨p, hp⟩ := context_of_decoderCommand hi hst
      simp [hp]

end Sys2Proof.Machine

/-! ## The checks of a command, in ascending code order (spec/45_control.md R353, spec/60_exceptions.md R363) -/

namespace Sys2Proof.Machine

/-! ### The first check that fails -/

/-- A computation makes a list of checks in order: if one fails, it comes to the error of the first that does. -/
def RaisesFirst {α : Type} (x : Except ErrCode α) (cs : List (Nat × Bool)) : Prop :=
  ∀ c, cs.find? (·.2) = some c → ∃ e, x = .error e ∧ errorNumber e = c.1

namespace RaisesFirst

section

variable {α : Type} {cs : List (Nat × Bool)} {a b : Bool} {e : ErrCode}

theorem nil (x : Except ErrCode α) : RaisesFirst x [] := nofun

/-- A check that fails ends the computation with its error. -/
theorem error : RaisesFirst (.error e : Except ErrCode α) ((errorNumber e, true) :: cs) := by
  rintro _ ⟨⟩
  exact ⟨e, rfl, rfl⟩

/-- A check that passes raises nothing. -/
theorem skip {x : Except ErrCode α} {n : Nat} (h : RaisesFirst x cs) : RaisesFirst x ((n, false) :: cs) := h

theorem failIf_bind {f : Unit → Except ErrCode α} (hf : RaisesFirst (f ()) cs) :
    RaisesFirst (failIf b e >>= f) ((errorNumber e, b) :: cs) := by
  cases b with
  | true => exact error
  | false => exact skip hf

/-- Two conditions of one code, tested at once. -/
theorem failIf_or_bind {f : Unit → Except ErrCode α} (hf : RaisesFirst (f ()) cs) :
    RaisesFirst (failIf (a || b) e >>= f) ((errorNumber e, a) :: (errorNumber e, b) :: cs) := by
  cases a with
  | true => exact error
  | false => exact skip (failIf_bind hf)

/-- What follows does not undo an error. -/
theorem bind {β : Type} {x : Except ErrCode β} (hx : RaisesFirst x cs) (f : β → Except ErrCode α) :
    RaisesFirst (x >>= f) cs := fun c hc => by
  obtain ⟨e, he, hnumber⟩ := hx c hc
  exact ⟨e, (bind_error_iff x f e).2 (.inl he), hnumber⟩

end

/-- The machine makes the two memory checks of the table, `E_ALIGN` before `E_RANGE` (R87, R363). -/
theorem regionChecks (i : Instr) (s : State) : RaisesFirst (regionChecks i s) (memoryChecks i s) := by
  rw [memoryChecks_eq]
  refine failIf_bind (e := .align) ?_
  cases allInRange i s with
  | true => exact skip (nil _)
  | false => exact error

/-- The checks of `AQ` (R181). -/
theorem aqChecks (s : State) : RaisesFirst (aqChecks s) (commandChecks .aq s) := by
  have hbits : (s.depth == 0 || decide (8 < s.depth)) = !(decide (1 ≤ s.depth) && decide (s.depth ≤ 8)) := by
    rw [Bool.eq_iff_iff]
    simp
  rw [Machine.aqChecks, hbits]
  exact failIf_bind (e := .bits) (failIf_bind (e := .count) (failIf_or_bind (e := .stride) (regionChecks .aq s)))

end RaisesFirst

/-! ### The decoder commands -/

/-- Mode 3 alone is reserved (R302). -/
theorem modeOfBits_isNone (b : BitVec 2) : (modeOfBits b).isNone = (b == 3) := by
  revert b
  decide

theorem runPdInit_raisesFirst (s : State) : RaisesFirst (runPdInit s) (commandChecks .pdInit s) := by
  refine .failIf_bind (e := .qLevel) ?_
  have hmode := modeOfBits_isNone s.opr.pdcfgMode
  cases hm : modeOfBits s.opr.pdcfgMode with
  | none =>
    rw [← hmode, hm]
    exact .error (e := .mode)
  | some m =>
    rw [← hmode, hm]
    exact .skip (.bind (.regionChecks .pdInit s) _)

/-- The machine's overlap test is the table's (R310). -/
theorem outputOverlaps_eq (s : State) :
    (s.pd.coefRegions.any fun q => s.pd.outputSize != 0 && q.size != 0 && decide (s.dst < q.base + q.size) &&
      decide (q.base < s.dst + s.pd.outputSize)) = outputOverlaps s := by
  rw [Bool.eq_iff_iff]
  simp only [outputOverlaps, Region.meets, List.any_eq_true, Bool.and_eq_true, bne_iff_ne, decide_eq_true_eq]
  constructor
  · rintro ⟨q, hq, ⟨⟨houtput, hset⟩, hlow⟩, hhigh⟩
    have := size_of_mem_coefRegions hq
    exact ⟨⟨by omega, by omega⟩, q, hq, hlow, hhigh⟩
  · rintro ⟨⟨houtput, hblocks⟩, q, hq, hlow, hhigh⟩
    have := size_of_mem_coefRegions hq
    exact ⟨q, hq, ⟨⟨by omega, by omega⟩, hlow⟩, hhigh⟩

/-- The checks of a `PD_STEP` with a step left (R310). -/
theorem commandChecks_pdStep {s : State} (hvalid : s.pd.valid = true) (hex : s.pd.exhausted = false) :
    commandChecks .pdStep s =
      [(10, !Region.inRange ⟨s.dst, 1, s.pd.outputSize⟩ s.lmemBytes), (11, outputOverlaps s)] := by
  have hstep : (s.pd.step == s.pd.total) = false := hex
  have lt (a b : Nat) : decide (b < a) = !decide (a ≤ b) := by rw [← decide_not, decide_eq_decide, Nat.not_le]
  simp only [commandChecks, hvalid, hstep, hex, tableInputs_eq, tableOutputs_eq, inputRegions, outputRegions,
    ← outputOverlaps_eq, Region.inRange, State.lmemBytes, Bool.not_or, lt, bne, Bool.and_false, Bool.false_eq_true,
    if_true, if_false, List.any_cons, List.any_nil, Bool.or_false]
  rfl

theorem runPdStep_raisesFirst (s : State) : RaisesFirst (runPdStep s) (commandChecks .pdStep s) := by
  cases hvalid : s.pd.valid with
  | false =>
    have hchecks : commandChecks .pdStep s = [(8, true)] := by simp [commandChecks, hvalid]
    rw [runPdStep_of_invalid hvalid, hchecks]
    exact .error (e := .noInit)
  | true =>
    cases hex : s.pd.exhausted with
    | true =>
      have hchecks : commandChecks .pdStep s = [] := by
        have hstep : (s.pd.step == s.pd.total) = true := hex
        simp [commandChecks, hvalid, hstep]
      rw [hchecks]
      exact .nil _
    | false =>
      rw [commandChecks_pdStep hvalid hex]
      simp only [runPdStep, hvalid, hex]
      exact .failIf_bind (e := .range) (.failIf_bind (e := .overlap) (.nil _))

/-! ### Every command -/

/-- Every command makes the checks of its list in order. -/
theorem resultOf_raisesFirst (i : Instr) (s : State) : RaisesFirst (resultOf i s) (commandChecks i s) := by
  cases i with
  | nop => exact .nil _
  | cscFwd => exact .bind (.regionChecks _ s) _
  | cscInv => exact .bind (.regionChecks _ s) _
  | aq => exact .bind (.aqChecks s) _
  | fdct => exact .bind (.regionChecks _ s) _
  | idct => exact .bind (.regionChecks _ s) _
  | quant => exact .failIf_bind (e := .qLevel) (.bind (.regionChecks _ s) _)
  | dequant => exact .failIf_bind (e := .qLevel) (.bind (.regionChecks _ s) _)
  | blkExtract => exact .failIf_bind (e := .stride) (.failIf_bind (e := .block) (.bind (.regionChecks _ s) _))
  | blkInsert => exact .failIf_bind (e := .stride) (.failIf_bind (e := .block) (.bind (.regionChecks _ s) _))
  | encode => exact .failIf_bind (e := .qLevel) (.bind (.regionChecks _ s) _)
  | pdInit => exact runPdInit_raisesFirst s
  | pdStep => exact runPdStep_raisesFirst s
  | pdReset => exact .failIf_bind (e := .noInit) (.nil _)

/-- The list of each command is in ascending code order (R363). -/
theorem commandChecks_ascending (i : Instr) (s : State) : (commandChecks i s).Pairwise fun c d => c.1 ≤ d.1 := by
  cases i with
  | pdStep =>
    simp only [commandChecks]
    split
    · simp
    · split <;> simp
  | _ => simp [commandChecks, memoryChecks]

/-- In a list of checks in ascending code order the first that fails has the lowest code of those that fail. -/
theorem find_failed_le {cs : List (Nat × Bool)} (h : cs.Pairwise fun c d => c.1 ≤ d.1) {k : Nat × Bool}
    (hk : cs.find? (·.2) = some k) {c : Nat} (hc : (c, true) ∈ cs) : k.1 ≤ c := by
  obtain ⟨-, passed, rest, rfl, hpassed⟩ := List.find?_eq_some_iff_append.1 hk
  rcases List.mem_append.1 hc with hc | hc
  · exact absurd (hpassed _ hc) (by simp)
  · obtain ⟨-, hfrom, -⟩ := List.pairwise_append.1 h
    obtain ⟨hrest, -⟩ := List.pairwise_cons.1 hfrom
    rcases List.mem_cons.1 hc with rfl | hc
    · exact Nat.le_refl _
    · exact hrest _ hc

/-- Settles O9: the first check of the list that fails is the one raised, and its code is the lowest. -/
theorem lowestFailedCheckIsReported : Obligations.LowestFailedCheckIsReported := by
  intro i s c hc
  have hsome : ((commandChecks i s).find? (·.2)).isSome = true := List.find?_isSome.2 ⟨(c, true), hc, rfl⟩
  obtain ⟨⟨k, failed⟩, hk⟩ := Option.isSome_iff_exists.1 hsome
  obtain rfl : failed = true := List.find?_some (p := Prod.snd) hk
  obtain ⟨e, he, hnumber⟩ := resultOf_raisesFirst i s _ hk
  refine ⟨k, ?_, List.mem_of_find?_eq_some hk, fun c' hc' => find_failed_le (commandChecks_ascending i s) hk hc'⟩
  rw [exec_eq_finish, he, finish_error, hnumber]

end Sys2Proof.Machine

/-! ## Bounds on quotients, and bounds from below (spec/00_scope.md R12) -/

namespace Sys2Proof.Machine

/-- A rounding is no less than a representable magnitude that the exact quotient is no less than. -/
theorem le_roundMag {num den k m : Nat} (hd : 0 < den) (h : num = 0 ∨ den ≤ num) (hm : m ≤ infMag)
    (hle : magValue m * (den * 2 ^ 3022) ≤ num * 2 ^ k) : m ≤ roundMag num den k := by
  by_contra hlt
  have hr := Nat.lt_of_not_le hlt
  have hden : 0 < den * 2 ^ 3022 := Nat.mul_pos hd (Nat.two_pow_pos _)
  have hnear := (roundMag_nearest hd h (hr.trans_le hm) hden rfl m).1
  have hbelow := Nat.mul_lt_mul_of_pos_right (magValue_strictMono hr) hden
  rw [Int.abs_eq_natAbs, Int.abs_eq_natAbs] at hnear
  omega

/-! ### Quotients -/

theorem fSig_lt (x : F64) : fSig x < 2 ^ 53 := by
  have hfrac : fFrac x < 2 ^ 52 := by rw [fFrac_eq]; exact Nat.mod_lt _ (by decide)
  unfold fSig
  split <;> omega

theorem fPow_le (x : F64) : fPow x ≤ 2046 := by
  have hlt : fExp x < 2048 := Nat.mod_lt _ (by decide)
  rw [fPow]
  omega

/-- The rounded quotient that `fDiv` packs. -/
def fQuotient (x y : F64) : Nat := roundMag (fSig x <<< 128) (fSig y) (fPow x + 3968 - fPow y)

theorem fDiv_eq_fPack {x y : F64} (hx : fFinite x = true) (hy : fFinite y = true) (h0 : fSig y ≠ 0) :
    fDiv x y = fPack (fSign x != fSign y) (fQuotient x y) := by
  have hinf {z : F64} (hz : fFinite z = true) : fIsInf z = false := by
    rw [fFinite, bne_iff_ne] at hz
    simp [fIsInf, hz]
  simp [fDiv, fQuotient, fIsNaN_of_finite hx, fIsNaN_of_finite hy, hinf hx, hinf hy, h0]

/-- The quotient's magnitudes, scaled as `fDiv` scales them. -/
theorem fQuotient_scale (x y : F64) : (fSig x <<< 128) * 2 ^ (fPow x + 3968 - fPow y) * fMagnitude y =
    fMagnitude x * 2 ^ 1074 * (fSig y * 2 ^ 3022) := by
  have hy := fPow_le y
  have hpow : 2 ^ 128 * 2 ^ (fPow x + 3968 - fPow y) * 2 ^ fPow y = 2 ^ fPow x * 2 ^ 1074 * 2 ^ 3022 := by
    rw [← Nat.pow_add, ← Nat.pow_add, ← Nat.pow_add, ← Nat.pow_add]
    congr 1
    omega
  rw [fMagnitude, fMagnitude, Nat.shiftLeft_eq, Nat.shiftLeft_eq, Nat.shiftLeft_eq]
  generalize 2 ^ 128 = a, 2 ^ (fPow x + 3968 - fPow y) = b, 2 ^ fPow y = c, 2 ^ fPow x = d, 2 ^ 1074 = e, 2 ^ 3022 = f at *
  linear_combination fSig x * fSig y * hpow

theorem fSig_pos {x : F64} (h : 0 < fMagnitude x) : 0 < fSig x := by
  rw [fMagnitude, Nat.shiftLeft_eq] at h
  exact Nat.pos_of_mul_pos_right h

/-- A quotient is finite, and no greater than a representable bound of the exact quotient. -/
theorem fDiv_bound {x y : F64} {m : Nat} (hx : fFinite x = true) (hy : fFinite y = true) (hpos : 0 < fMagnitude y)
    (hm : m < infMag) (h : fMagnitude x * 2 ^ 1074 ≤ magValue m * fMagnitude y) : Within (magValue m) (fDiv x y) := by
  have hsig := fSig_pos hpos
  rw [fDiv_eq_fPack hx hy hsig.ne']
  refine fPack_bound _ _ m (roundMag_le _ _ _ m hsig (Nat.le_of_mul_le_mul_right ?_ hpos)) hm
  rw [fQuotient_scale, Nat.mul_right_comm (magValue m)]
  exact Nat.mul_le_mul_right _ h

/-- A quotient is no less than a representable bound of the exact quotient. -/
theorem le_fDiv {x y : F64} {m : Nat} (hx : fFinite x = true) (hy : fFinite y = true) (hpos : 0 < fMagnitude y)
    (hm : m ≤ infMag) (h : magValue m * fMagnitude y ≤ fMagnitude x * 2 ^ 1074) :
    magValue m ≤ fMagnitude (fDiv x y) := by
  have hsig := fSig_pos hpos
  have hround : fQuotient x y < 2 ^ 63 := (roundMag_le_infMag _ _ _ hsig).trans_lt infMag_lt
  have hint : fSig x <<< 128 = 0 ∨ fSig y ≤ fSig x <<< 128 := by
    have hlt := fSig_lt y
    rw [Nat.shiftLeft_eq]
    omega
  rw [fDiv_eq_fPack hx hy hsig.ne', fMagnitude_eq, fLow_fPack _ _ hround]
  refine magValue_mono (le_roundMag hsig hint hm (Nat.le_of_mul_le_mul_right ?_ hpos))
  rw [fQuotient_scale, Nat.mul_right_comm (magValue m)]
  exact Nat.mul_le_mul_right _ h

/-! ### Sums -/

/-- A rounded sum is no less than a representable magnitude that the exact sum is no less than. -/
theorem le_roundSum {z : Bool} {e m : Nat} {n : Int} (hm : m ≤ infMag) (h : magValue m ≤ n.natAbs * 2 ^ e) :
    magValue m ≤ fMagnitude (roundSum z e n) := by
  have key (neg : Bool) (k : Nat) (hk : magValue m ≤ (k + 1) * 2 ^ e) :
      magValue m ≤ fMagnitude (fPack neg (roundMag (k + 1) 1 (e + 3022))) := by
    rw [fMagnitude_eq, fLow_fPack _ _ ((roundMag_le_infMag _ _ _ Nat.one_pos).trans_lt infMag_lt)]
    refine magValue_mono (le_roundMag Nat.one_pos (.inr (by omega)) hm ?_)
    rw [Nat.pow_add, ← Nat.mul_assoc (k + 1), Nat.one_mul]
    exact Nat.mul_le_mul_right _ hk
  match n with
  | .ofNat 0 => exact h.trans (by simp)
  | .ofNat (k + 1) => exact key false k h
  | .negSucc k => exact key true k h

/-- A sum is no less in magnitude than a representable bound of the exact sum. -/
theorem le_fAdd {x y : F64} {m : Nat} (hx : fFinite x = true) (hy : fFinite y = true) (hm : m ≤ infMag)
    (h : magValue m ≤ (fValue x + fValue y).natAbs) : magValue m ≤ fMagnitude (fAdd x y) := by
  obtain ⟨e, hex, hey, heq⟩ := fAdd_eq_roundSum hx hy
  rw [heq]
  refine le_roundSum hm (h.trans_eq ?_)
  rw [← fScaled_mul hex, ← fScaled_mul hey, ← Int.add_mul, Int.natAbs_mul, Int.natAbs_pow]
  rfl

theorem fSign_eq_msb (x : F64) : fSign x = x.msb := by
  rw [Bool.eq_iff_iff, fSign_iff, BitVec.msb_eq_decide, decide_eq_true_eq]

theorem fValue_fNeg (x : F64) : fValue (fNeg x) = -fValue x := by
  have hsign : fSign (fNeg x) = !fSign x := by
    rw [fSign_eq_msb, fSign_eq_msb, fNeg, BitVec.msb_xor]
    exact Bool.xor_true _
  rw [fValue_eq, fValue_eq, fMagnitude_fNeg, hsign]
  cases fSign x <;> simp

end Sys2Proof.Machine

/-! ## The adaptive quantizer on bytes: no value overflows (spec/00_scope.md R14, spec/60_exceptions.md R361) -/

namespace Sys2Proof.Machine

/-! ### Values of bounded magnitude -/

/-- Finite, and at most n in magnitude. -/
def AtMost (n : Nat) (x : F64) : Prop := Within (n * 2 ^ 1074) x

section

variable {a b : Nat} {x y : F64}

theorem AtMost.finite (h : AtMost a x) : fFinite x = true := h.1

theorem AtMost.mono (h : AtMost a x) (hab : a ≤ b) : AtMost b x := ⟨h.1, h.2.trans (Nat.mul_le_mul_right _ hab)⟩

theorem atMost_zero : AtMost a 0 := ⟨by decide, Nat.zero_le _⟩

theorem AtMost.add (hx : AtMost a x) (hy : AtMost b y) (h : a + b < 2 ^ 53) : AtMost (a + b) (fAdd x y) :=
  fAdd_within h hx hy

theorem AtMost.sub (hx : AtMost a x) (hy : AtMost b y) (h : a + b < 2 ^ 53) : AtMost (a + b) (fSub x y) :=
  fSub_within h hx hy

theorem AtMost.mul (hx : AtMost a x) (hy : AtMost b y) (h : a * b < 2 ^ 53) : AtMost (a * b) (fMul x y) := by
  obtain ⟨m, hm, hv⟩ := exists_magValue_eq (a * b) 1074 h (by omega) (by omega)
  rw [AtMost, ← hv]
  refine fMul_bound x y m hx.1 hy.1 hm ((Nat.mul_le_mul hx.2 hy.2).trans_eq ?_)
  rw [hv]
  generalize 2 ^ 1074 = u
  ring

/-- Division by a value of at least 1/b. -/
theorem AtMost.div (hx : AtMost a x) (hy : fFinite y = true) (hle : 2 ^ 1074 ≤ b * fMagnitude y) (h : a * b < 2 ^ 53) :
    AtMost (a * b) (fDiv x y) := by
  obtain ⟨m, hm, hv⟩ := exists_magValue_eq (a * b) 1074 h (by omega) (by omega)
  have hpos : 0 < fMagnitude y := Nat.pos_of_mul_pos_left ((Nat.two_pow_pos _).trans_le hle)
  rw [AtMost, ← hv]
  refine fDiv_bound hx.1 hy hpos hm ?_
  have hmag := hx.2
  rw [hv]
  generalize 2 ^ 1074 = u at *
  calc fMagnitude x * u ≤ a * u * (b * fMagnitude y) := Nat.mul_le_mul hmag hle
    _ = a * b * u * fMagnitude y := by ring

theorem fMagnitude_fOfNat (h : a < 2 ^ 53) : fMagnitude (fOfNat a) = a * 2 ^ 1074 := by
  obtain ⟨-, hvalue, -⟩ := fOfNat_exact h
  rw [← fValue_natAbs, hvalue, Int.natAbs_mul, Int.natAbs_pow]
  rfl

theorem atMost_fOfNat (h : a < 2 ^ 53) : AtMost a (fOfNat a) := fOfNat_within le_rfl h

theorem AtMost.div_fOfNat (hx : AtMost a x) (h : a < 2 ^ 53) (hb : 0 < b) (hb' : b < 2 ^ 53) :
    AtMost a (fDiv x (fOfNat b)) := by
  have hle : 2 ^ 1074 ≤ 1 * fMagnitude (fOfNat b) := by
    rw [fMagnitude_fOfNat hb', Nat.one_mul]
    exact Nat.le_mul_of_pos_left _ hb
  simpa using hx.div (atMost_fOfNat hb').finite hle (by omega)

theorem atMost_halfPast {k : Nat} (hk : 2 * k + 1 < 2 ^ 53) : AtMost (k + 1) (halfPast k) := by
  obtain ⟨hfin, hvalue⟩ := halfPast_exact hk
  refine ⟨hfin, ?_⟩
  rw [← fValue_natAbs, hvalue, Int.natAbs_mul, Int.natAbs_pow, show 1074 = 1073 + 1 from rfl, pow_succ' 2 1073,
    ← Nat.mul_assoc]
  exact Nat.mul_le_mul_right _ (by omega)

end

/-! ### The range of the samples and the width of a bin -/

/-- A binary64 value that is the number of a byte (R182). -/
def IsByteValue (x : F64) : Prop := ∃ n < 256, x = fOfNat n

theorem IsByteValue.atMost {x : F64} (h : IsByteValue x) : AtMost 255 x := by
  obtain ⟨n, hn, rfl⟩ := h
  exact (atMost_fOfNat (by omega)).mono (by omega)

/-- Different bytes are at least 1 apart, and so is their rounded difference. -/
theorem le_fSub_of_bytes {mn mx : F64} (hmn : IsByteValue mn) (hmx : IsByteValue mx) (hne : fEq mn mx = false) :
    2 ^ 1074 ≤ fMagnitude (fSub mx mn) := by
  have hfin := hmn.atMost.finite
  have hfin' := hmx.atMost.finite
  rw [fEq_eq_false_iff hfin hfin'] at hne
  obtain ⟨m, hm, hv⟩ := exists_magValue_eq 1 1074 (by omega) (by omega) (by omega)
  rw [Nat.one_mul] at hv
  have hexact : magValue m ≤ (fValue mx + fValue (fNeg mn)).natAbs := by
    obtain ⟨a, ha, rfl⟩ := hmn
    obtain ⟨b, hb, rfl⟩ := hmx
    obtain ⟨-, hva, -⟩ := fOfNat_exact (n := a) (by omega)
    obtain ⟨-, hvb, -⟩ := fOfNat_exact (n := b) (by omega)
    rw [fValue_fNeg, hva, hvb, ← sub_eq_add_neg, ← Int.sub_mul, Int.natAbs_mul, Int.natAbs_pow, hv]
    refine Nat.le_mul_of_pos_left _ (Int.natAbs_pos.2 fun hab => hne ?_)
    rw [hva, hvb, show (a : Int) = b by omega]
  rw [← hv]
  exact le_fAdd hfin' ((fFinite_fNeg mn).trans hfin) hm.le hexact

/-- A bin is at least 1/256 wide where the samples are not all equal (R185). -/
theorem le_binWidth {range : F64} (hrange : AtMost 510 range) (hle : 2 ^ 1074 ≤ fMagnitude range) :
    2 ^ 1074 ≤ 256 * fMagnitude (fDiv range (fOfNat 256)) := by
  obtain ⟨m, hm, hv⟩ := exists_magValue_eq 1 1066 (by omega) (by omega) (by omega)
  have h256 : fMagnitude (fOfNat 256) = 256 * 2 ^ 1074 := fMagnitude_fOfNat (by omega)
  have hpow : 2 ^ 1074 = 256 * 2 ^ 1066 := by rw [show 256 = 2 ^ 8 from rfl, ← Nat.pow_add]
  have hpos : 0 < fMagnitude (fOfNat 256) := h256 ▸ Nat.mul_pos (by omega) (Nat.two_pow_pos _)
  have hexact : magValue m * fMagnitude (fOfNat 256) ≤ fMagnitude range * 2 ^ 1074 := by
    rw [hv, h256, Nat.one_mul, ← Nat.mul_assoc, Nat.mul_comm (2 ^ 1066), ← hpow]
    exact Nat.mul_le_mul_right _ hle
  have hquot := le_fDiv hrange.finite (atMost_fOfNat (a := 256) (by omega)).finite hpos hm.le hexact
  rw [hv] at hquot
  rw [hpow]
  omega

/-! ### Bins and initial centers -/

/-- A sample is less than 256 bin widths above the least one, within a rounding (R185). -/
theorem aqBin_total {mn w x : F64} (hmn : AtMost 255 mn) (hx : AtMost 255 x) (hw : fFinite w = true)
    (hle : 2 ^ 1074 ≤ 256 * fMagnitude w) : ∃ b, aqBin mn w x = .ok b := by
  have hsub := hx.sub hmn (by omega)
  have hdiv := hsub.div hw hle (by omega)
  exact ⟨_, (bind_ok_iff _ _ _).2 ⟨_, (cSub_ok_iff _ _ _).2 ⟨hsub.finite, rfl⟩,
    (bind_ok_iff _ _ _).2 ⟨_, (cDiv_ok_iff _ _ _).2 ⟨hdiv.finite, rfl⟩, rfl⟩⟩⟩

/-- The midpoint of a bin, or a fallback center: no further above the least sample than 256 steps (R186, R188). -/
theorem cAdd_cMul_total {mn w : F64} {k : Nat} (hmn : AtMost 255 mn) (hw : AtMost 510 w) (hk : k < 256) :
    ∃ v, (cMul (halfPast k) w >>= fun p => cAdd mn p) = .ok v ∧ AtMost (2 ^ 17) v := by
  have hmul := ((atMost_halfPast (by omega)).mono (show k + 1 ≤ 256 by omega)).mul hw (by omega)
  have hadd := hmn.add hmul (by omega)
  exact ⟨_, (cAdd_cMul_ok_iff _ _ _ _).2 ⟨hmul.finite, hadd.finite, rfl⟩, hadd.mono (by omega)⟩

/-- Seeding computes its targets alone, and none is above 128 times the number of samples (R187). -/
theorem seedCenters_total {levels n : Nat} {per : F64} (hper : AtMost n per) (hn : n < 2 ^ 32) (hlevels : levels ≤ 128)
    (bins : List (Nat × F64)) : ∃ seeds, seedCenters levels per 0 0 bins = .ok seeds := by
  cases h : seedCenters levels per 0 0 bins with
  | ok seeds => exact ⟨seeds, rfl⟩
  | error e =>
    obtain ⟨j, hj, hbad⟩ := seedCenters_error h
    have hhalf := (atMost_halfPast (k := j) (by omega)).mono (show j + 1 ≤ 128 by omega)
    exact absurd (hhalf.mul hper (by omega)).finite (Bool.not_eq_true _ ▸ hbad)

/-- Bins of fewer than 2^32 samples in all, whose midpoints are at most 2^17. -/
structure SmallBins (bins : List (Nat × F64)) : Prop where
  count : (bins.map Prod.fst).sum < 2 ^ 32
  midpoint : ∀ b ∈ bins, AtMost (2 ^ 17) b.2

theorem initialCenters_total {levels n : Nat} {mn range : F64} {bins : List (Nat × F64)} (hn : n < 2 ^ 32)
    (hpos : 0 < levels) (hlevels : levels ≤ 128) (hmn : AtMost 255 mn) (hrange : AtMost 510 range)
    (hbins : SmallBins bins) :
    ∃ cs, initialCenters levels n mn range bins = .ok cs ∧ ∀ c ∈ cs, AtMost (2 ^ 17) c := by
  have hper : AtMost n (fDiv (fOfNat n) (fOfNat levels)) :=
    (atMost_fOfNat (by omega)).div_fOfNat (by omega) hpos (by omega)
  have hstep : AtMost 510 (fDiv range (fOfNat levels)) := hrange.div_fOfNat (by omega) hpos (by omega)
  have hfallback (j : Nat) (hj : j ∈ List.range levels) := cAdd_cMul_total hmn hstep (k := j) (by
    have := List.mem_range.1 hj
    omega)
  obtain ⟨seeds, hseeds⟩ := seedCenters_total hper hn hlevels bins
  obtain ⟨rest, hrest⟩ := mapE_total (fallbackCenter mn (fDiv range (fOfNat levels)))
    ((List.range levels).drop seeds.length) fun j hj => (hfallback j (List.mem_of_mem_drop hj)).imp fun _ h => h.1
  refine ⟨seeds ++ rest, ?_, fun c hc => ?_⟩
  · simp only [initialCenters, bind_ok_iff, pure_ok_iff, cDiv_ok_iff]
    exact ⟨_, ⟨hper.finite, rfl⟩, seeds, hseeds, _, ⟨hstep.finite, rfl⟩, rest, hrest, rfl⟩
  · rcases List.mem_append.1 hc with hc | hc
    · obtain ⟨b, hb, rfl⟩ := mem_of_mem_seedCenters hseeds hc
      exact hbins.midpoint b hb
    · obtain ⟨j, hj, hvalue⟩ := mem_of_mapE_ok hrest hc
      obtain ⟨v, hv, hsmall⟩ := hfallback j (List.mem_of_mem_drop hj)
      rwa [Except.ok.inj (hvalue.symm.trans hv)]

theorem sum_bump_le (cs : List Nat) (b : Nat) : (bump cs b).sum ≤ cs.sum + 1 := by
  induction cs generalizing b with
  | nil => exact Nat.zero_le _
  | cons c cs ih =>
    cases b with
    | zero => simp only [bump, List.sum_cons]; omega
    | succ b =>
      have := ih b
      simp only [bump, List.sum_cons]
      omega

/-- The histogram counts no sample twice. -/
theorem sum_histogram_le (nums : List Nat) : (histogram nums).sum ≤ nums.length := by
  induction nums using List.reverseRecOn with
  | nil => exact Nat.le_zero.2 (List.sum_replicate_nat.trans (Nat.mul_zero 256))
  | append_singleton nums b ih =>
    rw [histogram_concat, ← bump_eq_modify, List.length_append]
    exact (sum_bump_le _ b).trans (Nat.add_le_add_right ih 1)

theorem smallBins_histogram {nums : List Nat} {mids : List F64} (hn : nums.length < 2 ^ 32) (hlen : mids.length = 256)
    (hmids : ∀ v ∈ mids, AtMost (2 ^ 17) v) : SmallBins ((histogram nums).zip mids) := by
  refine ⟨?_, fun b hb => hmids _ (List.of_mem_zip hb).2⟩
  rw [List.map_fst_zip (by rw [histogram_length, hlen])]
  exact (sum_histogram_le nums).trans_lt hn

/-! ### One pass -/

/-- The search raises nothing where every distance is finite. -/
theorem nearestFrom_total {mid : F64} {cs : List F64} (h : ∀ c ∈ cs, fFinite (fSub mid c) = true) (best : Nat) (bd : F64)
    (j : Nat) : ∃ i, nearestFrom mid best bd j cs = .ok i := by
  induction cs generalizing best bd j with
  | nil => exact ⟨best, rfl⟩
  | cons c cs ih =>
    obtain ⟨hc, hcs⟩ := List.forall_mem_cons.1 h
    rw [nearestFrom, cSub, chk_bind hc]
    split
    · exact ih hcs _ _ _
    · exact ih hcs _ _ _

theorem nearestCenter_total {mid : F64} {cs : List F64} (h : ∀ c ∈ cs, fFinite (fSub mid c) = true) :
    ∃ i, nearestCenter cs mid = .ok i := by
  cases cs with
  | nil => exact ⟨0, rfl⟩
  | cons c cs =>
    obtain ⟨hc, hcs⟩ := List.forall_mem_cons.1 h
    rw [nearestCenter, cSub, chk_bind hc]
    exact nearestFrom_total hcs _ _ _

/-- A weighted sum is at most the bound of its values, once for each sample counted (R190). -/
theorem foldl_addBin_atMost {M : Nat} {bs : List (Nat × F64)} {t : F64 × Nat} (hbs : ∀ b ∈ bs, AtMost M b.2)
    (ht : AtMost (t.2 * M) t.1) (hM : 0 < M) (h : (t.2 + (bs.map Prod.fst).sum) * M < 2 ^ 53) :
    AtMost ((t.2 + (bs.map Prod.fst).sum) * M) (bs.foldl addBin t).1 := by
  induction bs generalizing t with
  | nil => exact ht
  | cons b bs ih =>
    obtain ⟨hb, hbs⟩ := List.forall_mem_cons.1 hbs
    rw [List.map_cons, List.sum_cons, ← Nat.add_assoc] at h ⊢
    have hsum : t.2 * M + b.1 * M < 2 ^ 53 := by
      rw [← Nat.add_mul]
      exact (Nat.mul_le_mul_right M (Nat.le_add_right _ _)).trans_lt h
    have hcount : b.1 < 2 ^ 53 := (Nat.le_mul_of_pos_right b.1 hM).trans_lt (by omega)
    refine ih (t := addBin t b) hbs ?_ h
    rw [addBin, Nat.add_mul]
    exact ht.add ((atMost_fOfNat hcount).mul hb (by omega)) hsum

variable {bins : List (Nat × F64)} {cs : List F64}

/-- A center's sum does not depend on where the centers are, but through the bins it is over. -/
theorem passTally_atMost (hbins : SmallBins bins) (cs : List F64) (j : Nat) :
    AtMost (2 ^ 49) (passTally bins cs j).1 ∧ (passTally bins cs j).2 < 2 ^ 32 := by
  have hsub : (binsOf cs bins j).Sublist bins := List.filter_sublist
  have hcount : ((binsOf cs bins j).map Prod.fst).sum < 2 ^ 32 :=
    ((hsub.map Prod.fst).sum_le_sum fun _ _ => Nat.zero_le _).trans_lt hbins.count
  have hsum := foldl_addBin_atMost (t := (0, 0)) (fun b hb => hbins.midpoint b (hsub.subset hb)) atMost_zero (by omega)
    (by simp only [Nat.zero_add]; omega)
  refine ⟨hsum.mono (by simp only [Nat.zero_add]; omega), ?_⟩
  rw [passTally_eq]
  exact hcount

/-- Centers at most 2^49, as a sum of 2^32 midpoints is: the bound every pass keeps. -/
def SmallCenters (cs : List F64) : Prop := ∀ c ∈ cs, AtMost (2 ^ 49) c

theorem SmallCenters.getD (h : SmallCenters cs) (j : Nat) : AtMost (2 ^ 49) (cs.getD j 0) := by
  rw [List.getD_eq_getElem?_getD]
  cases hj : cs[j]? with
  | none => exact atMost_zero
  | some c => exact h c (List.mem_of_getElem? hj)

/-- A center is kept, or becomes a sum over at least one sample. -/
theorem passValue_atMost (hbins : SmallBins bins) (hcs : SmallCenters cs) (j : Nat) :
    AtMost (2 ^ 49) (passValue bins cs j) := by
  obtain ⟨hsum, hcount⟩ := passTally_atMost hbins cs j
  rw [passValue, newValue]
  split
  · exact hcs.getD j
  · exact hsum.div_fOfNat (by omega) (by omega) (by omega)

theorem passFinite_of_small (hbins : SmallBins bins) (hcs : SmallCenters cs) : PassFinite bins cs where
  nearest b hb _ := nearestCenter_total fun c hc => ((hbins.midpoint b hb).sub (hcs c hc) (by omega)).finite
  sum j _ := (passTally_atMost hbins cs j).1.finite
  moved j _ := ((passValue_atMost hbins hcs j).sub (hcs.getD j) (by omega)).finite

/-- A pass over small bins from small centers answers, and the next centers are small. -/
theorem refinePass_total (hbins : SmallBins bins) (hcs : SmallCenters cs) :
    ∃ p, refinePass bins cs = .ok p ∧ SmallCenters (nextCenters bins cs) := by
  have hpass := (refinePass_ok_iff bins cs _).2 ⟨passFinite_of_small hbins hcs, rfl⟩
  refine ⟨_, hpass, fun c hc => ?_⟩
  rw [nextCenters_of_ok hpass] at hc
  obtain ⟨j, -, rfl⟩ := List.mem_map.1 ((sortAscending_perm _).mem_iff.1 hc)
  exact passValue_atMost hbins hcs j

/-! ### The loop and the output -/

theorem refine_total (hbins : SmallBins bins) (hcs : SmallCenters cs) (fuel iters : Nat) :
    ∃ r, refine bins fuel cs iters = .ok r ∧ SmallCenters r.1 := by
  induction fuel generalizing cs iters with
  | zero => exact ⟨(cs, iters), rfl, hcs⟩
  | succ fuel ih =>
    obtain ⟨p, hp, hnext⟩ := refinePass_total hbins hcs
    rcases refine_succ_cases bins fuel cs iters with ⟨e, he, -⟩ | ⟨-, ⟨-, hstop⟩ | ⟨-, hgo⟩⟩
    · cases hp.symm.trans he
    · exact ⟨_, hstop, hnext⟩
    · rw [hgo]
      exact ih hnext _

theorem boundaries_total (hcs : SmallCenters cs) : ∃ bnd, boundaries cs = .ok bnd := by
  induction cs with
  | nil => exact ⟨[], rfl⟩
  | cons a cs ih =>
    obtain ⟨ha, htail⟩ := List.forall_mem_cons.1 hcs
    cases cs with
    | nil => exact ⟨[], rfl⟩
    | cons b cs =>
      obtain ⟨rest, hrest⟩ := ih htail
      have hsum := ha.add (htail b List.mem_cons_self) (by omega)
      have hmid := hsum.div_fOfNat (b := 2) (by omega) (by omega) (by omega)
      exact ⟨_, (boundaries_cons_ok_iff _ _ _ _).2 ⟨_, rest, rfl, hsum.finite, hmid.finite, rfl, hrest⟩⟩

/-- The general case raises nothing on bytes that are not all equal. -/
theorem aqGeneral_total {levels : Nat} {mn mx : F64} {xs : List F64} (hpos : 0 < levels) (hlevels : levels ≤ 128)
    (hn : xs.length < 2 ^ 32) (hmn : IsByteValue mn) (hmx : IsByteValue mx) (hne : fEq mn mx = false)
    (hxs : ∀ x ∈ xs, IsByteValue x) (maxIter : Nat) : ∃ r, aqGeneral levels maxIter mn mx xs = .ok r := by
  have hrange : AtMost 510 (fSub mx mn) := (hmx.atMost.sub hmn.atMost (by omega)).mono (by omega)
  have hwidth := hrange.div_fOfNat (b := 256) (by omega) (by omega) (by omega)
  have hle := le_binWidth hrange (le_fSub_of_bytes hmn hmx hne)
  have hmid (b : Nat) (hb : b ∈ List.range 256) := cAdd_cMul_total hmn.atMost hwidth (List.mem_range.1 hb)
  obtain ⟨nums, hnums⟩ := mapE_total _ xs fun x hx => aqBin_total hmn.atMost (hxs x hx).atMost hwidth.finite hle
  obtain ⟨mids, hmids⟩ := mapE_total (binMidpoint mn (fDiv (fSub mx mn) (fOfNat 256))) (List.range 256)
    fun b hb => (hmid b hb).imp fun _ h => h.1
  have hbins : SmallBins ((histogram nums).zip mids) := by
    refine smallBins_histogram ((mapE_length hnums).trans_lt hn) (by rw [mapE_length hmids, List.length_range]) fun v hv => ?_
    obtain ⟨b, hb, hvalue⟩ := mem_of_mapE_ok hmids hv
    obtain ⟨u, hu, hsmall⟩ := hmid b hb
    rwa [Except.ok.inj (hvalue.symm.trans hu)]
  obtain ⟨seeds, hseeds, hstart⟩ := initialCenters_total hn hpos hlevels hmn.atMost hrange hbins
  have hcenters : SmallCenters seeds := fun c hc => (hstart c hc).mono (Nat.pow_le_pow_right Nat.two_pos (by omega))
  obtain ⟨p, hp, hsmall⟩ := refine_total hbins hcenters maxIter 0
  obtain ⟨bnd, hbnd⟩ := boundaries_total (cs := sortAscending p.1) fun c hc =>
    hsmall c ((sortAscending_perm p.1).mem_iff.1 hc)
  simp only [aqGeneral, bind_ok_iff, pure_ok_iff, cSub_ok_iff, cDiv_ok_iff]
  exact ⟨_, _, ⟨hrange.finite, rfl⟩, _, ⟨hwidth.finite, rfl⟩, nums, hnums, mids, hmids, seeds, hseeds, p, hp, bnd, hbnd, rfl⟩

theorem aqQuantize_total {levels : Nat} {xs : List F64} (hpos : 0 < levels) (hlevels : levels ≤ 128)
    (hn : xs.length < 2 ^ 32) (hxs : ∀ x ∈ xs, IsByteValue x) (maxIter : Nat) :
    ∃ r, aqQuantize levels maxIter xs = .ok r := by
  cases xs with
  | nil => exact ⟨_, rfl⟩
  | cons x xs =>
    have hfin : ∀ y ∈ x :: xs, fFinite y = true := fun y hy => (hxs y hy).atMost.finite
    have hmin := hxs _ (List.argmin_mem (Option.mem_def.2 (argmin_eq_aqMin hfin)))
    have hmax := hxs _ (List.argmax_mem (Option.mem_def.2 (argmax_eq_aqMax hfin)))
    rw [aqQuantize]
    split
    · exact ⟨_, rfl⟩
    · rename_i hne
      exact aqGeneral_total hpos hlevels hn hmin hmax (Bool.not_eq_true _ ▸ hne) hxs maxIter

end Sys2Proof.Machine

/-! ## The data errors of each command (spec/60_exceptions.md R361, R362) -/

namespace Sys2Proof.Machine

/-! ### Commands that raise no error once their checks pass -/

theorem aqInput_isByteValue {s : State} (hfmt : s.opr.aqFmt = true) (m : Nat) : IsByteValue (aqInput s m) :=
  ⟨_, (s.ldByte (s.src + m * s.srcStride)).isLt, if_pos hfmt⟩

/-- The checks of `AQ` leave a depth of 1 to 8 bits (R181). -/
theorem depth_le_of_checksPass {s : State} (hc : checksPass .aq s = true) : s.depth ≤ 8 := by
  obtain ⟨_, hbits, -⟩ := (bind_ok_iff _ _ _).1 (aqChecks_of_checksPass hc)
  rw [failIf_ok_iff, Bool.or_eq_false_iff, decide_eq_false_iff_not] at hbits
  omega

/-- `AQ` on bytes: the passthrough computes nothing, and the quantizer stays far below overflow. -/
theorem runAq_bytes_total {s : State} (hc : checksPass .aq s = true) (hfmt : s.opr.aqFmt = true) :
    ∃ st, runAq s = .ok st := by
  have hbytes : ∀ x ∈ (List.range s.elements).map (aqInput s), IsByteValue x :=
    List.forall_mem_map.2 fun m _ => aqInput_isByteValue hfmt m
  have hfin : ∀ m < s.elements, fFinite (aqInput s m) = true := fun m _ => (aqInput_isByteValue hfmt m).atMost.finite
  rcases Nat.lt_or_eq_of_le (depth_le_of_checksPass hc) with hd | hd
  · have hlevels : 2 ^ s.depth ≤ 2 ^ 7 := Nat.pow_le_pow_right Nat.two_pos (Nat.le_of_lt_succ hd)
    have hn : ((List.range s.elements).map (aqInput s)).length < 2 ^ 32 := by
      rw [List.length_map, List.length_range]
      exact s.opr.count.isLt
    obtain ⟨r, hr⟩ := aqQuantize_total (Nat.two_pow_pos s.depth) hlevels hn hbytes s.opr.aqMaxIter.toNat
    exact ⟨_, runAq_quantized hc (Nat.le_of_lt_succ hd) hfin hr⟩
  · exact ⟨_, runAq_passthrough hc hd hfin⟩

theorem runEncode_total {s : State} (hc : checksPass .encode s = true) : ∃ st, runEncode s = .ok st := by
  choose d _ _ _ hencode using encodeBlock_ok s
  exact ⟨_, runEncode_eq hc hencode⟩

theorem runPdInit_total {s : State} (hc : checksPass .pdInit s = true) : ∃ st, runPdInit s = .ok st := by
  have hmode := modeOfBits_isNone s.opr.pdcfgMode
  cases hm : modeOfBits s.opr.pdcfgMode with
  | some m => exact ⟨_, runPdInit_eq hc hm⟩
  | none =>
    have hreserved : s.opr.pdcfgMode = 3 := by simpa [hm] using hmode
    simp [checksPass, commandChecks, hreserved] at hc

theorem valid_of_checksPass_pdStep {s : State} (hc : checksPass .pdStep s = true) : s.pd.valid = true := by
  by_contra hvalid
  simp [checksPass, commandChecks, hvalid] at hc

/-- An exhausted step stages the context as it is, and `MORE` 0 (R318). -/
theorem runPdStep_of_exhausted {s : State} (hvalid : s.pd.valid = true) (hex : s.pd.exhausted = true) :
    runPdStep s = .ok { writes := [], aq := none, pd := some (s.pd, false) } := by
  simp only [runPdStep, hvalid, hex]
  rfl

/-- No coefficient in LMEM makes a step overflow (R316). -/
theorem runPdStep_total {s : State} (hc : checksPass .pdStep s = true) : ∃ st, runPdStep s = .ok st := by
  have hvalid := valid_of_checksPass_pdStep hc
  cases hex : s.pd.exhausted with
  | true => exact ⟨_, runPdStep_of_exhausted hvalid hex⟩
  | false =>
    choose f hidct _ hfin using idct_keptBlock s
    obtain ⟨wss, hwss, -⟩ := mapE_renderBlock_ok hidct hfin (blocksRendered s.pd)
    exact ⟨_, runPdStep_eq hc hvalid hex hwss⟩

theorem runPdReset_total {s : State} (hc : checksPass .pdReset s = true) : ∃ st, runPdReset s = .ok st := by
  have hvalid : s.pd.valid = true := by simpa [checksPass, commandChecks] using hc
  rw [runPdReset, hvalid]
  exact ⟨_, rfl⟩

/-- The commands with no data error succeed, whatever LMEM holds. -/
theorem resultOf_total {i : Instr} {s : State} (hc : checksPass i s = true)
    (hi : i ∈ [Instr.nop, .cscFwd, .dequant, .blkExtract, .encode, .pdInit, .pdStep, .pdReset]) :
    ∃ st, resultOf i s = .ok st := by
  simp only [List.mem_cons, List.not_mem_nil, or_false] at hi
  rcases hi with rfl | rfl | rfl | rfl | rfl | rfl | rfl | rfl
  · exact ⟨_, rfl⟩
  · exact ⟨_, runCscFwd_eq hc⟩
  · exact ⟨_, runDequant_eq hc⟩
  · exact ⟨_, runBlkExtract_eq hc⟩
  · exact runEncode_total hc
  · exact runPdInit_total hc
  · exact runPdStep_total hc
  · exact runPdReset_total hc

/-! ### Commands that raise `E_NONFINITE` or `E_COEFRANGE` -/

namespace RaisesOnlyNonFinite

/-- What comes after checks that pass. -/
theorem ok_bind {α β : Type} {x : Except ErrCode α} {a : α} {f : α → Except ErrCode β} (hx : x = .ok a)
    (hf : RaisesOnlyNonFinite (f a)) : RaisesOnlyNonFinite (x >>= f) := by
  rw [hx, Machine.ok_bind]
  exact hf

theorem insertBlock (addr : Nat → Nat → Nat) (w h col row : Nat) (f : List F64) :
    RaisesOnlyNonFinite (insertBlock addr w h col row f) :=
  bind (mapE (fun _ => ite (bind (cAdd _ _) fun _ => of_return _) (ok _)) _) fun _ => of_return _

theorem runCscInv {s : State} (hc : checksPass .cscInv s = true) : RaisesOnlyNonFinite (runCscInv s) :=
  ok_bind (regionChecks_of_memoryChecks hc) (bind (mapE (cscInvPixel s) _) fun _ => of_return _)

theorem runAq {s : State} (hc : checksPass .aq s = true) : RaisesOnlyNonFinite (runAq s) :=
  ok_bind (aqChecks_of_checksPass hc) (bind (mapE (aqSample s) _) fun _ =>
    ite (of_return _) (bind (aqQuantize _ _ _) fun _ => of_return _))

theorem runFdct {s : State} (hc : checksPass .fdct s = true) : RaisesOnlyNonFinite (runFdct s) :=
  ok_bind (regionChecks_of_memoryChecks hc) (bind (loadBlock _ _) fun _ => bind (fdct _) fun _ => of_return _)

theorem runIdct {s : State} (hc : checksPass .idct s = true) : RaisesOnlyNonFinite (runIdct s) :=
  ok_bind (regionChecks_of_memoryChecks hc) (bind (loadBlock _ _) fun _ => bind (idct _) fun _ => of_return _)

theorem runBlkInsert {s : State} (hc : checksPass .blkInsert s = true) : RaisesOnlyNonFinite (runBlkInsert s) := by
  obtain ⟨hstride, hblock, hmem⟩ := blockChecks_of_all hc
  exact ok_bind ((failIf_ok_iff _ _ ()).2 hstride) (ok_bind ((failIf_ok_iff _ _ ()).2 hblock)
    (ok_bind hmem (bind (loadBlock _ _) fun _ => bind (insertBlock _ _ _ _ _ _) fun _ => of_return _)))

theorem resultOf {i : Instr} {s : State} (hc : checksPass i s = true)
    (hi : i ∈ [Instr.cscInv, .aq, .fdct, .idct, .blkInsert]) : RaisesOnlyNonFinite (resultOf i s) := by
  simp only [List.mem_cons, List.not_mem_nil, or_false] at hi
  rcases hi with rfl | rfl | rfl | rfl | rfl
  · exact runCscInv hc
  · exact runAq hc
  · exact runFdct hc
  · exact runIdct hc
  · exact runBlkInsert hc

end RaisesOnlyNonFinite

/-- `QUANT` raises `E_NONFINITE` where it reads its inputs and `E_COEFRANGE` where it quantizes them. -/
theorem runQuant_error {s : State} {e : ErrCode} (hc : checksPass .quant s = true) (h : runQuant s = .error e) :
    e = .nonFinite ∨ e = .coefRange := by
  obtain ⟨hlevel, hmem⟩ := levelChecks_of_all hc
  have hrun : runQuant s = loadBlock s s.src >>= fun d => mapE (quantize s.level) d >>= fun q =>
      pure (.ofWrites (storeCoefs s.dst q)) := by
    simp only [runQuant, hlevel, hmem]
    rfl
  rcases (bind_error_iff _ _ _).1 (hrun.symm.trans h) with hload | ⟨d, -, h⟩
  · exact .inl (RaisesOnlyNonFinite.loadBlock _ _ e hload)
  · rcases (bind_error_iff _ _ _).1 h with hquant | ⟨q, -, hpure⟩
    · obtain ⟨x, -, hx⟩ := mapE_error _ _ _ hquant
      exact .inr (quantize_error hx)
    · cases hpure

/-! ### The codes -/

/-- A command that stages its effects ends with code 0, one that raises an error with that error's code. -/
theorem errCode_of_exec {i : Instr} {s t : State} (h : exec i s = .next t) :
    (∃ st, resultOf i s = .ok st) ∧ t.status.errCode = 0 ∨
      ∃ e, resultOf i s = .error e ∧ t.status.errCode = errorCode e := by
  obtain rfl := (exec_next_iff i s t).1 h
  cases resultOf i s with
  | ok st => exact .inl ⟨⟨st, rfl⟩, rfl⟩
  | error e => exact .inr ⟨e, rfl, rfl⟩

theorem errCode_of_total {i : Instr} {s t : State} (h : exec i s = .next t) (hr : ∃ st, resultOf i s = .ok st) :
    t.status.errCode = 0 := by
  obtain ⟨st, hst⟩ := hr
  rcases errCode_of_exec h with ⟨-, hcode⟩ | ⟨e, he, -⟩
  · exact hcode
  · cases hst.symm.trans he

/-- Settles O10: on values of bounded size nothing overflows, and on others the reads and the operations raise `E_NONFINITE`
alone and quantization `E_COEFRANGE` alone. -/
theorem dataErrorsOfEachCommand : Obligations.DataErrorsOfEachCommand := by
  intro i s t hc h
  refine ⟨fun hi => errCode_of_total h (resultOf_total hc hi), fun hi => ?_, ?_, ?_⟩
  · rcases errCode_of_exec h with ⟨-, hcode⟩ | ⟨e, he, hcode⟩
    · exact .inl hcode
    · rw [hcode, RaisesOnlyNonFinite.resultOf hc hi e he]
      exact .inr rfl
  · rintro rfl
    rcases errCode_of_exec h with ⟨-, hcode⟩ | ⟨e, he, hcode⟩
    · exact .inl hcode
    · rw [hcode]
      rcases runQuant_error hc he with rfl | rfl
      · exact .inr (.inl rfl)
      · exact .inr (.inr rfl)
  · rintro rfl hfmt
    exact errCode_of_total h (runAq_bytes_total hc hfmt)

end Sys2Proof.Machine

/-! ## What a failure is (spec/60_exceptions.md R364) -/

namespace Sys2Proof.Machine

/-- `ERRCODE` holds the number of every error whole. -/
theorem errorCode_toNat (e : ErrCode) : (errorCode e).toNat = errorNumber e := by cases e <;> rfl

/-- Settles O8: a command that raises an error ends as failed with that error's number, one that raises none ends with code 0
(`finish_code`). -/
theorem failureChangesOnlyCompletionFields : Obligations.FailureChangesOnlyCompletionFields := by
  intro i s t h
  obtain rfl := (exec_next_iff i s t).1 h
  obtain ⟨-, herr, -⟩ := finish_code s (resultOf i s)
  obtain ⟨hbusy, hdone⟩ := finish_completes s (resultOf i s)
  refine ⟨fun hcode => ?_, fun hcode => ⟨hbusy, hdone, herr hcode⟩⟩
  cases hr : resultOf i s with
  | ok st => exact absurd (by rw [hr]; rfl) hcode
  | error e =>
    have hstored : (finish s (.error e)).status.errCode = errorCode e := rfl
    rw [hstored, errorCode_toNat, finish_error]

end Sys2Proof.Machine

/-! ## Resets and the command word (spec/70_reset_and_hazards.md R400 to R402, spec/30_encoding.md R121) -/

namespace Sys2Proof.Machine

/-! ### Registers and invariants at reset -/

/-- Settles O56: the registers that hold a field of the reset state hold 0 but `ID` and `AQCFG`, and every other offset
reads 0 whatever the state. -/
theorem resetValues : Obligations.ResetValues := by
  refine ⟨rfl, rfl, fun o hid haqcfg => ?_, rfl, rfl, rfl⟩
  unfold csrValue
  split
  case h_1 => exact absurd rfl hid
  case h_15 => exact absurd rfl haqcfg
  all_goals rfl

/-- Settles O58: nothing is listed in LMEM, and the context and the flags are the reset ones. -/
theorem invariantsHoldAtReset : Obligations.InvariantsHoldAtReset :=
  ⟨⟨reset_lmem_wf, nofun⟩, State.decoderInv_of_reset rfl rfl, nofun, Nat.zero_le _⟩

/-! ### LMEM over a reset -/

/-- Making a region indeterminate leaves every address outside it as it was. -/
theorem lookup_blurRegion_outside (bytes draw : Nat) (m : List Host.Cell) {r : Region} {a : Nat}
    (h : a < r.base ∨ r.base + r.size ≤ a) : lookup (blurRegion bytes draw m r) a = lookup m a := by
  refine lookup_writeRun_outside _ _ _ _ (h.imp_right fun habove => le_trans (Nat.add_le_add_left ?_ _) habove)
  rw [List.length_map, List.length_range]
  exact Nat.min_le_left _ _

theorem lookup_foldl_blurRegion_outside (bytes draw : Nat) (rs : List Region) (m : List Host.Cell) {a : Nat}
    (h : ∀ r ∈ rs, a < r.base ∨ r.base + r.size ≤ a) :
    lookup (rs.foldl (blurRegion bytes draw) m) a = lookup m a := by
  induction rs generalizing m with
  | nil => rfl
  | cons r rs ih =>
    rw [List.foldl_cons, ih _ fun q hq => h q (List.mem_cons_of_mem _ hq)]
    exact lookup_blurRegion_outside _ _ _ (h r List.mem_cons_self)

/-- Over a reset with power held a byte is kept where its cell is. -/
theorem warmReset_ldByte {s : State} {a : Nat} (h : lookup (lmemOverReset s) a = lookup s.lmem a) :
    (warmReset s).ldByte a = s.ldByte a :=
  congrArg (Option.getD · (s.unwrittenByte a)) h

/-- An idle block has no command to abandon, so it keeps LMEM (R401). -/
theorem warmReset_idle {s : State} (h : s.status.busy = false) : LmemKept s (warmReset s) := fun a =>
  warmReset_ldByte (by simp [lmemOverReset, h])

/-- A busy block keeps what lies outside the abandoned command's regions (R402). -/
theorem warmReset_busy {s : State} (h : s.status.busy = true) : LmemKeptOutside (abandonedRegions s) s (warmReset s) :=
  fun a hout => warmReset_ldByte (by rw [lmemOverReset, if_pos h, lookup_foldl_blurRegion_outside _ _ _ _ hout])

theorem abandonedRegions_of_command {s : State} {i : Instr} (h : decode s.pending = .ok i) :
    abandonedRegions s = tableOutputs i s := by
  rw [abandonedRegions, h, tableOutputs_eq]

/-- An illegal word names no region. -/
theorem abandonedRegions_of_no_command {s : State} (h : ∀ i, decode s.pending ≠ .ok i) : abandonedRegions s = [] := by
  unfold abandonedRegions
  split
  · exact absurd ‹_› (h _)
  · rfl

/-- A reset happens busy or not. -/
theorem step_of_reset {s : State} {e : Event} {rest : List Event} (hag : s.agenda = e :: rest)
    (he : e = .reset ∨ e = .powerCycle) : step s = hostEvent e (s.setAgenda rest) := by
  rcases he with rfl | rfl <;> simp [step, hag, Event.heldWhileBusy]

/-- Settles O57: both resets are the reset state but for LMEM, the build parameter and the host's lists, and the one with power
held makes the abandoned command's regions indeterminate. -/
theorem warmResetKeepsLmem : Obligations.WarmResetKeepsLmem := by
  refine ⟨fun s rest hag => ?_, fun s rest hag => ?_⟩
  · exact ⟨_, step_of_reset hag (.inr rfl), fun _ => rfl, rfl, rfl, rfl, rfl, rfl, rfl⟩
  · refine ⟨_, step_of_reset hag (.inl rfl), fun _ => rfl, rfl, rfl, rfl, rfl, rfl, rfl, ?_, ?_, ?_⟩
    · exact warmReset_idle (s := s.setAgenda rest)
    · intro i hbusy hcmd
      have hkept := warmReset_busy (s := s.setAgenda rest) hbusy
      rwa [abandonedRegions_of_command (s := s.setAgenda rest) hcmd] at hkept
    · intro hbusy hillegal a
      refine warmReset_busy (s := s.setAgenda rest) hbusy a fun r hr => ?_
      rw [abandonedRegions_of_no_command (s := s.setAgenda rest) hillegal] at hr
      exact absurd hr List.not_mem_nil

/-! ### The command word -/

/-- Settles O3: one word selects each command, the encoder's (`decode_eq_ok_iff`). -/
theorem decodeEncodeRoundTrip : Obligations.DecodeEncodeRoundTrip := fun i _ =>
  ⟨(decode_eq_ok_iff _ i).2 rfl, fun w => (decode_eq_ok_iff w i).1⟩

/-- Settles O1: each of the fourteen words is the encoder's for its command. -/
theorem specWordsDecode : Obligations.SpecWordsDecode := by
  simp only [Obligations.SpecWordsDecode, decode_eq_ok_iff]
  decide

end Sys2Proof.Machine

/-! ## Sums, products and quotients are correctly rounded (spec/00_scope.md R12) -/

namespace Sys2Proof.Machine

/-! ### Overflow -/

/-- The point halfway from the greatest finite value to 2^1024, in units of 2^−1074. -/
def overflowPoint : Nat := (2 ^ 54 - 1) * 2 ^ 2044

theorem overflowPoint_cast : (overflowPoint : Int) = 2 ^ 2098 - 2 ^ 2044 := by
  rw [overflowPoint, show 2098 = 54 + 2044 from rfl, pow_add, ← sub_one_mul, Nat.cast_mul, Nat.cast_pow, Nat.cast_ofNat]
  congr 1

/-- The greatest finite magnitude and 2^1024 lie half a unit in the last place around the overflow point. -/
theorem magValue_around_overflow :
    magValue (infMag - 1) + 2 ^ 2044 = overflowPoint ∧ magValue infMag = overflowPoint + 2 ^ 2044 := by
  obtain ⟨e, he⟩ : ∃ e, e = 2044 := ⟨_, rfl⟩
  have hmax := magValue_add (e + 1) (2 ^ 53 - 1) (by omega) (.inr (by omega))
  have hinf := magValue_add (e + 2) (2 ^ 52) (by omega) (.inr le_rfl)
  rw [show (e + 1) * 2 ^ 52 + (2 ^ 53 - 1) = infMag - 1 by simp only [infMag]; omega, Nat.pow_add 2 e] at hmax
  rw [show (e + 2) * 2 ^ 52 + 2 ^ 52 = infMag by simp only [infMag]; omega, Nat.pow_add 2 e] at hinf
  rw [hmax, hinf, overflowPoint, ← he]
  omega

/-- A rounding short of overflow comes from a quotient below the overflow point: at the point itself, 2^1024 is as near
as the greatest finite value, whose last bit is 1. -/
theorem lt_overflowPoint_of_roundMag {num den k : Nat} (hd : 0 < den) (h : num = 0 ∨ den ≤ num)
    (hr : roundMag num den k < infMag) : num * 2 ^ k < overflowPoint * (den * 2 ^ 3022) := by
  obtain ⟨hmax, hinf⟩ := magValue_around_overflow
  have hden : 0 < den * 2 ^ 3022 := Nat.mul_pos hd (Nat.two_pow_pos 3022)
  have hu : 0 < 2 ^ 2044 := Nat.two_pow_pos _
  obtain ⟨hmin, htie⟩ := roundMag_nearest hd h hr hden rfl infMag
  have hle : magValue (roundMag num den k) ≤ magValue (infMag - 1) := magValue_mono (by omega)
  have hinj (heq : magValue (roundMag num den k) = magValue (infMag - 1)) : roundMag num den k = infMag - 1 :=
    magValue_strictMono.injective heq
  generalize roundMag num den k = r at *
  generalize magValue (infMag - 1) = top at *
  generalize den * 2 ^ 3022 = d, num * 2 ^ k = a, 2 ^ 2044 = u, overflowPoint = point, magValue r = v at *
  subst hmax
  have hud : 0 < u * d := Nat.mul_pos hu hden
  have hvd : v * d ≤ top * d := Nat.mul_le_mul_right d hle
  by_contra hlt
  rw [hinf] at hmin htie
  simp only [Nat.add_mul, Int.abs_eq_natAbs] at hmin htie hlt
  have hv : v = top := Nat.eq_of_mul_eq_mul_right hden (by omega)
  have heven := htie (by omega) (by omega)
  rw [hinj hv] at heven
  exact absurd heven (by decide)

/-- A rounding that overflows has a last place of more than 2^971, or of 2^971 and a significand that carries to 2^53; the
exact quotient is then no less than the overflow point. -/
theorem roundMag_lt_of_lt_overflowPoint {num den k : Nat} (hd : 0 < den)
    (hlt : num * 2 ^ k < overflowPoint * (den * 2 ^ 3022)) : roundMag num den k < infMag := by
  cases hp : num / den with
  | zero => rw [roundMag_of_div_eq_zero k hp]; decide
  | succ p =>
    have hq := significand_le (k := k) hd hp
    have hnear := nearestMultiple_isNearest num den k (topBit (p + 1) + k - 3074 + 3022) hd
    have hlow := (topBit_bounds (k := k) hd hp).1
    have hu : 0 < den * 2 ^ 3022 * 2 ^ 2044 := Nat.mul_pos (Nat.mul_pos hd (Nat.two_pow_pos 3022)) (Nat.two_pow_pos _)
    rw [roundMag_eq_min hd hp, min_lt_iff, or_iff_left (lt_irrefl _)]
    generalize nearestMultiple num den k (topBit (p + 1) + k - 3074 + 3022) = q at *
    generalize topBit (p + 1) + k = top at *
    rw [overflowPoint, Nat.mul_assoc, Nat.mul_comm (2 ^ 2044)] at hlt
    have htop : top < 5120 := by
      by_contra hge
      have hle : den * 2 ^ (3022 + 2044 + 54) ≤ num * 2 ^ k :=
        (Nat.mul_le_mul_left _ (Nat.pow_le_pow_right (by omega) (by omega))).trans hlow
      rw [Nat.pow_add _ _ 54, Nat.pow_add 2 3022, ← Nat.mul_assoc, ← Nat.mul_assoc] at hle
      generalize den * 2 ^ 3022 * 2 ^ 2044 = w at *
      omega
    by_contra hover
    simp only [infMag] at hover
    obtain ⟨rfl, rfl⟩ : top = 5119 ∧ q = 2 ^ 53 := by omega
    have habove := hnear.above
    rw [show 5119 - 3074 + 3022 = 3022 + 2044 + 1 from rfl, Nat.pow_add 2 (3022 + 2044), Nat.pow_add 2 3022,
      ← Nat.mul_assoc den, ← Nat.mul_assoc den] at habove
    generalize den * 2 ^ 3022 * 2 ^ 2044 = w at *
    omega

/-- A rounding is short of overflow exactly when the exact quotient `a / b` is below the overflow point. -/
theorem roundMag_lt_infMag_iff {num den k a b : Nat} (hd : 0 < den) (h : num = 0 ∨ den ≤ num) (hb : 0 < b)
    (hab : num * 2 ^ k * b = a * (den * 2 ^ 3022)) : roundMag num den k < infMag ↔ a < overflowPoint * b := by
  have hden : 0 < den * 2 ^ 3022 := Nat.mul_pos hd (Nat.two_pow_pos 3022)
  have hscale : num * 2 ^ k < overflowPoint * (den * 2 ^ 3022) ↔ a < overflowPoint * b := by
    rw [← Nat.mul_lt_mul_right hb, hab, Nat.mul_right_comm, Nat.mul_lt_mul_right hden]
  rw [← hscale]
  exact ⟨lt_overflowPoint_of_roundMag hd h, roundMag_lt_of_lt_overflowPoint hd⟩

/-! ### A correct rounding -/

/-- `x` is the exact quotient n / d, in units of 2^−1074, rounded to nearest with ties to even: finite below the overflow
point, where no finite value is nearer and one as near leaves the last bit 0, and else an infinity. -/
structure IsRoundingOf (x : F64) (n d : Int) : Prop where
  finite_iff : fFinite x = true ↔ |n| < (2 ^ 2098 - 2 ^ 2044) * |d|
  infinite : fFinite x = false → x = fPack (fSign x) infMag
  nearest : fFinite x = true → ∀ z : F64,
    |fValue x * d - n| ≤ |fValue z * d - n| ∧
      (|fValue x * d - n| = |fValue z * d - n| → fValue z ≠ fValue x → fFrac x % 2 = 0)

/-- The quotient is that of the two negated. -/
theorem IsRoundingOf.neg {x : F64} {n d : Int} (h : IsRoundingOf x n d) : IsRoundingOf x (-n) (-d) := by
  have dist (v : Int) : |v * -d - -n| = |v * d - n| := by rw [mul_neg, ← neg_sub', abs_neg]
  refine ⟨?_, h.infinite, ?_⟩
  · rw [abs_neg, abs_neg]; exact h.finite_iff
  · simpa only [dist] using h.nearest

/-- A rounding short of overflow is nearest among all values of either sign. -/
theorem roundMag_nearest_value {num den k a b : Nat} (hd : 0 < den) (h : num = 0 ∨ den ≤ num)
    (hr : roundMag num den k < infMag) (hb : 0 < b) (hab : num * 2 ^ k * b = a * (den * 2 ^ 3022)) (z : F64) :
    |(magValue (roundMag num den k) * b : Int) - a| ≤ |fValue z * b - a| ∧
      (|(magValue (roundMag num den k) * b : Int) - a| = |fValue z * b - a| →
        fValue z ≠ magValue (roundMag num den k) → roundMag num den k % 2 = 0) := by
  have hnear := roundMag_nearest hd h hr hb hab
  rw [fValue_eq_magValue]
  split
  · obtain ⟨hmin, htie⟩ := hnear 0
    rw [magValue_zero, Nat.zero_mul] at hmin htie
    exact nearer_than_negative hb hmin htie
  · obtain ⟨hmin, htie⟩ := hnear (fLow z)
    rw [Nat.cast_mul, Nat.cast_mul] at hmin htie
    exact ⟨hmin, fun heq hne => htie heq (by exact_mod_cast hne)⟩

/-- A rounded magnitude packed with a sign is the correct rounding of the exact quotient with that sign. -/
theorem fPack_isRoundingOf {num den k a b : Nat} (neg : Bool) (hd : 0 < den) (h : num = 0 ∨ den ≤ num) (hb : 0 < b)
    (hab : num * 2 ^ k * b = a * (den * 2 ^ 3022)) :
    IsRoundingOf (fPack neg (roundMag num den k)) (if neg then -(a : Int) else a) b := by
  have hle := roundMag_le_infMag num den k hd
  have hlow := fLow_fPack neg _ (hle.trans_lt infMag_lt)
  have hsign := fSign_fPack neg (hle.trans_lt infMag_lt)
  have hfin : fFinite (fPack neg (roundMag num den k)) = true ↔ roundMag num den k < infMag := by rw [fFinite_iff, hlow]
  refine ⟨?_, fun hinf => ?_, fun hr z => ?_⟩
  · have habs : |if neg then -(a : Int) else a| = a := by cases neg <;> simp
    rw [hfin, roundMag_lt_infMag_iff hd h hb hab, habs, ← overflowPoint_cast, Nat.abs_cast]
    norm_cast
  · rw [Bool.eq_false_iff, Ne, hfin] at hinf
    rw [hsign, le_antisymm hle (not_lt.1 hinf)]
  · have hnear := roundMag_nearest_value hd h (hfin.1 hr) hb hab
    have hparity : fFrac (fPack neg (roundMag num den k)) % 2 = roundMag num den k % 2 := by rw [fFrac_eq, hlow]; omega
    rw [fValue_fPack neg (hle.trans_lt infMag_lt), hparity]
    cases neg with
    | false => exact hnear z
    | true =>
      have dist (v : Int) : |-v * b - a| = |v * b - -a| := by rw [neg_mul, ← neg_add', abs_neg, sub_neg_eq_add]
      have hopp := hnear (fNeg z)
      rw [fValue_fNeg, dist, ← neg_neg (magValue _ : Int), dist, ne_eq, neg_inj] at hopp
      exact hopp

/-! ### Sums and differences -/

theorem roundSum_eq_fPack (z : Bool) (e : Nat) (n : Int) :
    roundSum z e n = fPack (if n = 0 then z else decide (n < 0)) (roundMag n.natAbs 1 (e + 3022)) := by
  match n with
  | .ofNat 0 => rfl
  | .ofNat (_ + 1) => rfl
  | .negSucc _ => simp [roundSum]

theorem fSign_roundSum {z : Bool} {e : Nat} {n : Int} (h : n ≠ 0) : fSign (roundSum z e n) = true ↔ n < 0 := by
  rw [roundSum_eq_fPack, fSign_fPack _ ((roundMag_le_infMag _ _ _ Nat.one_pos).trans_lt infMag_lt), if_neg h,
    decide_eq_true_iff]

theorem roundSum_isRoundingOf (z : Bool) (e : Nat) (n : Int) : IsRoundingOf (roundSum z e n) (n * 2 ^ e) 1 := by
  have hunit : n.natAbs * 2 ^ (e + 3022) * 1 = n.natAbs * 2 ^ e * (1 * 2 ^ 3022) := by
    rw [Nat.mul_one, Nat.one_mul, Nat.pow_add, Nat.mul_assoc]
  have hvalue : (if (if n = 0 then z else decide (n < 0)) then -((n.natAbs * 2 ^ e : Nat) : Int) else
      (n.natAbs * 2 ^ e : Nat)) = n * 2 ^ e := by
    rw [Nat.cast_mul, Nat.cast_pow, Nat.cast_ofNat]
    rcases Int.lt_trichotomy n 0 with h | rfl | h
    · rw [if_neg h.ne, decide_eq_true h, if_pos rfl, ← Int.neg_mul, Int.ofNat_natAbs_of_nonpos h.le, neg_neg]
    · simp
    · rw [if_neg h.ne', decide_eq_false h.not_gt, if_neg Bool.false_ne_true, Int.natAbs_of_nonneg h.le]
  rw [roundSum_eq_fPack, ← hvalue]
  exact fPack_isRoundingOf _ Nat.one_pos (by omega) Nat.one_pos hunit

theorem fValue_eq_zero_iff (x : F64) : fValue x = 0 ↔ fMagnitude x = 0 := by
  rw [fValue_eq]
  split <;> omega

theorem fSig_eq_zero_iff (x : F64) : fSig x = 0 ↔ fValue x = 0 := by
  rw [fValue_eq_zero_iff, fMagnitude, Nat.shiftLeft_eq, mul_eq_zero, or_iff_left (Nat.two_pow_pos _).ne']

/-- A zero of negative sign is −0. -/
theorem eq_negZero_of_fValue_eq_zero {x : F64} (hs : fSign x = true) (h : fValue x = 0) : x = 0x8000000000000000 := by
  rw [fValue_eq_zero_iff, fMagnitude_eq, ← magValue_zero] at h
  exact (eq_negZero_iff x).2 ⟨hs, magValue_strictMono.injective h⟩

theorem fValue_nonpos {x : F64} (h : fSign x = true) : fValue x ≤ 0 := by
  rw [fValue_eq, if_pos h]
  omega

/-- `r` is the exact sum `n`, in units of 2^−1074, rounded to nearest with ties to even: a finite value or the infinity of
its sign, and an exact zero is −0 where `negZero` holds. -/
structure IsRoundedSum (r : F64) (n : Int) (negZero : Prop) : Prop where
  finite_iff : fFinite r = true ↔ |n| < 2 ^ 2098 - 2 ^ 2044
  infinite : fFinite r = false → r = if n < 0 then 0xFFF0000000000000 else 0x7FF0000000000000
  negative_zero : n = 0 → negZero → r = 0x8000000000000000
  positive_zero : n = 0 → ¬negZero → r = 0
  sign : n ≠ 0 → (fSign r = true ↔ n < 0)
  nearest : fFinite r = true → ∀ z : F64,
    |fValue r - n| ≤ |fValue z - n| ∧ (|fValue r - n| = |fValue z - n| → fValue z ≠ fValue r → fFrac r % 2 = 0)

/-- An overflow is not a rounding of 0. -/
theorem IsRoundingOf.ne_zero {x : F64} {n : Int} (h : IsRoundingOf x n 1) (hinf : fFinite x = false) : n ≠ 0 := by
  rintro rfl
  have hpos : (0 : Int) < overflowPoint := by rw [overflowPoint]; positivity
  rw [overflowPoint_cast] at hpos
  rw [h.finite_iff.2 (by simpa using hpos)] at hinf
  cases hinf

theorem fAdd_eq_roundSum_exact {x y : F64} (hx : fFinite x = true) (hy : fFinite y = true) :
    ∃ e n, fAdd x y = roundSum (fSign x && fSign y) e n ∧ n * 2 ^ e = fValue x + fValue y := by
  obtain ⟨e, hex, hey, heq⟩ := fAdd_eq_roundSum hx hy
  exact ⟨e, _, heq, by rw [Int.add_mul, fScaled_mul hex, fScaled_mul hey]⟩

theorem fAdd_isRoundingOf {x y : F64} (hx : fFinite x = true) (hy : fFinite y = true) :
    IsRoundingOf (fAdd x y) (fValue x + fValue y) 1 := by
  obtain ⟨e, n, heq, hexact⟩ := fAdd_eq_roundSum_exact hx hy
  rw [heq, ← hexact]
  exact roundSum_isRoundingOf _ e n

theorem fSign_fAdd {x y : F64} (hx : fFinite x = true) (hy : fFinite y = true) (h : fValue x + fValue y ≠ 0) :
    fSign (fAdd x y) = true ↔ fValue x + fValue y < 0 := by
  obtain ⟨e, n, heq, hexact⟩ := fAdd_eq_roundSum_exact hx hy
  have hpos : (0 : Int) < 2 ^ e := by positivity
  rw [← hexact] at h ⊢
  rw [heq, fSign_roundSum (left_ne_zero_of_mul h)]
  exact ⟨fun hn => mul_neg_of_neg_of_pos hn hpos, fun hn => neg_of_mul_neg_left hn hpos.le⟩

theorem fAdd_of_exact_zero {x y : F64} (hx : fFinite x = true) (hy : fFinite y = true) (h : fValue x + fValue y = 0) :
    fAdd x y = fPack (fSign x && fSign y) 0 := by
  obtain ⟨e, n, heq, hexact⟩ := fAdd_eq_roundSum_exact hx hy
  have hpos : (0 : Int) < 2 ^ e := by positivity
  obtain rfl : n = 0 := (mul_eq_zero.1 (hexact.trans h)).resolve_right hpos.ne'
  exact heq

theorem fAdd_isRoundedSum {x y : F64} (hx : fFinite x = true) (hy : fFinite y = true) :
    IsRoundedSum (fAdd x y) (fValue x + fValue y) (x = 0x8000000000000000 ∧ y = 0x8000000000000000) := by
  have hsign := fSign_fAdd hx hy
  have hzero := fAdd_of_exact_zero hx hy
  obtain ⟨hfin, hinf, hnear⟩ := fAdd_isRoundingOf hx hy
  simp only [mul_one, abs_one] at hfin hnear
  refine ⟨hfin, fun h => ?_, fun h hneg => ?_, fun h hneg => ?_, hsign, hnear⟩
  · have hiff := hsign ((fAdd_isRoundingOf hx hy).ne_zero h)
    rw [hinf h]
    split
    · rw [hiff.2 ‹_›]; rfl
    · rw [Bool.eq_false_iff.2 (mt hiff.1 ‹_›)]; rfl
  · obtain ⟨rfl, rfl⟩ := hneg
    rfl
  · have hplus : (fSign x && fSign y) = false := by
      rw [Bool.eq_false_iff, Ne, Bool.and_eq_true]
      rintro ⟨hsx, hsy⟩
      have hx0 := fValue_nonpos hsx
      have hy0 := fValue_nonpos hsy
      exact hneg ⟨eq_negZero_of_fValue_eq_zero hsx (by omega), eq_negZero_of_fValue_eq_zero hsy (by omega)⟩
    rw [hzero h, hplus]
    rfl

theorem fNeg_eq_negZero_iff (y : F64) : fNeg y = 0x8000000000000000 ↔ y = 0 := by
  rw [show (0x8000000000000000 : F64) = fNeg 0 from rfl]
  exact BitVec.xor_left_inj _

/-- A difference is the sum with the negated operand, and −0 is the negation of +0. -/
theorem fSub_isRoundedSum {x y : F64} (hx : fFinite x = true) (hy : fFinite y = true) :
    IsRoundedSum (fSub x y) (fValue x - fValue y) (x = 0x8000000000000000 ∧ y = 0) := by
  have hsum := fAdd_isRoundedSum hx ((fFinite_fNeg y).trans hy)
  rwa [fValue_fNeg, ← sub_eq_add_neg, fNeg_eq_negZero_iff] at hsum

/-- Settles O43: both operations round the exact value once (`fAdd_isRoundedSum`, `fSub_isRoundedSum`). -/
theorem additionIsCorrectlyRounded : Obligations.AdditionIsCorrectlyRounded := by
  refine ⟨fun x y hx hy => ?_, fun x y z hx hy _ => ?_⟩
  · have hadd := fAdd_isRoundedSum hx hy
    have hsub := fSub_isRoundedSum hx hy
    refine ⟨hadd.finite_iff, hsub.finite_iff, hadd.infinite, hsub.infinite, fun h => ?_, fun h => ?_, hadd.sign,
      hsub.sign⟩
    · split
      · exact hadd.negative_zero h ‹_›
      · exact hadd.positive_zero h ‹_›
    · split
      · exact hsub.negative_zero h ‹_›
      · exact hsub.positive_zero h ‹_›
  · exact ⟨fun h => (fAdd_isRoundedSum hx hy).nearest h z, fun h => (fSub_isRoundedSum hx hy).nearest h z⟩

/-! ### Products -/

theorem fPack_zero (p q : Bool) : fPack (p != q) 0 = if p = q then 0 else 0x8000000000000000 := by
  cases p <;> cases q <;> rfl

theorem fIsInf_of_finite {x : F64} (h : fFinite x = true) : fIsInf x = false := by
  rw [fFinite, bne_iff_ne] at h
  simp [fIsInf, h]

theorem fIsInf_fPack (neg : Bool) : fIsInf (fPack neg infMag) = true := by cases neg <;> rfl

/-- The rounded product that `fMul` packs. -/
def fProduct (x y : F64) : Nat := roundMag (fSig x * fSig y) 1 (fPow x + fPow y + 1948)

theorem fMul_eq_fPack {x y : F64} (hx : fFinite x = true) (hy : fFinite y = true) :
    fMul x y = fPack (fSign x != fSign y) (fProduct x y) := by
  rw [fMul, hx, hy, Bool.and_self, if_pos rfl, fProduct]

/-- The product's magnitudes, scaled as `fMul` scales them. -/
theorem fProduct_scale (x y : F64) : fSig x * fSig y * 2 ^ (fPow x + fPow y + 1948) * 2 ^ 1074 =
    fMagnitude x * fMagnitude y * (1 * 2 ^ 3022) := by
  have hpow : 2 ^ (fPow x + fPow y + 1948) * 2 ^ 1074 = 2 ^ fPow x * 2 ^ fPow y * 2 ^ 3022 := by
    rw [← Nat.pow_add, ← Nat.pow_add, ← Nat.pow_add]
  rw [fMagnitude, fMagnitude, Nat.shiftLeft_eq, Nat.shiftLeft_eq]
  generalize 2 ^ (fPow x + fPow y + 1948) = a, 2 ^ 1074 = b, 2 ^ fPow x = c, 2 ^ fPow y = d, 2 ^ 3022 = e at *
  linear_combination fSig x * fSig y * hpow

theorem fValue_mul (x y : F64) : fValue x * fValue y = if fSign x != fSign y then
    -((fMagnitude x * fMagnitude y : Nat) : Int) else (fMagnitude x * fMagnitude y : Nat) := by
  rw [fValue_eq, fValue_eq]
  cases fSign x <;> cases fSign y <;> simp

theorem fMul_isRoundingOf {x y : F64} (hx : fFinite x = true) (hy : fFinite y = true) :
    IsRoundingOf (fMul x y) (fValue x * fValue y) (2 ^ 1074) := by
  have hround := fPack_isRoundingOf (fSign x != fSign y) Nat.one_pos (by omega) (Nat.two_pow_pos 1074) (fProduct_scale x y)
  rwa [Nat.cast_pow, ← fValue_mul, ← fProduct, ← fMul_eq_fPack hx hy] at hround

theorem fSign_fMul {x y : F64} (hx : fFinite x = true) (hy : fFinite y = true) :
    fSign (fMul x y) = (fSign x != fSign y) := by
  rw [fMul_eq_fPack hx hy, fProduct, fSign_fPack _ ((roundMag_le_infMag _ _ _ Nat.one_pos).trans_lt infMag_lt)]

theorem fMul_of_zero {x y : F64} (hx : fFinite x = true) (hy : fFinite y = true) (h : fValue x * fValue y = 0) :
    fMul x y = if fSign x = fSign y then 0 else 0x8000000000000000 := by
  have hsig : fSig x * fSig y = 0 := by
    rw [mul_eq_zero, fSig_eq_zero_iff, fSig_eq_zero_iff]
    exact mul_eq_zero.1 h
  rw [fMul_eq_fPack hx hy, fProduct, hsig, roundMag_of_div_eq_zero _ (Nat.zero_div 1), fPack_zero]

/-- Settles O44: a product rounds the exact one once (`fMul_isRoundingOf`), with the sign of both operands. -/
theorem multiplicationIsCorrectlyRounded : Obligations.MultiplicationIsCorrectlyRounded := by
  refine ⟨fun x y hx hy => ?_, fun x y z hx hy _ hfin => (fMul_isRoundingOf hx hy).nearest hfin z⟩
  obtain ⟨hfin, hinf, -⟩ := fMul_isRoundingOf hx hy
  rw [abs_of_pos (show (0 : Int) < 2 ^ 1074 by positivity)] at hfin
  refine ⟨hfin, fun h => ?_, ?_, fMul_of_zero hx hy⟩
  · rw [hinf h]; exact fIsInf_fPack _
  · rw [fSign_fMul hx hy, bne_iff_ne]

/-! ### Quotients -/

theorem fDiv_isRoundingOf {x y : F64} (hx : fFinite x = true) (hy : fFinite y = true) (h0 : fValue y ≠ 0) :
    IsRoundingOf (fDiv x y) (fValue x * 2 ^ 1074) (fValue y) := by
  have hsig : fSig y ≠ 0 := mt (fSig_eq_zero_iff y).1 h0
  have hround := fPack_isRoundingOf (fSign x != fSign y) (Nat.pos_of_ne_zero hsig) (fLit_divisible (fSig_lt y))
    (Nat.pos_of_ne_zero (mt (fValue_eq_zero_iff y).2 h0)) (fQuotient_scale x y)
  have hnum : fValue x * 2 ^ 1074 =
      if fSign x then -((fMagnitude x * 2 ^ 1074 : Nat) : Int) else (fMagnitude x * 2 ^ 1074 : Nat) := by
    rw [fValue_eq, ite_mul, Nat.cast_mul, Nat.cast_pow, Nat.cast_ofNat, Int.neg_mul]
  rw [← fQuotient, ← fDiv_eq_fPack hx hy hsig] at hround
  rw [hnum, fValue_eq y]
  generalize fMagnitude x * 2 ^ 1074 = a, fSign x = p, fSign y = q at *
  cases q with
  | false => simpa using hround
  | true => cases p <;> simpa using hround.neg

theorem fSign_fDiv {x y : F64} (hx : fFinite x = true) (hy : fFinite y = true) (h0 : fValue y ≠ 0) :
    fSign (fDiv x y) = (fSign x != fSign y) := by
  have hsig : fSig y ≠ 0 := mt (fSig_eq_zero_iff y).1 h0
  rw [fDiv_eq_fPack hx hy hsig, fQuotient,
    fSign_fPack _ ((roundMag_le_infMag _ _ _ (Nat.pos_of_ne_zero hsig)).trans_lt infMag_lt)]

theorem fDiv_of_zero {x y : F64} (hx : fFinite x = true) (hy : fFinite y = true) (h0 : fValue y ≠ 0) (h : fValue x = 0) :
    fDiv x y = if fSign x = fSign y then 0 else 0x8000000000000000 := by
  rw [fDiv_eq_fPack hx hy (mt (fSig_eq_zero_iff y).1 h0), fQuotient, (fSig_eq_zero_iff x).2 h, Nat.zero_shiftLeft,
    roundMag_of_div_eq_zero _ (Nat.zero_div _), fPack_zero]

/-- A finite value over a zero is an infinity, or a NaN where it is a zero itself. -/
theorem fDiv_by_zero {x y : F64} (hx : fFinite x = true) (hy : fFinite y = true) (h0 : fValue y = 0) :
    fDiv x y = if fSig x = 0 then fNaN else fPack (fSign x != fSign y) infMag := by
  have hsig := (fSig_eq_zero_iff y).2 h0
  simp [fDiv, fIsNaN_of_finite hx, fIsNaN_of_finite hy, fIsInf_of_finite hx, fIsInf_of_finite hy, hsig]

/-- Settles O45: a quotient rounds the exact one once (`fDiv_isRoundingOf`), with the sign of both operands, and a divisor of
0 is an arm of `fDiv` of its own (`fDiv_by_zero`). -/
theorem divisionIsCorrectlyRounded : Obligations.DivisionIsCorrectlyRounded := by
  refine ⟨fun x y hx hy => ⟨fun h0 => ?_, fun h0 hne => ?_, fun h0 hx0 => ?_⟩,
    fun x y z hx hy h0 _ hfin => (fDiv_isRoundingOf hx hy h0).nearest hfin z⟩
  · obtain ⟨hfin, hinf, -⟩ := fDiv_isRoundingOf hx hy h0
    rw [abs_mul, abs_of_pos (show (0 : Int) < 2 ^ 1074 by positivity)] at hfin
    refine ⟨hfin, fun h => ?_, ?_, fDiv_of_zero hx hy h0⟩
    · rw [hinf h]; exact fIsInf_fPack _
    · rw [fSign_fDiv hx hy h0, bne_iff_ne]
  · rw [fDiv_by_zero hx hy h0, if_neg (mt (fSig_eq_zero_iff x).1 hne)]
    exact ⟨fIsInf_fPack _, by rw [fSign_fPack _ infMag_lt, bne_iff_ne]⟩
  · rw [fDiv_by_zero hx hy h0, if_pos ((fSig_eq_zero_iff x).2 hx0)]
    rfl

end Sys2Proof.Machine
